-- ==== Sys2Proof/Word.lean ====
section
/-! DEFINITION. The word types of BMSC: the widths that 00_scope.md rules R16, R17 and the register
table of 10_state.md rule R22 name. -/

namespace Sys2Proof

/-- u8: one byte of the stream buffer (20_memory.md rule R60). -/
abbrev Byte := BitVec 8

/-- u16 (00_scope.md rule R16). -/
abbrev U16 := BitVec 16

/-- u32 (00_scope.md rule R16). -/
abbrev U32 := BitVec 32

/-- u64 (00_scope.md rule R16). -/
abbrev U64 := BitVec 64

/-- The content of a block, one bit for each of its 65536 positions (00_scope.md rules R10, R17):
bit `i` of the vector is `c(i)`, so word `w` of the block, `W(c)[w]`, is bits `32w+31 .. 32w`. The
array of 2048 u32 of a bit block and its content are the same 65536 bits. -/
abbrev Content := BitVec 65536

namespace Content

/-- ZERO, the content that is 0 everywhere (00_scope.md rule R17). -/
abbrev zero : Content := 0#65536

/-- ONES, the content that is 1 everywhere (00_scope.md rule R17). -/
abbrev ones : Content := BitVec.allOnes 65536

end Content

end Sys2Proof
end

