-- ==== Sys2Proof/Machine/Errors.lean ====
section
/-! DEFINITION. What a rule can raise (60_exceptions.md rules R520 to R524). -/

namespace Sys2Proof.Machine

/-- The causes of SerialFormat (rule R520). -/
inductive SerialCause where
  /-- Cause 1, an unknown or reserved tag (rule R521). -/
  | unknownTag
  /-- Cause 2, an address-width mismatch (rule R522). -/
  | addressWidth
  /-- Cause 3, a bad byte-order byte (rule R523). -/
  | byteOrder
  deriving DecidableEq, Repr

/-- The reasons of a Precondition fault (rule R524). They are labels: STATUS does not record them. -/
inductive PrecondReason where
  | buffer
  | config
  | range
  | malformed
  | protocol
  deriving DecidableEq, Repr

/-- An error that ends the running command (rule R520). -/
inductive Raise where
  | serialFormat (cause : SerialCause)
  | precondition (reason : PrecondReason)
  deriving DecidableEq, Repr

/-- STATUS.ERR (10_state.md rule R44); other values are never produced (U42). -/
inductive ErrKind where
  | none
  | serialFormat
  | precondition
  deriving DecidableEq, Repr

/-- The code of STATUS.ERR (rule R44). -/
def ErrKind.code : ErrKind → Nat
  | .none => 0
  | .serialFormat => 1
  | .precondition => 2

/-- The code of STATUS.CAUSE for a SerialFormat (rules R44, R520). -/
def SerialCause.code : SerialCause → BitVec 4
  | .unknownTag => 1
  | .addressWidth => 2
  | .byteOrder => 3

/-- The value of STATUS.ERR an error gives (rule R528). -/
def Raise.kind : Raise → ErrKind
  | .serialFormat _ => .serialFormat
  | .precondition _ => .precondition

end Sys2Proof.Machine
end

