-- ==== Sys2Proof/Config.lean ====
section
/-! DEFINITION. What an implementation fixes (00_scope.md rules R9 to R14) and the free values: the
points the spec leaves open, as constants without a body. -/

namespace Sys2Proof

/-- The two address widths AW of rule R9. -/
inductive AddrWidth where
  | w32
  | w48
  deriving DecidableEq, Repr

/-- AW as a number of bits (rule R9). -/
def AddrWidth.bits : AddrWidth → Nat
  | .w32 => 32
  | .w48 => 48

/-- The build-time parameters of one BMSC (rules R9, R13, R14). They are data of the state that no
step writes, so that every statement is made for every instantiation (rule R21: "parameters of every
step"). -/
structure Params where
  /-- AW (rule R9). -/
  aw : AddrWidth
  /-- GAP_LEVELS[0] (rule R13). -/
  gapLevel0 : Nat
  /-- GAP_LEVELS[1] (rule R13). -/
  gapLevel1 : Nat
  /-- GAP_LEVELS[2] (rule R13). -/
  gapLevel2 : Nat
  /-- GAP_LEVELS[3], which is GAP_MAX_LEN (rule R13). -/
  gapLevel3 : Nat
  /-- GAP_EQUIV_LEN (rule R13). -/
  gapEquivLen : Nat
  /-- BIE_CUT_OFF (rule R13). -/
  bieCutOff : Nat
  /-- GAMMA_BITS_PER_INT (rule R14). -/
  gammaBitsPerInt : Nat
  /-- GAMMA_GAP_BASE (rule R14). -/
  gammaGapBase : Nat
  /-- GAMMA_ARR_BASE (rule R14). -/
  gammaArrBase : Nat
  deriving DecidableEq, Repr

namespace Params

/-- The defaults of rules R13 and R14, at AW = 32.
DESIGN CHOICE (assumption 1), unsafe only for a statement about this one instance: rule R9 leaves
AW to the build. -/
def default : Params where
  aw := .w32
  gapLevel0 := 128
  gapLevel1 := 256
  gapLevel2 := 512
  gapLevel3 := 1280
  gapEquivLen := 4096
  bieCutOff := 16384
  gammaBitsPerInt := 6
  gammaGapBase := 32
  gammaArrBase := 48

/-- GAP_LEVELS by index (rule R13). -/
def gapLevel (p : Params) : Fin 4 → Nat
  | 0 => p.gapLevel0
  | 1 => p.gapLevel1
  | 2 => p.gapLevel2
  | 3 => p.gapLevel3

/-- GAP_MAX_LEN = GAP_LEVELS[3] (rule R13). -/
def gapMaxLen (p : Params) : Nat := p.gapLevel3

/-- TOTAL_BLOCKS = 2^(AW-16) (rule R11). -/
def totalBlocks (p : Params) : Nat := 2 ^ (p.aw.bits - 16)

/-- SIZE_DEFAULT = 2^AW - 1 (rule R11). -/
def sizeDefault (p : Params) : Nat := 2 ^ p.aw.bits - 1

/-- The constraints rule R13 puts on every instantiation. -/
abbrev Valid (p : Params) : Prop :=
  p.gapLevel0 < p.gapLevel1 ∧ p.gapLevel1 < p.gapLevel2 ∧ p.gapLevel2 < p.gapLevel3 ∧
    4 ≤ p.gapMaxLen ∧ p.gapMaxLen ≤ 8192 ∧
    2 ≤ p.gapEquivLen ∧ p.gapEquivLen < p.bieCutOff ∧ p.bieCutOff ≤ 65535

end Params

/-- What the container may choose when a rule leaves the form of a slot open (20_memory.md rules
R71, R74): one of the four forms, and a level for the GAP form. -/
inductive SlotForm where
  | empty
  | full
  | bit
  | gap (level : Fin 4)
  deriving DecidableEq, Repr, Inhabited

/-! The free values. Each is a constant with no body: nothing in Lean can evaluate it, and whatever
is proved about the machine holds whatever they are. Each takes the number of a draw (the counter
`draws` of State), so that two draws are independent. -/

/-- The form the container drew for block `nb` in draw `d` (rules R74, U10; assumption 5). -/
opaque Config.slotForm (d nb : Nat) : SlotForm

/-- The content of block `nb` where an error or a reset in mid-command left it open, draw `d`
(60_exceptions.md rule R530, 70_reset_and_hazards.md rule R562, U15, U19; assumption 6). -/
opaque Config.freeContent (d nb : Nat) : Content

/-- The byte at offset `a` of a stream buffer whose contents an error or a reset in mid-command
left open, draw `d` (rules R530, R562, U16, U19; assumption 7). -/
opaque Config.freeByte (d a : Nat) : Byte

/-- A number that stands for `BS.size` where a reset that interrupted a DESERIALIZE left it open, draw `d`
(70_reset_and_hazards.md rule R562, U19; assumption 31). -/
opaque Config.freeSize (d : Nat) : Nat

/-- A result register where the spec leaves it unspecified, draw `d` (10_state.md rules R45, R46,
U13; assumption 8). -/
opaque Config.freeResult (d : Nat) : U64

/-- STATUS.CAUSE for ERR = 2, draw `d` (10_state.md rule R44, U12; assumption 9). -/
opaque Config.freeCause (d : Nat) : BitVec 4

/-- TEMP_BLOCK after a command, draw `d` (10_state.md rule R49, U18; assumption 25). -/
opaque Config.freeTemp (d : Nat) : Content

/-- The elements of IDX_ARR after a command, draw `d` (10_state.md rule R49, U18; assumption 25). -/
opaque Config.freeIndices (d : Nat) : List U16

/-- HDR_BO after a header without a byte-order byte, draw `d` (10_state.md rule R22, U21; assumption
30). -/
opaque Config.freeHdrBo (d : Nat) : Byte

/-- HDR_GAPL[k] after a header without `gap_levels`, draw `d` (10_state.md rule R22, U21; assumption
30). -/
opaque Config.freeHdrGapl (d k : Nat) : U16

/-- HDR_SIZE after a header without a size field, draw `d` (10_state.md rule R22, U21; assumption
30). -/
opaque Config.freeHdrSize (d : Nat) : U64

end Sys2Proof
end

