-- ==== Sys2Proof/Machine/Memory.lean ====
section
/-! DEFINITION. The stream buffer BUF as a byte memory (20_memory.md rules R60 to R63): a list of
(offset, byte) pairs in one canonical form. BUF_SIZE, which bounds every access, is a register
(10_state.md rule R31) and is checked where an access is made (Machine/Stream.lean). -/

namespace Sys2Proof.Machine

/-- The stream buffer. Offsets below `openTo` that are not listed hold a value the spec leaves open,
draw `openId` (60_exceptions.md rule R530, 70_reset_and_hazards.md rule R562; assumption 7); at reset
there is no such region. -/
structure Memory where
  cells : List Host.Cell
  openTo : Nat
  openId : Nat
  deriving DecidableEq, Repr

namespace Memory

/-- Nothing listed, nothing open. -/
def blank : Memory := { cells := [], openTo := 0, openId := 0 }

/-- What an unlisted offset reads as: a free byte in the open region, else 0.
DESIGN CHOICE (assumption 3), unsafe: the spec gives BUF no contents at reset (rule R53). -/
def unlisted (m : Memory) (a : Nat) : Byte :=
  if a < m.openTo then Config.freeByte m.openId a else 0

/-- The listed byte at an offset of a list in rising order. -/
def find (a : Nat) : List Host.Cell → Option Byte
  | [] => none
  | (k, b) :: cs => if a < k then none else if a = k then some b else find a cs

/-- `BUF[a]` (rule R60). A read has no side effect (rule R79). -/
def read (m : Memory) (a : Nat) : Byte := (find a m.cells).getD (m.unlisted a)

/-- Remove the entry of an offset, if it has one. -/
def erase (a : Nat) : List Host.Cell → List Host.Cell
  | [] => []
  | (k, b) :: cs => if a < k then (k, b) :: cs else if a = k then cs else (k, b) :: erase a cs

/-- List a byte at an offset. -/
def insert (a : Nat) (v : Byte) : List Host.Cell → List Host.Cell
  | [] => [(a, v)]
  | (k, b) :: cs =>
    if a < k then (a, v) :: (k, b) :: cs
    else if a = k then (a, v) :: cs
    else (k, b) :: insert a v cs

/-- `BUF[a] <- v` (rule R63), keeping the canonical form. -/
def write (m : Memory) (a : Nat) (v : Byte) : Memory :=
  if m.openTo ≤ a ∧ v = 0 then { m with cells := erase a m.cells }
  else { m with cells := insert a v m.cells }

/-- Bytes at consecutive offsets, lowest first. -/
def writeList (m : Memory) (a : Nat) : List Byte → Memory
  | [] => m
  | b :: bs => (m.write a b).writeList (a + 1) bs

/-- The bytes `[BUF[a], .., BUF[a+n-1]]`. -/
def readList (m : Memory) (a : Nat) : Nat → List Byte
  | 0 => []
  | n + 1 => m.read a :: m.readList (a + 1) n

/-- Every offset below `hi` holds a value the spec leaves open, draw `d` (rules R530, R562, U16,
U19). The unlisted offsets of an open region that reached further are drawn again with it; a listed
byte from `hi` on keeps its value. -/
def openBelow (m : Memory) (hi d : Nat) : Memory :=
  { cells := m.cells.filter (fun c => decide (hi ≤ c.1)), openTo := max m.openTo hi, openId := d }

/-- The offsets of a list rise strictly from `lo` on. -/
def sortedFrom (lo : Nat) : List Host.Cell → Bool
  | [] => true
  | (k, _) :: cs => decide (lo ≤ k) && sortedFrom (k + 1) cs

/-- The canonical form: offsets strictly rising, and outside the open region no entry equal to what an
unlisted offset reads as. (In the open region an unlisted byte is open, so no entry is equal to it
by anything the model knows.) -/
def wf (m : Memory) : Bool :=
  sortedFrom 0 m.cells && m.cells.all (fun c => decide (c.1 < m.openTo) || decide (c.2 ≠ 0))

end Memory

end Sys2Proof.Machine
end

