-- ==== Sys2Proof/Machine/Stream.lean ====
section
/-! DEFINITION. The byte codec C1 (20_memory.md rules R62 to R69): the primitives that move bytes
between the stream buffer and the datapath, over the registers they read and write. A primitive that
faults leaves its registers as they were and raises (rule R66). -/

namespace Sys2Proof.Machine

/-- The stream side of the datapath: the stream buffer and the registers of C1 and C2 (10_state.md
rules R22, R26). -/
structure Stream where
  /-- The stream buffer (20_memory.md rule R60). -/
  buf : Memory
  /-- BUF_SIZE, host register 5 (10_state.md rule R31). -/
  bufSize : U64
  /-- SBO: the stream is little-endian (10_state.md rule R22). -/
  sbo : Bool
  /-- POS, the program counter (10_state.md rule R24). -/
  pos : Nat
  /-- WACC, the bit-writer accumulator. -/
  wacc : U32
  /-- WUSED, the number of valid low bits of WACC. -/
  wused : Nat
  /-- RACC, the bit-reader accumulator, next bit at bit 0. -/
  racc : U32
  /-- RAVAIL, the number of unread bits of RACC. -/
  ravail : Nat
  deriving DecidableEq, Repr

/-- A computation of the codec: it ends with a value or raises, and leaves the registers as they are at
that point (60_exceptions.md rule R528). -/
abbrev Codec := EStateM Raise Stream

/-- `fault PRECOND(reason)` in the codec (00_scope.md rule R18). -/
def faultPre {α : Type} (r : PrecondReason) : Codec α := throw (.precondition r)

/-- `MemRead(addr, n)` (rule R62). -/
def memRead (addr n : Nat) : Codec (List Byte) := do
  let s ← get
  if s.bufSize.toNat < addr + n then faultPre .buffer
  return s.buf.readList addr n

/-- `MemWrite(addr, n, bytes)` (rule R63). -/
def memWrite (addr : Nat) (bytes : List Byte) : Codec Unit := do
  let s ← get
  if s.bufSize.toNat < addr + bytes.length then faultPre .buffer
  set { s with buf := s.buf.writeList addr bytes }

/-- The number whose bytes, least significant first, are given (rules R64, R65). -/
def leValue : List Byte → Nat
  | [] => 0
  | b :: bs => b.toNat + 256 * leValue bs

/-- The number a multi-byte read returns, by SBO (rule R65). -/
def bytesValue (sbo : Bool) (bs : List Byte) : Nat :=
  if sbo then leValue bs else leValue bs.reverse

/-- The low `n` bytes of a number, least significant first (rule R64). -/
def leBytes : Nat → Nat → List Byte
  | 0, _ => []
  | n + 1, v => BitVec.ofNat 8 v :: leBytes n (v / 256)

/-! ### Read primitives (rule R65) -/

/-- Read `n` bytes at POS as a number and advance POS. -/
def getUint (n : Nat) : Codec Nat := do
  let s ← get
  let bs ← memRead s.pos n
  modify fun t => { t with pos := t.pos + n }
  return bytesValue s.sbo bs

/-- `get_u8` (rule R65). -/
def getU8 : Codec Byte := do return BitVec.ofNat 8 (← getUint 1)

/-- `get_u16` (rule R65). -/
def getU16 : Codec U16 := do return BitVec.ofNat 16 (← getUint 2)

/-- `get_u32` (rule R65). -/
def getU32 : Codec U32 := do return BitVec.ofNat 32 (← getUint 4)

/-- `get_u64` (rule R65). -/
def getU64 : Codec U64 := do return BitVec.ofNat 64 (← getUint 8)

/-- `get_u16_array(dst, n)` (rule R65), as the list of the values read. -/
def getU16Array : Nat → Codec (List U16)
  | 0 => return []
  | n + 1 => do
    let v ← getU16
    let vs ← getU16Array n
    return v :: vs

/-- `get_u32_array(dst, n)` (rule R65), as the list of the values read. -/
def getU32Array : Nat → Codec (List U32)
  | 0 => return []
  | n + 1 => do
    let v ← getU32
    let vs ← getU32Array n
    return v :: vs

/-- `seek(n)` (rule R65). -/
def seek (n : Nat) : Codec Unit := do
  let s ← get
  if s.bufSize.toNat < s.pos + n then faultPre .buffer
  set { s with pos := s.pos + n }

/-! ### Write primitives (rule R64) -/

/-- Write bytes at POS and advance POS. -/
def putBytes (bs : List Byte) : Codec Unit := do
  let s ← get
  memWrite s.pos bs
  modify fun t => { t with pos := t.pos + bs.length }

/-- `put_u8` (rule R64). -/
def putU8 (v : Byte) : Codec Unit := putBytes [v]

/-- `put_u16` (rule R64). -/
def putU16 (v : U16) : Codec Unit := putBytes (leBytes 2 v.toNat)

/-- `put_u32` (rule R64). -/
def putU32 (v : U32) : Codec Unit := putBytes (leBytes 4 v.toNat)

/-- `put_u64` (rule R64). -/
def putU64 (v : U64) : Codec Unit := putBytes (leBytes 8 v.toNat)

/-- `put_u16_array` (rule R64). -/
def putU16Array : List U16 → Codec Unit
  | [] => return ()
  | v :: vs => do
    putU16 v
    putU16Array vs

/-- `put_u32_array` (rule R64). -/
def putU32Array : List U32 → Codec Unit
  | [] => return ()
  | v :: vs => do
    putU32 v
    putU32Array vs

/-- `put_prefixed_u32_array(tag, words, count)` (rule R64). -/
def putPrefixedU32Array (tag : Byte) (words : List U32) : Codec Unit := do
  putU8 tag
  putU32Array words

/-- `put_prefixed_u16_array(tag, shorts, count, emit_count_prefix)` (rule R64). A count that no u16
holds is `fault PRECOND(range)`; no rule makes such a call. -/
def putPrefixedU16Array (tag : Byte) (shorts : List U16) (emitCount : Bool) : Codec Unit := do
  putU8 tag
  if emitCount then
    if 65536 ≤ shorts.length then faultPre .range
    putU16 (BitVec.ofNat 16 shorts.length)
  putU16Array shorts

/-- `memcpy(src, n)` (rule R64). -/
def memcpy : List Byte → Codec Unit
  | [] => return ()
  | b :: bs => do
    putU8 b
    memcpy bs

/-- `get_pos()`, and `size()` (rule R64). -/
def getPos : Codec Nat := do return (← get).pos

/-- `set_pos(p)` (rule R64). It does not change BUF. -/
def setPos (p : Nat) : Codec Unit := modify fun t => { t with pos := p }

end Sys2Proof.Machine
end

