-- ==== Sys2Proof/Machine/BitCodec.lean ====
section
/-! DEFINITION. The bit-level writer and reader C2 (40_bitcodec.md rules R170 to R188), over the
accumulators WACC, WUSED, RACC, RAVAIL. -/

namespace Sys2Proof.Machine

/-! ### The centre-minimal code (rules R175, R186; 30_encoding.md rule R146) -/

/-- `lo1 = half_r - half_c - (n & 1)`, an integer (rule R146). -/
def centerLo (r : Nat) : Int :=
  let n := r + 1
  let c := 2 ^ (Nat.log2 n + 1) - n
  (r / 2 : Nat) - (c / 2 : Nat) - (n % 2 : Nat)

/-- `hi1 = half_r + half_c` (rule R146). -/
def centerHi (r : Nat) : Nat :=
  let n := r + 1
  let c := 2 ^ (Nat.log2 n + 1) - n
  r / 2 + c / 2

/-- The code of `x` in `0..r` is a long one (rule R146). -/
def centerLong (r x : Nat) : Bool := decide ((x : Int) ≤ centerLo r) || decide (centerHi r < x)

/-! ### Writer -/

/-- `word_out` (rule R173). -/
def wordOut : Codec Unit := do
  putU32 (← get).wacc
  modify fun t => { t with wacc := 0, wused := 0 }

/-- `put_bit` (rule R171). -/
def putBit (b : Bool) : Codec Unit := do
  modify fun t =>
    { t with wacc := t.wacc ||| ((if b then 1 else 0) <<< t.wused), wused := t.wused + 1 }
  if (← get).wused = 32 then wordOut

/-- The `n` low bits of a value, least significant first. -/
def putLowBits (v : Nat) : Nat → Codec Unit
  | 0 => return ()
  | n + 1 => do
    putBit (v % 2 = 1)
    putLowBits (v / 2) n

/-- `put_bits(value, n)` (rule R172), with the fault of its domain. -/
def putBits (v n : Nat) : Codec Unit := do
  if 32 < n ∨ 2 ^ n ≤ v then faultPre .range
  putLowBits v n

/-- `n` stream bits 0. -/
def putZeros : Nat → Codec Unit
  | 0 => return ()
  | n + 1 => do
    putBit false
    putZeros n

/-- `gamma(v)` (rule R174). -/
def putGamma (v : Nat) : Codec Unit := do
  if v = 0 then faultPre .range
  putZeros (Nat.log2 v)
  putBit true
  putBits (v - 2 ^ Nat.log2 v) (Nat.log2 v)

/-- `flush()` (rule R176). -/
def flush : Codec Unit := do
  if 0 < (← get).wused then wordOut

/-- `bic_encode_u16(arr, sz, lo, hi)` (rule R175). The upper bound is given as `hi + 1`, so that the
bound `v - 1` of a left half is a natural number; `fuel` bounds the depth, which a list of `fuel`
elements never exceeds. -/
def bicEncodeFuel : Nat → List Nat → Nat → Nat → Codec Unit
  | 0, _, _, _ => return ()
  | fuel + 1, arr, lo, hiX => do
    let sz := arr.length
    if sz = 0 then return ()
    let mid := sz / 2
    let v := arr.getD mid 0
    if hiX < lo + sz ∨ v < lo ∨ hiX ≤ v then faultPre .range
    let r := hiX - lo - sz
    if 0 < r then
      let x := v - lo - mid
      let logv := Nat.log2 (r + 1)
      putBits x (if centerLong r x then logv + 1 else logv)
    bicEncodeFuel fuel (arr.take mid) lo v
    bicEncodeFuel fuel (arr.drop (mid + 1)) (v + 1) hiX

/-- `bic_encode_u16(arr, sz, lo, hi)` with the assertion `sz <= 65535` (rule R175). -/
def bicEncode (arr : List Nat) (lo hi : Nat) : Codec Unit := do
  if 65535 < arr.length then faultPre .range
  bicEncodeFuel arr.length arr lo (hi + 1)

/-! ### Reader -/

/-- `get_bit()` (rule R178): a word is loaded only when a bit is needed and none is left. -/
def getBit : Codec Bool := do
  if (← get).ravail = 0 then
    let w ← getU32
    modify fun t => { t with racc := w, ravail := 32 }
  let s ← get
  set { s with racc := s.racc >>> 1, ravail := s.ravail - 1 }
  return s.racc.getLsbD 0

/-- `get_bits(n)` (rule R179). -/
def getBits : Nat → Codec Nat
  | 0 => return 0
  | n + 1 => do
    let b ← getBit
    let v ← getBits n
    return (if b then 1 else 0) + 2 * v

/-- `end_bits()` (rule R180). -/
def endBits : Codec Unit := modify fun t => { t with racc := 0, ravail := 0 }

/-- The zeros before the first 1, at most 31 of them, counted from `l` on; none for a longer run of
zeros (rule R181). -/
def gammaZeros : Nat → Nat → Codec (Option Nat)
  | 0, _ => return none
  | fuel + 1, l => do
    if (← getBit) then return some l
    gammaZeros fuel (l + 1)

/-- `gamma_dec()` (rule R181). The value 0, which no gamma code has, is the answer where the rule says
`fault PRECOND(malformed)`: the decoder hands it to the token, whose meaning raises that fault. -/
def gammaDec : Codec U32 := do
  match ← gammaZeros 32 0 with
  | none => return 0
  | some l => return BitVec.ofNat 32 (2 ^ l + (← getBits l))

/-- `center_dec(r)` (rule R186). Its last check can never fire, as the rule says. -/
def centerDec (r : Nat) : Codec Nat := do
  let logv := Nat.log2 (r + 1)
  let t ← getBits logv
  let x ← if centerLong r t then (do return t + (if (← getBit) then 2 ^ logv else 0)) else pure t
  if r < x then faultPre .malformed
  return x

/-- `bic_decode_u16(out, sz, lo, hi)` (rule R182) as the list of values in increasing order. The upper
bound is given as `hi + 1`, as in `bicEncodeFuel`. -/
def bicDecodeFuel : Nat → Nat → Nat → Nat → Codec (List U16)
  | 0, _, _, _ => return []
  | fuel + 1, sz, lo, hiX => do
    if sz = 0 then return []
    let mid := sz / 2
    if hiX < lo + sz then faultPre .malformed
    let r := hiX - lo - sz
    let x ← if 0 < r then centerDec r else pure 0
    let v := lo + mid + x
    let left ← bicDecodeFuel fuel mid lo v
    let right ← bicDecodeFuel fuel (sz - mid - 1) (v + 1) hiX
    return left ++ BitVec.ofNat 16 v :: right

/-- `bic_decode_u16(out, sz, lo, hi)` (rule R182). Where the rule faults at once, because `sz` values
do not fit `[lo, hi]`, the answer is no value: the decoder hands the token an operand of the wrong
length, whose meaning raises that fault. -/
def bicDecode (sz lo hi : Nat) : Codec (List U16) :=
  if hi + 1 < lo + sz then return [] else bicDecodeFuel sz sz lo (hi + 1)

/-- `bic_decode_u16(out, sz, lo, hi)` with its own fault (rule R182): malformed, before any bit is read,
where `sz` values do not fit `[lo, hi]`. -/
def bicDecodeU16 (sz lo hi : Nat) : Codec (List U16) := bicDecodeFuel sz sz lo (hi + 1)

/-- The content whose only bit is at a position of the block. -/
def bitAt (i : Nat) : Content := if i < 65536 then BitVec.ofNat 65536 (2 ^ i) else 0

/-- The content that is 1 exactly at the listed positions. -/
def setOf (l : List Nat) : Content := l.foldl (fun c i => c ||| bitAt i) 0

/-- `bic_decode_u16_bitset(blk, sz, lo, hi)` (rule R183): the values of rule R182, and its fault. -/
def bicDecodeBitset (blk : Content) (sz lo hi : Nat) : Codec Content := do
  let vs ← bicDecodeU16 sz lo hi
  return blk ||| setOf (vs.map BitVec.toNat)

/-- `bic_decode_u16_dry(sz, lo, hi)` (rule R184): the bits of rule R182, and its fault. -/
def bicDecodeDry (sz lo hi : Nat) : Codec Unit := do
  let _ ← bicDecodeU16 sz lo hi
  return ()

end Sys2Proof.Machine
end

