-- ==== Sys2Proof/Syntax.lean ====
section
/-! DEFINITION. The instructions of BMSC: one constructor for each row of spec/opcode_table.json. A
token's operands are the fields of its payload (30_encoding.md rules R112 to R127) as the stream
carries them: what is computed from them (prefix sums, contents) belongs to the meaning. -/

namespace Sys2Proof

/-- The four u16 of a `gap_levels` field, and of the register HDR_GAPL (30_encoding.md rule R103,
10_state.md rule R22). -/
structure GapTable where
  l0 : U16
  l1 : U16
  l2 : U16
  l3 : U16
  deriving DecidableEq, Repr

/-- The header of a stream (30_encoding.md rules R101 to R105): the fields it carries. A reader
that stops at a failing check (rule R107) has read no later field. -/
structure Header where
  /-- Header byte 0 (rule R101). -/
  flags : Byte
  /-- The byte-order byte, when it was read (rule R102). -/
  byteOrder : Option Byte
  /-- The `gap_levels` field, when it was read (rule R103). -/
  gapLevels : Option GapTable
  /-- The `bv_size` field, when it was read; a u32 is zero-extended (rule R104). -/
  size : Option U64
  deriving DecidableEq, Repr

/-- The thirteen set operations (10_state.md rule R42). -/
inductive SetOp where
  | assign
  | or
  | and
  | xor
  | sub
  | count
  | countAnd
  | countOr
  | countXor
  | countSubAB
  | countSubBA
  | countA
  | countB
  deriving DecidableEq, Repr

/-- One constructor for each row of spec/opcode_table.json. -/
inductive Instr where
  /-- Tag 0, `end` (F0). -/
  | endOfStream
  /-- Tag 1, `1zero` (F0). -/
  | zero1
  /-- Tag 2, `1one` (F0). -/
  | one1
  /-- Tag 3, `8zero` (FR8). -/
  | zero8 (n : Byte)
  /-- Tag 4, `8one` (FR8). -/
  | one8 (n : Byte)
  /-- Tag 5, `16zero` (FR16). -/
  | zero16 (n : U16)
  /-- Tag 6, `16one` (FR16). -/
  | one16 (n : U16)
  /-- Tag 7, `32zero` (FR32). -/
  | zero32 (n : U32)
  /-- Tag 8, `32one` (FR32). -/
  | one32 (n : U32)
  /-- Tag 9, `azero` (F0). -/
  | azero
  /-- Tag 10, `aone` (F0). -/
  | aone
  /-- Tag 11, `bit` (FBIT): 2048 words, word 0 first. -/
  | bit (words : List U32)
  /-- Tag 12, `sgapbit`, reserved. -/
  | sgapbit
  /-- Tag 13, `sgapgap`, reserved. -/
  | sgapgap
  /-- Tag 14, `gap` (FGAP): the GAP header word, then E1 .. E(m-1). -/
  | gap (head : U16) (ends : List U16)
  /-- Tag 15, `gapbit`, reserved. -/
  | gapbit
  /-- Tag 16, `arrbit` (FARR): the indices; their number is the u16 count. -/
  | arrbit (idx : List U16)
  /-- Tag 17, `bit_interval` (FINT): first and last word index, then the words. -/
  | bitInterval (head tail : U16) (words : List U32)
  /-- Tag 18, `arrgap` (FARR). -/
  | arrgap (idx : List U16)
  /-- Tag 19, `bit_1bit` (F16). -/
  | bit1bit (pos : U16)
  /-- Tag 20, `gap_egamma` (FGAPG): the GAP header word, then the gamma-coded values
  `E1 + 1, E2 - E1, ..`. The value 0, which no gamma code has, stands for a broken code. -/
  | gapEgamma (head : U16) (gammas : List U32)
  /-- Tag 21, `arrgap_egamma` (FARRG): the gamma-coded count, then the gamma-coded values
  `idx[0] + 1, idx[1] - idx[0], ..`. The value 0 stands for a broken code. -/
  | arrgapEgamma (n : U32) (gammas : List U32)
  /-- Tag 22, `bit_0runs` (F0RUNS): the start byte, then the runs, each its length and, for a run of
  non-zero words, its words. -/
  | bit0runs (start : Byte) (runs : List (U16 × List U32))
  /-- Tag 23, `arrgap_egamma_inv` (FARRG). -/
  | arrgapEgammaInv (n : U32) (gammas : List U32)
  /-- Tag 24, `arrgap_inv` (FARR). -/
  | arrgapInv (idx : List U16)
  /-- Tag 25, `64zero` (FR64). -/
  | zero64 (n : U64)
  /-- Tag 26, `64one` (FR64). -/
  | one64 (n : U64)
  /-- Tag 27, `gap_bienc` (FGAPB): the GAP header word, `min` = E1, then the BIC-coded
  E2 .. E(m-1). -/
  | gapBienc (head min : U16) (ends : List U16)
  /-- Tag 28, `arrgap_bienc` (FARRB): `min`, `max`, the gamma-coded `n - 4`, then the BIC-coded
  interior indices. The gamma value 0 stands for a broken code. -/
  | arrgapBienc (min max : U16) (n4 : U32) (inner : List U16)
  /-- Tag 29, `arrgap_bienc_inv` (FARRB). -/
  | arrgapBiencInv (min max : U16) (n4 : U32) (inner : List U16)
  /-- Tag 30, `arrbit_inv` (FARR). -/
  | arrbitInv (idx : List U16)
  /-- Tag 31, `arr_bienc` (FARB): `min`, `max`, `sz` = n, then the BIC-coded interior indices. -/
  | arrBienc (min max sz : U16) (inner : List U16)
  /-- Tag 32, `arr_bienc_inv` (FARB). -/
  | arrBiencInv (min max sz : U16) (inner : List U16)
  /-- Tag 33, `bitgap_bienc` (FBGB): the start byte, `sz` = m, `min` = E1, then the BIC-coded
  E2 .. E(m-1). -/
  | bitgapBienc (start : Byte) (sz min : U16) (ends : List U16)
  /-- Tag 34, `bit_digest0` (FDIG): the digest, then 32 words for each set bit, in order. -/
  | bitDigest0 (digest : U64) (words : List U32)
  /-- Tag bytes 0x80 .. 0xFF, the high-bit shortcut (FSHORT): the low 7 bits. -/
  | zskip (n : BitVec 7)
  /-- Tag bytes 35 .. 127, unassigned. -/
  | unassigned (tag : Byte)
  /-- The stream header (HDR), parsed once before the first token. -/
  | streamHeader (h : Header)
  /-- CMD value 1. -/
  | serialize
  /-- CMD value 2. -/
  | serializeDestroy
  /-- CMD value 3. -/
  | deserialize
  /-- CMD value 4. -/
  | opDeserialize
  /-- CMD value 5. -/
  | rangeDeserialize
  deriving DecidableEq, Repr

end Sys2Proof
end

