-- ==== Sys2Proof/WellFormed.lean ====
section
/-! DEFINITION. Which instructions the formats of 30_encoding.md admit (rules R101 to R127, R152).
The decoder of a BMSC can deliver an ill-formed one (a malformed payload); its meaning then raises
the fault of 60_exceptions.md rule R524, row `malformed`. -/

namespace Sys2Proof

/-- Strictly increasing from a lower bound on: every element is at least `lo`, and each is above the
one before. -/
def risesFrom (lo : Nat) : List U16 → Bool
  | [] => true
  | x :: xs => decide (lo ≤ x.toNat) && risesFrom (x.toNat + 1) xs

/-- Strictly increasing (rule R118). -/
def rises (xs : List U16) : Bool := risesFrom 0 xs

/-- `m = head >> 3`, the number of endpoints counting the terminal one (rule R132). -/
def gapCount (head : U16) : Nat := head.toNat / 8

/-- The sum of a list of gamma values (rule R131: prefix sums of gamma deltas). -/
def gammaTotal (gs : List U32) : Nat := (gs.map BitVec.toNat).sum

/-- No broken code among gamma values. -/
def gammasOk (gs : List U32) : Bool := gs.all (fun g => decide (g.toNat ≠ 0))

/-- The runs of a `bit_0runs` token alternate, none is empty, they total `left` words, and exactly
the runs of non-zero words carry their words (rule R126). -/
def runsOk (nz : Bool) (left : Nat) : List (U16 × List U32) → Bool
  | [] => decide (left = 0)
  | (len, ws) :: rs =>
    decide (len.toNat ≠ 0) && decide (len.toNat ≤ left) &&
      decide (ws.length = if nz then len.toNat else 0) && runsOk (!nz) (left - len.toNat) rs

/-- The number of set bits of a digest (rule R127). -/
def digestWaves (d : U64) : Nat := ((List.range 64).filter (fun j => d.getLsbD j)).length

/-- The constraints of formats FARR (rule R118). -/
def wfIdx (idx : List U16) : Bool := rises idx && decide (idx.length < 65536)

/-- The constraints of format FARRG (rule R122). -/
def wfArrGamma (n : U32) (gs : List U32) : Bool :=
  decide (1 ≤ n.toNat) && decide (n.toNat ≤ 65536) && decide (gs.length = n.toNat) && gammasOk gs &&
    decide (gammaTotal gs ≤ 65536)

/-- The interior of a BIC-coded index list lies strictly between `min` and `max` (rules R123,
R124). -/
def wfInner (mn mx : U16) (inner : List U16) : Bool :=
  risesFrom (mn.toNat + 1) inner && decide (mn.toNat < mx.toNat) &&
    inner.all (fun x => decide (x.toNat < mx.toNat))

/-- The constraints of format FARRB (rule R123). -/
def wfArrBic (mn mx : U16) (n4 : U32) (inner : List U16) : Bool :=
  decide (1 ≤ n4.toNat) && decide (n4.toNat + 4 ≤ 65536) &&
    decide (inner.length = n4.toNat + 2) && wfInner mn mx inner

/-- The constraints of format FARB (rule R124). -/
def wfArrBienc (mn mx sz : U16) (inner : List U16) : Bool :=
  decide (2 ≤ sz.toNat) && decide (inner.length = sz.toNat - 2) && wfInner mn mx inner

/-- The endpoints after E1 = `mn` of a GAP whose terminal endpoint is not stored (rules R119, R121,
R125). -/
def wfEnds (mn : U16) (ends : List U16) : Bool :=
  risesFrom (mn.toNat + 1) ends && decide (mn.toNat < 65535) &&
    ends.all (fun x => decide (x.toNat < 65535))

namespace Header

/-- Flag bit 1, RESIZE (rule R101). -/
def hasSize (h : Header) : Bool := h.flags.getLsbD 1

/-- Flag bit 2, ID_LIST (rule R101). -/
def isIdList (h : Header) : Bool := h.flags.getLsbD 2

/-- Flag bit 3, NO_BO (rule R101). -/
def noByteOrder (h : Header) : Bool := h.flags.getLsbD 3

/-- Flag bit 4, NO_GAPL (rule R101). -/
def noGapLevels (h : Header) : Bool := h.flags.getLsbD 4

/-- Flag bit 5, 64_BIT (rule R101). -/
def is64 (h : Header) : Bool := h.flags.getLsbD 5

/-- A `gap_levels` field is present: NO_GAPL clear and no ID_LIST (rules R103, R105). -/
def hasGapLevels (h : Header) : Bool := !h.noGapLevels && !h.isIdList

/-- The fields a complete, legal header carries are those its flags announce (rules R101 to
R105). -/
def wf (h : Header) : Bool :=
  (match h.byteOrder with
    | none => h.noByteOrder
    | some b => !h.noByteOrder && decide (b.toNat ≤ 1)) &&
  decide (h.gapLevels.isSome = h.hasGapLevels) &&
  (match h.size with
    | none => !h.hasSize
    | some v => h.hasSize && (h.is64 || decide (v.toNat < 2 ^ 32)))

end Header

/-- The instructions whose operands meet every constraint of their format (30_encoding.md rules R101
to R127). -/
def Instr.wf : Instr → Bool
  | .endOfStream => true
  | .zero1 => true
  | .one1 => true
  | .zero8 _ => true
  | .one8 _ => true
  | .zero16 _ => true
  | .one16 _ => true
  | .zero32 _ => true
  | .one32 _ => true
  | .azero => true
  | .aone => true
  | .bit words => decide (words.length = 2048)
  | .sgapbit => true
  | .sgapgap => true
  | .gap head ends =>
    decide (1 ≤ gapCount head) && decide (ends.length = gapCount head - 1) && rises ends &&
      ends.all (fun x => decide (x.toNat < 65535))
  | .gapbit => true
  | .arrbit idx => wfIdx idx
  | .bitInterval head tail words =>
    decide (head.toNat ≤ tail.toNat) && decide (tail.toNat ≤ 2047) &&
      decide (words.length = tail.toNat - head.toNat + 1)
  | .arrgap idx => wfIdx idx
  | .bit1bit _ => true
  | .gapEgamma head gs =>
    decide (1 ≤ gapCount head) && decide (gs.length = gapCount head - 1) && gammasOk gs &&
      decide (gammaTotal gs ≤ 65535)
  | .arrgapEgamma n gs => wfArrGamma n gs
  | .bit0runs start runs => decide (start.toNat ≤ 1) && runsOk (decide (start.toNat = 1)) 2048 runs
  | .arrgapEgammaInv n gs => wfArrGamma n gs
  | .arrgapInv idx => wfIdx idx
  | .zero64 _ => true
  | .one64 _ => true
  | .gapBienc head mn ends =>
    decide (2 ≤ gapCount head) && decide (ends.length = gapCount head - 2) && wfEnds mn ends
  | .arrgapBienc mn mx n4 inner => wfArrBic mn mx n4 inner
  | .arrgapBiencInv mn mx n4 inner => wfArrBic mn mx n4 inner
  | .arrbitInv idx => wfIdx idx
  | .arrBienc mn mx sz inner => wfArrBienc mn mx sz inner
  | .arrBiencInv mn mx sz inner => wfArrBienc mn mx sz inner
  | .bitgapBienc start sz mn ends =>
    decide (start.toNat ≤ 1) && decide (2 ≤ sz.toNat) && decide (ends.length = sz.toNat - 2) &&
      wfEnds mn ends
  | .bitDigest0 digest words => decide (words.length = 32 * digestWaves digest)
  | .zskip _ => true
  | .unassigned tag => decide (35 ≤ tag.toNat) && decide (tag.toNat ≤ 127)
  | .streamHeader h => h.wf
  | .serialize => true
  | .serializeDestroy => true
  | .deserialize => true
  | .opDeserialize => true
  | .rangeDeserialize => true

end Sys2Proof
end

