-- ==== Sys2Proof/Decode.lean ====
section
/-! DEFINITION. The decoder of stream tokens, stream headers and host commands, and after it the
encoder, both from 30_encoding.md (rules R100 to R153). The decoder reads the stream through the
primitives of C1 and C2, so it leaves POS and the bit reader where the spec's own reader leaves
them. It is total: it ends with an instruction or rejects by the name of a fault (`precondition
buffer`, a stream that ends too early). A payload that breaks a format constraint is delivered as
an ill-formed instruction, read as far as the format lets a reader read; its meaning raises
`precondition malformed` (60_exceptions.md rule R524). A reserved tag is an instruction of its own,
whose meaning raises SerialFormat. -/

namespace Sys2Proof

open Sys2Proof.Machine

/-! ### Payloads -/

/-- A list of gamma values, up to and including the first broken one (rules R120, R122). The readers below drain
the bit reader after a broken gamma or BIC code as after a good one; the rules fault before `end_bits()`, and U18
leaves RACC and RAVAIL open then (DEDUCED, assumption 36). -/
def readGammas : Nat → Codec (List U32)
  | 0 => return []
  | n + 1 => do
    let g ← gammaDec
    if g = 0 then return [0]
    let gs ← readGammas n
    return g :: gs

/-- The runs of a `bit_0runs` payload, up to and including the first run whose length is 0 or
overshoots (rule R126). `fuel` is the number of words left, which bounds the number of runs. -/
def readRuns : Nat → Bool → Nat → Codec (List (U16 × List U32))
  | 0, _, _ => return []
  | fuel + 1, nz, left => do
    if left = 0 then return []
    let len ← getU16
    if len.toNat = 0 ∨ left < len.toNat then return [(len, [])]
    let ws ← if nz then getU32Array len.toNat else pure []
    let rs ← readRuns fuel (!nz) (left - len.toNat)
    return (len, ws) :: rs

/-- Format FARR (rule R118). -/
def readIdx : Codec (List U16) := do
  let n ← getU16
  getU16Array n.toNat

/-- Format FARRG after the tag (rule R122). -/
def readArrGamma : Codec (U32 × List U32) := do
  let n ← gammaDec
  if n.toNat = 0 ∨ 65536 < n.toNat then return (n, [])
  let gs ← readGammas n.toNat
  endBits
  return (n, gs)

/-- Format FARRB after the tag (rule R123). -/
def readArrBic : Codec (U16 × U16 × U32 × List U16) := do
  let mn ← getU16
  let mx ← getU16
  let n4 ← gammaDec
  if n4.toNat = 0 ∨ 65536 < n4.toNat + 4 then return (mn, mx, n4, [])
  let inner ← bicDecode (n4.toNat + 2) mn.toNat mx.toNat
  endBits
  return (mn, mx, n4, inner)

/-- Format FARB after the tag (rule R124). -/
def readArrBienc : Codec (U16 × U16 × U16 × List U16) := do
  let mn ← getU16
  let mx ← getU16
  let sz ← getU16
  if sz.toNat < 2 then return (mn, mx, sz, [])
  let inner ← bicDecode (sz.toNat - 2) mn.toNat mx.toNat
  endBits
  return (mn, mx, sz, inner)

/-- The GAP header word and the gamma values of format FGAPG (rule R120). After a broken code RACC and RAVAIL are
0 (43_block_decoder.md rule R330 faults before `end_bits()`; assumption 36). -/
def readGapGamma : Codec (U16 × List U32) := do
  let head ← getU16
  let gs ← readGammas (gapCount head - 1)
  endBits
  return (head, gs)

/-- Format FGAPB after the tag (rule R121). -/
def readGapBic : Codec (U16 × U16 × List U16) := do
  let head ← getU16
  if gapCount head < 2 then return (head, 0, [])
  let mn ← getU16
  let ends ← bicDecode (gapCount head - 2) mn.toNat 65535
  endBits
  return (head, mn, ends)

/-- Format FBGB after the tag (rule R125). -/
def readBitgapBic : Codec (Byte × U16 × U16 × List U16) := do
  let start ← getU8
  let sz ← getU16
  let mn ← getU16
  if 1 < start.toNat ∨ sz.toNat < 2 then return (start, sz, mn, [])
  let ends ← bicDecode (sz.toNat - 2) mn.toNat 65535
  endBits
  return (start, sz, mn, ends)

/-- Format FINT after the tag (rule R117). -/
def readInterval : Codec (U16 × U16 × List U32) := do
  let head ← getU16
  let tail ← getU16
  if tail.toNat < head.toNat ∨ 2047 < tail.toNat then return (head, tail, [])
  let ws ← getU32Array (tail.toNat - head.toNat + 1)
  return (head, tail, ws)

/-- Format FDIG after the tag (rule R127). -/
def readDigest : Codec (U64 × List U32) := do
  let d ← getU64
  let ws ← getU32Array (32 * digestWaves d)
  return (d, ws)

/-- Format F0RUNS after the tag (rule R126). -/
def read0runs : Codec (Byte × List (U16 × List U32)) := do
  let start ← getU8
  if 1 < start.toNat then return (start, [])
  let runs ← readRuns 2048 (start.toNat = 1) 2048
  return (start, runs)

/-- Format FGAP after the tag (rule R119). -/
def readGap : Codec (U16 × List U16) := do
  let head ← getU16
  let ends ← getU16Array (gapCount head - 1)
  return (head, ends)

/-! ### The decoder -/

/-- The token a tag byte begins, in the order of rule R110: the shortcut, then the tag map of rule
R111, then the unassigned tags. -/
def decodePayload (t : Byte) : Codec Instr :=
  if t.getLsbD 7 then return .zskip (t.setWidth 7) else
  match t.toNat with
  | 0 => return .endOfStream
  | 1 => return .zero1
  | 2 => return .one1
  | 3 => return .zero8 (← getU8)
  | 4 => return .one8 (← getU8)
  | 5 => return .zero16 (← getU16)
  | 6 => return .one16 (← getU16)
  | 7 => return .zero32 (← getU32)
  | 8 => return .one32 (← getU32)
  | 9 => return .azero
  | 10 => return .aone
  | 11 => return .bit (← getU32Array 2048)
  | 12 => return .sgapbit
  | 13 => return .sgapgap
  | 14 => do let (head, ends) ← readGap; return .gap head ends
  | 15 => return .gapbit
  | 16 => return .arrbit (← readIdx)
  | 17 => do let (head, tail, ws) ← readInterval; return .bitInterval head tail ws
  | 18 => return .arrgap (← readIdx)
  | 19 => return .bit1bit (← getU16)
  | 20 => do let (head, gs) ← readGapGamma; return .gapEgamma head gs
  | 21 => do let (n, gs) ← readArrGamma; return .arrgapEgamma n gs
  | 22 => do let (start, runs) ← read0runs; return .bit0runs start runs
  | 23 => do let (n, gs) ← readArrGamma; return .arrgapEgammaInv n gs
  | 24 => return .arrgapInv (← readIdx)
  | 25 => return .zero64 (← getU64)
  | 26 => return .one64 (← getU64)
  | 27 => do let (head, mn, ends) ← readGapBic; return .gapBienc head mn ends
  | 28 => do let (mn, mx, n4, inner) ← readArrBic; return .arrgapBienc mn mx n4 inner
  | 29 => do let (mn, mx, n4, inner) ← readArrBic; return .arrgapBiencInv mn mx n4 inner
  | 30 => return .arrbitInv (← readIdx)
  | 31 => do let (mn, mx, sz, inner) ← readArrBienc; return .arrBienc mn mx sz inner
  | 32 => do let (mn, mx, sz, inner) ← readArrBienc; return .arrBiencInv mn mx sz inner
  | 33 => do let (start, sz, mn, ends) ← readBitgapBic; return .bitgapBienc start sz mn ends
  | 34 => do let (d, ws) ← readDigest; return .bitDigest0 d ws
  | _ => return .unassigned t

/-- The token at POS (rule R110). -/
def decodeToken : Codec Instr := do
  let t ← getU8
  decodePayload t

/-- Set SBO as the header parse does (20_memory.md rule R77). -/
def setSbo (b : Bool) : Codec Unit := modify fun t => { t with sbo := b }

/-- The fields of the header at POS, in the order of rules R107 and R302. A reader stops where a check
of those rules fails, so the header it delivers then carries no later field; the meaning of the
header raises the error. -/
def readHeader (aw : AddrWidth) : Codec Header := do
  let flags ← getU8
  setSbo true
  let h : Header := { flags := flags, byteOrder := none, gapLevels := none, size := none }
  let bo ← if h.noByteOrder then pure none else (do return some (← getU8))
  let h := { h with byteOrder := bo }
  if 1 < (bo.getD 0).toNat then return h
  setSbo (h.noByteOrder || decide (bo = some 1))
  if h.is64 ≠ decide (aw = .w48) then return h
  let gl ← if h.hasGapLevels then
      (do return some ⟨← getU16, ← getU16, ← getU16, ← getU16⟩) else pure none
  let size ← if h.hasSize then
      (if h.is64 then (do return some (← getU64)) else (do return some ((← getU32).setWidth 64)))
    else pure none
  return { h with gapLevels := gl, size := size }

/-- The stream header at POS as an instruction. -/
def decodeHeader (aw : AddrWidth) : Codec Instr := do return .streamHeader (← readHeader aw)

/-- The command a value written to CMD starts (10_state.md rule R41). -/
def decodeCommand (v : U64) : Option Instr :=
  match v.toNat with
  | 1 => some .serialize
  | 2 => some .serializeDestroy
  | 3 => some .deserialize
  | 4 => some .opDeserialize
  | 5 => some .rangeDeserialize
  | _ => none

/-! ### Decoding plain bytes -/

/-- A stream side whose buffer holds the given bytes at offset 0 and zeros after them. -/
def Machine.Stream.ofBytes (sbo : Bool) (bs : List Byte) (size : Nat) : Stream where
  buf := Memory.blank.writeList 0 bs
  bufSize := BitVec.ofNat 64 size
  sbo := sbo
  pos := 0
  wacc := 0
  wused := 0
  racc := 0
  ravail := 0

/-- The token that plain bytes begin with, and how many bytes it takes. -/
def decodeBytes (sbo : Bool) (bs : List Byte) : Option (Instr × Nat) :=
  match decodeToken (Stream.ofBytes sbo bs bs.length) with
  | .ok i t => some (i, t.pos)
  | .error _ _ => none

/-- The header that plain bytes begin with, and how many bytes it takes. -/
def decodeHeaderBytes (aw : AddrWidth) (bs : List Byte) : Option (Instr × Nat) :=
  match decodeHeader aw (Stream.ofBytes true bs bs.length) with
  | .ok i t => some (i, t.pos)
  | .error _ _ => none

/-- The instruction of an opcode-table row's bits: a token for a row of whole bytes (bit 0 is the least
significant bit of the tag byte; later bytes follow in bits 15..8 and up, then operand bytes of
zeros), a host command for the 3-bit rows, whose bits are bits 2:0 of the value written to CMD
(assumption 20). -/
def decodeTableWord (nbits w : Nat) : Option Instr :=
  if nbits < 8 then decodeCommand (BitVec.ofNat 64 w) else
  match decodeToken (Stream.ofBytes true (leBytes (nbits / 8) w) 16384) with
  | .ok i _ => some i
  | .error _ _ => none

/-! ### The encoder -/

/-- The tag byte of a token (rule R111); 0 for what is no token. -/
def Instr.tag : Instr → Byte
  | .endOfStream => 0
  | .zero1 => 1
  | .one1 => 2
  | .zero8 _ => 3
  | .one8 _ => 4
  | .zero16 _ => 5
  | .one16 _ => 6
  | .zero32 _ => 7
  | .one32 _ => 8
  | .azero => 9
  | .aone => 10
  | .bit _ => 11
  | .sgapbit => 12
  | .sgapgap => 13
  | .gap _ _ => 14
  | .gapbit => 15
  | .arrbit _ => 16
  | .bitInterval _ _ _ => 17
  | .arrgap _ => 18
  | .bit1bit _ => 19
  | .gapEgamma _ _ => 20
  | .arrgapEgamma _ _ => 21
  | .bit0runs _ _ => 22
  | .arrgapEgammaInv _ _ => 23
  | .arrgapInv _ => 24
  | .zero64 _ => 25
  | .one64 _ => 26
  | .gapBienc _ _ _ => 27
  | .arrgapBienc _ _ _ _ => 28
  | .arrgapBiencInv _ _ _ _ => 29
  | .arrbitInv _ => 30
  | .arrBienc _ _ _ _ => 31
  | .arrBiencInv _ _ _ _ => 32
  | .bitgapBienc _ _ _ _ => 33
  | .bitDigest0 _ _ => 34
  | .zskip n => 0x80#8 ||| n.setWidth 8
  | .unassigned t => t
  | .streamHeader h => h.flags
  | .serialize => 1
  | .serializeDestroy => 2
  | .deserialize => 3
  | .opDeserialize => 4
  | .rangeDeserialize => 5

/-- A number of `n` bytes in the stream's byte order (20_memory.md rule R77). -/
def wireBytes (sbo : Bool) (n v : Nat) : List Byte :=
  if sbo then leBytes n v else (leBytes n v).reverse

/-- An array of u16 on the wire. -/
def wireU16s (sbo : Bool) (vs : List U16) : List Byte := vs.flatMap fun v => wireBytes sbo 2 v.toNat

/-- An array of u32 on the wire. -/
def wireU32s (sbo : Bool) (vs : List U32) : List Byte := vs.flatMap fun v => wireBytes sbo 4 v.toNat

/-- A field of `n` stream bits, least significant bit first (rule R141). -/
def lowBits : Nat → Nat → List Bool
  | 0, _ => []
  | n + 1, v => decide (v % 2 = 1) :: lowBits n (v / 2)

/-- The Elias-gamma code of `v` (rule R142). -/
def gammaBits (v : Nat) : List Bool :=
  List.replicate (Nat.log2 v) false ++ true :: lowBits (Nat.log2 v) (v - 2 ^ Nat.log2 v)

/-- The code `CENTER(x, r)` (rule R146). -/
def centerBits (r x : Nat) : List Bool :=
  lowBits (if centerLong r x then Nat.log2 (r + 1) + 1 else Nat.log2 (r + 1)) x

/-- `BIC(arr, lo, hi)` (rule R145), the upper bound given as `hi + 1`. -/
def bicBitsFuel : Nat → List Nat → Nat → Nat → List Bool
  | 0, _, _, _ => []
  | fuel + 1, arr, lo, hiX =>
    if arr.length = 0 then [] else
    let mid := arr.length / 2
    let v := arr.getD mid 0
    let r := hiX - lo - arr.length
    (if 0 < r then centerBits r (v - lo - mid) else []) ++
      bicBitsFuel fuel (arr.take mid) lo v ++ bicBitsFuel fuel (arr.drop (mid + 1)) (v + 1) hiX

/-- `BIC(arr, lo, hi)` (rule R145). -/
def bicBits (arr : List U16) (lo hi : Nat) : List Bool :=
  bicBitsFuel arr.length (arr.map BitVec.toNat) lo (hi + 1)

/-- The number whose binary digits, least significant first, are given. -/
def bitsValue : List Bool → Nat
  | [] => 0
  | b :: bs => (if b then 1 else 0) + 2 * bitsValue bs

/-- Stream bits packed into `n` words, least significant bit first (rule R140). -/
def packWords : Nat → List Bool → List U32
  | 0, _ => []
  | n + 1, bs => BitVec.ofNat 32 (bitsValue (bs.take 32)) :: packWords n (bs.drop 32)

/-- A bit-coded part: `4 * ceil(b / 32)` bytes (rules R140, R143). -/
def bitPart (sbo : Bool) (bs : List Bool) : List Byte :=
  wireU32s sbo (packWords ((bs.length + 31) / 32) bs)

/-- The payload of format FARR (rule R118). -/
def wireIdx (sbo : Bool) (idx : List U16) : List Byte :=
  wireBytes sbo 2 idx.length ++ wireU16s sbo idx

/-- The payload of format FARRG (rule R122). -/
def wireArrGamma (sbo : Bool) (n : U32) (gs : List U32) : List Byte :=
  bitPart sbo (gammaBits n.toNat ++ gs.flatMap fun g => gammaBits g.toNat)

/-- The payload of format FARRB (rule R123). -/
def wireArrBic (sbo : Bool) (mn mx : U16) (n4 : U32) (inner : List U16) : List Byte :=
  wireU16s sbo [mn, mx] ++ bitPart sbo (gammaBits n4.toNat ++ bicBits inner mn.toNat mx.toNat)

/-- The payload of format FARB (rule R124). -/
def wireArrBienc (sbo : Bool) (mn mx sz : U16) (inner : List U16) : List Byte :=
  wireU16s sbo [mn, mx, sz] ++ bitPart sbo (bicBits inner mn.toNat mx.toNat)

/-- The header fields after the flag byte (rules R102 to R105). -/
def wireHeader (sbo : Bool) (h : Header) : List Byte :=
  (match h.byteOrder with | none => [] | some b => [b]) ++
  (match h.gapLevels with | none => [] | some g => wireU16s sbo [g.l0, g.l1, g.l2, g.l3]) ++
  (match h.size with | none => [] | some v => wireBytes sbo (if h.is64 then 8 else 4) v.toNat)

/-- What follows the tag byte of a token, in either byte order (rules R113 to R127). -/
def payload (sbo : Bool) : Instr → List Byte
  | .endOfStream => []
  | .zero1 => []
  | .one1 => []
  | .zero8 n => [n]
  | .one8 n => [n]
  | .zero16 n => wireBytes sbo 2 n.toNat
  | .one16 n => wireBytes sbo 2 n.toNat
  | .zero32 n => wireBytes sbo 4 n.toNat
  | .one32 n => wireBytes sbo 4 n.toNat
  | .azero => []
  | .aone => []
  | .bit words => wireU32s sbo words
  | .sgapbit => []
  | .sgapgap => []
  | .gap head ends => wireU16s sbo (head :: ends)
  | .gapbit => []
  | .arrbit idx => wireIdx sbo idx
  | .bitInterval head tail words => wireU16s sbo [head, tail] ++ wireU32s sbo words
  | .arrgap idx => wireIdx sbo idx
  | .bit1bit pos => wireBytes sbo 2 pos.toNat
  | .gapEgamma head gs =>
    wireBytes sbo 2 head.toNat ++ bitPart sbo (gs.flatMap fun g => gammaBits g.toNat)
  | .arrgapEgamma n gs => wireArrGamma sbo n gs
  | .bit0runs start runs =>
    start :: runs.flatMap fun r => wireBytes sbo 2 r.1.toNat ++ wireU32s sbo r.2
  | .arrgapEgammaInv n gs => wireArrGamma sbo n gs
  | .arrgapInv idx => wireIdx sbo idx
  | .zero64 n => wireBytes sbo 8 n.toNat
  | .one64 n => wireBytes sbo 8 n.toNat
  | .gapBienc head mn ends =>
    wireU16s sbo [head, mn] ++ bitPart sbo (bicBits ends mn.toNat 65535)
  | .arrgapBienc mn mx n4 inner => wireArrBic sbo mn mx n4 inner
  | .arrgapBiencInv mn mx n4 inner => wireArrBic sbo mn mx n4 inner
  | .arrbitInv idx => wireIdx sbo idx
  | .arrBienc mn mx sz inner => wireArrBienc sbo mn mx sz inner
  | .arrBiencInv mn mx sz inner => wireArrBienc sbo mn mx sz inner
  | .bitgapBienc start sz mn ends =>
    start :: wireU16s sbo [sz, mn] ++ bitPart sbo (bicBits ends mn.toNat 65535)
  | .bitDigest0 digest words => wireBytes sbo 8 digest.toNat ++ wireU32s sbo words
  | .zskip _ => []
  | .unassigned _ => []
  | .streamHeader h => wireHeader sbo h
  | .serialize => []
  | .serializeDestroy => []
  | .deserialize => []
  | .opDeserialize => []
  | .rangeDeserialize => []

/-- The bytes of a token or a header in a stream of either byte order. -/
def encodeAs (sbo : Bool) (i : Instr) : List Byte := i.tag :: payload sbo i

/-- The bytes of a token or a header as BMSC writes them, little-endian (00_scope.md rule R15). A host
command is one value written to CMD; it is given as that one byte. -/
def encode (i : Instr) : List Byte := encodeAs true i

/-- The value of CMD that starts a command (10_state.md rule R41). -/
def encodeCommand : Instr → Option U64
  | .serialize => some 1
  | .serializeDestroy => some 2
  | .deserialize => some 3
  | .opDeserialize => some 4
  | .rangeDeserialize => some 5
  | _ => none

/-- The instruction is a token of a stream (rule R110). -/
def Instr.isToken : Instr → Bool
  | .streamHeader _ => false
  | .serialize => false
  | .serializeDestroy => false
  | .deserialize => false
  | .opDeserialize => false
  | .rangeDeserialize => false
  | _ => true

end Sys2Proof
end

