-- ==== Sys2Proof/Machine/Content.lean ====
section
/-! DEFINITION. Block contents (00_scope.md rule R17, 20_memory.md rules R68, R71): populations,
positions, words, GAP run lists, and the conversions between them. -/

namespace Sys2Proof.Machine

/-! ### Populations and positions -/

/-- The number of 1 bits among the low `2^k` bits of a number, by halves. -/
def popHalves : Nat → Nat → Nat
  | 0, x => x % 2
  | k + 1, x =>
    if x = 0 then 0
    else if x = 2 ^ 2 ^ (k + 1) - 1 then 2 ^ (k + 1)
    else popHalves k (x % 2 ^ 2 ^ k) + popHalves k (x / 2 ^ 2 ^ k)

/-- `popcount` of a content, 0..65536 (00_scope.md rule R16). -/
def popcount (c : Content) : Nat := popHalves 16 c.toNat

/-- The positions of the 1 bits among the low `2^k` bits of a number, increasing, counted from
`base`, by halves, in front of a list. -/
def positionsFrom : Nat → Nat → Nat → List Nat → List Nat
  | 0, base, x, rest => if x % 2 = 1 then base :: rest else rest
  | k + 1, base, x, rest =>
    if x = 0 then rest
    else positionsFrom k base (x % 2 ^ 2 ^ k)
      (positionsFrom k (base + 2 ^ k) (x / 2 ^ 2 ^ k) rest)

/-- The positions of the 1 bits of a content, in increasing order (42_block_encoder.md rule R251). -/
def positions (c : Content) : List Nat := positionsFrom 16 0 c.toNat []

/-- The content that is 1 exactly from position `lo` up to, not counting, `hi`. -/
def maskRange (lo hi : Nat) : Content :=
  if lo < hi ∧ hi ≤ 65536 then BitVec.ofNat 65536 ((2 ^ (hi - lo) - 1) * 2 ^ lo) else 0

/-! ### Words (20_memory.md rule R68) -/

/-- The number a list of u32 makes, word 0 least significant. -/
def wordsValue : List U32 → Nat
  | [] => 0
  | w :: ws => w.toNat + 2 ^ 32 * wordsValue ws

/-- The content whose words from word index `k` on are given, all others 0. -/
def contentOfWords (k : Nat) (ws : List U32) : Content :=
  BitVec.ofNat 65536 (wordsValue ws * 2 ^ (32 * k))

/-- `W(c)[w]` (00_scope.md rule R17). -/
def wordAt (c : Content) (w : Nat) : U32 := c.extractLsb' (32 * w) 32

/-- `n` words of a content from word index `k` on. -/
def wordsFrom (c : Content) (k : Nat) : Nat → List U32
  | 0 => []
  | n + 1 => wordAt c k :: wordsFrom c (k + 1) n

/-- `W(c)`, all 2048 words (00_scope.md rule R17). -/
def contentWords (c : Content) : List U32 := wordsFrom c 0 2048

/-! ### The fused read forms (20_memory.md rule R69)

The words of the stream are given: the decoder has read them through `getU32Array`. -/

/-- `get_u32_OR(target, count)` on the words of the target from word index `k` on: the new target, and
whether every result word is 0xFFFFFFFF (the value of ALLONE). -/
def fusedOr (target : Content) (k : Nat) (ws : List U32) : Content × Bool :=
  let c := target ||| contentOfWords k ws
  (c, (wordsFrom c k ws.length).all (fun w => decide (w = 0xFFFFFFFF#32)))

/-- `get_u32_AND(target, count)` on the words of the target from word index `k` on: each of them ANDed with
its word of the stream, every other word as it was. -/
def fusedAnd (target : Content) (k : Nat) (ws : List U32) : Content :=
  target &&& (contentOfWords k ws ||| ~~~ maskRange (32 * k) (32 * (k + ws.length)))

/-! ### GAP run lists (20_memory.md rule R71, 42_block_encoder.md rule R258) -/

/-- The 1 bits of the runs that a list of endpoints closes, the first of which starts at `lo` with
value `v` (rule R71). -/
def gapRuns (v : Bool) (lo : Nat) : List Nat → Content
  | [] => 0
  | e :: es => (if v then maskRange lo (e + 1) else 0) ||| gapRuns (!v) (e + 1) es

/-- A list of naturals rises strictly from `lo` on. -/
def risesNat (lo : Nat) : List Nat → Bool
  | [] => true
  | x :: xs => decide (lo ≤ x) && risesNat (x + 1) xs

/-- The endpoints of a GAP: strictly increasing, the last 65535 (rule R71). -/
def gapEndsOk (es : List Nat) : Bool := risesNat 0 es && decide (es.getLast? = some 65535)

/-- The positions `i < 65535` with `c(i) != c(i+1)`, as a content (41_classifier.md rule R201). -/
def transitions (c : Content) : Content := (c ^^^ (c >>> 1)) &&& maskRange 0 65535

/-- `to_gap(c)` (42_block_encoder.md rule R258): the value of bit 0, and the endpoints. -/
def toGap (c : Content) : Bool × List Nat := (c.getLsbD 0, positions (transitions c) ++ [65535])

end Sys2Proof.Machine
end

