-- ==== Sys2Proof/Machine/BlockStore.lean ====
section
/-! DEFINITION. The block store BS (20_memory.md rules R70 to R74). Its blocks are up to 2^32 slots,
and one run token may set all of them, so it is held as the list of the block indices where the slot
changes, in one canonical form: indices strictly rising, and no entry equal to the slot before it.
A block before the first entry is EMPTY. -/

namespace Sys2Proof.Machine

/-- A slot of the block store (rule R71). The first four constructors are the spec's four forms. The
other two stand for a slot one of whose aspects the spec leaves open; what they are is a free value
of Config, drawn for each block on its own. -/
inductive Slot where
  /-- EMPTY: no block, content ZERO. -/
  | empty
  /-- FULL: the all-set block, content ONES. -/
  | full
  /-- BIT(w): the 2048 words `W(words)`. -/
  | bit (words : Content)
  /-- GAP(level, start, E). -/
  | gap (level : Fin 4) (start : Bool) (ends : List Nat)
  /-- A slot with a known content whose form is open, draw `form` (rule R74; assumption 5). -/
  | drawn (form : Nat) (content : Content)
  /-- A slot whose content is open too, draw `src` (60_exceptions.md rule R530; assumption 6);
  `flipped` records a complement taken since, draw `form` its form. -/
  | opened (src : Nat) (flipped : Bool) (form : Nat)
  deriving DecidableEq, Repr

/-- The four forms of a slot (rule R71), the answers of `BS.kind` (rule R72). -/
inductive SlotKind where
  | empty
  | full
  | bit
  | gap
  deriving DecidableEq, Repr

namespace Slot

/-- `content(slot)` at block `nb` (rule R71). -/
def content (nb : Nat) : Slot → Content
  | .empty => Content.zero
  | .full => Content.ones
  | .bit w => w
  | .gap _ start ends => gapRuns start 0 ends
  | .drawn _ c => c
  | .opened src flipped _ =>
    if flipped then ~~~ Config.freeContent src nb else Config.freeContent src nb

/-- The content is the same at every block index. -/
def fixedContent : Slot → Bool
  | .opened _ _ _ => false
  | _ => true

/-- The slot the container holds for a content when it draws a form: the form, if it is one of those
the content admits (rule R71), else BIT, which every content admits. -/
def ofForm (p : Params) (f : SlotForm) (c : Content) : Slot :=
  match f with
  | .empty => if c = Content.zero then .empty else .bit c
  | .full => if c = Content.ones then .full else .bit c
  | .bit => .bit c
  | .gap level =>
    let g := toGap c
    if g.2.length + 1 ≤ p.gapLevel level then .gap level g.1 g.2 else .bit c

/-- `BS.slot(nb)` as one of the four forms of rule R71: an open form is looked up in Config. -/
def resolve (p : Params) (nb : Nat) : Slot → Slot
  | .empty => .empty
  | .full => .full
  | .bit w => .bit w
  | .gap level start ends => .gap level start ends
  | .drawn form c => ofForm p (Config.slotForm form nb) c
  | .opened src flipped form =>
    ofForm p (Config.slotForm form nb) (content nb (.opened src flipped form))

/-- `BS.kind(nb)` (rule R72): which of the four forms the slot at block `nb` has, an open form being the
one the container drew. -/
def kind (p : Params) (nb : Nat) (s : Slot) : SlotKind :=
  match s.resolve p nb with
  | .empty => .empty
  | .full => .full
  | .gap _ _ _ => .gap
  | _ => .bit

/-- A slot the store may hold (rule R71): a GAP has rising endpoints ending in 65535 and a length its
level admits. -/
def wf (p : Params) : Slot → Bool
  | .gap level _ ends => gapEndsOk ends && decide (ends.length + 1 ≤ p.gapLevel level)
  | _ => true

/-- The same content with its form drawn anew: `BS.optimize_block` (rules R72, R74). -/
def redraw (d : Nat) : Slot → Slot
  | .empty => .drawn d Content.zero
  | .full => .drawn d Content.ones
  | .bit w => .drawn d w
  | .gap _ start ends => .drawn d (gapRuns start 0 ends)
  | .drawn _ c => .drawn d c
  | .opened src flipped _ => .opened src flipped d

/-- The complement of the content, its form drawn (45_operation_engine.md rule R451, row XOR). -/
def flip (d : Nat) : Slot → Slot
  | .empty => .drawn d Content.ones
  | .full => .drawn d Content.zero
  | .bit w => .drawn d (~~~ w)
  | .gap _ start ends => .drawn d (~~~ gapRuns start 0 ends)
  | .drawn _ c => .drawn d (~~~ c)
  | .opened src flipped _ => .opened src (!flipped) d

end Slot

/-- The block store's slots: where the slot changes, and to what. -/
abbrev BlockStore := List (Nat × Slot)

namespace BlockStore

/-- The slot at a block index, the one before the list being `prev`. -/
def slotFrom (prev : Slot) : BlockStore → Nat → Slot
  | [], _ => prev
  | (a, s) :: r, nb => if nb < a then prev else slotFrom s r nb

/-- The stored slot at a block index. -/
def at' (bs : BlockStore) (nb : Nat) : Slot := slotFrom .empty bs nb

/-- `BS.content(nb)` (rule R72). -/
def content (bs : BlockStore) (nb : Nat) : Content := (bs.at' nb).content nb

/-- `BS.slot(nb)` (rule R72), one of the four forms of rule R71. -/
def slot (p : Params) (bs : BlockStore) (nb : Nat) : Slot := (bs.at' nb).resolve p nb

/-- `BS.kind(nb)` (rule R72). -/
def kind (p : Params) (bs : BlockStore) (nb : Nat) : SlotKind := (bs.at' nb).kind p nb

/-- Drop every entry that changes nothing, the slot before the list being `prev`. -/
def normalize (prev : Slot) : BlockStore → BlockStore
  | [] => []
  | (a, s) :: r => if s = prev then normalize prev r else (a, s) :: normalize s r

/-- Apply a function to the slots of the blocks `lo .. hi-1` and to no other. -/
def mapRange (f : Slot → Slot) (lo hi : Nat) (bs : BlockStore) : BlockStore :=
  if hi ≤ lo then bs else
  normalize .empty
    (bs.filter (fun e => decide (e.1 < lo)) ++
      (lo, f (bs.at' lo)) ::
        ((bs.filter (fun e => decide (lo < e.1) && decide (e.1 < hi))).map (fun e => (e.1, f e.2)) ++
          (hi, bs.at' hi) :: bs.filter (fun e => decide (hi < e.1))))

/-- Put a slot at one block index. -/
def put (bs : BlockStore) (nb : Nat) (s : Slot) : BlockStore := mapRange (fun _ => s) nb (nb + 1) bs

/-! ### The operations of rule R72 -/

/-- `gap_calc_level(len)`: the least level that admits a GAP length (rule R72). -/
def gapCalcLevel (p : Params) (len : Nat) : Fin 4 :=
  if len ≤ p.gapLevel0 then 0 else if len ≤ p.gapLevel1 then 1 else if len ≤ p.gapLevel2 then 2 else 3

/-- `BS.put_content(nb, c)`: some slot with that content, its form draw `d` (rules R72, R74). -/
def putContent (d : Nat) (bs : BlockStore) (nb : Nat) (c : Content) : BlockStore :=
  bs.put nb (.drawn d c)

/-- `BS.put_bit(nb, w)`. -/
def putBit (bs : BlockStore) (nb : Nat) (w : Content) : BlockStore := bs.put nb (.bit w)

/-- `BS.put_gap(nb, start, E)`; its caller checks `len <= GAP_MAX_LEN`. -/
def putGap (p : Params) (bs : BlockStore) (nb : Nat) (start : Bool) (ends : List Nat) : BlockStore :=
  bs.put nb (.gap (gapCalcLevel p (ends.length + 1)) start ends)

/-- `BS.set_all_set(nb, n)`. -/
def setAllSet (bs : BlockStore) (nb n : Nat) : BlockStore := mapRange (fun _ => .full) nb (nb + n) bs

/-- `BS.zero(nb, n)`. -/
def zero (bs : BlockStore) (nb n : Nat) : BlockStore := mapRange (fun _ => .empty) nb (nb + n) bs

/-- `BS.clear()`. -/
def clear (p : Params) (bs : BlockStore) : BlockStore := bs.zero 0 p.totalBlocks

/-- `BS.deoptimize(nb)`: a GAP or FULL slot becomes the BIT slot of its content. -/
def deoptimize (p : Params) (bs : BlockStore) (nb : Nat) : BlockStore :=
  match bs.kind p nb with
  | .gap => bs.putBit nb (bs.content nb)
  | .full => bs.putBit nb (bs.content nb)
  | .empty => bs
  | .bit => bs

/-- `BS.optimize_block(nb)`. -/
def optimizeBlock (d : Nat) (bs : BlockStore) (nb : Nat) : BlockStore :=
  mapRange (Slot.redraw d) nb (nb + 1) bs

/-- `BS.optimize()`: every block's form is drawn anew. -/
def optimize (p : Params) (d : Nat) (bs : BlockStore) : BlockStore :=
  mapRange (Slot.redraw d) 0 p.totalBlocks bs

/-- The complement of every block of a range (45_operation_engine.md rule R451, row XOR). -/
def flipRange (d : Nat) (bs : BlockStore) (nb n : Nat) : BlockStore :=
  mapRange (Slot.flip d) nb (nb + n) bs

/-- `BS.count(nb)`. -/
def count (bs : BlockStore) (nb : Nat) : Nat := popcount (bs.content nb)

/-- The blocks `lo .. hi-1` as stretches of one slot each: first index, number, slot. -/
def stretches (prev : Slot) (lo hi : Nat) : BlockStore → List (Nat × Nat × Slot)
  | [] => if lo < hi then [(lo, hi - lo, prev)] else []
  | (a, s) :: r =>
    if a ≤ lo then stretches s lo hi r
    else if hi ≤ a then (if lo < hi then [(lo, hi - lo, prev)] else [])
    else (lo, a - lo, prev) :: stretches s a hi r

/-- The sum of the populations of `n` blocks from `a` on that hold one slot. -/
def stretchCount (s : Slot) : Nat → Nat → Nat
  | _, 0 => 0
  | a, n + 1 =>
    if s.fixedContent then (n + 1) * popcount (s.content a)
    else popcount (s.content a) + stretchCount s (a + 1) n

/-- The sum of `BS.count(j)` for `j` in `nb .. nb+n-1` (45_operation_engine.md rules R450, R451). -/
def countRange (bs : BlockStore) (nb n : Nat) : Nat :=
  ((stretches .empty nb (nb + n) bs).map (fun t => stretchCount t.2.2 t.1 t.2.1)).sum

/-- The first of `n` blocks from `a` on, all holding one slot, whose content is not `x`. -/
def stretchFind (x : Content) (s : Slot) : Nat → Nat → Option Nat
  | _, 0 => none
  | a, n + 1 =>
    if s.content a ≠ x then some a
    else if s.fixedContent then none
    else stretchFind x s (a + 1) n

/-- The first stretch with a block whose content is not `x`, and that block. -/
def findOther (x : Content) : List (Nat × Nat × Slot) → Option Nat
  | [] => none
  | (a, n, s) :: r =>
    match stretchFind x s a n with
    | some j => some j
    | none => findOther x r

/-- The least `j >= nb` whose content is not `x`, or TOTAL_BLOCKS. -/
def nextOther (p : Params) (x : Content) (bs : BlockStore) (nb : Nat) : Nat :=
  (findOther x (stretches .empty nb p.totalBlocks bs)).getD p.totalBlocks

/-- `BS.next_nonzero(nb)`. -/
def nextNonzero (p : Params) (bs : BlockStore) (nb : Nat) : Nat := nextOther p Content.zero bs nb

/-- `BS.next_not_ones(nb)`. -/
def nextNotOnes (p : Params) (bs : BlockStore) (nb : Nat) : Nat := nextOther p Content.ones bs nb

/-- The last of `n` blocks from `a` on, all holding one slot, whose content is not ZERO. -/
def stretchLast (s : Slot) (a : Nat) : Nat → Option Nat
  | 0 => none
  | n + 1 =>
    if s.content (a + n) ≠ Content.zero then some (a + n)
    else if s.fixedContent then none
    else stretchLast s a n

/-- `BS.last_nonzero()`; the rule's answer -1 is no value. -/
def lastNonzero (p : Params) (bs : BlockStore) : Option Nat :=
  ((stretches .empty 0 p.totalBlocks bs).reverse.findSome? (fun t => stretchLast t.2.2 t.1 t.2.1))

/-! ### The canonical form -/

/-- Change points rise strictly from `lo` on, each changes the slot, none lies beyond `top`, and from
`top` on the store is EMPTY. -/
def canonFrom (top lo : Nat) (prev : Slot) : BlockStore → Bool
  | [] => decide (prev = .empty)
  | (a, s) :: r =>
    decide (lo ≤ a) && decide (a ≤ top) && decide (s ≠ prev) && canonFrom top (a + 1) s r

/-- The canonical form of a block store, every slot of it one the store may hold (rules R70, R71). -/
def wf (p : Params) (bs : BlockStore) : Bool :=
  canonFrom p.totalBlocks 0 .empty bs && bs.all (fun e => e.2.wf p)

end BlockStore

end Sys2Proof.Machine
end

