-- ==== Sys2Proof/Machine/State.lean ====
section
/-! DEFINITION. The state of BMSC (10_state.md, 20_memory.md): every host register, datapath register,
flag, scratch array and memory the spec names, plain data, and the state after reset. -/

namespace Sys2Proof.Machine

/-- ST, the stream-iterator state (10_state.md rule R27); the 3-bit value 7 is never produced. -/
inductive ItState where
  | unknown
  | listIds
  | blocks
  | zeroBlocks
  | oneBlocks
  | bitBlock
  | gapBlock
  deriving DecidableEq, Repr

/-- STATUS.STATE (10_state.md rule R44). -/
inductive RunState where
  | idle
  | busy
  | done
  | error
  deriving DecidableEq, Repr

/-- Where the running command stands (10_state.md rule R20: one command at a time, from start to
completion or fault). The spec implies it as the place in the command's pseudocode; it is the
model's own field (assumption 11). -/
inductive Phase where
  /-- No command runs, or one has only been started. -/
  | idle
  /-- A serialize command writes its stream (42_block_encoder.md rule R240). -/
  | encode
  /-- A decode command has not yet read the stream header (43_block_decoder.md rule R300). -/
  | header
  /-- A decode command reads a legacy id list (43_block_decoder.md rule R306). -/
  | ids
  /-- A decode command walks its tokens (43_block_decoder.md rule R300). -/
  | tokens
  deriving DecidableEq, Repr

/-- One thing the host does, or lets the engine do (10_state.md rules R20, R31; 46_host_commands.md
rules R491, R510). Pending ones are data the step consumes (assumption 12). -/
inductive HostEvent where
  /-- Write a host register by number (rule R31). -/
  | writeReg (no : Nat) (v : U64)
  /-- Read a host register by number (rule R31). -/
  | readReg (no : Nat)
  /-- Write one byte of the stream buffer, at any 64-bit offset, before or after BUF_SIZE is written
  (20_memory.md rule R60, 70_reset_and_hazards.md rule R566; assumption 37). -/
  | writeBuf (addr : U64) (v : Byte)
  /-- Read one byte of the stream buffer (rule R565). -/
  | readBuf (addr : U64)
  /-- Put a slot into the block store (rules R565, R566). -/
  | putSlot (nb : Nat) (s : Slot)
  /-- Set `BS.size` (20_memory.md rule R73). -/
  | setSize (n : Nat)
  /-- Read one bit of the block store's vector by its bit index (00_scope.md rule R10). -/
  | readBit (i : Nat)
  /-- Reset (70_reset_and_hazards.md rules R560, R562). -/
  | reset
  /-- Write a command code and reset the block before the command has ended (rule R562). -/
  | resetDuring (v : U64)
  /-- Do nothing while the engine makes one step. -/
  | tick
  /-- Poll STATUS until STATE is not BUSY (rule R510). -/
  | await
  deriving DecidableEq, Repr

/-- The state of one BMSC. -/
structure State where
  /-- The build-time parameters; no step writes them (00_scope.md rules R9 to R14). -/
  params : Params
  /-- BUF, BUF_SIZE, SBO, POS, WACC, WUSED, RACC, RAVAIL. -/
  stream : Stream
  /-- CFG, host register 0 (rule R40). -/
  cfg : U64
  /-- CMD, host register 1: the last command code (rules R31, R41). -/
  cmd : U64
  /-- OP, host register 2 (rule R42). -/
  op : U64
  /-- RANGE_FROM, host register 3, an AW-bit field (rules R31, R43). -/
  rangeFrom : U64
  /-- RANGE_TO, host register 4 (rule R43), wide enough for the values rule R493 of 46_host_commands.md
  faults (assumption 15). -/
  rangeTo : U64
  /-- STATUS.STATE (rule R44). -/
  runState : RunState
  /-- STATUS.ERR (rule R44). -/
  err : ErrKind
  /-- STATUS.CAUSE (rule R44). -/
  cause : BitVec 4
  /-- RESULT_BYTES, host register 7 (rule R45). -/
  resultBytes : U64
  /-- RESULT_COUNT, host register 8 (rule R46). -/
  resultCount : U64
  /-- NB, the index of the current block (rules R22, R25). -/
  nb : Nat
  /-- ST (rule R27). -/
  st : ItState
  /-- BLOCK_TYPE, the tag byte most recently read (rule R22). -/
  blockType : Byte
  /-- MONO_CNT (rule R22). -/
  monoCnt : U64
  /-- GAP_HEAD (rule R22). -/
  gapHead : U16
  /-- ID_CNT (rule R22). -/
  idCnt : U32
  /-- LAST_ID (rule R22). -/
  lastId : U32
  /-- COUNT (rule R22). -/
  count : U64
  /-- EOP, the effective operation (rule R22). -/
  eop : SetOp
  /-- HDR_FLAGS (rule R22). -/
  hdrFlags : Byte
  /-- HDR_BO (rule R22). -/
  hdrBo : Byte
  /-- HDR_GAPL[0..3] (rules R22, R28). -/
  hdrGapl : GapTable
  /-- HDR_SIZE (rule R22). -/
  hdrSize : U64
  /-- D0, classifier statistic (rule R22). -/
  d0 : U64
  /-- BC, classifier statistic (rule R22). -/
  bc : BitVec 17
  /-- BIT_GAPS, classifier statistic (rule R22). -/
  bitGaps : U16
  /-- NZ_SIZE, classifier statistic (rule R22). -/
  nzSize : BitVec 14
  /-- BEST_TAG (rule R22). -/
  bestTag : Byte
  /-- BEST_COST (rule R22). -/
  bestCost : BitVec 21
  /-- POS0, the cursor saved before a speculative emission (rule R22). -/
  pos0 : Nat
  /-- Flag EOS (rule R29). -/
  eos : Bool
  /-- Flag ALLONE (rule R29). -/
  allone : Bool
  /-- Flag ROLLED (rule R29). -/
  rolled : Bool
  /-- Flag RANGE_SET (rule R29). -/
  rangeSet : Bool
  /-- TEMP_BLOCK, 2048 u32 (rule R47). -/
  tempBlock : Content
  /-- IDX_ARR, 65536 u16 (rule R48): its elements up to the last one that is not 0. -/
  idxArr : List U16
  /-- The block store's slots (20_memory.md rules R70, R71). -/
  bs : BlockStore
  /-- `BS.size` (20_memory.md rule R73). -/
  bsSize : Nat
  /-- The model's own: where the running command stands. -/
  phase : Phase
  /-- The model's own: what the host is about to do. -/
  host : List HostEvent
  /-- The model's own: the value the host's last read returned. -/
  hostData : U64
  /-- The model's own: the number of free values drawn so far (assumption 4). -/
  draws : Nat
  deriving DecidableEq, Repr

/-- The machine stops with a fault. No instruction faults: an error of a command is a next state
(60_exceptions.md rule R528). -/
inductive Fault where
  /-- The host accessed a block, or a bit, that does not exist (20_memory.md rule R70). Raised by the host
  port; safe. -/
  | noSuchBlock
  deriving DecidableEq, Repr

/-- The model has no meaning for what was asked. -/
inductive Refusal where
  /-- An instruction that has no meaning in this model. No arm of `exec` answers it. -/
  | notModelled (mnemonic : String)
  /-- A host access that rule R572 of 70_reset_and_hazards.md forbids while STATE = BUSY: "a model refuses
  such traces" (U51). Raised by the host port; safe. -/
  | hostAccessWhileBusy
  /-- A value other than 1..5 written to CMD (rule R572, U50: refuse). Raised by the host port; safe. -/
  | illegalCommand
  /-- A host register number the register file does not have (10_state.md rule R31). Raised by the host
  port; safe. -/
  | noSuchRegister
  /-- The host offered a slot the store cannot hold, or a size outside the range of rule R73 of
  20_memory.md. Raised by the host port; safe. -/
  | illFormedVector
  deriving DecidableEq, Repr

/-- CFG after reset: LEVEL = 5, GAPL = 0, BO = 1 (10_state.md rule R52). -/
def State.cfgReset : U64 := 0x15

/-- The registers after reset (10_state.md rule R52, 70_reset_and_hazards.md rule R560), over given
parameters and memories, which reset does not touch (rule R53). A register the spec leaves
unspecified is 0: DESIGN CHOICE (assumption 2), unsafe. -/
def State.resetOver (p : Params) (buf : Memory) (bs : BlockStore) (size : Nat) (draws : Nat)
    (host : List HostEvent) (hostData : U64) : State where
  params := p
  stream :=
    { buf := buf, bufSize := 0, sbo := true, pos := 0, wacc := 0, wused := 0, racc := 0, ravail := 0 }
  cfg := State.cfgReset
  cmd := 0
  op := 0
  rangeFrom := 0
  rangeTo := 0
  runState := .idle
  err := .none
  cause := 0
  resultBytes := 0
  resultCount := 0
  nb := 0
  st := .unknown
  blockType := 0
  monoCnt := 0
  gapHead := 0
  idCnt := 0
  lastId := 0
  count := 0
  eop := .assign
  hdrFlags := 0
  hdrBo := 0
  hdrGapl := ⟨0, 0, 0, 0⟩
  hdrSize := 0
  d0 := 0
  bc := 0
  bitGaps := 0
  nzSize := 0
  bestTag := 0
  bestCost := 0
  pos0 := 0
  eos := false
  allone := false
  rolled := false
  rangeSet := false
  tempBlock := 0
  idxArr := []
  bs := bs
  bsSize := size
  phase := .idle
  host := host
  hostData := hostData
  draws := draws

/-- The machine right after reset: the default parameters (assumption 1), and a host that does nothing. Reset
touches neither memory (rule R53), and the spec gives no first contents: a stream buffer that reads as 0
and a block store all of whose slots are EMPTY, of the default size of rule R73 of 20_memory.md, are the
model's DESIGN CHOICE (assumption 3), unsafe. -/
def State.reset : State :=
  State.resetOver Params.default Memory.blank [] Params.default.sizeDefault 0 [] 0

end Sys2Proof.Machine
end

