-- ==== Sys2Proof/Machine/Flags.lean ====
section
/-! DEFINITION. The fields of the host registers (10_state.md rules R40, R42, R44), the four flags (rule
R29), and the codes of the enumerated registers. -/

namespace Sys2Proof.Machine

/-! ### CFG (rule R40) -/

/-- The bits of CFG a write keeps: LEVEL, GAPL, BO (rule R40). -/
def cfgMask (v : U64) : U64 := v &&& 0x1F

/-- CFG.LEVEL. -/
def cfgLevel (cfg : U64) : Nat := (cfg.extractLsb' 0 3).toNat

/-- CFG.GAPL. -/
def cfgGapl (cfg : U64) : Bool := cfg.getLsbD 3

/-- CFG.BO. -/
def cfgBo (cfg : U64) : Bool := cfg.getLsbD 4

/-! ### OP (rule R42) -/

/-- The bits of OP a write keeps: SETOP, EXIT_ON_ONE (rule R42). -/
def opMask (v : U64) : U64 := v &&& 0x1F

/-- OP.SETOP as one of the thirteen operations; 13..15 are illegal (rule R42). -/
def setOpOf (op : U64) : Option SetOp :=
  match (op.extractLsb' 0 4).toNat with
  | 0 => some .assign
  | 1 => some .or
  | 2 => some .and
  | 3 => some .xor
  | 4 => some .sub
  | 5 => some .count
  | 6 => some .countAnd
  | 7 => some .countOr
  | 8 => some .countXor
  | 9 => some .countSubAB
  | 10 => some .countSubBA
  | 11 => some .countA
  | 12 => some .countB
  | _ => none

/-- OP.EXIT_ON_ONE. -/
def exitOnOne (op : U64) : Bool := op.getLsbD 4

/-- The code of a set operation in OP.SETOP and EOP (rules R22, R42). -/
def setOpCode : SetOp → BitVec 4
  | .assign => 0
  | .or => 1
  | .and => 2
  | .xor => 3
  | .sub => 4
  | .count => 5
  | .countAnd => 6
  | .countOr => 7
  | .countXor => 8
  | .countSubAB => 9
  | .countSubBA => 10
  | .countA => 11
  | .countB => 12

/-- The counting operations, codes 5..12, which never write the target (45_operation_engine.md rule
R430). -/
def isCounting : SetOp → Bool
  | .assign => false
  | .or => false
  | .and => false
  | .xor => false
  | .sub => false
  | _ => true

/-! ### RANGE_FROM (rules R31, R43) -/

/-- The bits of RANGE_FROM a write keeps: an AW-bit bit index takes "the low bits its field needs" (rule
R31). -/
def rangeMask (aw : AddrWidth) (v : U64) : U64 := BitVec.ofNat 64 (v.toNat % 2 ^ aw.bits)

/-! ### STATUS (rule R44) -/

/-- The code of STATUS.STATE. -/
def runStateCode : RunState → Nat
  | .idle => 0
  | .busy => 1
  | .done => 2
  | .error => 3

/-- The value a read of STATUS returns. -/
def statusWord (s : State) : U64 :=
  BitVec.ofNat 64 (runStateCode s.runState + 2 ^ 2 * s.err.code + 2 ^ 6 * s.cause.toNat)

/-- The 3-bit code of ST (rule R27). -/
def itStateCode : ItState → BitVec 3
  | .unknown => 0
  | .listIds => 1
  | .blocks => 2
  | .zeroBlocks => 3
  | .oneBlocks => 4
  | .bitBlock => 5
  | .gapBlock => 6

/-! ### The flags (rule R29) -/

/-- EOS is set: on tag `end`, on tag `azero`, on NB = TOTAL_BLOCKS, on ID_CNT = 0 in `list_ids`. -/
def setEos (s : State) : State := { s with eos := true }

/-- ROLLED is set: a speculative emission was rolled back. -/
def setRolled (s : State) : State := { s with rolled := true }

/-- ROLLED is cleared: a block emission starts. -/
def clearRolled (s : State) : State := { s with rolled := false }

/-- All four flags at command start; RANGE_SET is 1 for RANGE_DESERIALIZE only (46_host_commands.md
rule R492). -/
def startFlags (range : Bool) (s : State) : State :=
  { s with eos := false, allone := false, rolled := false, rangeSet := range }

/-- ALLONE after a `get_u32_OR` pass over words `k ..` of a target (20_memory.md rule R69). -/
def orAllone (target : Content) (k : Nat) (ws : List U32) : Bool := (fusedOr target k ws).2

end Sys2Proof.Machine
end

