-- ==== Sys2Proof/Machine/Ops.lean ====
section
/-! DEFINITION. The shared operations of the rules' pseudocode: running a rule over the state, the free
draws, starting a command (46_host_commands.md rules R491, R492), finishing it, and TAKING AN ERROR
(60_exceptions.md rules R528, R530), after which the next command start is the only way on (rule
R532). -/

namespace Sys2Proof.Machine

/-- A rule's pseudocode: it ends normally with a value, or raises, and leaves the state as it is at that
point (60_exceptions.md rule R528). -/
abbrev M := EStateM Raise State

/-- `raise E(info)` (00_scope.md rule R18). -/
def fail {α : Type} (e : Raise) : M α := throw e

/-- `fault PRECOND(reason)` (00_scope.md rule R18). -/
def failPre {α : Type} (r : PrecondReason) : M α := throw (.precondition r)

/-- `raise SerialFormat(cause)`. -/
def failSerial {α : Type} (c : SerialCause) : M α := throw (.serialFormat c)

/-- A primitive of C1 or C2 on the stream side of the state. -/
def onStream {α : Type} (c : Codec α) : M α := fun s =>
  match c s.stream with
  | .ok a t => .ok a { s with stream := t }
  | .error e t => .error e { s with stream := t }

/-- The operand a payload gives, or `fault PRECOND(malformed)` (60_exceptions.md rule R524). -/
def orMalformed {α : Type} : Option α → M α
  | some a => return a
  | none => failPre .malformed

/-- The number of the next free value. -/
def draw : M Nat := do
  let s ← get
  set { s with draws := s.draws + 1 }
  return s.draws

/-! ### The scratch arrays (10_state.md rules R47 to R49) -/

/-- A list without the zeros at its end: the one list that stands for an array whose later elements are
0. -/
def trimZeros : List U16 → List U16
  | [] => []
  | x :: xs =>
    match trimZeros xs with
    | [] => if x = 0 then [] else [x]
    | y :: ys => x :: y :: ys

/-- IDX_ARR with the given elements written from element 0 on: every later one of the 65536 keeps its
value (rule R48). -/
def loadArr (xs arr : List U16) : List U16 := trimZeros ((xs ++ arr.drop xs.length).take 65536)

/-- `IDX_ARR[0 ..] <- xs`. -/
def writeIdx (xs : List U16) : M Unit := modify fun s => { s with idxArr := loadArr xs s.idxArr }

/-- The list a token's rule leaves in IDX_ARR, if it uses that array. -/
def keepIdx : Option (List U16) → M Unit
  | none => return ()
  | some xs => writeIdx xs

/-- `TEMP_BLOCK <- c`: the scratch holds a materialised block (rule R47; assumption 25). -/
def writeTemp (c : Content) : M Unit := modify fun s => { s with tempBlock := c }

/-- A conversion of the encoder uses TEMP_BLOCK (rule R47); no rule says what it leaves there: a free value
(assumption 25). -/
def useTemp : M Unit := do
  let d ← draw
  writeTemp (Config.freeTemp d)

/-- TEMP_BLOCK and IDX_ARR after a command: their contents are unspecified, draw `d` (rule R49; assumption
25). -/
def freeScratch (d : Nat) (s : State) : State :=
  { s with
    tempBlock := Config.freeTemp d
    idxArr := trimZeros ((Config.freeIndices d).take 65536) }

/-! ### The fused read forms (20_memory.md rule R69) -/

/-- `get_u32_OR(target, count)` on the words of the target from word index `k` on: what the target becomes,
and ALLONE. No target is a dry read. -/
def getU32Or (target : Option Content) (k count : Nat) : M (Option Content) :=
  match target with
  | none => do
    onStream (seek (4 * count))
    modify fun s => { s with allone := false }
    return none
  | some c => do
    let ws ← onStream (getU32Array count)
    modify fun s => { s with allone := orAllone c k ws }
    return some (fusedOr c k ws).1

/-- `get_u32_AND(target, count)` on the words of the target from word index `k` on. No target is a dry
read. -/
def getU32And (target : Option Content) (k count : Nat) : M (Option Content) :=
  match target with
  | none => do
    onStream (seek (4 * count))
    return none
  | some c => do
    let ws ← onStream (getU32Array count)
    return some (fusedAnd c k ws)

/-! ### Taking an error -/

/-- STATUS and the result registers as `raise` leaves them (rule R528): CAUSE is unspecified for a
Precondition fault, both results are unspecified (rules R45, R46), and so are the scratch arrays (rule
R49). BMSC is idle afterwards. -/
def errorStatus (e : Raise) (s : State) : State :=
  { freeScratch s.draws s with
    runState := .error
    err := e.kind
    cause := match e with
      | .serialFormat c => c.code
      | .precondition _ => Config.freeCause s.draws
    resultBytes := Config.freeResult (s.draws + 1)
    resultCount := Config.freeResult (s.draws + 2)
    phase := .idle
    draws := s.draws + 5 }

/-- A block store every block of which holds any content in any form, draws `d`, `d + 1`. -/
def openStore (p : Params) (d : Nat) (bs : BlockStore) : BlockStore :=
  BlockStore.mapRange (fun _ => .opened d false (d + 1)) 0 p.totalBlocks bs

/-- A `BS.size` that is any size rule R73 of 20_memory.md admits, draw `d`. -/
def openSize (p : Params) (d : Nat) : Nat := 1 + Config.freeSize d % p.sizeDefault

/-- What an error leaves of the memories (rule R530): after a serialize error the stream buffer is any
value, and after SERIALIZE_DESTROY the block store too; after a Precondition fault of a decode
command in its body the block with index NB is any value; a SerialFormat error, and any error before
the body, leaves them as they are. -/
def errorMemories (e : Raise) (s : State) : State :=
  match s.phase with
  | .encode =>
    { s with
      stream :=
        { s.stream with buf := s.stream.buf.openBelow s.stream.bufSize.toNat (s.draws + 3) }
      bs := if s.cmd = 2 then openStore s.params (s.draws + 3) s.bs else s.bs }
  | .idle => s
  | .header => s
  | .ids | .tokens =>
    match e with
    | .serialFormat _ => s
    | .precondition _ =>
      if s.nb < s.params.totalBlocks then
        { s with bs := s.bs.put s.nb (.opened (s.draws + 3) false (s.draws + 4)) }
      else s

/-- TAKING AN ERROR: `raise` (rule R528). There is no vector, no handler and no saved program counter:
the command stops, STATUS records the error, and BMSC waits for the next write to CMD. -/
def takeError (e : Raise) (s : State) : State := errorStatus e (errorMemories e s)

/-- The state a rule's pseudocode leaves, an error being taken. -/
def settle (m : M Unit) (s : State) : State :=
  match m s with
  | .ok _ t => t
  | .error e t => takeError e t

/-! ### Starting and finishing a command -/

/-- A command starts: STATUS becomes BUSY without error (rule R491), whatever it was, which is also the
only way out of an error (60_exceptions.md rule R532), and the datapath is initialised (rule
R492). -/
def startCommand (code : U64) (s : State) : State :=
  startFlags (decide (code = 5))
    { s with
      cmd := code
      runState := .busy
      err := .none
      cause := 0
      phase := .idle
      stream := { s.stream with pos := 0, sbo := true, wacc := 0, wused := 0, racc := 0, ravail := 0 }
      nb := 0
      st := .unknown
      count := 0
      monoCnt := 0
      idCnt := 0 }

/-- A command ends normally: STATE becomes DONE and the result registers are written (rules R491, R45,
R46); the scratch arrays are left open, draw `d`. -/
def finish (d : Nat) (bytes count : U64) : M Unit :=
  modify fun s =>
    { freeScratch d s with
      runState := .done, phase := .idle, resultBytes := bytes, resultCount := count }

/-- A command that defines RESULT_BYTES ends (rules R45, R500 to R502). -/
def finishBytes : M Unit := do
  let d ← draw
  let s ← get
  finish d (BitVec.ofNat 64 s.stream.pos) (Config.freeResult d)

/-- A command that defines RESULT_COUNT ends (rules R46, R503, R504). -/
def finishCount (count : U64) : M Unit := do
  let d ← draw
  finish d (Config.freeResult d) count

/-! ### What a token is executed for -/

/-- The two users of a token: DESERIALIZE merges it, the operation commands operate with it
(43_block_decoder.md rule R307, 45_operation_engine.md rule R431). -/
inductive TokenMode where
  | merge
  | operate
  deriving DecidableEq, Repr

/-- What the running command does with a token. Outside the token walk of a decode command there is no
token: `fault PRECOND(protocol)` (44_stream_iterator.md rule R410; no command causes it). -/
def tokenMode : M TokenMode := do
  let s ← get
  if s.runState ≠ .busy ∨ s.phase ≠ .tokens ∨ s.eos = true then failPre .protocol
  if s.cmd = 3 then return .merge
  if s.cmd = 4 ∨ s.cmd = 5 then return .operate
  failPre .protocol

/-- Rule R309 of 43_block_decoder.md and rule R375 of 44_stream_iterator.md: a token of `n` blocks must
fit the block space. -/
def requireRoom (n : Nat) : M Unit := do
  let s ← get
  if s.params.totalBlocks < s.nb + n then failPre .malformed

/-- Apply a change to the block store. -/
def onStore (f : Params → BlockStore → BlockStore) : M Unit :=
  modify fun s => { s with bs := f s.params s.bs }

end Sys2Proof.Machine
end

