-- ==== Sys2Proof/Machine/Iterator.lean ====
section
/-! DEFINITION. The stream iterator C8 (44_stream_iterator.md): the moves of `next()` after the token is
decoded, `skip_mono_blocks()`, and the accessors. The tag and payload come decoded
(Sys2Proof/Decode.lean); `token_content` is Machine/Operands.lean. -/

namespace Sys2Proof.Machine

/-- `require ST in {..}`, else `fault PRECOND(protocol)` (rule R410). -/
def requireSt (ok : ItState → Bool) : M Unit := do
  let s ← get
  if ok s.st = false then failPre .protocol

/-- A block token is below the block space's end; the loop's guard makes the other case impossible
(60_exceptions.md rule R524, row `malformed`). -/
def requireBlock : M Unit := requireRoom 1

/-- `next()` on a block tag: ST becomes `bit_block` or `gap_block` (rules R373, R377). -/
def nextBlock (next : ItState) : M Unit := do
  requireSt (fun st => st = .blocks)
  modify fun s => { s with st := next }

/-- `next()` on a run token: `run(state, n)` (rule R375). NB is not advanced yet. -/
def nextRun (next : ItState) (n : Nat) : M Unit := do
  requireSt (fun st => st = .blocks)
  requireRoom n
  modify fun s => { s with monoCnt := BitVec.ofNat 64 n, st := next }

/-- `next()` on `end` or `azero` (rules R373, R383). -/
def nextEnd : M Unit := do
  requireSt (fun st => st = .blocks)
  modify setEos

/-- `skip_mono_blocks()` (rule R380). -/
def skipMono : M Unit := do
  requireSt (fun st => st = .zeroBlocks || st = .oneBlocks)
  modify fun s => { s with nb := s.nb + s.monoCnt.toNat, monoCnt := 0, st := .blocks }

/-- A block token is consumed: NB advances, ST is `blocks` again (rules R385, R390, R395). -/
def consumeBlock : M Unit := modify fun s => { s with nb := s.nb + 1, st := .blocks }

/-- `apply(op, a, b)`: the new target content and the number added to COUNT
(45_operation_engine.md rule R430). -/
def applyOp (op : SetOp) (a b : Content) : Content × Nat :=
  match op with
  | .assign => (b, 0)
  | .or => (a ||| b, 0)
  | .and => (a &&& b, 0)
  | .xor => (a ^^^ b, 0)
  | .sub => (a &&& ~~~ b, 0)
  | .count => (a, popcount b)
  | .countAnd => (a, popcount (a &&& b))
  | .countOr => (a, popcount (a ||| b))
  | .countXor => (a, popcount (a ^^^ b))
  | .countSubAB => (a, popcount (a &&& ~~~ b))
  | .countSubBA => (a, popcount (b &&& ~~~ a))
  | .countA => (a, popcount a)
  | .countB => (a, popcount b)

/-- `get_bit_block(dst, tmp, op)` (rule R385), `b` being the token's content, which `tmp`, TEMP_BLOCK, holds
materialised (10_state.md rule R47): what `dst` becomes, and the count. No `dst` is a dry read (rule
R400). -/
def getBitBlock (dst : Option Content) (op : SetOp) (b : Content) : M (Option Content × Nat) := do
  requireSt (fun st => st = .bitBlock)
  writeTemp b
  consumeBlock
  return (dst.map (fun a => (applyOp op a b).1), (applyOp op (dst.getD Content.zero) b).2)

/-- `get_gap_block(dst)` (rule R390), `b` being the token's content: `dst` (IDX_ARR in the engine) gets
the endpoints of `to_gap(b)` in its first elements. The start value is in no scratch array: the spec does not say
where it is held, and the engine takes it from the content (DESIGN CHOICE, assumption 25). -/
def getGapBlock (materialise : Bool) (b : Content) : M Content := do
  requireSt (fun st => st = .gapBlock)
  if materialise then writeIdx ((toGap b).2.map (BitVec.ofNat 16))
  consumeBlock
  return b

/-- `get_arr_bit(dst, clear_target)` (rule R395), the indices being the token's: what `dst` becomes, and
the number of indices. -/
def getArrBit (dst : Option Content) (clear : Bool) (idx : List U16) : M (Option Content × Nat) := do
  let s ← get
  if s.st ≠ .bitBlock ∨ s.blockType ≠ 16#8 then failPre .protocol
  if rises idx = false then failPre .malformed
  consumeBlock
  return (dst.map (fun a => (if clear then Content.zero else a) ||| setOf (idx.map BitVec.toNat)),
    idx.length)

end Sys2Proof.Machine
end

