-- ==== Sys2Proof/Machine/Engine.lean ====
section
/-! DEFINITION. The operation engine C9 (45_operation_engine.md): block tokens, run tokens,
finalization, range mode and id lists. -/

namespace Sys2Proof.Machine

/-! ### Block tokens -/

/-- COUNT grows (rule R430). -/
def addCount (k : Nat) : M Unit := modify fun s => { s with count := s.count + BitVec.ofNat 64 k }

/-- The slot `do_bit_block` leaves for an operation that is not a counting one (rules R441, R442): a
target that is ZERO takes the allocated block or stays empty, another one is combined and its form
drawn, draw `d`. -/
def bitResultSlot (d : Nat) (op : SetOp) (a b : Content) : Slot :=
  if a = Content.zero then
    match op with
    | .assign => .bit b
    | .or => .bit b
    | .xor => .bit b
    | _ => .empty
  else .drawn d (applyOp op a b).1

/-- A content stored as a GAP if the largest level admits it, else as a bit block (rule R446). -/
def gapOrBit (p : Params) (b : Content) : Slot :=
  let g := toGap b
  if g.2.length + 1 ≤ p.gapMaxLen then .gap (BlockStore.gapCalcLevel p (g.2.length + 1)) g.1 g.2
  else .bit b

/-- The slot `do_gap_block` leaves for an operation that is not a counting one (rule R446). -/
def gapResultSlot (p : Params) (d : Nat) (op : SetOp) (a b : Content) : Slot :=
  if a = Content.zero ∧ (op = .or ∨ op = .xor) then gapOrBit p b else .drawn d (applyOp op a b).1

/-- `do_bit_block()` (rule R441), `b` being the token's content. A counting operation leaves the slot as it
is: its `BS.deoptimize` "must not be observable" (assumption 13). -/
def doBitBlock (b : Content) : M Unit := do
  let s ← get
  let a := s.bs.content s.nb
  let d ← draw
  let r ← getBitBlock (some a) s.eop b
  if isCounting s.eop then addCount r.2
  else onStore fun _ bs => bs.put s.nb (bitResultSlot d s.eop a b)

/-- `do_gap_block()` (rule R446), `b` being the token's content. -/
def doGapBlock (b : Content) : M Unit := do
  let s ← get
  let a := s.bs.content s.nb
  let d ← draw
  let b' ← getGapBlock true b
  if isCounting s.eop then addCount (applyOp s.eop a b').2
  else onStore fun p bs => bs.put s.nb (gapResultSlot p d s.eop a b')

/-- The content-level rule for one block (rule R440), used for the blocks of an id list (rule R470). -/
def doContent (b : Content) : M Unit := do
  let s ← get
  let a := s.bs.content s.nb
  let d ← draw
  if isCounting s.eop then addCount (applyOp s.eop a b).2
  else onStore fun _ bs => bs.put s.nb (.drawn d (applyOp s.eop a b).1)
  modify fun s => { s with nb := s.nb + 1 }

/-! ### Run tokens -/

/-- What a zero run of blocks `nb .. nb+n-1` adds to COUNT (rule R450). -/
def zeroRunCount (op : SetOp) (bs : BlockStore) (nb n : Nat) : Nat :=
  match op with
  | .countA => bs.countRange nb n
  | .countOr => bs.countRange nb n
  | .countXor => bs.countRange nb n
  | .countSubAB => bs.countRange nb n
  | _ => 0

/-- What a zero run does to the target (rule R450). -/
def zeroRunStore (op : SetOp) (nb n : Nat) (bs : BlockStore) : BlockStore :=
  match op with
  | .and => bs.zero nb n
  | _ => bs

/-- `do_zero_run(nb, n)` (rule R450). -/
def doZeroRun (nb n : Nat) : M Unit := do
  let s ← get
  addCount (zeroRunCount s.eop s.bs nb n)
  onStore fun _ bs => zeroRunStore s.eop nb n bs

/-- What a one run of blocks `nb .. nb+n-1` adds to COUNT (rule R451). -/
def oneRunCount (op : SetOp) (bs : BlockStore) (nb n : Nat) : Nat :=
  match op with
  | .count => 65536 * n
  | .countB => 65536 * n
  | .countA => bs.countRange nb n
  | .countAnd => bs.countRange nb n
  | .countOr => 65536 * n
  | .countXor => 65536 * n - bs.countRange nb n
  | .countSubBA => 65536 * n - bs.countRange nb n
  | _ => 0

/-- What a one run does to the target (rule R451), the forms of complemented blocks draw `d`. -/
def oneRunStore (op : SetOp) (d nb n : Nat) (bs : BlockStore) : BlockStore :=
  match op with
  | .assign => bs.setAllSet nb n
  | .or => bs.setAllSet nb n
  | .xor => bs.flipRange d nb n
  | .sub => bs.zero nb n
  | _ => bs

/-- `do_one_run(nb, n)` (rule R451). -/
def doOneRun (nb n : Nat) : M Unit := do
  let s ← get
  let d ← draw
  addCount (oneRunCount s.eop s.bs nb n)
  onStore fun _ bs => oneRunStore s.eop d nb n bs

/-! ### Finalization and range mode -/

/-- `finalize(NB)` (rule R460). -/
def finalize : M Unit := do
  let s ← get
  if s.nb < s.params.totalBlocks then doZeroRun s.nb (s.params.totalBlocks - s.nb)

/-- `premask()` (rule R465): the target is masked with `[from .. to]`. -/
def premaskStore (total d : Nat) (f t : Nat) (bs : BlockStore) : BlockStore :=
  let fb := f / 65536
  let tb := t / 65536
  let bs := bs.zero 0 fb
  let bs := bs.putContent d fb (bs.content fb &&& maskRange (f % 65536) 65536)
  let bs := bs.putContent (d + 1) tb (bs.content tb &&& maskRange 0 (t % 65536 + 1))
  bs.zero (tb + 1) (total - tb - 1)

/-- `premask()` on the machine. -/
def premask : M Unit := do
  let s ← get
  let d ← draw
  let _ ← draw
  onStore fun p bs => premaskStore p.totalBlocks d s.rangeFrom.toNat s.rangeTo.toNat bs

/-- The head of `op_deserialize()` after `it_init()` (rules R431, R432, R465). RANGE_DESERIALIZE ignores
OP (46_host_commands.md rule R504). -/
def beginOperation : M Unit := do
  modify fun s => { s with count := 0 }
  let s ← get
  if s.rangeSet then
    premask
    modify fun s => { s with eop := .and }
  else
    match setOpOf s.op with
    | none => failPre .config
    | some op =>
      if op = .assign then
        onStore fun p bs => bs.clear p
        modify fun s => { s with eop := .or }
      else modify fun s => { s with eop := op }

/-- The loop's two exits after a token (rules R431, R455, R465). -/
def exitsNow (s : State) : Bool :=
  (exitOnOne s.op && decide (s.count ≠ 0)) ||
    (s.rangeSet && decide (s.rangeTo.toNat / 65536 < s.nb))

/-- `out:` of rule R431: RESULT_COUNT is COUNT, and 0 for RANGE_DESERIALIZE (46_host_commands.md rule
R504). -/
def finishOperation : M Unit := do
  let s ← get
  finishCount (if s.rangeSet then 0 else s.count)

/-! ### Id lists (rule R470) -/

/-- Read the ids left, with `next()` (44_stream_iterator.md rule R373), then EOS. -/
def readIds : Nat → M (List U32)
  | 0 => do
    modify setEos
    return []
  | n + 1 => do
    let id ← onStream getU32
    modify fun s => { s with lastId := id, idCnt := s.idCnt - 1 }
    let ids ← readIds n
    return id :: ids

/-- Add one listed bit to a vector given as its non-zero blocks in increasing order. -/
def addListed (j p : Nat) : List (Nat × Content) → List (Nat × Content)
  | [] => [(j, bitAt p)]
  | (k, c) :: r =>
    if j < k then (j, bitAt p) :: (k, c) :: r
    else if j = k then (k, c ||| bitAt p) :: r
    else (k, c) :: addListed j p r

/-- The vector of an id list as its non-zero blocks in increasing order (rule R470). -/
def listedVector (ids : List U32) : List (Nat × Content) :=
  ids.foldl (fun v id => addListed (id.toNat / 65536) (id.toNat % 65536) v) []

/-- Operate with the non-zero blocks of a vector and the zero runs between them, as with the tokens of a
stream (rules R431, R470); the answer is whether the loop was left early. -/
def doVector : List (Nat × Content) → M Bool
  | [] => return false
  | (j, c) :: r => do
    let s ← get
    if s.nb < j then
      doZeroRun s.nb (j - s.nb)
      modify fun s => { s with nb := j }
      if exitsNow (← get) then return true
    doContent c
    if exitsNow (← get) then return true
    doVector r

/-- `do_id_list()` (rule R470) and the end of the command. ST stays `list_ids`, and NB stands just past the last
block the list names, or where the list was left: U18 leaves both open after a command (DEDUCED, assumptions 29,
36). -/
def doIdList : M Unit := do
  let ids ← readIds (← get).idCnt.toNat
  if !(← doVector (listedVector ids)) then finalize
  finishOperation

end Sys2Proof.Machine
end

