-- ==== Sys2Proof/Machine/Operands.lean ====
section
/-! DEFINITION. `token_content`: the block content each block token denotes (43_block_decoder.md rules
R321 to R348), once for every operand form, as a function of the fields the decoder read. No value
means `fault PRECOND(malformed)`. -/

namespace Sys2Proof.Machine

/-- What a block token denotes: its content, the (start, E) of a GAP-headed token (rule R307), and the
list its rule leaves in IDX_ARR. -/
structure BlockOperand where
  content : Content
  headed : Option (Bool × List Nat)
  idx : Option (List U16)
  deriving DecidableEq, Repr

/-- A token that uses no index array and has no GAP header. -/
def plainOperand (c : Content) : BlockOperand := { content := c, headed := none, idx := none }

/-! ### Lists of positions -/

/-- `return s if inv = 0 else ONES minus s` for the set of the listed positions (rules R326, R331, R338,
R341). -/
def listedContent (inv : Bool) (xs : List U16) : Content :=
  if inv then ~~~ setOf (xs.map BitVec.toNat) else setOf (xs.map BitVec.toNat)

/-- A list of positions as an operand: IDX_ARR holds it. -/
def listedOperand (inv : Bool) (xs : List U16) : BlockOperand :=
  { content := listedContent inv xs, headed := none, idx := some xs }

/-- `idx_array_content(inv)` (rule R326), for tags 16, 18, 24, 30. -/
def idxArrayOperand (inv : Bool) (xs : List U16) : Option BlockOperand :=
  if rises xs then some (listedOperand inv xs) else none

/-- The positions whose gamma-coded values are given, the first being at least `lo`: each value is one
more than the distance from the position after the one before (rules R122, R131). -/
def gammaPositions (lo : Nat) : List U32 → List Nat
  | [] => []
  | g :: gs => (lo + g.toNat - 1) :: gammaPositions (lo + g.toNat) gs

/-- `arrgap_egamma_content(inv)` (rule R331), for tags 21, 23. -/
def arrGammaOperand (inv : Bool) (n : U32) (gs : List U32) : Option BlockOperand :=
  if wfArrGamma n gs then
    some (listedOperand inv ((gammaPositions 0 gs).map (BitVec.ofNat 16)))
  else none

/-- `arrgap_bienc_content(inv)` (rule R338), for tags 28, 29. A part that does not fit `[mn, mx]` is
delivered with too few values (`bic_decode_u16` faults, 40_bitcodec.md rule R182); `min > max` is such a
part. -/
def arrBicOperand (inv : Bool) (mn mx : U16) (n4 : U32) (inner : List U16) : Option BlockOperand :=
  if 1 ≤ n4.toNat ∧ n4.toNat + 4 ≤ 65536 ∧ mn.toNat ≤ mx.toNat ∧ inner.length = n4.toNat + 2 then
    some (listedOperand inv (mn :: inner ++ [mx]))
  else none

/-- `arr_bienc_content(inv)` (rule R341), for tags 31, 32. `min > max` is malformed whatever `sz` is
(60_exceptions.md rule R524; assumption 21). -/
def arrBiencOperand (inv : Bool) (mn mx sz : U16) (inner : List U16) : Option BlockOperand :=
  if 2 ≤ sz.toNat ∧ mn.toNat ≤ mx.toNat ∧ inner.length = sz.toNat - 2 then
    some (listedOperand inv (mn :: inner ++ [mx]))
  else none

/-! ### GAP forms -/

/-- `gap_content(start, E)` (rule R348). -/
def gapContent (start : Bool) (ends : List Nat) : Option Content :=
  if gapEndsOk ends then some (gapRuns start 0 ends) else none

/-- `start = head & 1` (30_encoding.md rule R132). -/
def gapStart (head : U16) : Bool := head.getLsbD 0

/-- A GAP-headed token with its endpoints but the terminal one, which is 65535, and what its rule leaves in
IDX_ARR. -/
def headedOperand (head : U16) (ends : List Nat) (idx : Option (List U16)) : Option BlockOperand :=
  let es := ends ++ [65535]
  match gapContent (gapStart head) es with
  | some c => some { content := c, headed := some (gapStart head, es), idx := idx }
  | none => none

/-- Tag 14 (rule R324). -/
def gapOperand (head : U16) (ends : List U16) : Option BlockOperand :=
  if 1 ≤ gapCount head ∧ ends.length = gapCount head - 1 then
    headedOperand head (ends.map BitVec.toNat) none
  else none

/-- Tag 20 (rule R330). -/
def gapEgammaOperand (head : U16) (gs : List U32) : Option BlockOperand :=
  if 1 ≤ gapCount head ∧ gs.length = gapCount head - 1 ∧ gammasOk gs = true then
    headedOperand head (gammaPositions 0 gs) none
  else none

/-- Tag 27 (rule R337), whose BIC part is decoded in IDX_ARR (10_state.md rule R48). -/
def gapBiencOperand (head mn : U16) (ends : List U16) : Option BlockOperand :=
  if 2 ≤ gapCount head ∧ ends.length = gapCount head - 2 then
    headedOperand head (mn.toNat :: ends.map BitVec.toNat) (some (mn :: ends ++ [65535#16]))
  else none

/-- Tag 33 (rule R343). -/
def bitgapBiencOperand (start : Byte) (sz mn : U16) (ends : List U16) : Option BlockOperand :=
  if start.toNat ≤ 1 ∧ 2 ≤ sz.toNat ∧ ends.length = sz.toNat - 2 then
    let es := mn :: ends ++ [65535#16]
    match gapContent (decide (start.toNat = 1)) (es.map BitVec.toNat) with
    | some c => some { content := c, headed := none, idx := some es }
    | none => none
  else none

/-! ### Bit forms -/

/-- Tag 11 (rule R321). -/
def bitOperand (words : List U32) : Option BlockOperand :=
  if words.length = 2048 then some (plainOperand (contentOfWords 0 words)) else none

/-- Tag 17 (rule R327). -/
def bitIntervalOperand (head tail : U16) (words : List U32) : Option BlockOperand :=
  if head.toNat ≤ tail.toNat ∧ tail.toNat ≤ 2047 ∧ words.length = tail.toNat - head.toNat + 1 then
    some (plainOperand (contentOfWords head.toNat words))
  else none

/-- Tag 19 (rule R329). -/
def bit1bitOperand (pos : U16) : BlockOperand := plainOperand (bitAt pos.toNat)

/-- The words of the runs from word index `k` on (rule R332). -/
def runsContent (k : Nat) : List (U16 × List U32) → Content
  | [] => 0
  | (len, ws) :: rs => contentOfWords k ws ||| runsContent (k + len.toNat) rs

/-- Tag 22 (rule R332). -/
def bit0runsOperand (start : Byte) (runs : List (U16 × List U32)) : Option BlockOperand :=
  if start.toNat ≤ 1 ∧ runsOk (decide (start.toNat = 1)) 2048 runs = true then
    some (plainOperand (runsContent 0 runs))
  else none

/-- The waves a digest flags, in increasing order (rule R344). -/
def digestList (d : U64) : List Nat := (List.range 64).filter (fun j => d.getLsbD j)

/-- The words of the given waves, 32 for each (rule R344). -/
def wavesContent : List Nat → List U32 → Content
  | [], _ => 0
  | j :: js, ws => contentOfWords (32 * j) (ws.take 32) ||| wavesContent js (ws.drop 32)

/-- Tag 34 (rule R344). -/
def bitDigest0Operand (digest : U64) (words : List U32) : Option BlockOperand :=
  if words.length = 32 * digestWaves digest then
    some (plainOperand (wavesContent (digestList digest) words))
  else none

/-! ### Every block token -/

/-- `token_content(t)` for every block token; no value for an instruction that is no block token, and
for a malformed payload. -/
def tokenOperand : Instr → Option BlockOperand
  | .bit words => bitOperand words
  | .gap head ends => gapOperand head ends
  | .arrbit idx => idxArrayOperand false idx
  | .bitInterval head tail words => bitIntervalOperand head tail words
  | .arrgap idx => idxArrayOperand false idx
  | .bit1bit pos => some (bit1bitOperand pos)
  | .gapEgamma head gs => gapEgammaOperand head gs
  | .arrgapEgamma n gs => arrGammaOperand false n gs
  | .bit0runs start runs => bit0runsOperand start runs
  | .arrgapEgammaInv n gs => arrGammaOperand true n gs
  | .arrgapInv idx => idxArrayOperand true idx
  | .gapBienc head mn ends => gapBiencOperand head mn ends
  | .arrgapBienc mn mx n4 inner => arrBicOperand false mn mx n4 inner
  | .arrgapBiencInv mn mx n4 inner => arrBicOperand true mn mx n4 inner
  | .arrbitInv idx => idxArrayOperand true idx
  | .arrBienc mn mx sz inner => arrBiencOperand false mn mx sz inner
  | .arrBiencInv mn mx sz inner => arrBiencOperand true mn mx sz inner
  | .bitgapBienc start sz mn ends => bitgapBiencOperand start sz mn ends
  | .bitDigest0 digest words => bitDigest0Operand digest words
  | .endOfStream => none
  | .zero1 => none
  | .one1 => none
  | .zero8 _ => none
  | .one8 _ => none
  | .zero16 _ => none
  | .one16 _ => none
  | .zero32 _ => none
  | .one32 _ => none
  | .azero => none
  | .aone => none
  | .sgapbit => none
  | .sgapgap => none
  | .gapbit => none
  | .zero64 _ => none
  | .one64 _ => none
  | .zskip _ => none
  | .unassigned _ => none
  | .streamHeader _ => none
  | .serialize => none
  | .serializeDestroy => none
  | .deserialize => none
  | .opDeserialize => none
  | .rangeDeserialize => none

end Sys2Proof.Machine
end

