-- ==== Sys2Proof/Machine/Blocks.lean ====
section
/-! DEFINITION. What a block token does once its content is known: `merge_block` and its in-place forms
for DESERIALIZE (43_block_decoder.md rules R307, R308, R321, R344, R345), the engine's block rules for
an operation (45_operation_engine.md rules R441, R446). -/

namespace Sys2Proof.Machine

/-! ### Merging -/

/-- The slot an EMPTY block takes (rule R307): the GAP of a GAP-headed token that the largest level admits,
else the bit block. -/
def freshSlot (p : Params) (b : BlockOperand) : Slot :=
  match b.headed with
  | some (start, es) =>
    if es.length + 1 ≤ p.gapMaxLen then
      .gap (BlockStore.gapCalcLevel p (es.length + 1)) start es
    else .bit b.content
  | none => .bit b.content

/-- The slot `merge_block` leaves at block `nb` (rule R307): a block of kind EMPTY takes the token's own
slot, any other holds the union in a form draw `d`. -/
def mergeSlot (p : Params) (d nb : Nat) (old : Slot) (b : BlockOperand) : Slot :=
  if old.kind p nb = .empty then freshSlot p b else .drawn d (old.content nb ||| b.content)

/-- A bit block after an in-place OR: an all-ones block may become FULL, its form is drawn (rule R345); where
no pass of `get_u32_OR` ran, it stays the bit block it was. -/
def orredSlot (ran : Bool) (d : Nat) (c : Content) : Slot :=
  if ran = true ∧ c = Content.ones then .drawn d c else .bit c

/-- `merge_block(NB, c)`, and NB advances (rules R307, R308). A content to be ORed with what the block holds
is materialised in TEMP_BLOCK (10_state.md rule R47). -/
def mergeBlock (b : BlockOperand) : M Unit := do
  let d ← draw
  modify fun s =>
    { s with
      bs := s.bs.put s.nb (mergeSlot s.params d s.nb (s.bs.at' s.nb) b)
      tempBlock := if s.bs.kind s.params s.nb = .empty then s.tempBlock else b.content
      nb := s.nb + 1 }

/-- A block of kind BIT is ORed in place with `get_u32_OR`, whose result and ALLONE are given, and NB
advances; `ran` says whether any pass ran (rules R321, R344, R345). -/
def mergeInPlace (ran : Bool) (r : Content × Bool) : M Unit := do
  let d ← draw
  modify fun s =>
    { s with bs := s.bs.put s.nb (orredSlot ran d r.1), allone := r.2, nb := s.nb + 1 }

/-- The merge of tag 11 (rule R321): a block of kind BIT is ORed in place. -/
def mergeBit (words : List U32) (b : BlockOperand) : M Unit := do
  let s ← get
  if s.bs.kind s.params s.nb = .bit then mergeInPlace true (fusedOr (s.bs.content s.nb) 0 words)
  else mergeBlock b

/-- `get_u32_OR` on each flagged wave in order: the target, and ALLONE after the last (rule R344). -/
def orWaves : List Nat → List U32 → Content × Bool → Content × Bool
  | [], _, r => r
  | j :: js, ws, r => orWaves js (ws.drop 32) (fusedOr r.1 (32 * j) (ws.take 32))

/-- The merge of tag 34 (rule R344): a block of kind BIT is ORed in place, one pass for each flagged wave. -/
def mergeDigest (digest : U64) (words : List U32) (b : BlockOperand) : M Unit := do
  let s ← get
  if s.bs.kind s.params s.nb = .bit then
    mergeInPlace (decide (digest ≠ 0)) (orWaves (digestList digest) words (s.bs.content s.nb, s.allone))
  else mergeBlock b

/-! ### A block token -/

/-- A block token (43_block_decoder.md rule R308, 44_stream_iterator.md rules R373, R377): under an operation
`next()` moves ST first; then comes its operand, which the first elements of IDX_ARR keep where its rule uses that
array, then the merge or the engine's block rule for its iterator state. A payload whose gamma or BIC code is
broken finds the bit reader already drained (assumption 36). -/
def blockToken (st : ItState) (operand : Option BlockOperand) (merge : BlockOperand → M Unit) :
    M Unit := do
  let mode ← tokenMode
  requireBlock
  if mode = .operate then nextBlock st
  let b ← orMalformed operand
  keepIdx b.idx
  match mode with
  | .merge => merge b
  | .operate =>
    if st = .bitBlock then doBitBlock b.content else doGapBlock b.content

/-- A GAP-headed token: GAP_HEAD takes the header word (rules R324, R330, R337, R373). -/
def headedToken (head : U16) (operand : Option BlockOperand) : M Unit := do
  modify fun s => { s with gapHead := head }
  blockToken .gapBlock operand mergeBlock

end Sys2Proof.Machine
end

