-- ==== Sys2Proof/Machine/BitTokens.lean ====
section
/-! DEFINITION. The block tokens of the bit family, iterator state `bit_block` (44_stream_iterator.md
rule R377): tags 11, 16, 17, 22, 30, 31, 32, 33, 34. -/

namespace Sys2Proof.Machine

/-- Tag 11 `bit` (rule R321). -/
def execBit (words : List U32) (s : State) : Host.Outcome State Fault Refusal :=
  .next (settle (blockToken .bitBlock (bitOperand words) (mergeBit words)) s)

/-- Tag 16 `arrbit` (rule R326). -/
def execArrbit (idx : List U16) (s : State) : Host.Outcome State Fault Refusal :=
  .next (settle (blockToken .bitBlock (idxArrayOperand false idx) mergeBlock) s)

/-- Tag 17 `bit_interval` (rule R327). -/
def execBitInterval (head tail : U16) (words : List U32) (s : State) :
    Host.Outcome State Fault Refusal :=
  .next (settle (blockToken .bitBlock (bitIntervalOperand head tail words) mergeBlock) s)

/-- Tag 22 `bit_0runs` (rule R332). -/
def execBit0runs (start : Byte) (runs : List (U16 × List U32)) (s : State) :
    Host.Outcome State Fault Refusal :=
  .next (settle (blockToken .bitBlock (bit0runsOperand start runs) mergeBlock) s)

/-- Tag 30 `arrbit_inv` (rule R340). -/
def execArrbitInv (idx : List U16) (s : State) : Host.Outcome State Fault Refusal :=
  .next (settle (blockToken .bitBlock (idxArrayOperand true idx) mergeBlock) s)

/-- Tag 31 `arr_bienc` (rule R341). -/
def execArrBienc (mn mx sz : U16) (inner : List U16) (s : State) :
    Host.Outcome State Fault Refusal :=
  .next (settle (blockToken .bitBlock (arrBiencOperand false mn mx sz inner) mergeBlock) s)

/-- Tag 32 `arr_bienc_inv` (rule R342). -/
def execArrBiencInv (mn mx sz : U16) (inner : List U16) (s : State) :
    Host.Outcome State Fault Refusal :=
  .next (settle (blockToken .bitBlock (arrBiencOperand true mn mx sz inner) mergeBlock) s)

/-- Tag 33 `bitgap_bienc` (rule R343). -/
def execBitgapBienc (start : Byte) (sz mn : U16) (ends : List U16) (s : State) :
    Host.Outcome State Fault Refusal :=
  .next (settle (blockToken .bitBlock (bitgapBiencOperand start sz mn ends) mergeBlock) s)

/-- Tag 34 `bit_digest0` (rule R344). -/
def execBitDigest0 (digest : U64) (words : List U32) (s : State) : Host.Outcome State Fault Refusal :=
  .next (settle
    (blockToken .bitBlock (bitDigest0Operand digest words) (mergeDigest digest words)) s)

end Sys2Proof.Machine
end

