-- ==== Sys2Proof/Machine/Classifier.lean ====
section
/-! DEFINITION. The block classifier C3 (41_classifier.md): statistics, candidates, selection, the GAP
path. -/

namespace Sys2Proof.Machine

/-! ### Statistics (rule R201) -/

/-- `digest0(c)`: bit `j` is 1 iff wave `j` is not zero. -/
def digest0 (c : Content) : U64 :=
  BitVec.ofNat 64
    (((List.range 64).map
      (fun j => if c.extractLsb' (1024 * j) 1024 = 0#1024 then 0 else 2 ^ j)).sum)

/-- The maximal runs of zero and of non-zero words: whether the run is non-zero, and its words. -/
def wordRuns : List U32 → List (Bool × List U32)
  | [] => []
  | w :: ws =>
    match wordRuns ws with
    | [] => [(decide (w ≠ 0), [w])]
    | (nz, run) :: r =>
      if nz = decide (w ≠ 0) then (nz, w :: run) :: r else (decide (w ≠ 0), [w]) :: (nz, run) :: r

/-- `nonzero_size(c)`: 2 bytes for each run and 4 for each word of a non-zero run. -/
def nonzeroSize (c : Content) : Nat :=
  ((wordRuns (contentWords c)).map (fun r => 2 + if r.1 then 4 * r.2.length else 0)).sum

/-- The number of positions with `c(i) != c(i+1)`. -/
def bitGapsOf (c : Content) : Nat := popcount (transitions c)

/-- The four statistics of a content. -/
structure Stats where
  d0 : U64
  bc : Nat
  bitGaps : Nat
  nzSize : Nat
  deriving DecidableEq, Repr

/-- All four are computed (rule R201, decision D17). -/
def statsOf (c : Content) : Stats where
  d0 := digest0 c
  bc := popcount c
  bitGaps := bitGapsOf c
  nzSize := nonzeroSize c

/-! ### Proposals -/

/-- What the classifier proposes: a block tag of rule R223 or R230, or a mono block. -/
inductive Proposal where
  | azero
  | aone
  | bit
  | gap
  | arrbit
  | arrgap
  | bit1bit
  | gapEgamma
  | arrgapEgamma
  | bit0runs
  | arrgapEgammaInv
  | arrgapInv
  | gapBienc
  | arrgapBienc
  | arrgapBiencInv
  | arrbitInv
  | arrBienc
  | arrBiencInv
  | bitgapBienc
  | bitDigest0
  deriving DecidableEq, Repr

/-- The tag of a proposal (30_encoding.md rule R111). -/
def Proposal.tag : Proposal → Byte
  | .azero => 9
  | .aone => 10
  | .bit => 11
  | .gap => 14
  | .arrbit => 16
  | .arrgap => 18
  | .bit1bit => 19
  | .gapEgamma => 20
  | .arrgapEgamma => 21
  | .bit0runs => 22
  | .arrgapEgammaInv => 23
  | .arrgapInv => 24
  | .gapBienc => 27
  | .arrgapBienc => 28
  | .arrgapBiencInv => 29
  | .arrbitInv => 30
  | .arrBienc => 31
  | .arrBiencInv => 32
  | .bitgapBienc => 33
  | .bitDigest0 => 34

/-- A candidate: its guard, its tag, its cost in bits. -/
structure Candidate where
  guard : Bool
  proposal : Proposal
  cost : Int
  deriving DecidableEq, Repr

/-- The candidates after `bit`, in the order of rules R206 to R219. -/
def candidates (p : Params) (L : Nat) (s : Stats) : List Candidate :=
  let ibc := 65536 - s.bc
  let bic := decide (L = 5)
  let gamma := decide (2 ≤ L ∧ L ≤ 4)
  let fitsGap := decide (s.bitGaps + 2 ≤ p.gapMaxLen)
  let small (n : Nat) := decide (n < s.bitGaps ∧ n < p.gapEquivLen)
  let middle (n : Nat) := decide (p.gapEquivLen ≤ n ∧ n < p.bieCutOff)
  [ ⟨decide (s.bc = 1), .bit1bit, 16⟩,
    ⟨true, .bit0runs, 8 * s.nzSize⟩,
    ⟨true, .bitDigest0, 8 * (8 + 128 * digestWaves s.d0)⟩,
    ⟨true, .arrbit, 8 * (2 + 2 * s.bc)⟩,
    ⟨true, .arrbitInv, 8 * (2 + 2 * ibc)⟩,
    ⟨bic && fitsGap, .gapBienc, 32 + ((s.bitGaps : Int) - 1) * 4⟩,
    ⟨bic && small s.bc, .arrgapBienc, 48 + s.bc * 4⟩,
    ⟨bic && small ibc, .arrgapBiencInv, 48 + ibc * 4⟩,
    ⟨bic && middle s.bc, .arrBienc, 48 + s.bc * 4⟩,
    ⟨bic && middle ibc, .arrBiencInv, 48 + ibc * 4⟩,
    ⟨bic && middle s.bitGaps, .bitgapBienc, 64 + ((s.bitGaps : Int) - 2) * 4⟩,
    ⟨gamma && fitsGap, .gapEgamma,
      p.gammaGapBase + ((s.bitGaps : Int) - 1) * p.gammaBitsPerInt⟩,
    ⟨gamma && small s.bc, .arrgapEgamma, p.gammaArrBase + s.bc * p.gammaBitsPerInt⟩,
    ⟨gamma && small ibc, .arrgapEgammaInv, p.gammaArrBase + ibc * p.gammaBitsPerInt⟩ ]

/-- Keep the first candidate with a strictly smaller cost (rule R221). -/
def selectBest (best : Proposal) (cost : Int) : List Candidate → Proposal × Int
  | [] => (best, cost)
  | c :: cs =>
    if c.guard = true ∧ c.cost < cost then selectBest c.proposal c.cost cs
    else selectBest best cost cs

/-- `classify_bit(c, L)` from the statistics: the proposal and its cost (rules R200 to R221). The cost of
a mono block is 0 (rule R202). -/
def classifyStats (p : Params) (L : Nat) (s : Stats) : Proposal × Int :=
  if s.d0 = 0 then (.azero, 0)
  else if s.bc = 65536 then (.aone, 0)
  else if L ≤ 1 then (.bit, 65536)
  else selectBest .bit 65536 (candidates p L s)

/-- `classify_bit(c, L)` (rule R200). -/
def classifyBit (p : Params) (L : Nat) (c : Content) : Proposal :=
  (classifyStats p L (statsOf c)).1

/-- `classify_bit` on the machine: the statistic registers and BEST_TAG, BEST_COST are written (rule
R200). -/
def classifyBlock (c : Content) : M Proposal := do
  let s ← get
  let st := statsOf c
  let r := classifyStats s.params (cfgLevel s.cfg) st
  set { s with
    d0 := st.d0
    bc := BitVec.ofNat 17 st.bc
    bitGaps := BitVec.ofNat 16 st.bitGaps
    nzSize := BitVec.ofNat 14 st.nzSize
    bestTag := r.1.tag
    bestCost := BitVec.ofInt 21 r.2 }
  return r.1

/-! ### The GAP path (rule R230) -/

/-- The three families of the GAP path. -/
inductive GapFamily where
  | gap
  | arrgap
  | arrgapInv
  deriving DecidableEq, Repr

/-- The member of a family at a level of 2 or more. -/
def GapFamily.member (L : Nat) : GapFamily → Proposal
  | .gap => if L ≤ 3 then .gap else if L = 4 then .gapEgamma else .gapBienc
  | .arrgap => if L ≤ 3 then .arrgap else if L = 4 then .arrgapEgamma else .arrgapBienc
  | .arrgapInv => if L ≤ 3 then .arrgapInv else if L = 4 then .arrgapEgammaInv else .arrgapBiencInv

/-- The family for a population and a GAP length. -/
def gapFamily (bc len : Nat) : GapFamily :=
  if bc + 2 ≤ len then .arrgap else if 65536 - bc + 2 ≤ len then .arrgapInv else .gap

/-- `classify_gap(start, E, L)` (rule R230). -/
def classifyGap (L : Nat) (start : Bool) (ends : List Nat) : Proposal :=
  let bc := popcount (gapRuns start 0 ends)
  if L ≤ 1 then .gap
  else if bc = 1 then .bit1bit
  else (gapFamily bc (ends.length + 1)).member L

/-- `level_map(t, L)` (42_block_encoder.md rule R256). -/
def levelMap (L : Nat) (t : Proposal) : Proposal :=
  if L = 2 ∨ L = 3 then
    match t with
    | .gapEgamma => .gap
    | .arrgapEgamma => .arrgap
    | .arrgapEgammaInv => .arrgapInv
    | t => t
  else t

end Sys2Proof.Machine
end

