-- ==== Sys2Proof/Machine/Encoder.lean ====
section
/-! DEFINITION. The block encoder C4 (42_block_encoder.md rules R247 to R268): one emitter for each form
it writes, over the primitives of C1 and C2. -/

namespace Sys2Proof.Machine

/-! ### C1 with its range checks (20_memory.md rule R64) -/

/-- `put_u16` of a natural number. -/
def putU16N (v : Nat) : Codec Unit := do
  if 65536 ≤ v then faultPre .range
  putU16 (BitVec.ofNat 16 v)

/-- `put_u32` of a natural number. -/
def putU32N (v : Nat) : Codec Unit := do
  if 2 ^ 32 ≤ v then faultPre .range
  putU32 (BitVec.ofNat 32 v)

/-- `put_u64` of a natural number. -/
def putU64N (v : Nat) : Codec Unit := do
  if 2 ^ 64 ≤ v then faultPre .range
  putU64 (BitVec.ofNat 64 v)

/-- `put_u16` of each number of a list. -/
def putU16Ns : List Nat → Codec Unit
  | [] => return ()
  | v :: vs => do
    putU16N v
    putU16Ns vs

/-- `gamma` of each number of a list. -/
def putGammas : List Nat → Codec Unit
  | [] => return ()
  | v :: vs => do
    putGamma v
    putGammas vs

/-- The distances of a rising list: from `lo` to its first element, then each from the one before. -/
def distances (lo : Nat) : List Nat → List Nat
  | [] => []
  | x :: xs => (x - lo) :: distances x xs

/-- The first value plus one, then the distances: the gamma arguments of a list (rules R260, R263). -/
def gammaArgs : List Nat → List Nat
  | [] => []
  | x :: xs => (x + 1) :: distances x xs

/-! ### Runs (rule R247) -/

/-- `emit_run(n, zero)`. -/
def emitZeroRun (n : Nat) : Codec Unit := do
  if n = 1 then putU8 1
  else if n ≤ 127 then putU8 (0x80#8 ||| BitVec.ofNat 8 n)
  else if n ≤ 255 then do putU8 3; putU8 (BitVec.ofNat 8 n)
  else if n ≤ 65535 then do putU8 5; putU16N n
  else if n < 2 ^ 32 then do putU8 7; putU32N n
  else do putU8 25; putU64N n

/-- `emit_run(n, one)`. -/
def emitOneRun (n : Nat) : Codec Unit := do
  if n = 1 then putU8 2
  else if n ≤ 255 then do putU8 4; putU8 (BitVec.ofNat 8 n)
  else if n ≤ 65535 then do putU8 6; putU16N n
  else if n < 2 ^ 32 then do putU8 8; putU32N n
  else do putU8 26; putU64N n

/-! ### Emitters without bit codes -/

/-- `emit_bit(c)` (rule R252). -/
def emitBit (c : Content) : Codec Unit := putPrefixedU32Array 11 (contentWords c)

/-- `emit_1bit(p)` (rule R253). -/
def emit1bit (p : Nat) : Codec Unit := do
  putU8 19
  putU16N p

/-- The runs of `emit_0runs`. -/
def emitRuns : List (Bool × List U32) → Codec Unit
  | [] => return ()
  | (nz, ws) :: rs => do
    putU16N ws.length
    if nz then putU32Array ws
    emitRuns rs

/-- `emit_0runs(c)` (rule R254). -/
def emit0runs (c : Content) : Codec Unit := do
  putU8 22
  putU8 (if wordAt c 0 = 0 then 0 else 1)
  emitRuns (wordRuns (contentWords c))

/-- The flagged waves of `emit_digest0`. -/
def emitWaves (c : Content) : List Nat → Codec Unit
  | [] => return ()
  | j :: js => do
    putU32Array (wordsFrom c (32 * j) 32)
    emitWaves c js

/-- `emit_digest0(c)` (rule R255). -/
def emitDigest0 (c : Content) : Codec Unit := do
  putU8 34
  putU64 (digest0 c)
  emitWaves c (digestList (digest0 c))

/-- `emit_arrbit(tag, n)` (rule R257), and the plain forms of rule R263, over IDX_ARR. -/
def emitPlainArr (tag : Byte) (idx : List Nat) : Codec Unit :=
  putPrefixedU16Array tag (idx.map (BitVec.ofNat 16)) true

/-! ### Forms with bit codes, before rollback -/

/-- The GAP header word `(m << 3) | (level << 1) | start` (rules R260, R132). -/
def gapHeadWord (m : Nat) (level : Fin 4) (start : Bool) : Nat :=
  m * 8 + level.val * 2 + (if start then 1 else 0)

/-- Plain `gap` (rule R260); `ends` holds every endpoint, the terminal one last. -/
def emitPlainGap (level : Fin 4) (start : Bool) (ends : List Nat) : Codec Unit := do
  putU8 14
  putU16N (gapHeadWord ends.length level start)
  putU16Ns ends.dropLast

/-- `gap_egamma` (rule R260). -/
def attemptGapEgamma (level : Fin 4) (start : Bool) (ends : List Nat) : Codec Unit := do
  putU8 20
  putU16N (gapHeadWord ends.length level start)
  putGammas (gammaArgs ends.dropLast)
  flush

/-- `gap_bienc` (rule R260). -/
def attemptGapBienc (level : Fin 4) (start : Bool) (ends : List Nat) : Codec Unit := do
  putU8 27
  putU16N (gapHeadWord ends.length level start)
  putU16N (ends.getD 0 0)
  bicEncode (ends.dropLast.drop 1) (ends.getD 0 0) 65535
  flush

/-- `arrgap_egamma`, `arrgap_egamma_inv` (rule R263). -/
def attemptArrGamma (tag : Byte) (idx : List Nat) : Codec Unit := do
  putU8 tag
  putGamma idx.length
  putGammas (gammaArgs idx)
  flush

/-- The indices strictly between the first and the last. -/
def interior (idx : List Nat) : List Nat := (idx.drop 1).dropLast

/-- `arrgap_bienc`, `arrgap_bienc_inv` with at least 5 indices (rule R264). -/
def attemptArrBic (tag : Byte) (idx : List Nat) : Codec Unit := do
  putU8 tag
  putU16N (idx.getD 0 0)
  putU16N (idx.getLastD 0)
  putGamma (idx.length - 4)
  bicEncode (interior idx) (idx.getD 0 0) (idx.getLastD 0)
  flush

/-- `arr_bienc`, `arr_bienc_inv` (rule R266). -/
def attemptArrBienc (tag : Byte) (idx : List Nat) : Codec Unit := do
  putU8 tag
  putU16N (idx.getD 0 0)
  putU16N (idx.getLastD 0)
  putU16N idx.length
  bicEncode (interior idx) (idx.getD 0 0) (idx.getLastD 0)
  flush

/-- `bitgap_bienc` (rule R267). -/
def attemptBitgap (start : Bool) (ends : List Nat) : Codec Unit := do
  putU8 33
  putU8 (if start then 1 else 0)
  putU16N ends.length
  putU16N (ends.getD 0 0)
  bicEncode (ends.dropLast.drop 1) (ends.getD 0 0) 65535
  flush

/-! ### Rollback (rule R262) -/

/-- A speculative emission: POS0 is saved, the compressed form is written, and if its token took more
bytes than the fallback's POS goes back, ROLLED is set and the fallback is written over it. -/
def speculate (attempt : Codec Unit) (fallbackBytes : Nat) (fallback : Codec Unit) : M Unit := do
  modify fun s => { s with pos0 := s.stream.pos }
  onStream attempt
  let s ← get
  if fallbackBytes < s.stream.pos - s.pos0 then
    onStream (setPos s.pos0)
    modify setRolled
    onStream fallback

/-- `emit_gap(t, level, start, E)` (rule R260). -/
def emitGap (t : Proposal) (level : Fin 4) (start : Bool) (ends : List Nat) : M Unit :=
  let plain := emitPlainGap level start ends
  match t with
  | .gapEgamma => speculate (attemptGapEgamma level start ends) (1 + 2 * ends.length) plain
  | .gapBienc => speculate (attemptGapBienc level start ends) (1 + 2 * ends.length) plain
  | _ => onStream plain

/-- `IDX_ARR <- ..`: the conversion of a block to an index array or to GAP endpoints, which uses TEMP_BLOCK
(rule R258; 10_state.md rules R47, R48). -/
def loadIdx (idx : List Nat) : M Unit := do
  useTemp
  writeIdx (idx.map (BitVec.ofNat 16))

/-- `emit_arrgap(t, n)` over IDX_ARR (rules R263, R264). -/
def emitArrgap (t : Proposal) (idx : List Nat) : M Unit :=
  match t with
  | .arrgapEgamma => speculate (attemptArrGamma 21 idx) (3 + 2 * idx.length) (emitPlainArr 18 idx)
  | .arrgapEgammaInv => speculate (attemptArrGamma 23 idx) (3 + 2 * idx.length) (emitPlainArr 24 idx)
  | .arrgapBienc =>
    if idx.length < 5 then onStream (emitPlainArr 18 idx)
    else speculate (attemptArrBic 28 idx) (3 + 2 * idx.length) (emitPlainArr 18 idx)
  | .arrgapBiencInv =>
    if idx.length < 5 then onStream (emitPlainArr 24 idx)
    else speculate (attemptArrBic 29 idx) (3 + 2 * idx.length) (emitPlainArr 24 idx)
  | .arrgapInv => onStream (emitPlainArr 24 idx)
  | _ => onStream (emitPlainArr 18 idx)

/-- `emit_arr_bienc(tag, n, c)` (rule R266). -/
def emitArrBienc (tag : Byte) (idx : List Nat) (c : Content) : M Unit :=
  speculate (attemptArrBienc tag idx) 8193 (emitBit c)

/-- `emit_bitgap_bienc(start, E, c)` (rule R267). -/
def emitBitgap (start : Bool) (ends : List Nat) (c : Content) : M Unit :=
  speculate (attemptBitgap start ends) 8193 (emitBit c)

/-! ### Dispatch -/

/-- The emission of a content by a proposal; GAP forms carry a level and endpoints (rules R250,
R251). -/
def emitAs (t : Proposal) (level : Fin 4) (start : Bool) (ends : List Nat) (c : Content) : M Unit :=
  match t with
  | .azero => return ()
  | .aone => return ()
  | .bit => onStream (emitBit c)
  | .gap => emitGap .gap level start ends
  | .gapEgamma => emitGap .gapEgamma level start ends
  | .gapBienc => emitGap .gapBienc level start ends
  | .bit1bit => onStream (emit1bit ((positions c).getD 0 0))
  | .bit0runs => onStream (emit0runs c)
  | .bitDigest0 => onStream (emitDigest0 c)
  | .arrbit => do loadIdx (positions c); onStream (emitPlainArr 16 (positions c))
  | .arrbitInv => do loadIdx (positions (~~~ c)); onStream (emitPlainArr 30 (positions (~~~ c)))
  | .arrgap => do loadIdx (positions c); emitArrgap .arrgap (positions c)
  | .arrgapEgamma => do loadIdx (positions c); emitArrgap .arrgapEgamma (positions c)
  | .arrgapBienc => do loadIdx (positions c); emitArrgap .arrgapBienc (positions c)
  | .arrgapInv => do loadIdx (positions (~~~ c)); emitArrgap .arrgapInv (positions (~~~ c))
  | .arrgapEgammaInv => do
    loadIdx (positions (~~~ c))
    emitArrgap .arrgapEgammaInv (positions (~~~ c))
  | .arrgapBiencInv => do
    loadIdx (positions (~~~ c))
    emitArrgap .arrgapBiencInv (positions (~~~ c))
  | .arrBienc => do loadIdx (positions c); emitArrBienc 31 (positions c) c
  | .arrBiencInv => do loadIdx (positions (~~~ c)); emitArrBienc 32 (positions (~~~ c)) c
  | .bitgapBienc => do
    loadIdx ends
    emitBitgap start ends c

/-- `emit_gap_block(nb)` on a slot `GAP(level, start, E)` (rule R250); the classifier's GAP path writes BC, but
at levels 0 and 1, where it returns before that (41_classifier.md rule R230; assumption 33). -/
def emitGapBlock (level : Fin 4) (start : Bool) (ends : List Nat) : M Unit := do
  let s ← get
  if 2 ≤ cfgLevel s.cfg then
    modify fun s => { s with bc := BitVec.ofNat 17 (popcount (gapRuns start 0 ends)) }
  emitAs (classifyGap (cfgLevel s.cfg) start ends) level start ends (gapRuns start 0 ends)

/-- A form a bit block is converted to a GAP for, besides `bitgap_bienc` (rules R251, R258). -/
def convertsToGap : Proposal → Bool
  | .gap => true
  | .gapEgamma => true
  | .gapBienc => true
  | _ => false

/-- `emit_bit_block(nb)` on a content (rules R251, R256, R258). -/
def emitBitBlock (c : Content) : M Unit := do
  let t ← classifyBlock c
  let s ← get
  let g := toGap c
  let t := levelMap (cfgLevel s.cfg) t
  if convertsToGap t then loadIdx g.2
  emitAs t 0 g.1 g.2 c

end Sys2Proof.Machine
end

