-- ==== Sys2Proof/Machine/Serializer.lean ====
section
/-! DEFINITION. The serializer driver C6: the header (30_encoding.md rule R106) and the body
(42_block_encoder.md rule R240). -/

namespace Sys2Proof.Machine

/-- The flags byte the encoder writes (rule R106). -/
def headerFlags (p : Params) (size : Nat) (cfg : U64) : Byte :=
  (if size = p.sizeDefault then 0x01#8 else 0x02#8) ||| (if cfgBo cfg then 0x00#8 else 0x08#8) |||
    (if cfgGapl cfg then 0x00#8 else 0x10#8) ||| (if p.aw = .w48 then 0x20#8 else 0x00#8)

/-- The header (rule R106). -/
def writeHeader (p : Params) (size : Nat) (cfg : U64) : Codec Unit := do
  putU8 (headerFlags p size cfg)
  if cfgBo cfg then putU8 1
  if cfgGapl cfg then putU16Ns [p.gapLevel0, p.gapLevel1, p.gapLevel2, p.gapLevel3]
  if size ≠ p.sizeDefault then
    if p.aw = .w48 then putU64N size else putU32N size

/-- The header on the machine; HDR_FLAGS holds the byte as written (10_state.md rule R22). -/
def emitHeader : M Unit := do
  let s ← get
  set { s with hdrFlags := headerFlags s.params s.bsSize s.cfg }
  onStream (writeHeader s.params s.bsSize s.cfg)

/-- Where the body stands after one turn of its loop: to be continued, left by `break`, or left by
`goto done` (rule R240). -/
inductive Turn where
  | again
  | leave
  | done
  deriving DecidableEq, Repr

/-- NB takes a value. -/
def setNb (j : Nat) : M Unit := modify fun s => { s with nb := j }

/-- One turn of the loop (rule R240). -/
def bodyTurn (destroy : Bool) : M Turn := do
  let s ← get
  let nb := s.nb
  let total := s.params.totalBlocks
  let c := s.bs.content nb
  if c = Content.zero then
    let j := s.bs.nextNonzero s.params nb
    if j = total then
      onStream (putU8 9)
      return .done
    onStream (emitZeroRun (j - nb))
    setNb j
    return .again
  if c = Content.ones then
    let j := s.bs.nextNotOnes s.params nb
    if destroy then onStore fun _ bs => bs.zero nb (j - nb)
    if j = total then
      onStream (putU8 10)
      setNb j
      return .leave
    onStream (emitOneRun (j - nb))
    setNb j
    return .again
  modify clearRolled
  match s.bs.slot s.params nb with
  | .gap level start ends => emitGapBlock level start ends
  | _ => emitBitBlock c
  if destroy then onStore fun _ bs => bs.zero nb 1
  setNb (nb + 1)
  return .again

/-- The loop (rule R240), at most `fuel` turns; each turn advances NB, so TOTAL_BLOCKS + 1 turns are never
too few. -/
def bodyLoop (destroy : Bool) : Nat → M Unit
  | 0 => return ()
  | fuel + 1 => do
    let s ← get
    if s.params.totalBlocks ≤ s.nb then onStream (putU8 0)
    else
      match ← bodyTurn destroy with
      | .again => bodyLoop destroy fuel
      | .leave => onStream (putU8 0)
      | .done => return ()

/-- `serialize_body(destroy)` (rule R240). -/
def serializeBody (destroy : Bool) : M Unit := do
  setNb 0
  bodyLoop destroy ((← get).params.totalBlocks + 1)

end Sys2Proof.Machine
end

