-- ==== Sys2Proof/Machine/Commands.lean ====
section
/-! DEFINITION. The host commands (46_host_commands.md rules R491 to R504). A serialize command runs from
its start to DONE or ERROR in one step; a decode command starts here, and the sequencer runs its
header and tokens. -/

namespace Sys2Proof.Machine

/-- A phase begins. -/
def setPhase (ph : Phase) : M Unit := modify fun s => { s with phase := ph }

/-- CFG.LEVEL must be at most 5 (rule R493). -/
def requireLevel : M Unit := do
  let s ← get
  if 5 < cfgLevel s.cfg then failPre .config

/-- SERIALIZE after its start (rule R500). -/
def runSerialize : M Unit := do
  requireLevel
  setPhase .encode
  emitHeader
  serializeBody false
  finishBytes

/-- SERIALIZE_DESTROY after its start (rule R501). -/
def runSerializeDestroy : M Unit := do
  requireLevel
  setPhase .encode
  let d ← draw
  onStore fun p bs => bs.optimize p d
  emitHeader
  serializeBody true
  onStore fun p bs => bs.clear p
  finishBytes

/-- OP_DESERIALIZE after its start: OP.SETOP must be at most 12 (rule R493). -/
def beginOp : M Unit := do
  let s ← get
  if setOpOf s.op = none then failPre .config
  setPhase .header

/-- RANGE_DESERIALIZE after its start: the range must be a range of bit indices (rule R493). -/
def beginRange : M Unit := do
  let s ← get
  if s.rangeTo.toNat < s.rangeFrom.toNat ∨ 2 ^ s.params.aw.bits ≤ s.rangeTo.toNat then failPre .range
  setPhase .header

/-- CMD 1, SERIALIZE (rule R500). -/
def execSerialize (s : State) : Host.Outcome State Fault Refusal :=
  .next (settle runSerialize (startCommand 1 s))

/-- CMD 2, SERIALIZE_DESTROY (rule R501). -/
def execSerializeDestroy (s : State) : Host.Outcome State Fault Refusal :=
  .next (settle runSerializeDestroy (startCommand 2 s))

/-- CMD 3, DESERIALIZE (rule R502): the header is read next. -/
def execDeserialize (s : State) : Host.Outcome State Fault Refusal :=
  .next (settle (setPhase .header) (startCommand 3 s))

/-- CMD 4, OP_DESERIALIZE (rule R503). -/
def execOpDeserialize (s : State) : Host.Outcome State Fault Refusal :=
  .next (settle beginOp (startCommand 4 s))

/-- CMD 5, RANGE_DESERIALIZE (rule R504). -/
def execRangeDeserialize (s : State) : Host.Outcome State Fault Refusal :=
  .next (settle beginRange (startCommand 5 s))

end Sys2Proof.Machine
end

