-- ==== Sys2Proof/Machine/GapTokens.lean ====
section
/-! DEFINITION. The block tokens of the GAP family, iterator state `gap_block` (44_stream_iterator.md
rule R377): tags 14, 18, 19, 20, 21, 23, 24, 27, 28, 29. -/

namespace Sys2Proof.Machine

/-- Tag 14 `gap` (rule R324). -/
def execGap (head : U16) (ends : List U16) (s : State) : Host.Outcome State Fault Refusal :=
  .next (settle (headedToken head (gapOperand head ends)) s)

/-- Tag 18 `arrgap` (rule R328). -/
def execArrgap (idx : List U16) (s : State) : Host.Outcome State Fault Refusal :=
  .next (settle (blockToken .gapBlock (idxArrayOperand false idx) mergeBlock) s)

/-- Tag 19 `bit_1bit` (rule R329). -/
def execBit1bit (pos : U16) (s : State) : Host.Outcome State Fault Refusal :=
  .next (settle (blockToken .gapBlock (some (bit1bitOperand pos)) mergeBlock) s)

/-- Tag 20 `gap_egamma` (rule R330). -/
def execGapEgamma (head : U16) (gs : List U32) (s : State) : Host.Outcome State Fault Refusal :=
  .next (settle (headedToken head (gapEgammaOperand head gs)) s)

/-- Tag 21 `arrgap_egamma` (rule R331). -/
def execArrgapEgamma (n : U32) (gs : List U32) (s : State) : Host.Outcome State Fault Refusal :=
  .next (settle (blockToken .gapBlock (arrGammaOperand false n gs) mergeBlock) s)

/-- Tag 23 `arrgap_egamma_inv` (rule R333). -/
def execArrgapEgammaInv (n : U32) (gs : List U32) (s : State) : Host.Outcome State Fault Refusal :=
  .next (settle (blockToken .gapBlock (arrGammaOperand true n gs) mergeBlock) s)

/-- Tag 24 `arrgap_inv` (rule R334). -/
def execArrgapInv (idx : List U16) (s : State) : Host.Outcome State Fault Refusal :=
  .next (settle (blockToken .gapBlock (idxArrayOperand true idx) mergeBlock) s)

/-- Tag 27 `gap_bienc` (rule R337). -/
def execGapBienc (head mn : U16) (ends : List U16) (s : State) : Host.Outcome State Fault Refusal :=
  .next (settle (headedToken head (gapBiencOperand head mn ends)) s)

/-- Tag 28 `arrgap_bienc` (rule R338). -/
def execArrgapBienc (mn mx : U16) (n4 : U32) (inner : List U16) (s : State) :
    Host.Outcome State Fault Refusal :=
  .next (settle (blockToken .gapBlock (arrBicOperand false mn mx n4 inner) mergeBlock) s)

/-- Tag 29 `arrgap_bienc_inv` (rule R339). -/
def execArrgapBiencInv (mn mx : U16) (n4 : U32) (inner : List U16) (s : State) :
    Host.Outcome State Fault Refusal :=
  .next (settle (blockToken .gapBlock (arrBicOperand true mn mx n4 inner) mergeBlock) s)

end Sys2Proof.Machine
end

