-- ==== Sys2Proof/Machine/Header.lean ====
section
/-! DEFINITION. The stream header as a decode command executes it (43_block_decoder.md rules R302 to R306,
44_stream_iterator.md rule R372, 45_operation_engine.md rules R431, R432, R465). The fields come
decoded; a field that a failing check stopped the reader from reading is absent. -/

namespace Sys2Proof.Machine

/-- HDR_GAPL after a header without `gap_levels`, draw `d` (10_state.md rule R22). -/
def freeGapl (d : Nat) : GapTable :=
  ⟨Config.freeHdrGapl d 0, Config.freeHdrGapl d 1, Config.freeHdrGapl d 2, Config.freeHdrGapl d 3⟩

/-- SBO after the header's first bytes (rule R302): 1 without a byte-order byte, 0 for the byte 0, 1 for the
byte 1. For any other byte, which ends the command, SBO keeps the 1 the command start gave it
(assumption 36). -/
def headerSbo (h : Header) : Bool := h.noByteOrder || decide (h.byteOrder ≠ some 0#8)

/-- `parse_header()` up to the size field: the fields are latched and the two SerialFormat checks made in
the order of rule R302. A register whose field is absent is undefined (10_state.md rule R22): a free
value. -/
def latchHeader (h : Header) : M Unit := do
  let d ← draw
  modify fun s =>
    { s with
      hdrFlags := h.flags
      hdrBo := h.byteOrder.getD (Config.freeHdrBo d)
      stream := { s.stream with sbo := headerSbo h } }
  if 1 < (h.byteOrder.getD 0).toNat then failSerial .byteOrder
  let s ← get
  if h.is64 ≠ decide (s.params.aw = .w48) then failSerial .addressWidth
  if h.wf = false then failPre .malformed
  set { s with
    hdrGapl := h.gapLevels.getD (freeGapl d)
    hdrSize := h.size.getD (Config.freeHdrSize d) }

/-- `resize_target()` (rule R305). -/
def resizeTarget : M Unit := do
  let s ← get
  if s.hdrSize = 0 ∨ 2 ^ s.params.aw.bits ≤ s.hdrSize.toNat then failPre .malformed
  if s.bsSize < s.hdrSize.toNat then set { s with bsSize := s.hdrSize.toNat }

/-- The id count of an ID_LIST stream (rules R306, R372). -/
def readIdCount : M Unit := do
  let n ← onStream getU32
  modify fun s => { s with idCnt := n }

/-- The header of a DESERIALIZE (rules R300, R302, R306). -/
def headerMerge (h : Header) : M Unit := do
  latchHeader h
  if h.hasSize then resizeTarget
  if h.isIdList then
    readIdCount
    modify fun s => { s with nb := 0, eos := false, phase := .ids }
  else modify fun s => { s with nb := 0, eos := false, phase := .tokens }

/-- The header of an operation: `it_init()` (rule R372), which never resizes the target, then the head of
`op_deserialize()` (rule R431). -/
def headerOperate (h : Header) : M Unit := do
  latchHeader h
  modify fun s =>
    { s with
      nb := 0
      eos := false
      monoCnt := 0
      stream := { s.stream with racc := 0, ravail := 0 } }
  if h.isIdList then
    readIdCount
    modify fun s => { s with st := .listIds }
  else modify fun s => { s with st := .blocks }
  beginOperation
  modify fun s => { s with phase := if h.isIdList then .ids else .tokens }

/-- The stream header for the running command. Outside the header phase of a decode command there is no
header: `fault PRECOND(protocol)` (no command causes it). -/
def headerToken (h : Header) : M Unit := do
  let s ← get
  if s.runState ≠ .busy ∨ s.phase ≠ .header then failPre .protocol
  if s.cmd = 3 then headerMerge h
  else if s.cmd = 4 ∨ s.cmd = 5 then headerOperate h
  else failPre .protocol

/-- The stream header (30_encoding.md rule R101; 43_block_decoder.md rule R302). -/
def execStreamHeader (h : Header) (s : State) : Host.Outcome State Fault Refusal :=
  .next (settle (headerToken h) s)

end Sys2Proof.Machine
end

