-- ==== Sys2Proof/Machine/Reserved.lean ====
section
/-! DEFINITION. The reserved and unassigned tags (43_block_decoder.md rules R322, R323, R325, R347): they
take the error SerialFormat, cause 1 (60_exceptions.md rule R521). -/

namespace Sys2Proof.Machine

/-- `raise SerialFormat(cause = 1)`, before any other effect of the token (rule R347). -/
def reservedTag : M Unit := do
  let _ ← tokenMode
  failSerial .unknownTag

/-- Tag 12 `sgapbit` (rule R322). -/
def execSgapbit (s : State) : Host.Outcome State Fault Refusal := .next (settle reservedTag s)

/-- Tag 13 `sgapgap` (rule R323). -/
def execSgapgap (s : State) : Host.Outcome State Fault Refusal := .next (settle reservedTag s)

/-- Tag 15 `gapbit` (rule R325). -/
def execGapbit (s : State) : Host.Outcome State Fault Refusal := .next (settle reservedTag s)

/-- Tags 35..127 (rule R347). The error does not depend on the tag. -/
def execUnassigned (_tag : Byte) (s : State) : Host.Outcome State Fault Refusal :=
  .next (settle reservedTag s)

end Sys2Proof.Machine
end

