-- ==== Sys2Proof/Machine/Runs.lean ====
section
/-! DEFINITION. Terminators and run tokens (43_block_decoder.md rules R310 to R320, R335, R336, R346;
44_stream_iterator.md rules R373, R375, R380, R383). -/

namespace Sys2Proof.Machine

/-- A run token of `n` blocks. DESERIALIZE: rule R309, then the fill of a one run, then NB. An operation:
`run(state, n)`, the engine's run rule, `skip_mono_blocks()`. -/
def runToken (one : Bool) (n : Nat) : M Unit := do
  match ← tokenMode with
  | .merge =>
    requireRoom n
    let s ← get
    if one then onStore fun _ bs => bs.setAllSet s.nb n
    modify fun s => { s with nb := s.nb + n }
  | .operate =>
    nextRun (if one then .oneBlocks else .zeroBlocks) n
    let s ← get
    if one then doOneRun s.nb s.monoCnt.toNat else doZeroRun s.nb s.monoCnt.toNat
    skipMono

/-- A token after which nothing of the stream follows: EOS (rules R310, R319, R373, R383). -/
def endToken : M Unit := do
  match ← tokenMode with
  | .merge => modify setEos
  | .operate => nextEnd

/-- The number of blocks `aone` stands for: all that remain (rule R320). -/
def remaining (s : State) : Nat := s.params.totalBlocks - s.nb

/-- Tag 0 `end` (rule R310). -/
def execEndOfStream (s : State) : Host.Outcome State Fault Refusal := .next (settle endToken s)

/-- Tag 1 `1zero` (rule R311). -/
def execZero1 (s : State) : Host.Outcome State Fault Refusal := .next (settle (runToken false 1) s)

/-- Tag 2 `1one` (rule R312). -/
def execOne1 (s : State) : Host.Outcome State Fault Refusal := .next (settle (runToken true 1) s)

/-- Tag 3 `8zero` (rule R313). -/
def execZero8 (n : Byte) (s : State) : Host.Outcome State Fault Refusal :=
  .next (settle (runToken false n.toNat) s)

/-- Tag 4 `8one` (rule R314). -/
def execOne8 (n : Byte) (s : State) : Host.Outcome State Fault Refusal :=
  .next (settle (runToken true n.toNat) s)

/-- Tag 5 `16zero` (rule R315). -/
def execZero16 (n : U16) (s : State) : Host.Outcome State Fault Refusal :=
  .next (settle (runToken false n.toNat) s)

/-- Tag 6 `16one` (rule R316). -/
def execOne16 (n : U16) (s : State) : Host.Outcome State Fault Refusal :=
  .next (settle (runToken true n.toNat) s)

/-- Tag 7 `32zero` (rule R317). -/
def execZero32 (n : U32) (s : State) : Host.Outcome State Fault Refusal :=
  .next (settle (runToken false n.toNat) s)

/-- Tag 8 `32one` (rule R318). -/
def execOne32 (n : U32) (s : State) : Host.Outcome State Fault Refusal :=
  .next (settle (runToken true n.toNat) s)

/-- Tag 9 `azero` (rules R319, R383). -/
def execAzero (s : State) : Host.Outcome State Fault Refusal := .next (settle endToken s)

/-- Tag 10 `aone` (rules R320, R383). -/
def execAone (s : State) : Host.Outcome State Fault Refusal :=
  .next (settle (runToken true (remaining s)) s)

/-- Tag 25 `64zero` (rule R335). -/
def execZero64 (n : U64) (s : State) : Host.Outcome State Fault Refusal :=
  .next (settle (runToken false n.toNat) s)

/-- Tag 26 `64one` (rule R336). -/
def execOne64 (n : U64) (s : State) : Host.Outcome State Fault Refusal :=
  .next (settle (runToken true n.toNat) s)

/-- The high-bit shortcut (rule R346). -/
def execZskip (n : BitVec 7) (s : State) : Host.Outcome State Fault Refusal :=
  .next (settle (runToken false n.toNat) s)

end Sys2Proof.Machine
end

