-- ==== Sys2Proof/Machine/Dispatch.lean ====
section
/-! DEFINITION. The meaning of every instruction: one call for each constructor. -/

namespace Sys2Proof.Machine

/-- The meaning of an instruction. -/
def exec (i : Instr) (s : State) : Host.Outcome State Fault Refusal :=
  match i with
  | .endOfStream => Sys2Proof.Machine.execEndOfStream s
  | .zero1 => Sys2Proof.Machine.execZero1 s
  | .one1 => Sys2Proof.Machine.execOne1 s
  | .zero8 n => Sys2Proof.Machine.execZero8 n s
  | .one8 n => Sys2Proof.Machine.execOne8 n s
  | .zero16 n => Sys2Proof.Machine.execZero16 n s
  | .one16 n => Sys2Proof.Machine.execOne16 n s
  | .zero32 n => Sys2Proof.Machine.execZero32 n s
  | .one32 n => Sys2Proof.Machine.execOne32 n s
  | .azero => Sys2Proof.Machine.execAzero s
  | .aone => Sys2Proof.Machine.execAone s
  | .bit words => Sys2Proof.Machine.execBit words s
  | .sgapbit => Sys2Proof.Machine.execSgapbit s
  | .sgapgap => Sys2Proof.Machine.execSgapgap s
  | .gap head ends => Sys2Proof.Machine.execGap head ends s
  | .gapbit => Sys2Proof.Machine.execGapbit s
  | .arrbit idx => Sys2Proof.Machine.execArrbit idx s
  | .bitInterval head tail words => Sys2Proof.Machine.execBitInterval head tail words s
  | .arrgap idx => Sys2Proof.Machine.execArrgap idx s
  | .bit1bit pos => Sys2Proof.Machine.execBit1bit pos s
  | .gapEgamma head gammas => Sys2Proof.Machine.execGapEgamma head gammas s
  | .arrgapEgamma n gammas => Sys2Proof.Machine.execArrgapEgamma n gammas s
  | .bit0runs start runs => Sys2Proof.Machine.execBit0runs start runs s
  | .arrgapEgammaInv n gammas => Sys2Proof.Machine.execArrgapEgammaInv n gammas s
  | .arrgapInv idx => Sys2Proof.Machine.execArrgapInv idx s
  | .zero64 n => Sys2Proof.Machine.execZero64 n s
  | .one64 n => Sys2Proof.Machine.execOne64 n s
  | .gapBienc head min ends => Sys2Proof.Machine.execGapBienc head min ends s
  | .arrgapBienc min max n4 inner => Sys2Proof.Machine.execArrgapBienc min max n4 inner s
  | .arrgapBiencInv min max n4 inner => Sys2Proof.Machine.execArrgapBiencInv min max n4 inner s
  | .arrbitInv idx => Sys2Proof.Machine.execArrbitInv idx s
  | .arrBienc min max sz inner => Sys2Proof.Machine.execArrBienc min max sz inner s
  | .arrBiencInv min max sz inner => Sys2Proof.Machine.execArrBiencInv min max sz inner s
  | .bitgapBienc start sz min ends => Sys2Proof.Machine.execBitgapBienc start sz min ends s
  | .bitDigest0 digest words => Sys2Proof.Machine.execBitDigest0 digest words s
  | .zskip n => Sys2Proof.Machine.execZskip n s
  | .unassigned tag => Sys2Proof.Machine.execUnassigned tag s
  | .streamHeader h => Sys2Proof.Machine.execStreamHeader h s
  | .serialize => Sys2Proof.Machine.execSerialize s
  | .serializeDestroy => Sys2Proof.Machine.execSerializeDestroy s
  | .deserialize => Sys2Proof.Machine.execDeserialize s
  | .opDeserialize => Sys2Proof.Machine.execOpDeserialize s
  | .rangeDeserialize => Sys2Proof.Machine.execRangeDeserialize s

end Sys2Proof.Machine
end

