-- ==== Sys2Proof/Machine/Sequencer.lean ====
section
/-! DEFINITION. What happens around the instructions: the loops of the decode commands (43_block_decoder.md
rule R300, 45_operation_engine.md rule R431), the host's register file and memory accesses (10_state.md
rule R31, 70_reset_and_hazards.md rule R572), and reset (rules R560, R562). -/

namespace Sys2Proof.Machine

/-! ### The engine -/

/-- Run a pseudocode over the state: always a next state. -/
def settled (m : M Unit) (s : State) : Host.Outcome State Fault Refusal := .next (settle m s)

/-- Fetch an instruction and execute it. A fetch that fails takes its error. U18 leaves the datapath registers
open then; in the model only POS, SBO and the bit reader have moved, and BLOCK_TYPE: where the rules' pseudocode
has written others before the byte that is missing, they keep what they held (DEDUCED, assumption 36). These are
ST and GAP_HEAD for a block token under an operation (rules R373, R377), GAP_HEAD for a merge (rules R324, R330,
R337), ALLONE for a `bit` or `bit_digest0` token merged in place (rules R321, R344), and HDR_FLAGS, HDR_BO and
HDR_GAPL for a header (rules R302, R372). -/
def fetchThen (fetch : Codec Instr) (s : State) : Host.Outcome State Fault Refusal :=
  match fetch s.stream with
  | .ok i t => exec i { s with stream := t }
  | .error e t => .next (takeError e { s with stream := t })

/-- The tag byte at POS becomes BLOCK_TYPE (rules R300, R373); if there is none, the fetch fails next. -/
def latchTag (s : State) : State :=
  if s.stream.pos < s.stream.bufSize.toNat then
    { s with blockType := s.stream.buf.read s.stream.pos }
  else s

/-- Fetch and execute the token at POS. -/
def tokenStep (s : State) : Host.Outcome State Fault Refusal := fetchThen decodeToken (latchTag s)

/-- Fetch and execute the stream header. -/
def headerStep (s : State) : Host.Outcome State Fault Refusal :=
  fetchThen (decodeHeader s.params.aw) s

/-- Merge listed ids one by one (43_block_decoder.md rule R306), then EOS. -/
def mergeIds : Nat → M Unit
  | 0 => modify setEos
  | n + 1 => do
    let id ← onStream getU32
    let d ← draw
    modify fun s =>
      { s with
        lastId := id
        idCnt := s.idCnt - 1
        bs := s.bs.putContent d (id.toNat / 65536)
          (s.bs.content (id.toNat / 65536) ||| bitAt (id.toNat % 65536)) }
    mergeIds n

/-- The id list of an ID_LIST stream: merged by DESERIALIZE (rule R306), operated with by the others
(45_operation_engine.md rule R470). -/
def idStep (s : State) : Host.Outcome State Fault Refusal :=
  if s.cmd = 3 then
    settled (do
      mergeIds s.idCnt.toNat
      finishBytes) s
  else settled doIdList s

/-- One turn of DESERIALIZE's loop (rule R300): it ends when EOS is set or NB = TOTAL_BLOCKS, tested before
each tag read; NB = TOTAL_BLOCKS sets EOS (10_state.md rule R29). -/
def mergeStep (s : State) : Host.Outcome State Fault Refusal :=
  if s.eos = true ∨ s.params.totalBlocks ≤ s.nb then
    settled (do
      modify setEos
      finishBytes) s
  else tokenStep s

/-- One turn of an operation's loop (rule R431): after EOS the target is finalized; after an early exit, or
once the range is passed, it is not; at NB = TOTAL_BLOCKS `next()` sets EOS without reading. -/
def operateStep (s : State) : Host.Outcome State Fault Refusal :=
  if s.eos then
    settled (do
      finalize
      finishOperation) s
  else if exitsNow s then settled finishOperation s
  else if s.params.totalBlocks ≤ s.nb then
    settled (do
      nextEnd
      finalize
      finishOperation) s
  else tokenStep s

/-- One step of the running command; nothing happens when none runs (10_state.md rule R20). -/
def engineStep (s : State) : Host.Outcome State Fault Refusal :=
  if s.runState ≠ .busy then .next s
  else
    match s.phase with
    | .header => headerStep s
    | .ids => idStep s
    | .tokens => if s.cmd = 3 then mergeStep s else operateStep s
    | .idle => .next s
    | .encode => .next s

/-! ### The host port -/

/-- A read of a host register (rule R31). While BUSY only CMD, STATUS and the result registers, which are
then unspecified, can be read (assumption 16). -/
def readReg (no : Nat) (s : State) : Host.Outcome State Fault Refusal :=
  let busy := decide (s.runState = .busy)
  let got (v : U64) : Host.Outcome State Fault Refusal := .next { s with hostData := v }
  let idleOnly (v : U64) : Host.Outcome State Fault Refusal :=
    if busy then .refused .hostAccessWhileBusy else got v
  let result (v : U64) : Host.Outcome State Fault Refusal :=
    if busy then .next { s with hostData := Config.freeResult s.draws, draws := s.draws + 1 }
    else got v
  match no with
  | 0 => idleOnly s.cfg
  | 1 => got s.cmd
  | 2 => idleOnly s.op
  | 3 => idleOnly s.rangeFrom
  | 4 => idleOnly s.rangeTo
  | 5 => idleOnly s.stream.bufSize
  | 6 => got (statusWord s)
  | 7 => result s.resultBytes
  | 8 => result s.resultCount
  | _ => .refused .noSuchRegister

/-- A write of a host register (rules R31, R40, R41, R42). RANGE_FROM keeps its AW bits, RANGE_TO all 64
(assumption 15); a write to a read-only register changes nothing (assumption 14). -/
def writeReg (no : Nat) (v : U64) (s : State) : Host.Outcome State Fault Refusal :=
  if s.runState = .busy then .refused .hostAccessWhileBusy
  else
    match no with
    | 0 => .next { s with cfg := cfgMask v }
    | 1 =>
      match decodeCommand v with
      | some i => exec i s
      | none => .refused .illegalCommand
    | 2 => .next { s with op := opMask v }
    | 3 => .next { s with rangeFrom := rangeMask s.params.aw v }
    | 4 => .next { s with rangeTo := v }
    | 5 => .next { s with stream := { s.stream with bufSize := v } }
    | 6 => .next s
    | 7 => .next s
    | 8 => .next s
    | _ => .refused .noSuchRegister

/-- Reset (rules R560, R562): every register takes its reset value, the memories are untouched, but a
running command leaves the block store open, and a DESERIALIZE, which may have grown the target, its size
too (assumption 31). -/
def resetMachine (s : State) : State :=
  let bs := if s.runState = .busy then openStore s.params s.draws s.bs else s.bs
  let size := if s.runState = .busy ∧ s.cmd = 3 then openSize s.params s.draws else s.bsSize
  State.resetOver s.params s.stream.buf bs size (s.draws + 2) s.host s.hostData

/-- Reset while a command that has been started is still running (rule R562): a serialize leaves the stream
buffer open, every other command the block store, SERIALIZE_DESTROY both; DESERIALIZE leaves the size open
too (assumption 31). -/
def resetDuringCommand (i : Instr) (s : State) : State :=
  let buf := s.stream.buf.openBelow s.stream.bufSize.toNat s.draws
  let bs := openStore s.params s.draws s.bs
  let after (buf : Memory) (bs : BlockStore) (size : Nat) : State :=
    State.resetOver s.params buf bs size (s.draws + 2) s.host s.hostData
  match i with
  | .serialize => after buf s.bs s.bsSize
  | .serializeDestroy => after buf bs s.bsSize
  | .deserialize => after s.stream.buf bs (openSize s.params s.draws)
  | _ => after s.stream.buf bs s.bsSize

/-- A host access to the memories, which rule R572 forbids while BUSY. -/
def whenIdle (s : State) (o : Host.Outcome State Fault Refusal) : Host.Outcome State Fault Refusal :=
  if s.runState = .busy then .refused .hostAccessWhileBusy else o

/-- What a host event does; `tick` and `await` are the engine's. The host reaches the stream buffer at any
offset, whatever BUF_SIZE holds: BUF_SIZE bounds the accesses of a command (20_memory.md rules R60, R62,
R63), and the buffer is filled and BUF_SIZE written "in any order" (rule R566; assumption 37). -/
def hostStep (e : HostEvent) (s : State) : Host.Outcome State Fault Refusal :=
  match e with
  | .writeReg no v => writeReg no v s
  | .readReg no => readReg no s
  | .writeBuf a v =>
    whenIdle s (.next { s with stream := { s.stream with buf := s.stream.buf.write a.toNat v } })
  | .readBuf a => whenIdle s (.next { s with hostData := (s.stream.buf.read a.toNat).setWidth 64 })
  | .putSlot nb slot =>
    whenIdle s
      (if nb < s.params.totalBlocks then
        (if slot.wf s.params then .next { s with bs := s.bs.put nb slot }
        else .refused .illFormedVector)
      else .fault .noSuchBlock)
  | .setSize n =>
    whenIdle s
      (if 1 ≤ n ∧ n < 2 ^ s.params.aw.bits then .next { s with bsSize := n }
      else .refused .illFormedVector)
  | .readBit i =>
    whenIdle s
      (if i < 2 ^ s.params.aw.bits then
        .next { s with
          hostData := if (s.bs.content (i / 65536)).getLsbD (i % 65536) then 1 else 0 }
      else .fault .noSuchBlock)
  | .reset => .next (resetMachine s)
  | .resetDuring v =>
    whenIdle s
      (match decodeCommand v with
        | some i => .next (resetDuringCommand i s)
        | none => .refused .illegalCommand)
  | .tick => engineStep s
  | .await => engineStep s

/-- One step of the machine: the host's next event, or, with none pending, the engine. A pending `await`
stays until the command has ended (46_host_commands.md rule R510). -/
def advance (s : State) : Host.Outcome State Fault Refusal :=
  match s.host with
  | [] => engineStep s
  | e :: rest =>
    if e = .await ∧ s.runState = .busy then engineStep s
    else hostStep e { s with host := rest }

/-! ### Placing an instruction -/

/-- The state whose next step runs the host command with the given code. -/
def placeCommand (s : State) (v : Nat) : State :=
  { s with
    runState := if s.runState = .busy then .idle else s.runState
    host := [.writeReg 1 (BitVec.ofNat 64 v)] }

/-- The bytes of a token, then zeros, at POS, for the longest token: at most 1 + 16 * 65536 bytes follow
(a token of 65536 gamma codes of 63 bits is shorter). -/
def tokenSpan : Nat := 2 ^ 20

/-- The state whose next step fetches and runs the token with the given bytes: a DESERIALIZE in its token
walk at block 0. Bytes after the given ones are 0. -/
def placeToken (s : State) (bytes : List Byte) : State :=
  let buf : Memory :=
    { cells := (s.stream.buf.cells.filter (fun c => decide (c.1 < s.stream.pos))),
      openTo := min s.stream.buf.openTo s.stream.pos, openId := s.stream.buf.openId }
  { s with
    runState := .busy
    phase := .tokens
    cmd := 3
    eos := false
    nb := 0
    stream :=
      { s.stream with
        buf := buf.writeList s.stream.pos bytes
        bufSize := BitVec.ofNat 64 (s.stream.pos + tokenSpan)
        racc := 0
        ravail := 0 }
    host := [] }

end Sys2Proof.Machine
end

