-- ==== Sys2Proof/Machine/Step.lean ====
section
/-! DEFINITION. One step of BMSC, and how an instruction is placed where the next step fetches it. -/

namespace Sys2Proof.Machine

/-- One step: the host's next event, or one step of the running command (10_state.md rule R20). -/
def step (s : State) : Host.Outcome State Fault Refusal := Sys2Proof.Machine.advance s

/-- The state with an instruction stored where the next step fetches it (assumption 20): a host command (a
row of less than one byte) as a pending write to CMD, a token as the bytes at POS of a DESERIALIZE
that walks its tokens. -/
def State.withFetchWord (s : State) (nbits w : Nat) : State :=
  if nbits < 8 then Sys2Proof.Machine.placeCommand s w
  else Sys2Proof.Machine.placeToken s (leBytes (nbits / 8) w)

end Sys2Proof.Machine
end

