-- ==== Sys2Proof/Safety.lean ====
section
/-! DEFINITION. The terms the statements use: the situations a token is executed in, the tables of the
token kinds, plain descriptions of what a payload denotes, what an error leaves, and the invariant of
the machine. -/

namespace Sys2Proof.Machine

/-! ### Situations -/

/-- A DESERIALIZE walks its tokens (43_block_decoder.md rule R300). -/
abbrev Merging (s : State) : Prop :=
  s.runState = .busy ∧ s.phase = .tokens ∧ s.eos = false ∧ s.cmd = 3

/-- An operation command walks its tokens, between two of them (45_operation_engine.md rule R431). -/
abbrev Operating (s : State) : Prop :=
  s.runState = .busy ∧ s.phase = .tokens ∧ s.eos = false ∧ (s.cmd = 4 ∨ s.cmd = 5) ∧ s.st = .blocks

/-- A token walk of either kind. -/
abbrev Walking (s : State) : Prop := Merging s ∨ Operating s

/-! ### Token kinds -/

/-- The run tokens, with their kind (a one run?) and the number of blocks they stand for in a given state
(30_encoding.md rules R111, R112, R114; 43_block_decoder.md rule R320 for `aone`). -/
def runOf (s : State) : Instr → Option (Bool × Nat)
  | .zero1 => some (false, 1)
  | .one1 => some (true, 1)
  | .zero8 n => some (false, n.toNat)
  | .one8 n => some (true, n.toNat)
  | .zero16 n => some (false, n.toNat)
  | .one16 n => some (true, n.toNat)
  | .zero32 n => some (false, n.toNat)
  | .one32 n => some (true, n.toNat)
  | .aone => some (true, s.params.totalBlocks - s.nb)
  | .zero64 n => some (false, n.toNat)
  | .one64 n => some (true, n.toNat)
  | .zskip n => some (false, n.toNat)
  | _ => none

/-- The block tokens with the iterator state they give (44_stream_iterator.md rule R377). -/
def blockForm : Instr → Option ItState
  | .bit _ => some .bitBlock
  | .arrbit _ => some .bitBlock
  | .bitInterval _ _ _ => some .bitBlock
  | .bit0runs _ _ => some .bitBlock
  | .arrbitInv _ => some .bitBlock
  | .arrBienc _ _ _ _ => some .bitBlock
  | .arrBiencInv _ _ _ _ => some .bitBlock
  | .bitgapBienc _ _ _ _ => some .bitBlock
  | .bitDigest0 _ _ => some .bitBlock
  | .gap _ _ => some .gapBlock
  | .arrgap _ => some .gapBlock
  | .bit1bit _ => some .gapBlock
  | .gapEgamma _ _ => some .gapBlock
  | .arrgapEgamma _ _ => some .gapBlock
  | .arrgapEgammaInv _ _ => some .gapBlock
  | .arrgapInv _ => some .gapBlock
  | .gapBienc _ _ _ => some .gapBlock
  | .arrgapBienc _ _ _ _ => some .gapBlock
  | .arrgapBiencInv _ _ _ _ => some .gapBlock
  | _ => none

/-- The GAP header word of a GAP-headed token (30_encoding.md rule R132). -/
def headOf : Instr → Option U16
  | .gap head _ => some head
  | .gapEgamma head _ => some head
  | .gapBienc head _ _ => some head
  | _ => none

/-- The reserved and unassigned tags (30_encoding.md rule R152). -/
def isReserved : Instr → Bool
  | .sgapbit => true
  | .sgapgap => true
  | .gapbit => true
  | .unassigned _ => true
  | _ => false

/-! ### What payloads denote, described plainly -/

/-- Bit `p` of a GAP: the start value, flipped once for each endpoint below `p` (20_memory.md rule
R71). -/
def gapBit (start : Bool) (ends : List Nat) (p : Nat) : Bool :=
  start ^^ decide ((ends.filter (fun e => decide (e < p))).length % 2 = 1)

/-- The words of the runs of a `bit_0runs` token, zeros for a zero run (30_encoding.md rule R126). -/
def runWords (nz : Bool) : List (U16 × List U32) → List U32
  | [] => []
  | (len, ws) :: rs => (if nz then ws else List.replicate len.toNat 0) ++ runWords (!nz) rs

/-- The words of the 64 waves from wave `j` on that a digest and a word list give, 32 for each wave, zeros
for a wave the digest does not flag (30_encoding.md rule R127). -/
def waveWords (d : U64) (ws : List U32) : Nat → Nat → List U32
  | _, 0 => []
  | j, n + 1 =>
    if d.getLsbD j then ws.take 32 ++ waveWords d (ws.drop 32) (j + 1) n
    else List.replicate 32 0 ++ waveWords d ws (j + 1) n

/-- The prefix sums of a list of gamma values (30_encoding.md rule R131). -/
def prefixSums (acc : Nat) : List U32 → List Nat
  | [] => []
  | g :: gs => (acc + g.toNat) :: prefixSums (acc + g.toNat) gs

/-- The number of positions of a block with a property (00_scope.md rule R16: `popcount`). -/
def countBits (f : Nat → Bool) : Nat := ((List.range 65536).filter f).length

/-- The sum of a quantity over the `n` blocks from block `lo` on. -/
def sumBlocks (f : Nat → Nat) (lo n : Nat) : Nat := ((List.range n).map (fun k => f (lo + k))).sum

/-- Bit `p` of block `j` of the vector of an id list (43_block_decoder.md rule R306,
45_operation_engine.md rule R470). -/
def listedBit (ids : List U32) (j p : Nat) : Bool :=
  ids.any (fun id => decide (id.toNat = 65536 * j + p))

/-- The token of a zero run of `n` blocks that the encoder chooses (42_block_encoder.md rule R247). -/
def zeroRunForm (n : Nat) : Instr :=
  if n = 1 then .zero1
  else if n ≤ 127 then .zskip (BitVec.ofNat 7 n)
  else if n ≤ 255 then .zero8 (BitVec.ofNat 8 n)
  else if n ≤ 65535 then .zero16 (BitVec.ofNat 16 n)
  else if n < 2 ^ 32 then .zero32 (BitVec.ofNat 32 n)
  else .zero64 (BitVec.ofNat 64 n)

/-- The token of a one run of `n` blocks that the encoder chooses (42_block_encoder.md rule R247). -/
def oneRunForm (n : Nat) : Instr :=
  if n = 1 then .one1
  else if n ≤ 255 then .one8 (BitVec.ofNat 8 n)
  else if n ≤ 65535 then .one16 (BitVec.ofNat 16 n)
  else if n < 2 ^ 32 then .one32 (BitVec.ofNat 32 n)
  else .one64 (BitVec.ofNat 64 n)

/-- The header the encoder writes (30_encoding.md rule R106). -/
def writtenHeader (p : Params) (size : Nat) (cfg : U64) : Header where
  flags :=
    (if size = p.sizeDefault then 0x01#8 else 0x02#8) ||| (if cfgBo cfg then 0x00#8 else 0x08#8) |||
      (if cfgGapl cfg then 0x00#8 else 0x10#8) ||| (if p.aw = .w48 then 0x20#8 else 0x00#8)
  byteOrder := if cfgBo cfg then some 1#8 else none
  gapLevels :=
    if cfgGapl cfg then
      some ⟨BitVec.ofNat 16 p.gapLevel0, BitVec.ofNat 16 p.gapLevel1, BitVec.ofNat 16 p.gapLevel2,
        BitVec.ofNat 16 p.gapLevel3⟩
    else none
  size := if size = p.sizeDefault then none else some (BitVec.ofNat 64 size)

/-- The token formats without a bit-coded part (30_encoding.md rules R112 to R119, R126, R127). -/
def byteCoded : Instr → Bool
  | .gapEgamma _ _ => false
  | .arrgapEgamma _ _ => false
  | .arrgapEgammaInv _ _ => false
  | .gapBienc _ _ _ => false
  | .arrgapBienc _ _ _ _ => false
  | .arrgapBiencInv _ _ _ _ => false
  | .arrBienc _ _ _ _ => false
  | .arrBiencInv _ _ _ _ => false
  | .bitgapBienc _ _ _ _ => false
  | i => i.isToken

/-- The formats FGAPG and FARRG: a bit-coded part of gamma codes only (30_encoding.md rules R120,
R122). -/
def gammaCoded : Instr → Bool
  | .gapEgamma _ _ => true
  | .arrgapEgamma _ _ => true
  | .arrgapEgammaInv _ _ => true
  | _ => false

/-- The formats FGAPB, FARRB, FARB, FBGB: a bit-coded part with a BIC code (30_encoding.md rules R121,
R123, R124, R125). -/
def bicCoded : Instr → Bool
  | .gapBienc _ _ _ => true
  | .arrgapBienc _ _ _ _ => true
  | .arrgapBiencInv _ _ _ _ => true
  | .arrBienc _ _ _ _ => true
  | .arrBiencInv _ _ _ _ => true
  | .bitgapBienc _ _ _ _ => true
  | _ => false

/-! ### Reset and command start -/

/-- Every register for which the spec states a reset value holds it (10_state.md rule R52,
70_reset_and_hazards.md rule R560). -/
def AfterReset (t : State) : Prop :=
  t.runState = .idle ∧ t.err = .none ∧ t.cause = 0 ∧
    cfgLevel t.cfg = 5 ∧ cfgGapl t.cfg = false ∧ cfgBo t.cfg = true ∧
    t.cmd = 0 ∧ t.op = 0 ∧ t.rangeFrom = 0 ∧ t.rangeTo = 0 ∧ t.stream.bufSize = 0 ∧
    t.eos = false ∧ t.allone = false ∧ t.rolled = false ∧ t.rangeSet = false ∧
    t.stream.pos = 0 ∧ t.nb = 0 ∧ t.stream.wacc = 0 ∧ t.stream.wused = 0 ∧ t.stream.racc = 0 ∧
    t.stream.ravail = 0 ∧ t.st = .unknown ∧ t.count = 0 ∧ t.stream.sbo = true

/-- A decode command with the given code, right after its start: STATUS is BUSY, the datapath holds the
values of 46_host_commands.md rule R492, everything else is as before, and the header is read next. -/
def atHeader (code : U64) (range : Bool) (s : State) : State :=
  { s with
    cmd := code
    runState := .busy
    err := .none
    cause := 0
    phase := .header
    stream := { s.stream with pos := 0, sbo := true, wacc := 0, wused := 0, racc := 0, ravail := 0 }
    nb := 0
    st := .unknown
    count := 0
    monoCnt := 0
    idCnt := 0
    eos := false
    allone := false
    rolled := false
    rangeSet := range }

/-- The header registers as a legal header leaves them, and SBO (43_block_decoder.md rule R302): a register
whose field the header does not carry holds a free value (10_state.md rule R22). -/
def withHeader (h : Header) (s : State) : State :=
  { s with
    hdrFlags := h.flags
    hdrBo := h.byteOrder.getD (Config.freeHdrBo s.draws)
    hdrGapl := h.gapLevels.getD (freeGapl s.draws)
    hdrSize := h.size.getD (Config.freeHdrSize s.draws)
    draws := s.draws + 1
    stream := { s.stream with sbo := headerSbo h } }

/-- `BS.size` after the header of a DESERIALIZE: it grows to the size field, if there is one
(43_block_decoder.md rule R305). -/
def grownSize (h : Header) (s : State) : Nat :=
  match h.size with
  | none => s.bsSize
  | some v => max s.bsSize v.toNat

/-- The size field, if there is one, is a size (43_block_decoder.md rule R305). -/
def legalSize (h : Header) (s : State) : Prop :=
  ∀ v, h.size = some v → 1 ≤ v.toNat ∧ v.toNat < 2 ^ s.params.aw.bits

/-- The header of an operation has opened the token walk: the iterator and the engine are initialised
(44_stream_iterator.md rule R372, 45_operation_engine.md rule R431). -/
def withEngine (h : Header) (op : SetOp) (bs : BlockStore) (s : State) : State :=
  { withHeader h s with
    stream := { (withHeader h s).stream with racc := 0, ravail := 0 }
    nb := 0
    eos := false
    monoCnt := 0
    st := .blocks
    count := 0
    eop := op
    bs := bs
    phase := .tokens }

/-- The count of ids that follows an ID_LIST header, in the stream's byte order (44_stream_iterator.md rule
R372). -/
def listedCount (h : Header) (s : State) : U32 :=
  BitVec.ofNat 32 (bytesValue (headerSbo h) (s.stream.buf.readList s.stream.pos 4))

/-- That count has been read, and the id list is walked next. -/
def withIds (n : U32) (st : ItState) (s : State) : State :=
  { s with
    stream := { s.stream with pos := s.stream.pos + 4 }
    idCnt := n
    st := st
    phase := .ids }

/-- The bits of the target that lie in the range of a RANGE_DESERIALIZE, and no others
(45_operation_engine.md rule R465). -/
def Masked (s : State) (bs' : BlockStore) : Prop :=
  ∀ j p, p < 65536 →
    (bs'.content j).getLsbD p =
      ((s.bs.content j).getLsbD p &&
        decide (s.rangeFrom.toNat ≤ 65536 * j + p ∧ 65536 * j + p ≤ s.rangeTo.toNat))

/-! ### Errors -/

/-- STATUS reports an error, and BMSC waits for the next command (60_exceptions.md rule R528). -/
def Reports (e : Raise) (t : State) : Prop :=
  t.runState = .error ∧ t.err = e.kind ∧ t.phase = .idle ∧
    match e with
    | .serialFormat c => t.cause = c.code
    | .precondition _ => True

/-- What the host set up and what an error never touches. -/
def SameSetup (s t : State) : Prop :=
  t.params = s.params ∧ t.cfg = s.cfg ∧ t.cmd = s.cmd ∧ t.op = s.op ∧ t.rangeFrom = s.rangeFrom ∧
    t.rangeTo = s.rangeTo ∧ t.stream.bufSize = s.stream.bufSize ∧ t.host = s.host ∧
    t.hostData = s.hostData

/-- What a token that takes an error leaves: the error is reported, what the host set up, the stream
buffer and NB are as before, and no block but the one with index NB has changed (60_exceptions.md rules
R528, R530). -/
def TokenError (e : Raise) (s t : State) : Prop :=
  Reports e t ∧ SameSetup s t ∧ t.stream = s.stream ∧ t.nb = s.nb ∧ t.bsSize = s.bsSize ∧
    ∀ j, j ≠ s.nb → t.bs.content j = s.bs.content j

/-! ### Emission -/

/-- A writer has written bytes at the cursor of a stream side, and changed nothing else but what lies after
them (20_memory.md rules R64, R85). -/
def Wrote (bytes : List Byte) (c d : Stream) : Prop :=
  d = { c with buf := d.buf, pos := c.pos + bytes.length } ∧
    d.buf.readList c.pos bytes.length = bytes ∧ ∀ a, a < c.pos → d.buf.read a = c.buf.read a

/-- A well-formed token that denotes a content. -/
def Denotes (i : Instr) (c : Content) : Prop :=
  i.wf = true ∧ ∃ b, tokenOperand i = some b ∧ b.content = c

/-- The form tried for a proposal: a BIC-coded index list of fewer than 5 indices is written plain from the
start (42_block_encoder.md rule R264). -/
def triedForm (c : Content) : Proposal → Proposal
  | .arrgapBienc => if popcount c < 5 then .arrgap else .arrgapBienc
  | .arrgapBiencInv => if 65536 - popcount c < 5 then .arrgapInv else .arrgapBiencInv
  | t => t

/-- The fallback of a speculative form; no other form has one (42_block_encoder.md rule R262). -/
def plainForm : Proposal → Option Proposal
  | .gapEgamma => some .gap
  | .gapBienc => some .gap
  | .arrgapEgamma => some .arrgap
  | .arrgapBienc => some .arrgap
  | .arrgapEgammaInv => some .arrgapInv
  | .arrgapBiencInv => some .arrgapInv
  | .arrBienc => some .bit
  | .arrBiencInv => some .bit
  | .bitgapBienc => some .bit
  | _ => none

/-- `i` is the token written for a content when a form is tried, and `rolled` says whether the encoder has rolled
back: a speculative form stands unless its token is longer than the plain one (42_block_encoder.md rule
R262). -/
def ChosenToken (t : Proposal) (c : Content) (i : Instr) (rolled : Bool) : Prop :=
  match plainForm t with
  | none => i.tag = t.tag ∧ Denotes i c ∧ rolled = false
  | some q =>
    ∃ attempt plain, attempt.tag = t.tag ∧ Denotes attempt c ∧ plain.tag = q.tag ∧ Denotes plain c ∧
      rolled = decide ((encode plain).length < (encode attempt).length) ∧
      i = if rolled then plain else attempt

/-! ### Runs -/

/-- The state after a number of steps, none of which faults or is refused. -/
def runFor : Nat → State → Option State
  | 0, s => some s
  | n + 1, s =>
    match step s with
    | .next t => runFor n t
    | .fault _ => none
    | .refused _ => none

/-! ### The invariant -/

/-- What holds of the machine between any two steps: the memories and IDX_ARR are in their canonical forms,
NB and `BS.size` are in range, CFG, OP and RANGE_FROM hold no bit a read would not show, STATUS, the phase
and the registers of a running command fit each other, and between two tokens the bit writer and the bit
reader hold no bit (10_state.md rules R25, R26, R31, R40, R42, R44, R48; 20_memory.md rules R71, R73;
40_bitcodec.md rule R187; 44_stream_iterator.md rule R411). -/
structure Inv (s : State) : Prop where
  params : s.params.Valid
  buf : s.stream.buf.wf = true
  store : s.bs.wf s.params = true
  nb : s.nb ≤ s.params.totalBlocks
  size : 1 ≤ s.bsSize ∧ s.bsSize < 2 ^ s.params.aw.bits
  cfg : cfgMask s.cfg = s.cfg
  op : opMask s.op = s.op
  phase : s.runState = .busy ∧ (s.phase = .header ∨ s.phase = .ids ∨ s.phase = .tokens) ∨
    s.runState ≠ .busy ∧ s.phase = .idle
  status : s.runState = .error ∧ s.err ≠ .none ∨ s.runState ≠ .error ∧ s.err = .none ∧ s.cause = 0
  command : s.runState = .busy → s.cmd = 3 ∨ s.cmd = 4 ∨ s.cmd = 5
  writer : s.runState = .busy → s.stream.wacc = 0 ∧ s.stream.wused = 0
  reader : s.runState = .busy → s.stream.racc = 0 ∧ s.stream.ravail = 0
  rangeFrom : s.rangeFrom.toNat < 2 ^ s.params.aw.bits
  scratch : s.idxArr.length ≤ 65536 ∧ s.idxArr.getLast? ≠ some 0
  range : s.runState = .busy →
    (s.rangeSet = true ↔ s.cmd = 5) ∧
      (s.cmd = 5 → s.rangeFrom.toNat ≤ s.rangeTo.toNat ∧ s.rangeTo.toNat < 2 ^ s.params.aw.bits)
  walk : s.runState = .busy → s.cmd ≠ 3 →
    (s.phase = .tokens → s.st = .blocks ∧ s.eop ≠ .assign) ∧
      (s.phase = .ids → s.st = .listIds ∧ s.eop ≠ .assign ∧ s.nb = 0)

end Sys2Proof.Machine
end

