-- ==== Sys2Proof/Certificates/Slice0/Obligations.lean ====
section
/-! DEFINITION. The statements for the provers. -/

open Sys2Proof Sys2Proof.Machine

/-! ### Reset and the host registers -/

/-- 10_state.md rule R52: `State.reset`, and the state after a reset at any moment, in the middle of a command
included, hold every reset value the spec states; nothing is fetched until a command is started, and then
from offset 0. -/
def Obligations.ResetRegisters : Prop :=
  AfterReset State.reset ∧
    (∀ (s : State) (rest : List HostEvent), s.host = .reset :: rest →
      ∃ t, step s = .next t ∧ AfterReset t) ∧
    (∀ (s : State) (rest : List HostEvent) (v : U64), s.host = .resetDuring v :: rest →
      s.runState ≠ .busy → 1 ≤ v.toNat → v.toNat ≤ 5 → ∃ t, step s = .next t ∧ AfterReset t) ∧
    (∀ s : State, AfterReset s → s.host = [] → step s = .next s) ∧
    ∀ (s t : State) (v : U64), AfterReset s → s.host = [.writeReg 1 v] → step s = .next t →
      t.runState = .busy → t.phase = .header ∧ t.stream.pos = 0

/-- 10_state.md rule R53, 70_reset_and_hazards.md rule R562: a reset leaves the stream buffer and, unless a
command is running, the block store and `BS.size` as they are. A reset in the middle of a command leaves
both memories well-formed: a serialize command leaves the block store as it was, every other one the stream
buffer, none touches the buffer beyond BUF_SIZE, and only DESERIALIZE leaves `BS.size` open. That a step of a
command can be cut short is the model's choice (log entry 31). -/
def Obligations.ResetMemories : Prop :=
  (∀ (s : State) (rest : List HostEvent), s.host = .reset :: rest → s.bs.wf s.params = true →
    ∃ t, step s = .next t ∧ t.params = s.params ∧ t.stream.buf = s.stream.buf ∧ t.host = rest ∧
      (s.runState ≠ .busy → t.bs = s.bs) ∧ t.bs.wf s.params = true ∧
      (s.runState ≠ .busy ∨ s.cmd ≠ 3 → t.bsSize = s.bsSize) ∧
      (s.runState = .busy → s.cmd = 3 → 1 ≤ t.bsSize ∧ t.bsSize < 2 ^ s.params.aw.bits)) ∧
  ∀ (s : State) (rest : List HostEvent) (v : U64), s.host = .resetDuring v :: rest →
    s.runState ≠ .busy → 1 ≤ v.toNat → v.toNat ≤ 5 → s.bs.wf s.params = true →
    s.stream.buf.wf = true →
    ∃ t, step s = .next t ∧ t.params = s.params ∧ t.host = rest ∧
      (v.toNat = 1 → t.bs = s.bs) ∧ (3 ≤ v.toNat → t.stream.buf = s.stream.buf) ∧
      t.bs.wf s.params = true ∧ t.stream.buf.wf = true ∧
      (v.toNat ≠ 3 → t.bsSize = s.bsSize) ∧
      (v.toNat = 3 → 1 ≤ t.bsSize ∧ t.bsSize < 2 ^ s.params.aw.bits) ∧
      ∀ a, s.stream.bufSize.toNat ≤ a → s.stream.buf.openTo ≤ a →
        t.stream.buf.read a = s.stream.buf.read a

/-- 10_state.md rule R40: what a write to CFG keeps, field by field, that a read returns it, and that a
serialize command started at level 6 or 7 faults. -/
def Obligations.ConfigRegister : Prop :=
  ∀ (s : State) (v : U64) (rest : List HostEvent), s.host = .writeReg 0 v :: rest →
    s.runState ≠ .busy →
    ∃ t, step s = .next t ∧ t = { s with host := rest, cfg := t.cfg } ∧
      cfgLevel t.cfg = v.toNat % 8 ∧ cfgGapl t.cfg = v.getLsbD 3 ∧ cfgBo t.cfg = v.getLsbD 4 ∧
      (∀ k, 5 ≤ k → t.cfg.getLsbD k = false) ∧
      (5 < v.toNat % 8 → ∀ i, i = .serialize ∨ i = .serializeDestroy →
        ∃ u, exec i t = .next u ∧ Reports (.precondition .config) u) ∧
      ∀ more, step { t with host := .readReg 0 :: more } =
        .next { t with host := more, hostData := t.cfg }

/-- 10_state.md rule R42: what a write to OP keeps, the thirteen codes, that a read returns it, and that
OP_DESERIALIZE started with a code from 13 on faults. -/
def Obligations.OpRegister : Prop :=
  ([SetOp.assign, .or, .and, .xor, .sub, .count, .countAnd, .countOr, .countXor, .countSubAB,
      .countSubBA, .countA, .countB].map (fun o => (setOpCode o).toNat) = List.range 13) ∧
    ∀ (s : State) (v : U64) (rest : List HostEvent), s.host = .writeReg 2 v :: rest →
      s.runState ≠ .busy →
      ∃ t, step s = .next t ∧ t = { s with host := rest, op := t.op } ∧
        (∀ o, setOpOf t.op = some o ↔ v.toNat % 16 = (setOpCode o).toNat) ∧
        exitOnOne t.op = v.getLsbD 4 ∧ (∀ k, 5 ≤ k → t.op.getLsbD k = false) ∧
        (12 < v.toNat % 16 →
          ∃ u, exec .opDeserialize t = .next u ∧ Reports (.precondition .config) u) ∧
        ∀ more, step { t with host := .readReg 2 :: more } =
          .next { t with host := more, hostData := t.op }

/-- 10_state.md rules R31, R43: RANGE_FROM takes the low AW bits of what is written, RANGE_TO and BUF_SIZE
all 64, and every host register can be read while no command runs. While one runs, CMD can be read, and a
read of registers 0, 2, 3, 4, 5 is refused. That RANGE_TO keeps all 64 bits is the model's choice (log entry
15), and so is what can be read while BUSY (log entry 16). -/
def Obligations.DataRegisters : Prop :=
  (∀ (s : State) (rest : List HostEvent), s.runState = .busy →
    (∀ no, no = 0 ∨ no = 2 ∨ no = 3 ∨ no = 4 ∨ no = 5 → s.host = .readReg no :: rest →
      step s = .refused .hostAccessWhileBusy) ∧
    (s.host = .readReg 1 :: rest → step s = .next { s with host := rest, hostData := s.cmd })) ∧
  ∀ s : State, s.runState ≠ .busy → s.host = [] →
    (∀ v, ∃ w, step { s with host := [.writeReg 3 v] } = .next { s with rangeFrom := w } ∧
      w.toNat = v.toNat % 2 ^ s.params.aw.bits) ∧
    (∀ v, step { s with host := [.writeReg 4 v] } = .next { s with rangeTo := v }) ∧
    (∀ v, step { s with host := [.writeReg 5 v] } =
      .next { s with stream := { s.stream with bufSize := v } }) ∧
    ∀ r ∈ [(0, s.cfg), (1, s.cmd), (2, s.op), (3, s.rangeFrom), (4, s.rangeTo),
        (5, s.stream.bufSize), (6, statusWord s), (7, s.resultBytes), (8, s.resultCount)],
      step { s with host := [.readReg r.1] } = .next { s with hostData := r.2 }

/-- 10_state.md rule R44: the fields of STATUS, the codes of STATE, ERR and CAUSE, and CAUSE = 0 without an
error. -/
def Obligations.StatusFields : Prop :=
  ∀ s : State,
    (statusWord s).extractLsb' 0 2 =
      (match s.runState with | .idle => 0 | .busy => 1 | .done => 2 | .error => 3) ∧
    (statusWord s).extractLsb' 2 4 =
      (match s.err with | .none => 0 | .serialFormat => 1 | .precondition => 2) ∧
    (statusWord s).extractLsb' 6 4 = s.cause ∧ (statusWord s).extractLsb' 10 54 = 0 ∧
    (Inv s → s.err = .none → s.cause = 0) ∧
    ∀ c, (statusWord (takeError (.serialFormat c) s)).extractLsb' 6 4 =
      (match c with | .unknownTag => 1 | .addressWidth => 2 | .byteOrder => 3)

/-- 70_reset_and_hazards.md rule R572: while a command runs every write of a host register and every access
to the stream buffer and to the block store is refused, and STATUS can be read; a value other than 1..5
written to CMD is refused. -/
def Obligations.ForbiddenAccesses : Prop :=
  ∀ (s : State) (rest : List HostEvent),
    (s.runState = .busy →
      (∀ no v, s.host = .writeReg no v :: rest → step s = .refused .hostAccessWhileBusy) ∧
      (∀ a v, s.host = .writeBuf a v :: rest → step s = .refused .hostAccessWhileBusy) ∧
      (∀ a, s.host = .readBuf a :: rest → step s = .refused .hostAccessWhileBusy) ∧
      (∀ nb sl, s.host = .putSlot nb sl :: rest → step s = .refused .hostAccessWhileBusy) ∧
      (∀ n, s.host = .setSize n :: rest → step s = .refused .hostAccessWhileBusy) ∧
      (∀ n, s.host = .readBit n :: rest → step s = .refused .hostAccessWhileBusy) ∧
      (s.host = .readReg 6 :: rest →
        step s = .next { s with host := rest, hostData := statusWord s })) ∧
    ∀ v : U64, s.runState ≠ .busy → v.toNat = 0 ∨ 5 < v.toNat → s.host = .writeReg 1 v :: rest →
      step s = .refused .illegalCommand

/-! ### The commands -/

/-- 46_host_commands.md rules R491, R492, R502 to R504, 60_exceptions.md rule R532: each decode command, from
any state (an error included), starts with its datapath initialised and waits for its header. Covers
DESERIALIZE, OP_DESERIALIZE, RANGE_DESERIALIZE. -/
def Obligations.DecodeCommandsStart : Prop :=
  ∀ s : State,
    exec .deserialize s = .next (atHeader 3 false s) ∧
    (s.op.toNat % 16 ≤ 12 → exec .opDeserialize s = .next (atHeader 4 false s)) ∧
    (s.rangeFrom.toNat ≤ s.rangeTo.toNat → s.rangeTo.toNat < 2 ^ s.params.aw.bits →
      exec .rangeDeserialize s = .next (atHeader 5 true s))

/-- 46_host_commands.md rule R493: illegal configurations end the command at once, and nothing is written to
the buffer or the block store. -/
def Obligations.IllegalConfiguration : Prop :=
  ∀ s : State,
    (∀ i, i = .serialize ∨ i = .serializeDestroy → 5 < cfgLevel s.cfg →
      ∃ t, exec i s = .next t ∧ Reports (.precondition .config) t ∧
        t.stream.buf = s.stream.buf ∧ t.bs = s.bs) ∧
    (12 < s.op.toNat % 16 →
      ∃ t, exec .opDeserialize s = .next t ∧ Reports (.precondition .config) t ∧
        t.stream.buf = s.stream.buf ∧ t.bs = s.bs) ∧
    (s.rangeTo.toNat < s.rangeFrom.toNat ∨ 2 ^ s.params.aw.bits ≤ s.rangeTo.toNat →
      ∃ t, exec .rangeDeserialize s = .next t ∧ Reports (.precondition .range) t ∧
        t.stream.buf = s.stream.buf ∧ t.bs = s.bs)

/-- 42_block_encoder.md rule R248, 30_encoding.md rule R106, 46_host_commands.md rules R500, R501: a vector
with no set bit is written as its header and the byte 09; the command ends DONE with that many bytes, and
the source is as it was (SERIALIZE) or has only EMPTY slots (SERIALIZE_DESTROY). That the bytes after the
stream keep their values is the model's choice (log entry 17). -/
def Obligations.SerializeZeroVector : Prop :=
  ∀ s : State, s.params.Valid → s.bs.wf s.params = true → s.stream.buf.wf = true →
    (∀ j, s.bs.content j = Content.zero) → 1 ≤ s.bsSize → s.bsSize < 2 ^ s.params.aw.bits →
    cfgLevel s.cfg ≤ 5 → 19 ≤ s.stream.bufSize.toNat →
    let bytes := encode (.streamHeader (writtenHeader s.params s.bsSize s.cfg)) ++ [9]
    (∃ t, exec .serialize s = .next t ∧ t.runState = .done ∧ t.err = .none ∧
      t.resultBytes.toNat = bytes.length ∧ t.stream.buf.readList 0 bytes.length = bytes ∧
      (∀ a, bytes.length ≤ a → t.stream.buf.read a = s.stream.buf.read a) ∧
      t.bs = s.bs ∧ t.bsSize = s.bsSize) ∧
    ∃ t, exec .serializeDestroy s = .next t ∧ t.runState = .done ∧ t.err = .none ∧
      t.resultBytes.toNat = bytes.length ∧ t.stream.buf.readList 0 bytes.length = bytes ∧
      (∀ a, bytes.length ≤ a → t.stream.buf.read a = s.stream.buf.read a) ∧
      (∀ j, t.bs.at' j = .empty) ∧ t.bsSize = s.bsSize

/-- 46_host_commands.md rule R500: SERIALIZE changes no slot of the block store and not `BS.size`, whether it
ends DONE or in an error; nor anything the host has set but CMD. -/
def Obligations.SerializeKeepsSource : Prop :=
  ∀ s : State, ∃ t, exec .serialize s = .next t ∧ t.bs = s.bs ∧ t.bsSize = s.bsSize ∧
    SameSetup { s with cmd := 1 } t ∧ (t.runState = .done ∨ t.runState = .error)

/-- 42_block_encoder.md rule R270: at DONE of SERIALIZE_DESTROY every slot is EMPTY and `BS.size` is as it
was; after an error the block store is well-formed (60_exceptions.md rule R530). -/
def Obligations.DestroyEmpties : Prop :=
  ∀ s : State, s.bs.wf s.params = true →
    ∃ t, exec .serializeDestroy s = .next t ∧ t.bsSize = s.bsSize ∧ t.bs.wf s.params = true ∧
      SameSetup { s with cmd := 2 } t ∧
      (t.runState = .done ∧ (∀ j, t.bs.at' j = .empty) ∨ t.runState = .error)

/-- 30_encoding.md rule R106: the stream a serialize command has written begins with the header of that
rule. -/
def Obligations.SerializedHeader : Prop :=
  ∀ (s t : State) (i : Instr), i = .serialize ∨ i = .serializeDestroy → s.params.Valid →
    s.stream.buf.wf = true → 1 ≤ s.bsSize → s.bsSize < 2 ^ s.params.aw.bits →
    exec i s = .next t → t.runState = .done →
    let bytes := encode (.streamHeader (writtenHeader s.params s.bsSize s.cfg))
    bytes.length < t.resultBytes.toNat ∧ t.stream.buf.readList 0 bytes.length = bytes ∧
      t.hdrFlags = (writtenHeader s.params s.bsSize s.cfg).flags

/-- 46_host_commands.md rules R500, R501, 70_reset_and_hazards.md rule R567: a serialize command with a legal
level and a buffer that is large enough ends DONE, whatever the vector. The bound is a plain one, 2^20
bytes for each block. -/
def Obligations.SerializeCompletes : Prop :=
  ∀ (s : State) (i : Instr), i = .serialize ∨ i = .serializeDestroy → s.params.Valid →
    s.bs.wf s.params = true → 1 ≤ s.bsSize → s.bsSize < 2 ^ s.params.aw.bits →
    cfgLevel s.cfg ≤ 5 → 2 ^ 20 * (s.params.totalBlocks + 1) ≤ s.stream.bufSize.toNat →
    ∃ t, exec i s = .next t ∧ t.runState = .done ∧ t.err = .none ∧ t.cause = 0 ∧
      t.resultBytes.toNat ≤ s.stream.bufSize.toNat ∧ t.resultBytes.toNat = t.stream.pos

/-! ### Terminators and run tokens -/

/-- 43_block_decoder.md rules R310, R319, 44_stream_iterator.md rule R383: `end` and `azero` set EOS and do
nothing else, for every decode command. -/
def Obligations.EndTokens : Prop :=
  ∀ (i : Instr) (s : State), i = .endOfStream ∨ i = .azero → Walking s →
    exec i s = .next { s with eos := true }

/-- 43_block_decoder.md rules R311 to R318, R320, R335, R336, R346: a run token of DESERIALIZE advances NB by
its length; a zero run changes no slot, a one run makes exactly its blocks FULL. Covers `1zero`, `1one`,
`8zero`, `8one`, `16zero`, `16one`, `32zero`, `32one`, `aone`, `64zero`, `64one` and the shortcut. -/
def Obligations.RunMerges : Prop :=
  ∀ (i : Instr) (s : State) (one : Bool) (n : Nat), runOf s i = some (one, n) → Merging s →
    s.bs.wf s.params = true → s.nb + n ≤ s.params.totalBlocks →
    ∃ bs', exec i s = .next { s with bs := bs', nb := s.nb + n } ∧ (one = false → bs' = s.bs) ∧
      (one = true →
        ∀ j, bs'.at' j = if s.nb ≤ j ∧ j < s.nb + n then .full else s.bs.at' j)

/-- 45_operation_engine.md rules R450, R451: under an operation a run token applies the operation with ZERO
or ONES to every block of the run and to no other, and adds the same sum to COUNT; the run is then skipped
(44_stream_iterator.md rule R380). EOP is never ASSIGN (rule R432). -/
def Obligations.RunOperates : Prop :=
  ∀ (i : Instr) (s : State) (one : Bool) (n : Nat), runOf s i = some (one, n) → Operating s →
    s.eop ≠ .assign → s.bs.wf s.params = true → s.nb + n ≤ s.params.totalBlocks →
    let b := if one then Content.ones else Content.zero
    ∃ bs' d,
      exec i s =
        .next
          { s with
            bs := bs'
            nb := s.nb + n
            monoCnt := 0
            count := s.count +
              BitVec.ofNat 64 (sumBlocks (fun j => (applyOp s.eop (s.bs.content j) b).2) s.nb n)
            draws := d } ∧
      ∀ j, (s.nb ≤ j ∧ j < s.nb + n →
          bs'.content j = (applyOp s.eop (s.bs.content j) b).1) ∧
        (j < s.nb ∨ s.nb + n ≤ j → bs'.at' j = s.bs.at' j)

/-- 43_block_decoder.md rule R309: a run token that would carry NB past TOTAL_BLOCKS takes the Precondition
fault under every decode command, with NB, POS and every block but the one at NB as they were (60_exceptions.md
rule R530); a run of length 0 does nothing to the target of a DESERIALIZE. -/
def Obligations.RunOverrun : Prop :=
  ∀ (i : Instr) (s : State) (one : Bool) (n : Nat), runOf s i = some (one, n) →
    s.bs.wf s.params = true →
    (Walking s → s.params.totalBlocks < s.nb + n →
      ∃ t, exec i s = .next t ∧ TokenError (.precondition .malformed) s t) ∧
    (Merging s → n = 0 → s.nb ≤ s.params.totalBlocks → exec i s = .next s)

/-! ### Reserved tags -/

/-- 43_block_decoder.md rules R322, R323, R325, R347: `sgapbit`, `sgapgap`, `gapbit` and the unassigned tags
take the error SerialFormat, cause 1, with no other effect. -/
def Obligations.ReservedTags : Prop :=
  ∀ (i : Instr) (s : State), isReserved i = true → Walking s →
    ∃ t, exec i s = .next t ∧ TokenError (.serialFormat .unknownTag) s t ∧ t.bs = s.bs

/-- 60_exceptions.md rule R521: a decode command that fetches one of the bytes 12, 13, 15, 35..127 as a tag
reports SerialFormat with cause 1; the byte has been consumed, NB and every block are as before. -/
def Obligations.ReservedByteReported : Prop :=
  ∀ s : State, s.host = [] → Merging s ∨ (Operating s ∧ exitsNow s = false) →
    s.nb < s.params.totalBlocks → s.stream.pos < s.stream.bufSize.toNat →
    let tag := (s.stream.buf.read s.stream.pos).toNat
    tag = 12 ∨ tag = 13 ∨ tag = 15 ∨ (35 ≤ tag ∧ tag ≤ 127) →
    ∃ t, step s = .next t ∧ Reports (.serialFormat .unknownTag) t ∧
      t.stream = { s.stream with pos := s.stream.pos + 1 } ∧ t.nb = s.nb ∧ t.bs = s.bs ∧
      t.bsSize = s.bsSize

/-! ### Block tokens -/

/-- 43_block_decoder.md rules R307, R308, R321, R344: a block token of DESERIALIZE ORs its content into the
block at NB, changes no other slot, and advances NB. A block of kind EMPTY takes the GAP of a GAP-headed token
that the largest level admits, else a bit block; a block of kind BIT is ORed in place by `bit` and
`bit_digest0` and stays a bit block unless it becomes ONES. A `bit` token's pass sets ALLONE exactly when the
block becomes ONES (20_memory.md rule R69); a `bit_digest0` token without waves makes no pass, and leaves a bit
block a bit block and ALLONE as it was; that ALLONE changes in these passes only is the model's choice (log
entry 22). Covers every block tag: 11, 14, 16 to 24, 27 to 34. -/
def Obligations.BlockMerges : Prop :=
  ∀ (i : Instr) (st : ItState) (b : BlockOperand) (s : State), blockForm i = some st →
    tokenOperand i = some b → Merging s → s.bs.wf s.params = true → s.nb < s.params.totalBlocks →
    ∃ bs' idx tb al d,
      exec i s =
        .next
          { s with
            bs := bs'
            nb := s.nb + 1
            idxArr := idx
            allone := al
            gapHead := (headOf i).getD s.gapHead
            tempBlock := tb
            draws := d } ∧
      bs'.content s.nb = s.bs.content s.nb ||| b.content ∧
      (∀ j, j ≠ s.nb → bs'.at' j = s.bs.at' j) ∧
      (b.idx = none → idx = s.idxArr) ∧
      (s.bs.slot s.params s.nb = .empty →
        bs'.at' s.nb =
          match b.headed with
          | some (start, es) =>
            if es.length + 1 ≤ s.params.gapMaxLen then
              .gap (BlockStore.gapCalcLevel s.params (es.length + 1)) start es
            else .bit b.content
          | none => .bit b.content) ∧
      ((i.tag ≠ 11 ∧ i.tag ≠ 34) ∨ (∀ w, s.bs.slot s.params s.nb ≠ .bit w) → al = s.allone) ∧
      ∀ w, s.bs.slot s.params s.nb = .bit w →
        (i.tag = 11 ∨ i.tag = 34 → bs'.content s.nb ≠ Content.ones →
          bs'.at' s.nb = .bit (bs'.content s.nb)) ∧
        (i.tag = 11 → al = decide (bs'.content s.nb = Content.ones)) ∧
        (∀ ws, i = .bitDigest0 0 ws → bs'.at' s.nb = .bit w ∧ al = s.allone)

/-- 45_operation_engine.md rules R440, R447: under an operation a block token replaces the content of the
block at NB and of no other by `apply(EOP, a, b)`, adds to COUNT, and advances NB. That a counting operation
leaves even the form of every slot is the model's choice (log entry 13: `BS.deoptimize` "must not be
observable"). Covers every block tag. -/
def Obligations.BlockOperates : Prop :=
  ∀ (i : Instr) (st : ItState) (b : BlockOperand) (s : State), blockForm i = some st →
    tokenOperand i = some b → Operating s → s.bs.wf s.params = true →
    s.nb < s.params.totalBlocks →
    let r := applyOp s.eop (s.bs.content s.nb) b.content
    ∃ bs' idx tb d,
      exec i s =
        .next
          { s with
            bs := bs'
            nb := s.nb + 1
            count := s.count + BitVec.ofNat 64 r.2
            idxArr := idx
            gapHead := (headOf i).getD s.gapHead
            tempBlock := tb
            draws := d } ∧
      bs'.content s.nb = r.1 ∧ (∀ j, j ≠ s.nb → bs'.at' j = s.bs.at' j) ∧
      (isCounting s.eop = true → bs' = s.bs)

/-- 60_exceptions.md rule R524, row `malformed`; 43_block_decoder.md rules R324 to R344: a block token whose
payload denotes no content (MalformedPayloads and IndexListContent say which do) takes the Precondition
fault, and only the block at NB may differ afterwards (rule R530). That tags 31 and 32 with `min > max` are
among them whatever their count is the model's choice (log entry 21). -/
def Obligations.MalformedBlock : Prop :=
  ∀ (i : Instr) (st : ItState) (s : State), blockForm i = some st → tokenOperand i = none →
    Walking s → s.bs.wf s.params = true → s.nb < s.params.totalBlocks →
    ∃ t, exec i s = .next t ∧ TokenError (.precondition .malformed) s t

/-- 60_exceptions.md rule R524, row `malformed`, with 43_block_decoder.md rules R324 to R343: the payloads of
each format that denote no content. Covers `bit_interval`, `bit_0runs`, `gap`, `gap_egamma`, `gap_bienc`,
`bitgap_bienc`, the gamma-coded and the BIC-coded index lists; a gamma value 0 stands for a code with more than
31 zeros (40_bitcodec.md rule R181). A BIC part whose values do not fit its bounds (rule R182, 30_encoding.md rule
R152) is delivered with no value, so with fewer than were announced, and no list of another length than announced
denotes a content. That tags 31 and 32 with `min > max` are malformed whatever their count is
the model's choice (log entry 21). -/
def Obligations.MalformedPayloads : Prop :=
  let notGap (ends : List U16) := rises ends = false ∨ ∃ e ∈ ends, e.toNat = 65535
  let total (gs : List U32) := (gs.map BitVec.toNat).sum
  (∀ (head tail : U16) (ws : List U32), tail.toNat < head.toNat ∨ 2047 < tail.toNat →
    tokenOperand (.bitInterval head tail ws) = none) ∧
  (∀ (start : Byte) (runs : List (U16 × List U32)),
    1 < start.toNat ∨ (∃ r ∈ runs, r.1.toNat = 0) ∨ (runs.map (fun r => r.1.toNat)).sum ≠ 2048 →
    tokenOperand (.bit0runs start runs) = none) ∧
  (∀ (head : U16) (ends : List U16),
    gapCount head = 0 ∨ ends.length + 1 ≠ gapCount head ∨ notGap ends →
    tokenOperand (.gap head ends) = none) ∧
  (∀ (head : U16) (gs : List U32),
    gapCount head = 0 ∨ gs.length + 1 ≠ gapCount head ∨ (∃ g ∈ gs, g.toNat = 0) ∨ 65535 < total gs →
    tokenOperand (.gapEgamma head gs) = none) ∧
  (∀ (head mn : U16) (ends : List U16),
    gapCount head < 2 ∨ ends.length + 2 ≠ gapCount head ∨ notGap (mn :: ends) →
    tokenOperand (.gapBienc head mn ends) = none) ∧
  (∀ (start : Byte) (sz mn : U16) (ends : List U16),
    1 < start.toNat ∨ sz.toNat < 2 ∨ ends.length + 2 ≠ sz.toNat ∨ notGap (mn :: ends) →
    tokenOperand (.bitgapBienc start sz mn ends) = none) ∧
  (∀ (n : U32) (gs : List U32),
    n.toNat = 0 ∨ 65536 < n.toNat ∨ gs.length ≠ n.toNat ∨ (∃ g ∈ gs, g.toNat = 0) ∨ 65536 < total gs →
    ∀ i ∈ [Instr.arrgapEgamma n gs, .arrgapEgammaInv n gs], tokenOperand i = none) ∧
  (∀ (mn mx : U16) (n4 : U32) (inner : List U16),
    n4.toNat = 0 ∨ 65536 < n4.toNat + 4 ∨ mx.toNat < mn.toNat ∨ inner.length ≠ n4.toNat + 2 →
    ∀ i ∈ [Instr.arrgapBienc mn mx n4 inner, .arrgapBiencInv mn mx n4 inner],
      tokenOperand i = none) ∧
  (∀ (mn mx sz : U16) (inner : List U16),
    sz.toNat < 2 ∨ mx.toNat < mn.toNat ∨ inner.length + 2 ≠ sz.toNat →
    ∀ i ∈ [Instr.arrBienc mn mx sz inner, .arrBiencInv mn mx sz inner], tokenOperand i = none) ∧
  ∀ (n lo hi : Nat) (c : Stream), hi + 1 < lo + n → bicDecode n lo hi c = .ok [] c

/-- 30_encoding.md rules R115 to R127, 43_block_decoder.md section 3 and 4: every well-formed block token
denotes a content. -/
def Obligations.WellFormedDenotes : Prop :=
  ∀ (i : Instr) (st : ItState), blockForm i = some st → i.wf = true →
    ∃ b, tokenOperand i = some b

/-- 45_operation_engine.md rule R430: the table of the thirteen operations, position by position, and the
numbers added to COUNT as numbers of positions. -/
def Obligations.ApplyTable : Prop :=
  ∀ (a b : Content),
    (∀ p, p < 65536 →
      (applyOp .assign a b).1.getLsbD p = b.getLsbD p ∧
      (applyOp .or a b).1.getLsbD p = (a.getLsbD p || b.getLsbD p) ∧
      (applyOp .and a b).1.getLsbD p = (a.getLsbD p && b.getLsbD p) ∧
      (applyOp .xor a b).1.getLsbD p = (a.getLsbD p ^^ b.getLsbD p) ∧
      (applyOp .sub a b).1.getLsbD p = (a.getLsbD p && !b.getLsbD p)) ∧
    (∀ o, isCounting o = true → (applyOp o a b).1 = a) ∧
    (∀ o, isCounting o = false → (applyOp o a b).2 = 0) ∧
    (applyOp .count a b).2 = countBits (fun p => b.getLsbD p) ∧
    (applyOp .countAnd a b).2 = countBits (fun p => a.getLsbD p && b.getLsbD p) ∧
    (applyOp .countOr a b).2 = countBits (fun p => a.getLsbD p || b.getLsbD p) ∧
    (applyOp .countXor a b).2 = countBits (fun p => a.getLsbD p ^^ b.getLsbD p) ∧
    (applyOp .countSubAB a b).2 = countBits (fun p => a.getLsbD p && !b.getLsbD p) ∧
    (applyOp .countSubBA a b).2 = countBits (fun p => b.getLsbD p && !a.getLsbD p) ∧
    (applyOp .countA a b).2 = countBits (fun p => a.getLsbD p) ∧
    (applyOp .countB a b).2 = countBits (fun p => b.getLsbD p)

/-! ### What the payloads denote -/

/-- 43_block_decoder.md rules R326, R328, R334, R340: `arrbit`, `arrgap` are 1 exactly at the listed
positions, `arrbit_inv`, `arrgap_inv` exactly at the others; a list that does not rise is malformed. -/
def Obligations.IndexListContent : Prop :=
  ∀ idx : List U16,
    (rises idx = true →
      ∀ i ∈ [Instr.arrbit idx, .arrgap idx, .arrbitInv idx, .arrgapInv idx],
        ∃ b, tokenOperand i = some b ∧ ∀ p, p < 65536 →
          b.content.getLsbD p =
            (decide (i.tag = 30 ∨ i.tag = 24) ^^ idx.any (fun x => decide (x.toNat = p)))) ∧
    (rises idx = false →
      ∀ i ∈ [Instr.arrbit idx, .arrgap idx, .arrbitInv idx, .arrgapInv idx],
        tokenOperand i = none)

/-- 43_block_decoder.md rules R321, R327, R329, R332, R344: bit `p` of the block a bit form denotes is bit
`p % 32` of its word `p / 32`; `bit_1bit` has one bit. -/
def Obligations.BitFormContent : Prop :=
  (∀ (ws : List U32), ws.length = 2048 →
    ∃ b, tokenOperand (.bit ws) = some b ∧ ∀ p, p < 65536 →
      b.content.getLsbD p = (ws.getD (p / 32) 0).getLsbD (p % 32)) ∧
  (∀ (head tail : U16) (ws : List U32), (Instr.bitInterval head tail ws).wf = true →
    ∃ b, tokenOperand (.bitInterval head tail ws) = some b ∧ ∀ p, p < 65536 →
      b.content.getLsbD p =
        (decide (head.toNat ≤ p / 32 ∧ p / 32 ≤ tail.toNat) &&
          (ws.getD (p / 32 - head.toNat) 0).getLsbD (p % 32))) ∧
  (∀ (pos : U16), ∃ b, tokenOperand (.bit1bit pos) = some b ∧ ∀ p, p < 65536 →
      b.content.getLsbD p = decide (p = pos.toNat)) ∧
  (∀ (start : Byte) (runs : List (U16 × List U32)), (Instr.bit0runs start runs).wf = true →
    ∃ b, tokenOperand (.bit0runs start runs) = some b ∧ ∀ p, p < 65536 →
      b.content.getLsbD p =
        ((runWords (decide (start.toNat = 1)) runs).getD (p / 32) 0).getLsbD (p % 32)) ∧
  ∀ (digest : U64) (ws : List U32), (Instr.bitDigest0 digest ws).wf = true →
    ∃ b, tokenOperand (.bitDigest0 digest ws) = some b ∧ ∀ p, p < 65536 →
      b.content.getLsbD p = ((waveWords digest ws 0 64).getD (p / 32) 0).getLsbD (p % 32)

/-- 43_block_decoder.md rules R324, R330, R337, R343, R348 with 20_memory.md rule R71: a GAP form denotes the
runs its endpoints close, each gamma value being a distance (R330). -/
def Obligations.GapFormContent : Prop :=
  (∀ (head : U16) (ends : List U16), (Instr.gap head ends).wf = true →
    ∃ b, tokenOperand (.gap head ends) = some b ∧
      b.headed = some (head.getLsbD 0, ends.map BitVec.toNat ++ [65535]) ∧ ∀ p, p < 65536 →
        b.content.getLsbD p = gapBit (head.getLsbD 0) (ends.map BitVec.toNat) p) ∧
  (∀ (head : U16) (gs : List U32), (Instr.gapEgamma head gs).wf = true →
    ∃ b, tokenOperand (.gapEgamma head gs) = some b ∧
      b.headed = some (head.getLsbD 0, (prefixSums 0 gs).map (· - 1) ++ [65535]) ∧
      ∀ p, p < 65536 →
        b.content.getLsbD p = gapBit (head.getLsbD 0) ((prefixSums 0 gs).map (· - 1)) p) ∧
  (∀ (head mn : U16) (ends : List U16), (Instr.gapBienc head mn ends).wf = true →
    ∃ b, tokenOperand (.gapBienc head mn ends) = some b ∧
      b.headed = some (head.getLsbD 0, (mn :: ends).map BitVec.toNat ++ [65535]) ∧
      ∀ p, p < 65536 →
        b.content.getLsbD p = gapBit (head.getLsbD 0) ((mn :: ends).map BitVec.toNat) p) ∧
  ∀ (start : Byte) (sz mn : U16) (ends : List U16), (Instr.bitgapBienc start sz mn ends).wf = true →
    ∃ b, tokenOperand (.bitgapBienc start sz mn ends) = some b ∧ b.headed = none ∧
      ∀ p, p < 65536 →
        b.content.getLsbD p =
          gapBit (decide (start.toNat = 1)) ((mn :: ends).map BitVec.toNat) p

/-- 43_block_decoder.md rules R331, R333: the positions of a gamma-coded list are the prefix sums of its
gamma values, less one; the inverted form lists the 0 bits. -/
def Obligations.GammaListContent : Prop :=
  ∀ (n : U32) (gs : List U32), wfArrGamma n gs = true →
    ∀ i ∈ [Instr.arrgapEgamma n gs, .arrgapEgammaInv n gs],
      ∃ b, tokenOperand i = some b ∧ ∀ p, p < 65536 →
        b.content.getLsbD p =
          (decide (i.tag = 23) ^^ (prefixSums 0 gs).any (fun x => decide (x = p + 1)))

/-- 43_block_decoder.md rules R338, R339, R341, R342: the positions of a BIC-coded list are `min`, the
decoded values and `max`, which may repeat `min` or `max`; the inverted forms list the 0 bits. -/
def Obligations.BicListContent : Prop :=
  (∀ (mn mx : U16) (n4 : U32) (inner : List U16), 1 ≤ n4.toNat → n4.toNat + 4 ≤ 65536 →
    mn.toNat ≤ mx.toNat → inner.length = n4.toNat + 2 →
    ∀ i ∈ [Instr.arrgapBienc mn mx n4 inner, .arrgapBiencInv mn mx n4 inner],
      ∃ b, tokenOperand i = some b ∧ ∀ p, p < 65536 →
        b.content.getLsbD p =
          (decide (i.tag = 29) ^^
            (mn :: inner ++ [mx]).any (fun x => decide (x.toNat = p)))) ∧
  ∀ (mn mx sz : U16) (inner : List U16), 2 ≤ sz.toNat → mn.toNat ≤ mx.toNat →
    inner.length = sz.toNat - 2 →
    ∀ i ∈ [Instr.arrBienc mn mx sz inner, .arrBiencInv mn mx sz inner],
      ∃ b, tokenOperand i = some b ∧ ∀ p, p < 65536 →
        b.content.getLsbD p =
          (decide (i.tag = 32) ^^
            (mn :: inner ++ [mx]).any (fun x => decide (x.toNat = p)))

/-! ### The stream header -/

/-- 43_block_decoder.md rules R300, R302, R305: a legal header of DESERIALIZE latches its fields, sets SBO,
grows the target to its size field and opens the token walk at block 0; a size field of 0 or from 2^AW on
is malformed and changes no memory. A register whose field is absent holds a free value (log entry 30). -/
def Obligations.HeaderMerges : Prop :=
  ∀ (h : Header) (s : State), h.wf = true → h.is64 = decide (s.params.aw = .w48) →
    h.isIdList = false → s.runState = .busy → s.phase = .header → s.cmd = 3 →
    (legalSize h s →
      exec (.streamHeader h) s =
        .next
          { withHeader h s with
            nb := 0, eos := false, phase := .tokens, bsSize := grownSize h s }) ∧
    ∀ v, h.size = some v → v.toNat = 0 ∨ 2 ^ s.params.aw.bits ≤ v.toNat →
      ∃ t, exec (.streamHeader h) s = .next t ∧ Reports (.precondition .malformed) t ∧
        t.bs = s.bs ∧ t.bsSize = s.bsSize ∧ t.stream.buf = s.stream.buf

/-- 60_exceptions.md rules R522, R523, R526: a bad byte-order byte is SerialFormat 3, reported before an
address-width mismatch, which is SerialFormat 2; neither touches the target. -/
def Obligations.HeaderErrors : Prop :=
  ∀ (h : Header) (s : State), s.runState = .busy → s.phase = .header →
    s.cmd = 3 ∨ s.cmd = 4 ∨ s.cmd = 5 →
    (∀ b, h.byteOrder = some b → 1 < b.toNat →
      ∃ t, exec (.streamHeader h) s = .next t ∧ Reports (.serialFormat .byteOrder) t ∧
        t.bs = s.bs ∧ t.bsSize = s.bsSize ∧ t.stream.buf = s.stream.buf) ∧
    ((∀ b, h.byteOrder = some b → b.toNat ≤ 1) → h.is64 ≠ decide (s.params.aw = .w48) →
      ∃ t, exec (.streamHeader h) s = .next t ∧ Reports (.serialFormat .addressWidth) t ∧
        t.bs = s.bs ∧ t.bsSize = s.bsSize ∧ t.stream.buf = s.stream.buf)

/-- 44_stream_iterator.md rule R372, 45_operation_engine.md rules R431, R432: a legal header of
OP_DESERIALIZE initialises the iterator and the engine; the target's size stays; ASSIGN first empties every
block and runs as OR, every other operation leaves the target. -/
def Obligations.HeaderOperates : Prop :=
  ∀ (h : Header) (s : State) (op : SetOp), h.wf = true →
    h.is64 = decide (s.params.aw = .w48) → h.isIdList = false → s.runState = .busy →
    s.phase = .header → s.cmd = 4 → s.rangeSet = false → setOpOf s.op = some op →
    s.bs.wf s.params = true →
    ∃ bs',
      exec (.streamHeader h) s =
        .next (withEngine h (if op = .assign then .or else op) bs' s) ∧
      (op ≠ .assign → bs' = s.bs) ∧ (op = .assign → ∀ j, bs'.at' j = .empty)

/-- 45_operation_engine.md rule R465: a legal header of RANGE_DESERIALIZE masks the target with the range and
forces EOP to AND. -/
def Obligations.HeaderMasks : Prop :=
  ∀ (h : Header) (s : State), h.wf = true → h.is64 = decide (s.params.aw = .w48) →
    h.isIdList = false → s.runState = .busy → s.phase = .header → s.cmd = 5 →
    s.rangeSet = true → s.rangeFrom.toNat ≤ s.rangeTo.toNat →
    s.rangeTo.toNat < 2 ^ s.params.aw.bits → s.bs.wf s.params = true →
    ∃ bs' d,
      exec (.streamHeader h) s = .next { withEngine h .and bs' s with draws := d } ∧
      Masked s bs'

/-- 43_block_decoder.md rules R305, R306, 44_stream_iterator.md rule R372, 45_operation_engine.md rules R432,
R465, R470: after an ID_LIST header every decode command reads the count of ids, a u32 in the stream's byte
order, and walks the id list next. DESERIALIZE first grows the target to the size field, if there is one; an
operation opens the engine as for a token stream: ASSIGN empties every block, RANGE_DESERIALIZE masks the
target. A buffer that ends before or inside the count is the Precondition fault `buffer` (20_memory.md rule R66),
with no block changed. -/
def Obligations.HeaderIdList : Prop :=
  ∀ (h : Header) (s : State), h.wf = true → h.is64 = decide (s.params.aw = .w48) →
    h.isIdList = true → s.runState = .busy → s.phase = .header → s.bs.wf s.params = true →
    let n := listedCount h s
    let fits := s.stream.pos + 4 ≤ s.stream.bufSize.toNat
    (s.cmd = 3 ∨ s.cmd = 4 ∨ s.cmd = 5 → ¬ fits → (s.cmd = 3 → legalSize h s) →
      ∃ t, exec (.streamHeader h) s = .next t ∧ Reports (.precondition .buffer) t ∧ t.bs = s.bs ∧
        t.bsSize = (if s.cmd = 3 then grownSize h s else s.bsSize) ∧
        t.stream.buf = s.stream.buf) ∧
    (s.cmd = 3 → fits → legalSize h s →
      exec (.streamHeader h) s =
        .next
          { withIds n s.st (withHeader h s) with nb := 0, eos := false, bsSize := grownSize h s }) ∧
    (∀ v, s.cmd = 3 → h.size = some v → v.toNat = 0 ∨ 2 ^ s.params.aw.bits ≤ v.toNat →
      ∃ t, exec (.streamHeader h) s = .next t ∧ Reports (.precondition .malformed) t ∧
        t.bs = s.bs ∧ t.bsSize = s.bsSize ∧ t.stream.buf = s.stream.buf) ∧
    (∀ op, s.cmd = 4 → fits → s.rangeSet = false → setOpOf s.op = some op →
      ∃ bs',
        exec (.streamHeader h) s =
          .next (withIds n .listIds (withEngine h (if op = .assign then .or else op) bs' s)) ∧
        (op ≠ .assign → bs' = s.bs) ∧ (op = .assign → ∀ j, bs'.at' j = .empty)) ∧
    (s.cmd = 5 → fits → s.rangeSet = true → s.rangeFrom.toNat ≤ s.rangeTo.toNat →
      s.rangeTo.toNat < 2 ^ s.params.aw.bits →
      ∃ bs' d,
        exec (.streamHeader h) s =
          .next { withIds n .listIds (withEngine h .and bs' s) with draws := d } ∧
        Masked s bs')

/-! ### Id lists -/

/-- 43_block_decoder.md rule R306: DESERIALIZE of an id list adds exactly the listed bits and ends DONE with
the bytes of the list consumed. -/
def Obligations.IdListMerges : Prop :=
  ∀ (s : State) (ids : List U32), s.host = [] → s.runState = .busy → s.phase = .ids → s.cmd = 3 →
    s.bs.wf s.params = true → s.idCnt.toNat = ids.length →
    s.stream.buf.readList s.stream.pos (4 * ids.length) = wireU32s s.stream.sbo ids →
    s.stream.pos + 4 * ids.length ≤ s.stream.bufSize.toNat →
    ∃ t, step s = .next t ∧ t.runState = .done ∧ t.eos = true ∧ t.idCnt = 0 ∧
      t.resultBytes.toNat = s.stream.pos + 4 * ids.length ∧ t.stream.buf = s.stream.buf ∧
      t.bsSize = s.bsSize ∧ SameSetup s t ∧
      ∀ j p, p < 65536 →
        (t.bs.content j).getLsbD p = ((s.bs.content j).getLsbD p || listedBit ids j p)

/-- 45_operation_engine.md rules R455, R465, R470: an operation on an id list does to every block what `apply`
says with the vector of the listed bits. RESULT_COUNT is the whole count; with EXIT_ON_ONE it is 0 exactly
when the whole count is, and never more than it. RANGE_DESERIALIZE, whose header has cleared the blocks past
the range, is the AND, and its RESULT_COUNT is 0. -/
def Obligations.IdListOperates : Prop :=
  ∀ (s : State) (ids : List U32) (B : Nat → Content), s.host = [] → s.runState = .busy →
    s.phase = .ids → (s.cmd = 4 ∧ s.rangeSet = false) ∨ (s.cmd = 5 ∧ s.rangeSet = true) →
    s.st = .listIds → s.eop ≠ .assign → s.nb = 0 → s.count = 0 → s.bs.wf s.params = true →
    (s.rangeSet = true → s.eop = .and ∧
      ∀ j, s.rangeTo.toNat / 65536 < j → s.bs.content j = Content.zero) →
    s.idCnt.toNat = ids.length →
    s.stream.buf.readList s.stream.pos (4 * ids.length) = wireU32s s.stream.sbo ids →
    s.stream.pos + 4 * ids.length ≤ s.stream.bufSize.toNat →
    (∀ j p, p < 65536 → (B j).getLsbD p = listedBit ids j p) →
    let full :=
      sumBlocks (fun j => (applyOp s.eop (s.bs.content j) (B j)).2) 0 s.params.totalBlocks
    ∃ t, step s = .next t ∧ t.runState = .done ∧ t.eos = true ∧ t.stream.buf = s.stream.buf ∧
      t.bsSize = s.bsSize ∧ SameSetup s t ∧
      (s.rangeSet = true → t.resultCount = 0) ∧
      (s.rangeSet = false → exitOnOne s.op = false → t.resultCount = BitVec.ofNat 64 full) ∧
      (s.rangeSet = false → exitOnOne s.op = true →
        (t.resultCount = 0 ↔ full = 0) ∧ t.resultCount.toNat ≤ full) ∧
      ∀ j, j < s.params.totalBlocks →
        t.bs.content j = (applyOp s.eop (s.bs.content j) (B j)).1

/-! ### Steps -/

/-- 43_block_decoder.md rule R300, 44_stream_iterator.md rule R373, 46_host_commands.md rule R491: a step runs
the decoded instruction: the token at POS with BLOCK_TYPE holding its tag byte and the reader moved past it,
the header at POS, or the command whose code the host writes. -/
def Obligations.StepRunsDecoded : Prop :=
  (∀ (s : State) (i : Instr) (c : Stream), s.host = [] →
    Merging s ∨ (Operating s ∧ exitsNow s = false) → s.nb < s.params.totalBlocks →
    decodeToken s.stream = .ok i c →
    step s = exec i { s with blockType := s.stream.buf.read s.stream.pos, stream := c }) ∧
  (∀ (s : State) (i : Instr) (c : Stream), s.host = [] → s.runState = .busy → s.phase = .header →
    decodeHeader s.params.aw s.stream = .ok i c → step s = exec i { s with stream := c }) ∧
  ∀ (s : State) (v : U64) (rest : List HostEvent) (i : Instr), s.host = .writeReg 1 v :: rest →
    s.runState ≠ .busy → decodeCommand v = some i → step s = exec i { s with host := rest }

/-- 20_memory.md rules R62, R66: a token, a header or an id list that the stream buffer ends inside takes the
Precondition fault of a stream that ends too early. A header has changed neither memory; a DESERIALIZE has merged
the ids read before (43_block_decoder.md rule R306, 60_exceptions.md rule R530), an operation none. That this is the only error the decoder itself ends with is the model's choice
(log entry 28): the malformed codes of 40_bitcodec.md rules R181, R182 reach the token's meaning, which raises
their fault. -/
def Obligations.TruncatedStream : Prop :=
  (∀ (c d : Stream) (e : Raise), decodeToken c = .error e d →
    e = .precondition .buffer ∧ d.buf = c.buf ∧ d.bufSize = c.bufSize) ∧
  (∀ (s : State) (d : Stream) (e : Raise), s.host = [] → s.runState = .busy → s.phase = .header →
    decodeHeader s.params.aw s.stream = .error e d →
    ∃ t, step s = .next t ∧ Reports (.precondition .buffer) t ∧ t.bs = s.bs ∧
      t.bsSize = s.bsSize ∧ t.stream.buf = s.stream.buf) ∧
  (∀ (s : State) (ids : List U32), s.host = [] → s.runState = .busy → s.phase = .ids →
    s.bs.wf s.params = true → ids.length < s.idCnt.toNat →
    s.stream.buf.readList s.stream.pos (4 * ids.length) = wireU32s s.stream.sbo ids →
    s.stream.pos + 4 * ids.length ≤ s.stream.bufSize.toNat →
    s.stream.bufSize.toNat < s.stream.pos + 4 * (ids.length + 1) →
    ∃ t, step s = .next t ∧ Reports (.precondition .buffer) t ∧ t.nb = s.nb ∧
      t.bsSize = s.bsSize ∧ t.stream.buf = s.stream.buf ∧
      ∀ j p, j ≠ s.nb → p < 65536 →
        (t.bs.content j).getLsbD p =
          ((s.bs.content j).getLsbD p || (decide (s.cmd = 3) && listedBit ids j p))) ∧
  ∀ (s : State) (d : Stream) (e : Raise), s.host = [] →
    Merging s ∨ (Operating s ∧ exitsNow s = false) → s.nb < s.params.totalBlocks →
    s.bs.wf s.params = true → decodeToken s.stream = .error e d →
    ∃ t, step s = .next t ∧ Reports (.precondition .buffer) t ∧ t.nb = s.nb ∧
      t.bsSize = s.bsSize ∧ t.stream.buf = s.stream.buf ∧
      ∀ j, j ≠ s.nb → t.bs.content j = s.bs.content j

/-- 43_block_decoder.md rule R300, 10_state.md rule R45: DESERIALIZE ends, before any further byte is read,
when EOS is set or the block space is exhausted, with RESULT_BYTES = POS; EOS is then set (10_state.md rule
R29). That an exhausted block space sets it, and that the datapath registers keep their last values, is the
model's choice (log entries 34, 36). -/
def Obligations.MergeEnds : Prop :=
  ∀ s : State, s.host = [] → s.runState = .busy → s.phase = .tokens → s.cmd = 3 →
    s.eos = true ∨ s.params.totalBlocks ≤ s.nb →
    ∃ rc tb ia d,
      step s =
        .next
          { s with
            eos := true
            runState := .done
            phase := .idle
            resultBytes := BitVec.ofNat 64 s.stream.pos
            resultCount := rc
            tempBlock := tb
            idxArr := ia
            draws := d }

/-- 45_operation_engine.md rule R460: an operation that ends by EOS, or with the block space exhausted,
applies the operation with ZERO to every block from NB on, and then reports COUNT (0 for
RANGE_DESERIALIZE; 46_host_commands.md rules R503, R504). That the datapath registers keep their last values is
the model's choice (log entry 36). -/
def Obligations.OperationFinalizes : Prop :=
  ∀ s : State, s.host = [] → s.runState = .busy → s.phase = .tokens → s.cmd = 4 ∨ s.cmd = 5 →
    s.st = .blocks → s.eop ≠ .assign → s.bs.wf s.params = true → s.nb ≤ s.params.totalBlocks →
    s.eos = true ∨ (exitsNow s = false ∧ s.nb = s.params.totalBlocks) →
    let n := s.params.totalBlocks - s.nb
    let total := s.count +
      BitVec.ofNat 64
        (sumBlocks (fun j => (applyOp s.eop (s.bs.content j) Content.zero).2) s.nb n)
    ∃ bs' rb tb ia d,
      step s =
        .next
          { s with
            eos := true
            bs := bs'
            count := total
            runState := .done
            phase := .idle
            resultBytes := rb
            resultCount := if s.rangeSet then 0 else total
            tempBlock := tb
            idxArr := ia
            draws := d } ∧
      ∀ j, (s.nb ≤ j → j < s.params.totalBlocks →
          bs'.content j = (applyOp s.eop (s.bs.content j) Content.zero).1) ∧
        (j < s.nb → bs'.at' j = s.bs.at' j)

/-- 45_operation_engine.md rules R431, R455, R465: between two tokens an operation ends early, without
finalization, when EXIT_ON_ONE is set and COUNT is not 0, or when the range has been passed. That the datapath
registers keep their last values is the model's choice (log entry 36). -/
def Obligations.OperationExits : Prop :=
  ∀ s : State, s.host = [] → Operating s →
    exitOnOne s.op = true ∧ s.count ≠ 0 ∨
      s.rangeSet = true ∧ s.rangeTo.toNat / 65536 < s.nb →
    ∃ rb tb ia d,
      step s =
        .next
          { s with
            runState := .done
            phase := .idle
            resultBytes := rb
            resultCount := if s.rangeSet then 0 else s.count
            tempBlock := tb
            idxArr := ia
            draws := d }

/-! ### Decoding and encoding -/

/-- 30_encoding.md rules R112 to R119, R126, R127, 20_memory.md rule R77: decoding the bytes of a well-formed
token of a byte format, in either byte order and whatever follows it, gives the token and its length. -/
def Obligations.DecodeEncodeBytes : Prop :=
  ∀ (sbo : Bool) (i : Instr) (rest : List Byte), byteCoded i = true → i.wf = true →
    (encodeAs sbo i ++ rest).length < 2 ^ 64 →
    decodeBytes sbo (encodeAs sbo i ++ rest) = some (i, (encodeAs sbo i).length)

/-- 30_encoding.md rules R120, R122, R140 to R143: decoding inverts encoding, as above, for the gamma-coded
formats. -/
def Obligations.DecodeEncodeGamma : Prop :=
  ∀ (sbo : Bool) (i : Instr) (rest : List Byte), gammaCoded i = true → i.wf = true →
    (encodeAs sbo i ++ rest).length < 2 ^ 64 →
    decodeBytes sbo (encodeAs sbo i ++ rest) = some (i, (encodeAs sbo i).length)

/-- 30_encoding.md rules R121, R123, R124, R125, R145, R146: decoding inverts encoding, as above, for the
formats with a BIC code. -/
def Obligations.DecodeEncodeBic : Prop :=
  ∀ (sbo : Bool) (i : Instr) (rest : List Byte), bicCoded i = true → i.wf = true →
    (encodeAs sbo i ++ rest).length < 2 ^ 64 →
    decodeBytes sbo (encodeAs sbo i ++ rest) = some (i, (encodeAs sbo i).length)

/-- 30_encoding.md rules R101 to R105, R107: decoding the bytes of a legal stream header of the reader's
address width gives the header and its length; its fields are in the byte order it announces. -/
def Obligations.DecodeEncodeHeader : Prop :=
  ∀ (aw : AddrWidth) (h : Header) (rest : List Byte), h.wf = true → h.is64 = decide (aw = .w48) →
    let sbo := h.noByteOrder || decide (h.byteOrder = some 1#8)
    let bytes := encodeAs sbo (.streamHeader h)
    (bytes ++ rest).length < 2 ^ 64 →
    decodeHeaderBytes aw (bytes ++ rest) = some (.streamHeader h, bytes.length)

/-- 43_block_decoder.md, the examples of rules R315, R329, R328, R330, R337, R346, R322, R302: bytes
written out there decode to the instructions they stand for. -/
def Obligations.DecodeExamples : Prop :=
  decodeBytes true [0x05, 0x2C, 0x01] = some (.zero16 300, 3) ∧
  decodeBytes false [0x05, 0x01, 0x00] = some (.zero16 256, 3) ∧
  decodeBytes true [0x13, 0x40, 0x42] = some (.bit1bit 16960, 3) ∧
  decodeBytes true [0x12, 0x03, 0x00, 0x05, 0x00, 0x0A, 0x00, 0x63, 0x00] =
    some (.arrgap [5, 10, 99], 9) ∧
  decodeBytes true [0x14, 0x38, 0x00, 0x2C, 0x09, 0xC4, 0x02] =
    some (.gapEgamma 0x38 [5, 1, 4, 1, 88, 1], 7) ∧
  decodeBytes true [0x1B, 0x21, 0x00, 0x00, 0x00, 0x3F, 0x00, 0x3F, 0x00] =
    some (.gapBienc 0x21 0 [63, 64], 9) ∧
  decodeBytes true [0x80] = some (.zskip 0, 1) ∧
  decodeBytes true [0x0C] = some (.sgapbit, 1) ∧
  decodeHeaderBytes .w32 [0x12, 0x01, 0xE8, 0x03, 0x00, 0x00] =
    some (.streamHeader ⟨0x12, some 1, none, some 1000⟩, 6)

/-- 44_stream_iterator.md rule R411, 20_memory.md rule R60, 40_bitcodec.md rule R187: decoding a well-formed
token moves POS forward inside the buffer, leaves the bit reader drained, its accumulator cleared if it was
clear (rule R180), and changes nothing else. -/
def Obligations.DecodeDrains : Prop :=
  ∀ (c d : Stream) (i : Instr), decodeToken c = .ok i d → i.wf = true → c.ravail = 0 →
    d = { c with pos := d.pos, racc := d.racc } ∧ c.pos < d.pos ∧ d.pos ≤ c.bufSize.toNat ∧
      (c.racc = 0 → d.racc = 0)

/-- 20_memory.md rules R63 to R66, R78: a u32 is written least significant byte first at POS, no other byte
changes, reading it back gives it, and a write that does not fit faults with nothing changed. -/
def Obligations.PutThenGet : Prop :=
  ∀ (c : Stream) (v : U32), c.buf.wf = true →
    (c.pos + 4 ≤ c.bufSize.toNat →
      ∃ d, putU32 v c = .ok () d ∧
        Wrote [v.extractLsb' 0 8, v.extractLsb' 8 8, v.extractLsb' 16 8, v.extractLsb' 24 8] c d ∧
        (∀ a, c.pos + 4 ≤ a → d.buf.read a = c.buf.read a) ∧
        getU32 { d with pos := c.pos, sbo := true } = .ok v { d with sbo := true }) ∧
    (c.bufSize.toNat < c.pos + 4 → putU32 v c = .error (.precondition .buffer) c)

/-- 20_memory.md rule R69: the fused reads OR and AND the words of the stream into words `k ..` of a target,
word by word, and leave every other word; OR sets ALLONE exactly when every word of the pass is all ones.
Without a target both only skip the words, and OR clears ALLONE. A pass that does not fit the buffer
faults. -/
def Obligations.FusedPasses : Prop :=
  ∀ (s : State) (c : Content) (k count : Nat), k + count ≤ 2048 →
    let word (i : Nat) : U32 :=
      BitVec.ofNat 32
        (bytesValue s.stream.sbo (s.stream.buf.readList (s.stream.pos + 4 * (i - k)) 4))
    let past : Stream := { s.stream with pos := s.stream.pos + 4 * count }
    (s.stream.pos + 4 * count ≤ s.stream.bufSize.toNat →
      (∃ c' al, getU32Or (some c) k count s = .ok (some c') { s with stream := past, allone := al } ∧
        (∀ i, i < 2048 →
          wordAt c' i = if k ≤ i ∧ i < k + count then wordAt c i ||| word i else wordAt c i) ∧
        (al = true ↔ ∀ i, k ≤ i → i < k + count → wordAt c' i = 0xFFFFFFFF#32) ∧
        (count = 2048 → (al = true ↔ c' = Content.ones))) ∧
      (∃ c', getU32And (some c) k count s = .ok (some c') { s with stream := past } ∧
        ∀ i, i < 2048 →
          wordAt c' i = if k ≤ i ∧ i < k + count then wordAt c i &&& word i else wordAt c i) ∧
      getU32Or none k count s = .ok none { s with stream := past, allone := false } ∧
      getU32And none k count s = .ok none { s with stream := past }) ∧
    (0 < count → s.stream.bufSize.toNat < s.stream.pos + 4 * count →
      (∀ target, ∃ t, getU32Or target k count s = .error (.precondition .buffer) t) ∧
      ∀ target, ∃ t, getU32And target k count s = .error (.precondition .buffer) t)

/-! ### The encoder -/

/-- 42_block_encoder.md rule R247: the token the encoder writes for a run of each length. -/
def Obligations.RunEmission : Prop :=
  ∀ (c : Stream) (n : Nat), c.buf.wf = true → 1 ≤ n → n < 2 ^ 64 → c.pos + 9 ≤ c.bufSize.toNat →
    (∃ d, emitZeroRun n c = .ok () d ∧ Wrote (encode (zeroRunForm n)) c d) ∧
    ∃ d, emitOneRun n c = .ok () d ∧ Wrote (encode (oneRunForm n)) c d

/-- 42_block_encoder.md rules R251 to R268: for a non-mono content in a bit block the encoder writes, at every
legal level, the bytes of one well-formed token that denotes exactly that content: the token of the classifier's
proposal after the level map, or the plain form where the compressed one is longer, and then ROLLED is set. A
GAP header says level 0. The source is not changed, BEST_TAG holds the proposal (at levels 0 and 1 by log entry 33), and the token has at most 8193
bytes, given GAP_EQUIV_LEN up to 4096 and GAP_MAX_LEN up to 4097 (R268 names the first bound only; a plain GAP
of more than 4096 endpoints would exceed 8193 bytes). -/
def Obligations.BitBlockEmission : Prop :=
  ∀ (s : State) (c : Content), s.params.Valid → s.stream.buf.wf = true → cfgLevel s.cfg ≤ 5 →
    s.stream.wacc = 0 → s.stream.wused = 0 → c ≠ Content.zero → c ≠ Content.ones →
    s.stream.pos + 2 ^ 20 ≤ s.stream.bufSize.toNat →
    let L := cfgLevel s.cfg
    let proposal := classifyBit s.params L c
    ∃ t i rolled, emitBitBlock c s = .ok () t ∧ Denotes i c ∧
      Wrote (encode i) s.stream t.stream ∧ t.bs = s.bs ∧ t.nb = s.nb ∧
      ChosenToken (triedForm c (levelMap L proposal)) c i rolled ∧ t.rolled = (s.rolled || rolled) ∧
      t.bestTag = proposal.tag ∧ (∀ head, headOf i = some head → head.toNat / 2 % 4 = 0) ∧
      (s.params.gapEquivLen ≤ 4096 → s.params.gapMaxLen ≤ 4097 → (encode i).length ≤ 8193)

/-- 42_block_encoder.md rules R250, R260 to R264, R268: for a slot in the GAP form with non-mono content the
encoder writes, at every legal level, the bytes of one well-formed token that denotes exactly that content: the
token of the classifier's proposal, or the plain form where the compressed one is longer, and then ROLLED is set.
A GAP header carries the slot's level, and the token has at most `1 + 2m` bytes for `m` endpoints. -/
def Obligations.GapBlockEmission : Prop :=
  ∀ (s : State) (level : Fin 4) (start : Bool) (ends : List Nat), s.params.Valid →
    s.stream.buf.wf = true → cfgLevel s.cfg ≤ 5 → s.stream.wacc = 0 → s.stream.wused = 0 →
    Slot.wf s.params (.gap level start ends) = true →
    gapRuns start 0 ends ≠ Content.zero → gapRuns start 0 ends ≠ Content.ones →
    s.stream.pos + 2 ^ 20 ≤ s.stream.bufSize.toNat →
    let c := gapRuns start 0 ends
    ∃ t i rolled, emitGapBlock level start ends s = .ok () t ∧ Denotes i c ∧
      Wrote (encode i) s.stream t.stream ∧ t.bs = s.bs ∧ t.nb = s.nb ∧
      ChosenToken (triedForm c (classifyGap (cfgLevel s.cfg) start ends)) c i rolled ∧
      t.rolled = (s.rolled || rolled) ∧
      (∀ head, headOf i = some head → head.toNat / 2 % 4 = level.val) ∧
      (encode i).length ≤ 1 + 2 * ends.length

/-- 41_classifier.md rule R201: the four statistics of a content, position by position and word by word. -/
def Obligations.Statistics : Prop :=
  ∀ c : Content,
    (∀ j, j < 64 →
      (statsOf c).d0.getLsbD j =
        (List.range 32).any (fun k => decide (wordAt c (32 * j + k) ≠ 0))) ∧
    (statsOf c).bc = countBits (fun p => c.getLsbD p) ∧
    (statsOf c).bitGaps =
      countBits (fun p => decide (p < 65535) && (c.getLsbD p ^^ c.getLsbD (p + 1))) ∧
    (statsOf c).nzSize =
      2 * (1 + ((List.range 2047).filter
          (fun k => decide (wordAt c k = 0) ^^ decide (wordAt c (k + 1) = 0))).length) +
        4 * ((List.range 2048).filter (fun k => decide (wordAt c k ≠ 0))).length

/-- 41_classifier.md rules R202, R203, R221: mono blocks and levels 0 and 1 come first; else the proposal is
`bit` or the first of the candidates with the least cost, if that is below 65536. -/
def Obligations.Selection : Prop :=
  ∀ (p : Params) (L : Nat) (s : Stats),
    (s.d0 = 0 → classifyStats p L s = (.azero, 0)) ∧
    (s.d0 ≠ 0 → s.bc = 65536 → classifyStats p L s = (.aone, 0)) ∧
    (s.d0 ≠ 0 → s.bc ≠ 65536 → L ≤ 1 → classifyStats p L s = (.bit, 65536)) ∧
    (s.d0 ≠ 0 → s.bc ≠ 65536 → 2 ≤ L →
      let r := classifyStats p L s
      r.2 ≤ 65536 ∧ (∀ c ∈ candidates p L s, c.guard = true → r.2 ≤ c.cost) ∧
        (r = (.bit, 65536) ∨
          ∃ before c after, candidates p L s = before ++ c :: after ∧ c.guard = true ∧
            c.proposal = r.1 ∧ c.cost = r.2 ∧
            (∀ b ∈ before, b.guard = true → r.2 < b.cost) ∧ r.2 < 65536))

/-- 41_classifier.md rules R204 to R219, R230, 42_block_encoder.md rule R256: the candidates in their order, each
with its guard and its cost; the path of a GAP slot; the map of the levels 2 and 3. -/
def Obligations.ClassifierTables : Prop :=
  (∀ (p : Params) (L : Nat) (s : Stats),
    let ibc := 65536 - s.bc
    let has (t : Proposal) (g : Prop) (cost : Int) : Prop :=
      ∀ c ∈ candidates p L s, c.proposal = t → (c.guard = true ↔ g) ∧ c.cost = cost
    (candidates p L s).map (fun c => c.proposal) =
      [.bit1bit, .bit0runs, .bitDigest0, .arrbit, .arrbitInv, .gapBienc, .arrgapBienc,
        .arrgapBiencInv, .arrBienc, .arrBiencInv, .bitgapBienc, .gapEgamma, .arrgapEgamma,
        .arrgapEgammaInv] ∧
    has .bit1bit (s.bc = 1) 16 ∧
    has .bit0runs True (8 * s.nzSize) ∧
    has .bitDigest0 True (8 * (8 + 128 * ((List.range 64).filter (fun j => s.d0.getLsbD j)).length)) ∧
    has .arrbit True (8 * (2 + 2 * s.bc)) ∧
    has .arrbitInv True (8 * (2 + 2 * ibc)) ∧
    has .gapBienc (L = 5 ∧ s.bitGaps + 2 ≤ p.gapMaxLen) (32 + ((s.bitGaps : Int) - 1) * 4) ∧
    has .arrgapBienc (L = 5 ∧ s.bc < s.bitGaps ∧ s.bc < p.gapEquivLen) (48 + s.bc * 4) ∧
    has .arrgapBiencInv (L = 5 ∧ ibc < s.bitGaps ∧ ibc < p.gapEquivLen) (48 + ibc * 4) ∧
    has .arrBienc (L = 5 ∧ p.gapEquivLen ≤ s.bc ∧ s.bc < p.bieCutOff) (48 + s.bc * 4) ∧
    has .arrBiencInv (L = 5 ∧ p.gapEquivLen ≤ ibc ∧ ibc < p.bieCutOff) (48 + ibc * 4) ∧
    has .bitgapBienc (L = 5 ∧ p.gapEquivLen ≤ s.bitGaps ∧ s.bitGaps < p.bieCutOff)
      (64 + ((s.bitGaps : Int) - 2) * 4) ∧
    has .gapEgamma (2 ≤ L ∧ L ≤ 4 ∧ s.bitGaps + 2 ≤ p.gapMaxLen)
      (p.gammaGapBase + ((s.bitGaps : Int) - 1) * p.gammaBitsPerInt) ∧
    has .arrgapEgamma (2 ≤ L ∧ L ≤ 4 ∧ s.bc < s.bitGaps ∧ s.bc < p.gapEquivLen)
      (p.gammaArrBase + s.bc * p.gammaBitsPerInt) ∧
    has .arrgapEgammaInv (2 ≤ L ∧ L ≤ 4 ∧ ibc < s.bitGaps ∧ ibc < p.gapEquivLen)
      (p.gammaArrBase + ibc * p.gammaBitsPerInt)) ∧
  (∀ (L : Nat) (start : Bool) (ends : List Nat),
    let t := classifyGap L start ends
    let bc := popcount (gapRuns start 0 ends)
    let len := ends.length + 1
    let pick (a b c : Proposal) := if L ≤ 3 then a else if L = 4 then b else c
    (L ≤ 1 → t = .gap) ∧
    (2 ≤ L → L ≤ 5 → bc = 1 → t = .bit1bit) ∧
    (2 ≤ L → L ≤ 5 → bc ≠ 1 → bc + 2 ≤ len → t = pick .arrgap .arrgapEgamma .arrgapBienc) ∧
    (2 ≤ L → L ≤ 5 → bc ≠ 1 → len < bc + 2 → 65536 - bc + 2 ≤ len →
      t = pick .arrgapInv .arrgapEgammaInv .arrgapBiencInv) ∧
    (2 ≤ L → L ≤ 5 → bc ≠ 1 → len < bc + 2 → len < 65536 - bc + 2 →
      t = pick .gap .gapEgamma .gapBienc)) ∧
  ∀ (L : Nat) (t : Proposal),
    let mid := L = 2 ∨ L = 3
    (mid → levelMap L .gapEgamma = .gap ∧ levelMap L .arrgapEgamma = .arrgap ∧
      levelMap L .arrgapEgammaInv = .arrgapInv) ∧
    (¬ mid ∨ (t ≠ .gapEgamma ∧ t ≠ .arrgapEgamma ∧ t ≠ .arrgapEgammaInv) → levelMap L t = t)

/-! ### The round trip -/

/-- 43_block_decoder.md rules R352, R353, 42_block_encoder.md rule R270: the stream SERIALIZE writes, or
SERIALIZE_DESTROY, deserialized into an all-EMPTY target of the same address width, gives every block the content
it had before the serialize command; the target's size grows to the source's when the stream carries it; and the
reader consumes the whole stream when the last block's content is ZERO, else all of it but its last byte, the
unread `end`. -/
def Obligations.RoundTrip : Prop :=
  ∀ (i : Instr) (s t u : State), i = .serialize ∨ i = .serializeDestroy → s.params.Valid →
    s.bs.wf s.params = true → s.stream.buf.wf = true →
    1 ≤ s.bsSize → s.bsSize < 2 ^ s.params.aw.bits → cfgLevel s.cfg ≤ 5 →
    exec i s = .next t → t.runState = .done → u.params.Valid →
    u.params.aw = s.params.aw → u.runState ≠ .busy →
    (∀ j, u.bs.at' j = .empty) → u.bs.wf u.params = true → u.stream.buf = t.stream.buf →
    t.resultBytes.toNat ≤ u.stream.bufSize.toNat → u.host = [.writeReg 1 3] →
    ∃ n v, runFor n u = some v ∧ v.runState = .done ∧ v.err = .none ∧
      (∀ j, v.bs.content j = s.bs.content j) ∧
      v.bsSize = (if s.bsSize = s.params.sizeDefault then u.bsSize else max u.bsSize s.bsSize) ∧
      (s.bs.content (s.params.totalBlocks - 1) = Content.zero → v.resultBytes = t.resultBytes) ∧
      (s.bs.content (s.params.totalBlocks - 1) ≠ Content.zero →
        v.resultBytes.toNat + 1 = t.resultBytes.toNat)

/-! ### The invariant -/

/-- The invariant holds after reset (10_state.md rule R52). The parameters and the first contents of the stream
buffer and of the block store are the model's choice (log entries 1, 3). -/
def Obligations.InvariantAtReset : Prop := Inv State.reset

/-- 10_state.md rules R25, R26, R31, R40, R42, R44, R48, 20_memory.md rules R71, R73, 40_bitcodec.md rule R187,
44_stream_iterator.md rule R411, 60_exceptions.md rule R530: every step, from every state, keeps the
invariant. -/
def Obligations.InvariantKept : Prop :=
  ∀ s t : State, Inv s → step s = .next t → Inv t
end

