-- ==== Sys2Proof/Laws/BlockStore.lean ====
section
/-! SUPPORT. The laws of the block store: what every operation does to every slot, and the canonical form,
which every operation keeps. -/

namespace Sys2Proof.Machine.BlockStore

/-- Change points rise strictly from `lo` on. -/
def rising (lo : Nat) : BlockStore → Prop
  | [] => True
  | (a, _) :: r => lo ≤ a ∧ rising (a + 1) r

/-- The slot after the last change point. -/
def lastSlot (prev : Slot) : BlockStore → Slot
  | [] => prev
  | (_, s) :: r => lastSlot s r

theorem rising_mono {l : BlockStore} {a b : Nat} (h : rising b l) (hab : a ≤ b) : rising a l := by
  cases l with
  | nil => trivial
  | cons e r => exact ⟨Nat.le_trans hab h.1, h.2⟩

theorem rising_mem {l : BlockStore} {lo : Nat} (h : rising lo l) {e : Nat × Slot} (he : e ∈ l) :
    lo ≤ e.1 := by
  induction l generalizing lo with
  | nil => exact absurd he (by simp)
  | cons d r ih =>
    rcases List.mem_cons.1 he with rfl | he
    · exact h.1
    · exact Nat.le_trans (Nat.le_succ_of_le h.1) (ih h.2 he)

theorem slotFrom_lt {l : BlockStore} {lo nb : Nat} (h : rising lo l) (hn : nb < lo) (prev : Slot) :
    slotFrom prev l nb = prev := by
  cases l with
  | nil => rfl
  | cons e r =>
    obtain ⟨a, s⟩ := e
    have := h.1
    rw [slotFrom, if_pos (by omega)]

theorem slotFrom_top {l : BlockStore} {N : Nat} (h : ∀ e ∈ l, e.1 ≤ N) (prev : Slot) :
    slotFrom prev l N = lastSlot prev l := by
  induction l generalizing prev with
  | nil => rfl
  | cons e r ih =>
    obtain ⟨a, s⟩ := e
    have := h (a, s) List.mem_cons_self
    rw [slotFrom, if_neg (by simpa using this), lastSlot,
      ih (fun e he => h e (List.mem_cons_of_mem _ he))]

theorem slotFrom_normalize {l : BlockStore} {lo : Nat} (h : rising lo l) (prev : Slot) (nb : Nat) :
    slotFrom prev (normalize prev l) nb = slotFrom prev l nb := by
  induction l generalizing lo prev with
  | nil => rfl
  | cons e r ih =>
    obtain ⟨a, s⟩ := e
    rw [normalize]
    split
    · rename_i hs
      subst hs
      rw [ih h.2, slotFrom]
      split
      · exact slotFrom_lt h.2 (by omega) _
      · rfl
    · rw [slotFrom, slotFrom, ih h.2]

theorem lastSlot_normalize (l : BlockStore) (prev : Slot) :
    lastSlot prev (normalize prev l) = lastSlot prev l := by
  induction l generalizing prev with
  | nil => rfl
  | cons e r ih =>
    obtain ⟨a, s⟩ := e
    rw [normalize]
    split
    · rename_i hs
      subst hs
      rw [ih, lastSlot]
    · rw [lastSlot, lastSlot, ih]

theorem mem_normalize {l : BlockStore} {prev : Slot} {e : Nat × Slot} (h : e ∈ normalize prev l) :
    e ∈ l := by
  induction l generalizing prev with
  | nil => exact h
  | cons d r ih =>
    obtain ⟨a, s⟩ := d
    rw [normalize] at h
    split at h
    · exact List.mem_cons_of_mem _ (ih h)
    · rcases List.mem_cons.1 h with h | h
      · exact h ▸ List.mem_cons_self
      · exact List.mem_cons_of_mem _ (ih h)

/-- A rising list, normalized, is in canonical form. -/
theorem canon_normalize {l : BlockStore} {lo top : Nat} {prev : Slot} (h : rising lo l)
    (ht : ∀ e ∈ l, e.1 ≤ top) (hl : lastSlot prev l = .empty) :
    canonFrom top lo prev (normalize prev l) = true := by
  induction l generalizing lo prev with
  | nil => simpa [normalize, canonFrom, lastSlot] using hl
  | cons e r ih =>
    obtain ⟨a, s⟩ := e
    have ht' : ∀ e ∈ r, e.1 ≤ top := fun e he => ht e (List.mem_cons_of_mem _ he)
    have ha := ht (a, s) List.mem_cons_self
    rw [normalize]
    split
    · rename_i hs
      subst hs
      exact ih (rising_mono h.2 (Nat.le_succ_of_le h.1)) ht' hl
    · rename_i hs
      simp only [canonFrom, Bool.and_eq_true, decide_eq_true_eq]
      exact ⟨⟨⟨h.1, ha⟩, hs⟩, ih h.2 ht' hl⟩

theorem rising_of_canon {l : BlockStore} {top lo : Nat} {prev : Slot}
    (h : canonFrom top lo prev l = true) : rising lo l := by
  induction l generalizing lo prev with
  | nil => trivial
  | cons e r ih =>
    obtain ⟨a, s⟩ := e
    simp only [canonFrom, Bool.and_eq_true, decide_eq_true_eq] at h
    exact ⟨h.1.1.1, ih h.2⟩

theorem top_of_canon {l : BlockStore} {top lo : Nat} {prev : Slot}
    (h : canonFrom top lo prev l = true) : ∀ e ∈ l, e.1 ≤ top := by
  induction l generalizing lo prev with
  | nil => simp
  | cons e r ih =>
    obtain ⟨a, s⟩ := e
    simp only [canonFrom, Bool.and_eq_true, decide_eq_true_eq] at h
    intro e he
    rcases List.mem_cons.1 he with rfl | he
    · exact h.1.1.2
    · exact ih h.2 e he

theorem last_of_canon {l : BlockStore} {top lo : Nat} {prev : Slot}
    (h : canonFrom top lo prev l = true) : lastSlot prev l = .empty := by
  induction l generalizing lo prev with
  | nil => simpa [canonFrom, lastSlot] using h
  | cons e r ih =>
    obtain ⟨a, s⟩ := e
    simp only [canonFrom, Bool.and_eq_true] at h
    exact ih h.2

theorem wf_canon {p : Params} {bs : BlockStore} (h : bs.wf p = true) :
    canonFrom p.totalBlocks 0 .empty bs = true := by
  simp only [wf, Bool.and_eq_true] at h
  exact h.1

theorem wf_rising {p : Params} {bs : BlockStore} (h : bs.wf p = true) : rising 0 bs :=
  rising_of_canon (wf_canon h)

/-- Every slot of a well-formed store is one the store may hold. -/
theorem wf_at {p : Params} {bs : BlockStore} (h : bs.wf p = true) (nb : Nat) :
    (bs.at' nb).wf p = true := by
  simp only [wf, Bool.and_eq_true, List.all_eq_true] at h
  have key : ∀ (l : BlockStore) (prev : Slot), prev.wf p = true → (∀ e ∈ l, e.2.wf p = true) →
      (slotFrom prev l nb).wf p = true := by
    intro l
    induction l with
    | nil => intro prev hp _; exact hp
    | cons e r ih =>
      obtain ⟨a, s⟩ := e
      intro prev hp he
      rw [slotFrom]
      split
      · exact hp
      · exact ih s (he (a, s) List.mem_cons_self) fun e h => he e (List.mem_cons_of_mem _ h)
  exact key bs .empty rfl h.2

/-- Beyond the block space the store is EMPTY. -/
theorem at_top {p : Params} {bs : BlockStore} (h : bs.wf p = true) {nb : Nat}
    (hn : p.totalBlocks ≤ nb) : bs.at' nb = .empty := by
  rw [at', slotFrom_top fun e he => Nat.le_trans (top_of_canon (wf_canon h) e he) hn]
  exact last_of_canon (wf_canon h)

/-! ### The list `mapRange` builds, before it is normalized -/

/-- The change points of `mapRange f lo hi`, the slot before the list being `prev`. -/
def rawRange (f : Slot → Slot) (lo hi : Nat) (prev : Slot) (bs : BlockStore) : BlockStore :=
  bs.filter (fun e => decide (e.1 < lo)) ++
    (lo, f (slotFrom prev bs lo)) ::
      ((bs.filter (fun e => decide (lo < e.1) && decide (e.1 < hi))).map (fun e => (e.1, f e.2)) ++
        (hi, slotFrom prev bs hi) :: bs.filter (fun e => decide (hi < e.1)))

theorem mapRange_eq (f : Slot → Slot) {lo hi : Nat} (h : lo < hi) (bs : BlockStore) :
    mapRange f lo hi bs = normalize .empty (rawRange f lo hi .empty bs) := by
  rw [mapRange, if_neg (by omega)]
  rfl

theorem filter_lt_nil {l : BlockStore} {lo hi : Nat} (h : rising lo l) (hh : hi ≤ lo) :
    l.filter (fun e => decide (e.1 < hi)) = [] := by
  rw [List.filter_eq_nil_iff]
  intro e he
  have := rising_mem h he
  simp
  omega

theorem filter_mid_nil {l : BlockStore} {lo lo' hi : Nat} (h : rising lo l) (hh : hi ≤ lo) :
    l.filter (fun e => decide (lo' < e.1) && decide (e.1 < hi)) = [] := by
  rw [List.filter_eq_nil_iff]
  intro e he
  have := rising_mem h he
  simp
  omega

theorem filter_gt_self {l : BlockStore} {lo hi : Nat} (h : rising lo l) (hh : hi < lo) :
    l.filter (fun e => decide (hi < e.1)) = l := by
  rw [List.filter_eq_self]
  intro e he
  have := rising_mem h he
  simp
  omega

theorem slotFrom_mid (f : Slot → Slot) {lo0 hi : Nat} {l : BlockStore} {lo nb : Nat} (hr : rising lo l)
    (h0 : lo0 < lo) (prev : Slot) :
    slotFrom (f prev)
      ((l.filter (fun e => decide (lo0 < e.1) && decide (e.1 < hi))).map (fun e => (e.1, f e.2)) ++
        (hi, slotFrom prev l hi) :: l.filter (fun e => decide (hi < e.1))) nb =
      if nb < hi then f (slotFrom prev l nb) else slotFrom prev l nb := by
  induction l generalizing lo prev with
  | nil => simp [slotFrom]
  | cons e r ih =>
    obtain ⟨a, s⟩ := e
    have ha := hr.1
    rcases Nat.lt_trichotomy a hi with h | h | h
    · have e1 : slotFrom prev ((a, s) :: r) hi = slotFrom s r hi := by
        rw [slotFrom, if_neg (by omega)]
      rw [e1, List.filter_cons_of_pos (by simp; omega), List.filter_cons_of_neg (by simp; omega),
        List.map_cons, List.cons_append, slotFrom, ih hr.2 (by omega) s]
      by_cases hn : nb < a
      · rw [if_pos hn, if_pos (by omega), slotFrom, if_pos hn]
      · rw [if_neg hn, slotFrom, if_neg hn]
    · subst h
      have e1 : slotFrom prev ((a, s) :: r) a = s := by
        rw [slotFrom, if_neg (by omega), slotFrom_lt hr.2 (by omega)]
      rw [e1, List.filter_cons_of_neg (by simp), List.filter_cons_of_neg (by simp),
        filter_mid_nil hr.2 (by omega), filter_gt_self hr.2 (by omega), List.map_nil, List.nil_append,
        slotFrom, slotFrom]
      by_cases hn : nb < a
      · simp [hn]
      · simp [hn]
    · have e1 : slotFrom prev ((a, s) :: r) hi = prev := by rw [slotFrom, if_pos h]
      rw [e1, List.filter_cons_of_neg (by simp; omega), List.filter_cons_of_pos (by simp; omega),
        filter_mid_nil hr.2 (by omega), filter_gt_self hr.2 (by omega), List.map_nil, List.nil_append,
        slotFrom]
      by_cases hn : nb < hi
      · rw [if_pos hn, if_pos hn, slotFrom, if_pos (by omega)]
      · rw [if_neg hn, if_neg hn]

theorem slotFrom_raw (f : Slot → Slot) {lo hi : Nat} (hlt : lo < hi) {l : BlockStore} {l0 nb : Nat}
    (hr : rising l0 l) (prev : Slot) :
    slotFrom prev (rawRange f lo hi prev l) nb =
      if lo ≤ nb ∧ nb < hi then f (slotFrom prev l nb) else slotFrom prev l nb := by
  induction l generalizing l0 prev with
  | nil =>
    simp only [rawRange, List.filter_nil, List.map_nil, List.nil_append, slotFrom]
    by_cases h1 : nb < lo
    · simp [h1, Nat.not_le.2 h1]
    · by_cases h2 : nb < hi <;> simp [h1, h2, Nat.le_of_not_lt h1]
  | cons e r ih =>
    obtain ⟨a, s⟩ := e
    rcases Nat.lt_trichotomy a lo with h | h | h
    · have e0 : rawRange f lo hi prev ((a, s) :: r) = (a, s) :: rawRange f lo hi s r := by
        have e1 : slotFrom prev ((a, s) :: r) hi = slotFrom s r hi := by
          rw [slotFrom, if_neg (by omega)]
        have e2 : slotFrom prev ((a, s) :: r) lo = slotFrom s r lo := by
          rw [slotFrom, if_neg (by omega)]
        rw [rawRange, rawRange, e1, e2, List.filter_cons_of_pos (by simp; omega),
          List.filter_cons_of_neg (by simp; omega), List.filter_cons_of_neg (by simp; omega),
          List.cons_append]
      rw [e0, slotFrom, ih hr.2 s]
      by_cases hn : nb < a
      · rw [if_pos hn, if_neg (by omega), slotFrom, if_pos hn]
      · rw [if_neg hn, slotFrom, if_neg hn]
    · subst h
      have e1 : slotFrom prev ((a, s) :: r) hi = slotFrom s r hi := by
        rw [slotFrom, if_neg (by omega)]
      have e2 : slotFrom prev ((a, s) :: r) a = s := by
        rw [slotFrom, if_neg (by omega), slotFrom_lt hr.2 (by omega)]
      rw [rawRange, e1, e2, List.filter_cons_of_neg (by simp), List.filter_cons_of_neg (by simp),
        List.filter_cons_of_neg (by simp; omega), filter_lt_nil hr.2 (by omega), List.nil_append,
        slotFrom, slotFrom_mid f hr.2 (by omega) s]
      by_cases hn : nb < a
      · rw [if_pos hn, if_neg (by omega), slotFrom, if_pos hn]
      · rw [if_neg hn, slotFrom, if_neg hn]
        by_cases h2 : nb < hi
        · rw [if_pos h2, if_pos (by omega)]
        · rw [if_neg h2, if_neg (by omega)]
    · have hr' : rising (lo + 1) ((a, s) :: r) := ⟨h, hr.2⟩
      have e2 : slotFrom prev ((a, s) :: r) lo = prev := slotFrom_lt hr' (by omega) _
      rw [rawRange, e2, filter_lt_nil hr' (by omega), List.nil_append, slotFrom,
        slotFrom_mid f hr' (by omega) prev]
      by_cases hn : nb < lo
      · rw [if_pos hn, if_neg (by omega), slotFrom_lt hr' (by omega)]
      · rw [if_neg hn]
        by_cases h2 : nb < hi
        · rw [if_pos h2, if_pos (by omega)]
        · rw [if_neg h2, if_neg (by omega)]

theorem rising_append {l1 l2 : BlockStore} {lo mid : Nat} (h1 : rising lo l1) (hm : lo ≤ mid)
    (hlt : ∀ e ∈ l1, e.1 < mid) (h2 : rising mid l2) : rising lo (l1 ++ l2) := by
  induction l1 generalizing lo with
  | nil => exact rising_mono h2 hm
  | cons e r ih =>
    have he := hlt e List.mem_cons_self
    exact ⟨h1.1, ih h1.2 he fun d hd => hlt d (List.mem_cons_of_mem _ hd)⟩

theorem rising_filter {l : BlockStore} {lo : Nat} (h : rising lo l) (q : Nat × Slot → Bool) :
    rising lo (l.filter q) := by
  induction l generalizing lo with
  | nil => trivial
  | cons e r ih =>
    rw [List.filter_cons]
    split
    · exact ⟨h.1, ih h.2⟩
    · exact rising_mono (ih h.2) (Nat.le_succ_of_le h.1)

theorem rising_map {l : BlockStore} {lo : Nat} (h : rising lo l) (f : Slot → Slot) :
    rising lo (l.map fun e => (e.1, f e.2)) := by
  induction l generalizing lo with
  | nil => trivial
  | cons e r ih => exact ⟨h.1, ih h.2⟩

theorem rising_of_bound {l : BlockStore} {lo b : Nat} (h : rising lo l) (hb : ∀ e ∈ l, b ≤ e.1) :
    rising b l := by
  cases l with
  | nil => trivial
  | cons e r => exact ⟨hb e List.mem_cons_self, h.2⟩

theorem rising_raw (f : Slot → Slot) {lo hi : Nat} (hlt : lo < hi) {l : BlockStore} (hr : rising 0 l)
    (prev : Slot) : rising 0 (rawRange f lo hi prev l) := by
  refine rising_append (mid := lo) (rising_filter hr _) (Nat.zero_le _) (fun e he => ?_) ⟨Nat.le_refl _, ?_⟩
  · simpa using (List.mem_filter.1 he).2
  refine rising_append (mid := hi) (lo := lo + 1) (rising_map ?_ f) hlt (fun e he => ?_)
    ⟨Nat.le_refl _, ?_⟩
  · refine rising_of_bound (rising_filter hr _) fun e he => ?_
    have := (List.mem_filter.1 he).2
    simp at this
    omega
  · obtain ⟨d, hd, rfl⟩ := List.mem_map.1 he
    have := (List.mem_filter.1 hd).2
    simp at this
    exact this.2
  · refine rising_of_bound (rising_filter hr _) fun e he => ?_
    have := (List.mem_filter.1 he).2
    simp at this
    omega

/-- What `mapRange` does to every slot. -/
theorem at_mapRange (f : Slot → Slot) (lo hi : Nat) {bs : BlockStore} (hr : rising 0 bs) (nb : Nat) :
    (mapRange f lo hi bs).at' nb = if lo ≤ nb ∧ nb < hi then f (bs.at' nb) else bs.at' nb := by
  by_cases hlt : lo < hi
  · rw [mapRange_eq f hlt, at', slotFrom_normalize (rising_raw f hlt hr _), slotFrom_raw f hlt hr]
    rfl
  · rw [mapRange, if_pos (by omega), if_neg (by omega)]

/-- `mapRange` keeps the canonical form, if the function keeps well-formed slots and the range lies in the
block space. -/
theorem wf_mapRange {p : Params} (f : Slot → Slot) {lo hi : Nat} {bs : BlockStore} (h : bs.wf p = true)
    (hf : ∀ s : Slot, s.wf p = true → (f s).wf p = true) (hh : hi ≤ p.totalBlocks) :
    (mapRange f lo hi bs).wf p = true := by
  by_cases hlt : lo < hi
  · have hr := wf_rising h
    have htop := top_of_canon (wf_canon h)
    have hmem : ∀ e ∈ bs, e.2.wf p = true := by
      simp only [wf, Bool.and_eq_true, List.all_eq_true] at h
      exact h.2
    have hat : ∀ nb, (slotFrom .empty bs nb).wf p = true := fun nb => wf_at h nb
    have ht : ∀ e ∈ rawRange f lo hi .empty bs, e.1 ≤ p.totalBlocks ∧ e.2.wf p = true := by
      intro e he
      simp only [rawRange, List.mem_append, List.mem_cons, List.mem_map, List.mem_filter] at he
      rcases he with ⟨he, -⟩ | rfl | ⟨d, ⟨hd, -⟩, rfl⟩ | rfl | ⟨he, -⟩
      · exact ⟨htop e he, hmem e he⟩
      · exact ⟨by simp; omega, hf _ (hat lo)⟩
      · exact ⟨htop d hd, hf _ (hmem d hd)⟩
      · exact ⟨hh, hat hi⟩
      · exact ⟨htop e he, hmem e he⟩
    rw [mapRange_eq f hlt]
    simp only [wf, Bool.and_eq_true, List.all_eq_true]
    refine ⟨canon_normalize (rising_raw f hlt hr _) (fun e he => (ht e he).1) ?_,
      fun e he => (ht e (mem_normalize he)).2⟩
    rw [← slotFrom_top (N := p.totalBlocks) fun e he => (ht e he).1, slotFrom_raw f hlt hr,
      if_neg (by omega)]
    exact at_top h (Nat.le_refl _)
  · rw [mapRange, if_pos (by omega)]
    exact h

/-! ### The operations of rule R72 -/

theorem at_put {bs : BlockStore} (hr : rising 0 bs) (nb : Nat) (s : Slot) (j : Nat) :
    (bs.put nb s).at' j = if j = nb then s else bs.at' j := by
  rw [put, at_mapRange _ _ _ hr]
  by_cases h : j = nb
  · rw [if_pos (by omega), if_pos h]
  · rw [if_neg (by omega), if_neg h]

theorem wf_put {p : Params} {bs : BlockStore} (h : bs.wf p = true) {nb : Nat} (hn : nb < p.totalBlocks)
    {s : Slot} (hs : s.wf p = true) : (bs.put nb s).wf p = true :=
  wf_mapRange _ h (fun _ _ => hs) hn

theorem content_put {bs : BlockStore} (hr : rising 0 bs) (nb : Nat) (s : Slot) (j : Nat) :
    (bs.put nb s).content j = if j = nb then s.content nb else bs.content j := by
  rw [content, at_put hr]
  by_cases h : j = nb
  · rw [if_pos h, if_pos h, h]
  · rw [if_neg h, if_neg h, content]

theorem at_setAllSet {bs : BlockStore} (hr : rising 0 bs) (nb n j : Nat) :
    (bs.setAllSet nb n).at' j = if nb ≤ j ∧ j < nb + n then .full else bs.at' j :=
  at_mapRange _ _ _ hr j

theorem content_setAllSet {bs : BlockStore} (hr : rising 0 bs) (nb n j : Nat) :
    (bs.setAllSet nb n).content j = if nb ≤ j ∧ j < nb + n then Content.ones else bs.content j := by
  rw [content, at_setAllSet hr]
  split
  · rfl
  · rfl

theorem at_zero {bs : BlockStore} (hr : rising 0 bs) (nb n j : Nat) :
    (bs.zero nb n).at' j = if nb ≤ j ∧ j < nb + n then .empty else bs.at' j :=
  at_mapRange _ _ _ hr j

theorem content_zero {bs : BlockStore} (hr : rising 0 bs) (nb n j : Nat) :
    (bs.zero nb n).content j = if nb ≤ j ∧ j < nb + n then Content.zero else bs.content j := by
  rw [content, at_zero hr]
  split
  · rfl
  · rfl

theorem content_flip (d nb : Nat) (s : Slot) : (s.flip d).content nb = ~~~ s.content nb := by
  cases s with
  | opened src flipped form => 
    cases flipped with
    | false => rfl
    | true => exact (BitVec.not_not (b := Config.freeContent src nb)).symm
  | empty => exact (BitVec.not_zero (n := 65536)).symm
  | full => exact (BitVec.not_allOnes (w := 65536)).symm
  | bit w => rfl
  | gap level start ends => rfl
  | drawn form c => rfl

theorem content_redraw (d nb : Nat) (s : Slot) : (s.redraw d).content nb = s.content nb := by
  cases s <;> rfl

theorem content_flipRange {bs : BlockStore} (hr : rising 0 bs) (d nb n j : Nat) :
    (bs.flipRange d nb n).content j =
      if nb ≤ j ∧ j < nb + n then ~~~ bs.content j else bs.content j := by
  rw [content, flipRange, at_mapRange _ _ _ hr]
  split
  · exact content_flip d j _
  · rfl

theorem content_optimize {bs : BlockStore} (hr : rising 0 bs) (p : Params) (d j : Nat) :
    (bs.optimize p d).content j = bs.content j := by
  rw [content, optimize, at_mapRange _ _ _ hr]
  split
  · exact content_redraw d j _
  · rfl

theorem wf_setAllSet {p : Params} {bs : BlockStore} (h : bs.wf p = true) {nb n : Nat}
    (hn : nb + n ≤ p.totalBlocks) : (bs.setAllSet nb n).wf p = true :=
  wf_mapRange _ h (fun _ _ => rfl) hn

theorem wf_zero {p : Params} {bs : BlockStore} (h : bs.wf p = true) {nb n : Nat}
    (hn : nb + n ≤ p.totalBlocks) : (bs.zero nb n).wf p = true :=
  wf_mapRange _ h (fun _ _ => rfl) hn

theorem wf_clear {p : Params} {bs : BlockStore} (h : bs.wf p = true) : (bs.clear p).wf p = true :=
  wf_zero h (by omega)

theorem wf_flipRange {p : Params} {bs : BlockStore} (h : bs.wf p = true) (d : Nat) {nb n : Nat}
    (hn : nb + n ≤ p.totalBlocks) : (bs.flipRange d nb n).wf p = true :=
  wf_mapRange _ h (fun s _ => by cases s <;> rfl) hn

theorem wf_optimize {p : Params} {bs : BlockStore} (h : bs.wf p = true) (d : Nat) :
    (bs.optimize p d).wf p = true :=
  wf_mapRange _ h (fun s _ => by cases s <;> rfl) (Nat.le_refl _)

/-- The level of a GAP length the largest level admits admits it. -/
theorem gapCalcLevel_fits {p : Params} {len : Nat} (h : len ≤ p.gapMaxLen) :
    len ≤ p.gapLevel (gapCalcLevel p len) := by
  unfold gapCalcLevel
  split
  · assumption
  · split
    · assumption
    · split
      · assumption
      · exact h

/-- A slot whose form was looked up holds the same content, and is one of the four forms. -/
theorem content_ofForm_of (p : Params) (f : SlotForm) (c : Content) (nb : Nat)
    (h : ∀ level, f = .gap level → gapRuns (toGap c).1 0 (toGap c).2 = c) :
    (Slot.ofForm p f c).content nb = c := by
  cases f with
  | empty =>
    simp only [Slot.ofForm]
    split
    · rename_i hc
      exact hc.symm
    · rfl
  | full =>
    simp only [Slot.ofForm]
    split
    · rename_i hc
      exact hc.symm
    · rfl
  | bit => rfl
  | gap level =>
    simp only [Slot.ofForm]
    split
    · exact h level rfl
    · rfl

end Sys2Proof.Machine.BlockStore
end

