-- ==== Sys2Proof/Laws/Content.lean ====
section
/-! SUPPORT. The laws of block contents: populations, positions, words and GAP run lists, position by
position. -/

namespace Sys2Proof.Content

/-! ### ZERO and ONES -/

theorem not_zero : ~~~ zero = ones := BitVec.not_zero
theorem not_ones : ~~~ ones = zero := BitVec.not_allOnes
theorem or_zero (c : Content) : c ||| zero = c := BitVec.or_zero
theorem zero_or (c : Content) : zero ||| c = c := BitVec.zero_or
theorem and_zero (c : Content) : c &&& zero = zero := BitVec.and_zero
theorem zero_and (c : Content) : zero &&& c = zero := BitVec.zero_and
theorem xor_zero (c : Content) : c ^^^ zero = c := BitVec.xor_zero
theorem zero_xor (c : Content) : zero ^^^ c = c := BitVec.zero_xor
theorem or_ones (c : Content) : c ||| ones = ones := BitVec.or_allOnes
theorem and_ones (c : Content) : c &&& ones = c := BitVec.and_allOnes
theorem ones_and (c : Content) : ones &&& c = c := BitVec.allOnes_and
theorem xor_ones (c : Content) : c ^^^ ones = ~~~ c := BitVec.xor_allOnes

theorem getLsbD_zero (p : Nat) : zero.getLsbD p = false := BitVec.getLsbD_zero

theorem getLsbD_ones {p : Nat} (h : p < 65536) : ones.getLsbD p = true := by
  rw [ones, BitVec.getLsbD_allOnes]
  exact decide_eq_true h

end Sys2Proof.Content

namespace Sys2Proof.Machine

theorem getLsbD_testBit {w : Nat} (c : BitVec w) (p : Nat) : c.getLsbD p = c.toNat.testBit p := rfl

/-! ### Populations and positions -/

theorem range_double (n : Nat) :
    List.range (n + n) = List.range n ++ (List.range n).map (fun p => n + p) :=
  List.range_add

theorem testBit_split {x m : Nat} (p : Nat) (h : p < m) :
    (x % 2 ^ m).testBit p = x.testBit p := by
  rw [Nat.testBit_mod_two_pow]
  simp [h]

theorem testBit_shift (x m p : Nat) : (x / 2 ^ m).testBit p = x.testBit (m + p) := by
  rw [Nat.testBit_div_two_pow, Nat.add_comm]

/-- The bits of a number of `2^(k+1)` bits are those of its halves. -/
theorem filter_halves (k x : Nat) :
    (List.range (2 ^ (k + 1))).filter x.testBit =
      (List.range (2 ^ k)).filter (x % 2 ^ 2 ^ k).testBit ++
        ((List.range (2 ^ k)).filter (x / 2 ^ 2 ^ k).testBit).map (fun p => 2 ^ k + p) := by
  rw [show 2 ^ (k + 1) = 2 ^ k + 2 ^ k by omega, range_double, List.filter_append, List.filter_map]
  congr 1
  · exact List.filter_congr fun p hp => (testBit_split p (List.mem_range.1 hp)).symm
  · congr 1
    exact List.filter_congr fun p _ => (testBit_shift x (2 ^ k) p).symm

theorem popHalves_eq (k x : Nat) (h : x < 2 ^ 2 ^ k) :
    popHalves k x = ((List.range (2 ^ k)).filter x.testBit).length := by
  induction k generalizing x with
  | zero =>
    have : x = 0 ∨ x = 1 := by
      have : x < 2 := by simpa using h
      omega
    rcases this with rfl | rfl <;> rfl
  | succ k ih =>
    rw [popHalves]
    split
    · rename_i h0
      subst h0
      rw [List.filter_eq_nil_iff.2 fun p _ => by simp]
      rfl
    · split
      · rename_i h1
        rw [List.filter_eq_self.2, List.length_range]
        intro p hp
        rw [h1, Nat.testBit_two_pow_sub_one]
        simpa using hp
      · have hlt : x / 2 ^ 2 ^ k < 2 ^ 2 ^ k := by
          rw [Nat.div_lt_iff_lt_mul (by positivity), ← pow_add]
          calc x < 2 ^ 2 ^ (k + 1) := h
            _ = 2 ^ (2 ^ k + 2 ^ k) := by congr 1; omega
        rw [ih _ (Nat.mod_lt _ (by positivity)), ih _ hlt, filter_halves, List.length_append,
          List.length_map]

theorem toNat_lt (c : Content) {k : Nat} (h : 2 ^ k = 65536) : c.toNat < 2 ^ 2 ^ k := by
  have := c.isLt
  simp only [h]
  assumption

/-- `popcount` counts the 1 bits (00_scope.md rule R16). -/
theorem popcount_eq (c : Content) : popcount c = countBits (fun p => c.getLsbD p) :=
  popHalves_eq 16 c.toNat (toNat_lt c rfl)

theorem positionsFrom_eq (k base x : Nat) (rest : List Nat) (h : x < 2 ^ 2 ^ k) :
    positionsFrom k base x rest =
      ((List.range (2 ^ k)).filter x.testBit).map (fun p => base + p) ++ rest := by
  induction k generalizing base x rest with
  | zero =>
    have : x = 0 ∨ x = 1 := by
      have : x < 2 := by simpa using h
      omega
    rcases this with rfl | rfl <;> rfl
  | succ k ih =>
    rw [positionsFrom]
    split
    · rename_i h0
      subst h0
      simp
    · have hlt : x / 2 ^ 2 ^ k < 2 ^ 2 ^ k := by
        rw [Nat.div_lt_iff_lt_mul (by positivity), ← pow_add]
        calc x < 2 ^ 2 ^ (k + 1) := h
          _ = 2 ^ (2 ^ k + 2 ^ k) := by congr 1; omega
      rw [ih _ _ _ (Nat.mod_lt _ (by positivity)), ih _ _ _ hlt, filter_halves, List.map_append,
        List.map_map, List.append_assoc]
      congr 2
      exact List.map_congr_left fun p _ => by simp only [Function.comp]; omega

/-- `positions` lists the 1 bits in increasing order (42_block_encoder.md rule R251). -/
theorem positions_eq (c : Content) :
    positions c = (List.range 65536).filter (fun p => c.getLsbD p) := by
  rw [positions, positionsFrom_eq 16 0 c.toNat [] (toNat_lt c rfl), List.append_nil]
  simp only [Nat.zero_add, List.map_id']
  rfl

theorem mem_positions {c : Content} {p : Nat} :
    p ∈ positions c ↔ p < 65536 ∧ c.getLsbD p = true := by
  rw [positions_eq, List.mem_filter, List.mem_range]

theorem length_positions (c : Content) : (positions c).length = popcount c := by
  rw [positions_eq, popcount_eq]
  rfl

theorem positions_sorted (c : Content) : (positions c).Pairwise (· < ·) := by
  rw [positions_eq]
  exact List.Pairwise.filter _ List.pairwise_lt_range

/-! ### Single bits and ranges -/

theorem getLsbD_bitAt {i p : Nat} (h : i < 65536) : (bitAt i).getLsbD p = decide (p = i) := by
  rw [bitAt, if_pos h, BitVec.getLsbD_ofNat, Nat.testBit_two_pow]
  by_cases hp : p = i
  · simp [hp, h]
  · simp [hp, Ne.symm hp]

theorem getLsbD_foldl_bitAt {l : List Nat} (h : ∀ x ∈ l, x < 65536) (c : Content) (p : Nat) :
    (l.foldl (fun c i => c ||| bitAt i) c).getLsbD p =
      (c.getLsbD p || l.any (fun x => decide (x = p))) := by
  induction l generalizing c with
  | nil => simp
  | cons x r ih =>
    rw [List.foldl_cons, ih fun y hy => h y (List.mem_cons_of_mem _ hy), BitVec.getLsbD_or,
      getLsbD_bitAt (h x List.mem_cons_self), List.any_cons, Bool.or_assoc]
    congr 2
    exact decide_eq_decide.2 eq_comm

/-- `setOf` is 1 exactly at the listed positions. -/
theorem getLsbD_setOf {l : List Nat} (h : ∀ x ∈ l, x < 65536) (p : Nat) :
    (setOf l).getLsbD p = l.any (fun x => decide (x = p)) := by
  rw [setOf, getLsbD_foldl_bitAt h]
  exact Bool.false_or _ ▸ by rw [show (0 : Content).getLsbD p = false from BitVec.getLsbD_zero]

theorem getLsbD_maskRange {lo hi p : Nat} (h : hi ≤ 65536) :
    (maskRange lo hi).getLsbD p = decide (lo ≤ p ∧ p < hi) := by
  rw [maskRange]
  split
  · rename_i hlo
    rw [BitVec.getLsbD_ofNat, Nat.testBit_mul_two_pow, Nat.testBit_two_pow_sub_one]
    by_cases h1 : lo ≤ p <;> by_cases h2 : p < hi <;> simp [h1, h2] <;> omega
  · rw [show (0 : Content).getLsbD p = false from BitVec.getLsbD_zero]
    symm
    rw [decide_eq_false_iff_not]
    omega

/-! ### Words -/

theorem wordsValue_lt (ws : List U32) : wordsValue ws < 2 ^ (32 * ws.length) := by
  induction ws with
  | nil => simp [wordsValue]
  | cons w r ih =>
    have hw := w.isLt
    rw [wordsValue, List.length_cons, show 32 * (r.length + 1) = 32 + 32 * r.length by omega, pow_add]
    nlinarith

theorem testBit_wordsValue (ws : List U32) (p : Nat) :
    (wordsValue ws).testBit p = (ws.getD (p / 32) 0).getLsbD (p % 32) := by
  induction ws generalizing p with
  | nil => simp [wordsValue]
  | cons w r ih =>
    rw [wordsValue, Nat.add_comm, Nat.testBit_two_pow_mul_add _ w.isLt]
    by_cases h : p < 32
    · rw [if_pos h, Nat.div_eq_of_lt h, Nat.mod_eq_of_lt h]
      rfl
    · rw [if_neg h, ih, show p / 32 = (p - 32) / 32 + 1 by omega, show (p - 32) % 32 = p % 32 by omega]
      rfl

/-- `contentOfWords` puts word `k + i` at its place (00_scope.md rule R17). -/
theorem getLsbD_contentOfWords (k : Nat) (ws : List U32) {p : Nat} (hp : p < 65536) :
    (contentOfWords k ws).getLsbD p =
      (decide (32 * k ≤ p) && (ws.getD (p / 32 - k) 0).getLsbD (p % 32)) := by
  rw [contentOfWords, BitVec.getLsbD_ofNat, Nat.testBit_mul_two_pow, testBit_wordsValue]
  by_cases h : 32 * k ≤ p
  · rw [show (p - 32 * k) / 32 = p / 32 - k by omega, show (p - 32 * k) % 32 = p % 32 by omega]
    simp [h, hp]
  · simp [h]

theorem getLsbD_wordAt (c : Content) (w : Nat) {k : Nat} (hk : k < 32) :
    (wordAt c w).getLsbD k = c.getLsbD (32 * w + k) := by
  rw [wordAt, BitVec.getLsbD_extractLsb']
  simp [hk]

theorem length_wordsFrom (c : Content) (k n : Nat) : (wordsFrom c k n).length = n := by
  induction n generalizing k with
  | zero => rfl
  | succ n ih => rw [wordsFrom, List.length_cons, ih]

theorem getD_wordsFrom (c : Content) (k n i : Nat) :
    (wordsFrom c k n).getD i 0 = if i < n then wordAt c (k + i) else 0 := by
  induction n generalizing k i with
  | zero => simp [wordsFrom]
  | succ n ih =>
    rw [wordsFrom]
    cases i with
    | zero => simp
    | succ i =>
      rw [List.getD_cons_succ, ih]
      simp only [Nat.add_lt_add_iff_right]
      rw [show k + 1 + i = k + (i + 1) by omega]

/-- A content is the content of its words. -/
theorem contentOfWords_contentWords (c : Content) : contentOfWords 0 (contentWords c) = c := by
  refine BitVec.eq_of_getLsbD_eq fun p hp => ?_
  rw [getLsbD_contentOfWords 0 _ hp, contentWords, getD_wordsFrom, if_pos (by omega),
    getLsbD_wordAt c _ (Nat.mod_lt _ (by omega))]
  simp only [Nat.mul_zero, Nat.zero_le, decide_true, Bool.true_and, Nat.sub_zero, Nat.zero_add]
  congr 1
  omega

/-! ### GAP run lists -/

theorem getLsbD_gapRuns (v : Bool) (lo : Nat) (es : List Nat) {p : Nat}
    (hr : risesNat lo es = true) (ht : ∀ e ∈ es, e < 65536) :
    (gapRuns v lo es).getLsbD p =
      (decide (lo ≤ p) && es.any (fun e => decide (p ≤ e)) && gapBit v es p) := by
  induction es generalizing v lo with
  | nil => simp [gapRuns, gapBit]
  | cons e r ih =>
    simp only [risesNat, Bool.and_eq_true, decide_eq_true_eq] at hr
    have he := ht e List.mem_cons_self
    have hrest : ∀ x ∈ r, e < x := by
      have key : ∀ (l : List Nat) (b : Nat), risesNat b l = true → ∀ x ∈ l, b ≤ x := by
        intro l
        induction l with
        | nil => intro b _ x hx; cases hx
        | cons y l ih =>
          intro b hb x hx
          simp only [risesNat, Bool.and_eq_true, decide_eq_true_eq] at hb
          rcases List.mem_cons.1 hx with rfl | hx
          · exact hb.1
          · exact Nat.le_of_succ_le (Nat.le_trans (Nat.succ_le_succ hb.1) (ih _ hb.2 x hx))
      exact fun x hx => key r (e + 1) hr.2 x hx
    rw [gapRuns, BitVec.getLsbD_or, ih (!v) (e + 1) hr.2 fun x hx => ht x (List.mem_cons_of_mem _ hx)]
    have hm : (if v = true then maskRange lo (e + 1) else 0 : Content).getLsbD p =
        (v && decide (lo ≤ p ∧ p < e + 1)) := by
      cases v
      · exact BitVec.getLsbD_zero
      · rw [if_pos rfl, getLsbD_maskRange (by omega), Bool.true_and]
    rw [hm]
    by_cases hpe : p ≤ e
    · have hf : ∀ x ∈ r, ¬ x < p := fun x hx => by have := hrest x hx; omega
      have hnil : r.filter (fun x => decide (x < p)) = [] := by
        rw [List.filter_eq_nil_iff]
        intro x hx
        simpa using hf x hx
      have hc : (e :: r).filter (fun x => decide (x < p)) = [] := by
        rw [List.filter_cons_of_neg (by simpa using hpe), hnil]
      have h1 : p < e + 1 := by omega
      have h2 : ¬ e + 1 ≤ p := by omega
      simp [gapBit, hc, hpe, h1, h2, Bool.and_comm]
    · have hpe' : e < p := by omega
      have h1 : ¬ p < e + 1 := by omega
      have h2 : e + 1 ≤ p := by omega
      have h3 : lo ≤ p := by omega
      have hb : gapBit (!v) r p = gapBit v (e :: r) p := by
        rw [gapBit, gapBit, List.filter_cons_of_pos (by simpa using hpe'), List.length_cons]
        rcases Nat.mod_two_eq_zero_or_one (r.filter (fun x => decide (x < p))).length with h | h
        · rw [h, show ((r.filter (fun x => decide (x < p))).length + 1) % 2 = 1 by omega]
          cases v <;> rfl
        · rw [h, show ((r.filter (fun x => decide (x < p))).length + 1) % 2 = 0 by omega]
          cases v <;> rfl
      simp [h1, h2, h3, hb, hpe]

/-- A GAP's content, position by position (20_memory.md rule R71). -/
theorem getLsbD_gap {v : Bool} {es : List Nat} (h : gapEndsOk es = true) {p : Nat} (hp : p < 65536) :
    (gapRuns v 0 es).getLsbD p = gapBit v es p := by
  simp only [gapEndsOk, Bool.and_eq_true, decide_eq_true_eq] at h
  have hle : ∀ (l : List Nat) (lo : Nat), risesNat lo l = true → l.getLast? = some 65535 →
      ∀ e ∈ l, e < 65536 := by
    intro l
    induction l with
    | nil => intro lo _ _ e he; cases he
    | cons a l ih =>
      intro lo hr hl e he
      simp only [risesNat, Bool.and_eq_true, decide_eq_true_eq] at hr
      cases l with
      | nil =>
        rcases List.mem_cons.1 he with rfl | he
        · simp at hl
          omega
        · cases he
      | cons b l =>
        have hl' : (b :: l).getLast? = some 65535 := by simpa [List.getLast?_cons_cons] using hl
        rcases List.mem_cons.1 he with rfl | he
        · have hb := ih _ hr.2 hl' b List.mem_cons_self
          simp only [risesNat, Bool.and_eq_true, decide_eq_true_eq] at hr
          omega
        · exact ih _ hr.2 hl' e he
  rw [getLsbD_gapRuns v 0 es h.1 (hle es 0 h.1 h.2)]
  have hany : es.any (fun e => decide (p ≤ e)) = true := by
    rw [List.any_eq_true]
    exact ⟨65535, List.mem_of_getLast? h.2, by simpa using by omega⟩
  simp [hany]

end Sys2Proof.Machine
end

