-- ==== Sys2Proof/Laws/Count.lean ====
section
/-! SUPPORT. Sums and searches over ranges of blocks, and the run tables of the operation engine
(45_operation_engine.md rules R450, R451) as `apply` with ZERO or ONES. -/

namespace Sys2Proof.Machine

/-! ### Sums over blocks -/

theorem sumBlocks_zero (f : Nat → Nat) (lo : Nat) : sumBlocks f lo 0 = 0 := rfl

theorem sumBlocks_succ (f : Nat → Nat) (lo n : Nat) :
    sumBlocks f lo (n + 1) = f lo + sumBlocks f (lo + 1) n := by
  rw [sumBlocks, sumBlocks, List.range_succ_eq_map, List.map_cons, List.sum_cons, List.map_map]
  congr 2
  exact List.map_congr_left fun k _ => by simp only [Function.comp]; congr 1; omega

theorem sumBlocks_add (f : Nat → Nat) (lo m n : Nat) :
    sumBlocks f lo (m + n) = sumBlocks f lo m + sumBlocks f (lo + m) n := by
  induction m generalizing lo with
  | zero => simp [sumBlocks_zero]
  | succ m ih =>
    rw [show m + 1 + n = m + n + 1 by omega, sumBlocks_succ, ih, sumBlocks_succ,
      show lo + 1 + m = lo + (m + 1) by omega, Nat.add_assoc]

theorem sumBlocks_congr {f g : Nat → Nat} {lo n : Nat} (h : ∀ j, lo ≤ j → j < lo + n → f j = g j) :
    sumBlocks f lo n = sumBlocks g lo n := by
  rw [sumBlocks, sumBlocks]
  exact congrArg List.sum (List.map_congr_left fun k hk =>
    h (lo + k) (by omega) (by have := List.mem_range.1 hk; omega))

theorem sumBlocks_const (c lo n : Nat) : sumBlocks (fun _ => c) lo n = n * c := by
  rw [sumBlocks, List.map_const', List.sum_replicate_nat, List.length_range]

theorem sumBlocks_compl {f g : Nat → Nat} {c : Nat} (lo n : Nat) (h : ∀ j, f j + g j = c) :
    sumBlocks f lo n + sumBlocks g lo n = n * c := by
  induction n generalizing lo with
  | zero => simp [sumBlocks_zero]
  | succ n ih =>
    rw [sumBlocks_succ, sumBlocks_succ, Nat.add_mul, ← ih (lo + 1), ← h lo]
    omega

/-! ### Populations -/

theorem popcount_zero : popcount Content.zero = 0 := by
  rw [popcount_eq, countBits, List.filter_eq_nil_iff.2]
  · rfl
  · intro p _
    rw [Content.getLsbD_zero]
    decide

theorem popcount_le (c : Content) : popcount c ≤ 65536 := by
  rw [popcount_eq, countBits]
  exact Nat.le_trans (List.length_filter_le _ _) (by rw [List.length_range])

theorem popcount_not (c : Content) : popcount c + popcount (~~~ c) = 65536 := by
  rw [popcount_eq, popcount_eq, countBits, countBits]
  have h : (List.range 65536).filter (fun p => (~~~ c).getLsbD p) =
      (List.range 65536).filter (fun p => !c.getLsbD p) :=
    List.filter_congr fun p hp => by
      rw [BitVec.getLsbD_not]
      simp [List.mem_range.1 hp]
  rw [h]
  have key : ∀ l : List Nat, (l.filter (fun p => c.getLsbD p)).length +
      (l.filter (fun p => !c.getLsbD p)).length = l.length := by
    intro l
    induction l with
    | nil => rfl
    | cons x r ih =>
      cases hx : c.getLsbD x <;> simp [hx] <;> omega
  rw [key, List.length_range]

theorem popcount_ones : popcount Content.ones = 65536 := by
  have h := popcount_not Content.zero
  rw [popcount_zero, Content.not_zero] at h
  omega

theorem popcount_eq_zero {c : Content} (h : popcount c = 0) : c = Content.zero := by
  rw [popcount_eq, countBits, List.length_eq_zero_iff, List.filter_eq_nil_iff] at h
  refine BitVec.eq_of_getLsbD_eq fun p hp => ?_
  rw [Content.getLsbD_zero]
  simpa using h p (List.mem_range.2 hp)

theorem popcount_eq_all {c : Content} (h : popcount c = 65536) : c = Content.ones := by
  have h1 := popcount_not c
  have h2 := popcount_eq_zero (c := ~~~ c) (by omega)
  rw [← BitVec.not_not (b := c), h2]
  exact Content.not_zero

namespace BlockStore

/-! ### Stretches -/

theorem content_fixed {s : Slot} (h : s.fixedContent = true) (a b : Nat) :
    s.content a = s.content b := by
  cases s with
  | opened src flipped form => cases h
  | empty => rfl
  | full => rfl
  | bit w => rfl
  | gap level start ends => rfl
  | drawn form c => rfl

theorem stretchCount_eq (s : Slot) (a n : Nat) :
    stretchCount s a n = sumBlocks (fun j => popcount (s.content j)) a n := by
  induction n generalizing a with
  | zero => rfl
  | succ n ih =>
    rw [stretchCount]
    split
    · rename_i h
      rw [sumBlocks_congr (g := fun _ => popcount (s.content a)) fun j _ _ => by
        rw [content_fixed h j a], sumBlocks_const]
    · rw [sumBlocks_succ, ih]

theorem stretches_sum (f : Nat → Nat → Slot → Nat) (g : Nat → Slot → Nat)
    (hf : ∀ a n s, f a n s = sumBlocks (fun j => g j s) a n) (l : BlockStore) (prev : Slot)
    {lo hi : Nat} (h : lo ≤ hi) :
    ((stretches prev lo hi l).map (fun t => f t.1 t.2.1 t.2.2)).sum =
      sumBlocks (fun j => g j (slotFrom prev l j)) lo (hi - lo) := by
  induction l generalizing prev lo with
  | nil =>
    rw [stretches]
    split
    · simp [hf, slotFrom]
    · rw [show hi - lo = 0 by omega]
      rfl
  | cons e r ih =>
    obtain ⟨a, s⟩ := e
    rw [stretches]
    split
    · rename_i ha
      rw [ih s h]
      exact sumBlocks_congr fun j hj _ => by rw [slotFrom, if_neg (by omega)]
    · split
      · rename_i ha
        have hc : ∀ j, lo ≤ j → j < lo + (hi - lo) →
            g j prev = g j (slotFrom prev ((a, s) :: r) j) := fun j _ hj => by
          rw [slotFrom, if_pos (by omega)]
        split
        · rw [List.map_cons, List.sum_cons, List.map_nil, List.sum_nil, hf, Nat.add_zero]
          exact sumBlocks_congr hc
        · rw [show hi - lo = 0 by omega]
          rfl
      · rw [List.map_cons, List.sum_cons, ih s (by omega), hf,
          show hi - lo = (a - lo) + (hi - a) by omega, sumBlocks_add,
          show lo + (a - lo) = a by omega]
        refine congrArg₂ _ (sumBlocks_congr fun j _ hj => ?_) (sumBlocks_congr fun j hj _ => ?_)
        · have : j < lo + (a - lo) := hj
          rw [slotFrom, if_pos (by omega)]
        · rw [slotFrom, if_neg (by omega)]

/-- The sum of `BS.count(j)` over a range of blocks. -/
theorem countRange_eq (bs : BlockStore) (nb n : Nat) :
    bs.countRange nb n = sumBlocks (fun j => popcount (bs.content j)) nb n := by
  have h := stretches_sum (fun a n s => stretchCount s a n) (fun j s => popcount (s.content j))
    (fun a n s => stretchCount_eq s a n) bs .empty (Nat.le_add_right nb n)
  rw [Nat.add_sub_cancel_left] at h
  exact h

theorem stretchFind_spec (x : Content) (s : Slot) (a n : Nat) :
    match stretchFind x s a n with
    | some j => a ≤ j ∧ j < a + n ∧ s.content j ≠ x ∧ ∀ i, a ≤ i → i < j → s.content i = x
    | none => ∀ i, a ≤ i → i < a + n → s.content i = x := by
  induction n generalizing a with
  | zero => intro i _ _; omega
  | succ n ih =>
    rw [stretchFind]
    split
    · rename_i j hj
      split at hj
      · rename_i hne
        cases hj
        exact ⟨Nat.le_refl _, by omega, hne, fun i _ _ => by omega⟩
      · split at hj
        · cases hj
        · rename_i he _
          have := ih (a + 1)
          rw [hj] at this
          refine ⟨by omega, by omega, this.2.2.1, fun i h1 h2 => ?_⟩
          rcases Nat.eq_or_lt_of_le h1 with rfl | h1
          · exact not_not.1 he
          · exact this.2.2.2 i h1 h2
    · rename_i hj
      split at hj
      · cases hj
      · rename_i he
        intro i h1 h2
        split at hj
        · rename_i hf
          rw [content_fixed hf i a]
          exact not_not.1 he
        · have := ih (a + 1)
          rw [hj] at this
          rcases Nat.eq_or_lt_of_le h1 with rfl | h1
          · exact not_not.1 he
          · exact this i h1 (by omega)

/-- `o` is the first index of `lo .. hi-1` where `f` is not `x`. -/
def IsFirst (f : Nat → Content) (x : Content) (lo hi : Nat) : Option Nat → Prop
  | some j => lo ≤ j ∧ j < hi ∧ f j ≠ x ∧ ∀ i, lo ≤ i → i < j → f i = x
  | none => ∀ i, lo ≤ i → i < hi → f i = x

theorem IsFirst.congr {f g : Nat → Content} {x : Content} {lo hi : Nat} {o : Option Nat}
    (h : IsFirst f x lo hi o) (hfg : ∀ i, lo ≤ i → i < hi → f i = g i) : IsFirst g x lo hi o := by
  cases o with
  | none => exact fun i h1 h2 => hfg i h1 h2 ▸ h i h1 h2
  | some j =>
    exact ⟨h.1, h.2.1, hfg j h.1 h.2.1 ▸ h.2.2.1, fun i h1 h2 =>
      hfg i h1 (Nat.lt_trans h2 h.2.1) ▸ h.2.2.2 i h1 h2⟩

theorem isFirst_stretch (x : Content) (s : Slot) (a n : Nat) :
    IsFirst (fun j => s.content j) x a (a + n) (stretchFind x s a n) := by
  have h := stretchFind_spec x s a n
  cases hj : stretchFind x s a n with
  | none => rw [hj] at h; exact h
  | some j => rw [hj] at h; exact h

/-- The search over one stretch, and then over what follows it. -/
theorem isFirst_cons {f : Nat → Content} {x : Content} {a n hi : Nat} {s : Slot}
    {r : List (Nat × Nat × Slot)} (hn : a + n ≤ hi)
    (hs : ∀ i, a ≤ i → i < a + n → f i = s.content i)
    (hr : IsFirst f x (a + n) hi (findOther x r)) :
    IsFirst f x a hi (findOther x ((a, n, s) :: r)) := by
  have h := (isFirst_stretch x s a n).congr (g := f) fun i h1 h2 => (hs i h1 h2).symm
  rw [findOther]
  cases hj : stretchFind x s a n with
  | some j =>
    rw [hj] at h
    exact ⟨h.1, Nat.lt_of_lt_of_le h.2.1 hn, h.2.2⟩
  | none =>
    rw [hj] at h
    dsimp only
    cases ho : findOther x r with
    | none =>
      rw [ho] at hr
      intro i h1 h2
      by_cases hi' : i < a + n
      · exact h i h1 hi'
      · exact hr i (by omega) h2
    | some k =>
      rw [ho] at hr
      refine ⟨by have := hr.1; omega, hr.2.1, hr.2.2.1, fun i h1 h2 => ?_⟩
      by_cases hi' : i < a + n
      · exact h i h1 hi'
      · exact hr.2.2.2 i (by omega) h2

theorem findOther_spec (x : Content) (l : BlockStore) (prev : Slot) {lo hi : Nat} (h : lo ≤ hi) :
    IsFirst (fun j => (slotFrom prev l j).content j) x lo hi
      (findOther x (stretches prev lo hi l)) := by
  have one : ∀ f : Nat → Content, (∀ j, lo ≤ j → j < hi → f j = prev.content j) →
      IsFirst f x lo hi (findOther x (if lo < hi then [(lo, hi - lo, prev)] else [])) := by
    intro f hf
    split_ifs with hlt
    · exact isFirst_cons (by omega) (fun i h1 h2 => hf i h1 (by omega)) fun i h1 h2 => by omega
    · exact fun i h1 h2 => by omega
  induction l generalizing prev lo with
  | nil => exact one _ fun _ _ _ => rfl
  | cons e r ih =>
    obtain ⟨a, s⟩ := e
    rw [stretches]
    split_ifs with h1 h2 h3
    · refine (ih s h fun f hf => ?_).congr fun j hj _ => by rw [slotFrom, if_neg (by omega)]
      split_ifs with hlt
      · exact isFirst_cons (by omega) (fun i h1 h2 => hf i h1 (by omega)) fun i h1 h2 => by omega
      · exact fun i h1 h2 => by omega
    · have := one (fun j => (slotFrom prev ((a, s) :: r) j).content j) fun j _ hj => by
        rw [slotFrom, if_pos (by omega)]
      rwa [if_pos h3] at this
    · have := one (fun j => (slotFrom prev ((a, s) :: r) j).content j) fun j _ hj => by
        rw [slotFrom, if_pos (by omega)]
      rwa [if_neg h3] at this
    · refine isFirst_cons (by omega) (fun i hi1 hi2 => by rw [slotFrom, if_pos (by omega)]) ?_
      rw [show lo + (a - lo) = a by omega]
      refine (ih s (by omega) fun f hf => ?_).congr fun j hj _ => by
        rw [slotFrom, if_neg (by omega)]
      split_ifs with hlt
      · exact isFirst_cons (by omega) (fun i h1 h2 => hf i h1 (by omega)) fun i h1 h2 => by omega
      · exact fun i h1 h2 => by omega

/-- `nextOther` is the least block from `nb` on whose content is not `x`, or TOTAL_BLOCKS (20_memory.md
rule R72, `next_nonzero` and `next_not_ones`). -/
theorem nextOther_spec (p : Params) (x : Content) (bs : BlockStore) {nb : Nat}
    (h : nb ≤ p.totalBlocks) :
    nb ≤ nextOther p x bs nb ∧ nextOther p x bs nb ≤ p.totalBlocks ∧
      (∀ j, nb ≤ j → j < nextOther p x bs nb → bs.content j = x) ∧
      (nextOther p x bs nb < p.totalBlocks → bs.content (nextOther p x bs nb) ≠ x) := by
  have hs := findOther_spec x bs .empty h
  rw [nextOther]
  cases hj : findOther x (stretches .empty nb p.totalBlocks bs) with
  | none =>
    rw [hj] at hs
    exact ⟨h, Nat.le_refl _, hs, fun hlt => absurd hlt (Nat.lt_irrefl _)⟩
  | some j =>
    rw [hj] at hs
    exact ⟨hs.1, Nat.le_of_lt hs.2.1, hs.2.2.2, fun _ => hs.2.2.1⟩

/-! ### The run tables -/

theorem zeroRunCount_eq (op : SetOp) (bs : BlockStore) (nb n : Nat) :
    zeroRunCount op bs nb n =
      sumBlocks (fun j => (applyOp op (bs.content j) Content.zero).2) nb n := by
  cases op <;>
    simp only [zeroRunCount, applyOp, countRange_eq, Content.and_zero, Content.zero_and,
      Content.or_zero, Content.xor_zero, Content.not_zero, Content.and_ones, popcount_zero,
      sumBlocks_const, Nat.mul_zero]

theorem oneRunCount_eq (op : SetOp) (bs : BlockStore) (nb n : Nat) :
    oneRunCount op bs nb n =
      sumBlocks (fun j => (applyOp op (bs.content j) Content.ones).2) nb n := by
  have hc : n * 65536 - sumBlocks (fun j => popcount (bs.content j)) nb n =
      sumBlocks (fun j => popcount (~~~ bs.content j)) nb n := by
    have := sumBlocks_compl (f := fun j => popcount (bs.content j))
      (g := fun j => popcount (~~~ bs.content j)) nb n fun j => popcount_not _
    omega
  cases op <;>
    simp only [oneRunCount, applyOp, countRange_eq, Content.and_zero, Content.ones_and,
      Content.or_ones, Content.xor_ones, Content.not_ones, Content.and_ones, popcount_zero,
      popcount_ones, sumBlocks_const, Nat.mul_zero, Nat.mul_comm 65536, hc]

theorem content_zeroRunStore {bs : BlockStore} (hr : rising 0 bs) {op : SetOp} (ho : op ≠ .assign)
    (nb n : Nat) {j : Nat} (h : nb ≤ j ∧ j < nb + n) :
    (zeroRunStore op nb n bs).content j = (applyOp op (bs.content j) Content.zero).1 := by
  cases op
  · exact absurd rfl ho
  all_goals
    simp only [zeroRunStore, applyOp, content_zero hr, if_pos h, Content.or_zero, Content.and_zero,
      Content.xor_zero, Content.not_zero, Content.and_ones]

theorem at_zeroRunStore {bs : BlockStore} (hr : rising 0 bs) (op : SetOp) (nb n : Nat) {j : Nat}
    (h : j < nb ∨ nb + n ≤ j) : (zeroRunStore op nb n bs).at' j = bs.at' j := by
  cases op <;> first
    | rfl
    | exact (at_zero hr nb n j).trans (if_neg (by omega))

theorem content_oneRunStore {bs : BlockStore} (hr : rising 0 bs) (op : SetOp) (d nb n : Nat) {j : Nat}
    (h : nb ≤ j ∧ j < nb + n) :
    (oneRunStore op d nb n bs).content j = (applyOp op (bs.content j) Content.ones).1 := by
  cases op <;>
    simp only [oneRunStore, applyOp, content_zero hr, content_setAllSet hr, content_flipRange hr,
      if_pos h, Content.or_ones, Content.and_zero, Content.xor_ones, Content.not_ones,
      Content.and_ones]

theorem at_oneRunStore {bs : BlockStore} (hr : rising 0 bs) (op : SetOp) (d nb n : Nat) {j : Nat}
    (h : j < nb ∨ nb + n ≤ j) : (oneRunStore op d nb n bs).at' j = bs.at' j := by
  have hn : ¬ (nb ≤ j ∧ j < nb + n) := by omega
  cases op <;>
    simp only [oneRunStore, at_zero hr, at_setAllSet hr, flipRange, at_mapRange _ _ _ hr, if_neg hn]

theorem wf_zeroRunStore {p : Params} {bs : BlockStore} (h : bs.wf p = true) (op : SetOp) {nb n : Nat}
    (hn : nb + n ≤ p.totalBlocks) : (zeroRunStore op nb n bs).wf p = true := by
  cases op <;> first
    | exact h
    | exact wf_zero h hn

theorem wf_oneRunStore {p : Params} {bs : BlockStore} (h : bs.wf p = true) (op : SetOp) (d : Nat)
    {nb n : Nat} (hn : nb + n ≤ p.totalBlocks) : (oneRunStore op d nb n bs).wf p = true := by
  cases op <;> first
    | exact h
    | exact wf_setAllSet h hn
    | exact wf_zero h hn
    | exact wf_flipRange h d hn

end BlockStore

end Sys2Proof.Machine
end

