-- ==== Sys2Proof/Laws/Memory.lean ====
section
/-! SUPPORT. The laws of the stream buffer: a read after a write, and the canonical form, which every
operation keeps. -/

namespace Sys2Proof.Machine.Memory

theorem sortedFrom_mono {l : List Host.Cell} {a b : Nat} (h : sortedFrom b l = true) (hab : a ≤ b) :
    sortedFrom a l = true := by
  cases l with
  | nil => rfl
  | cons c cs =>
    obtain ⟨k, v⟩ := c
    simp only [sortedFrom, Bool.and_eq_true, decide_eq_true_eq] at h ⊢
    exact ⟨by omega, h.2⟩

theorem find_of_lt {l : List Host.Cell} {a lo : Nat} (h : sortedFrom lo l = true) (ha : a < lo) :
    find a l = none := by
  cases l with
  | nil => rfl
  | cons c cs =>
    obtain ⟨k, v⟩ := c
    simp only [sortedFrom, Bool.and_eq_true, decide_eq_true_eq] at h
    rw [find, if_pos (by omega)]

theorem find_insert {l : List Host.Cell} {lo : Nat} (h : sortedFrom lo l = true) (a b : Nat) (v : Byte) :
    find b (insert a v l) = if b = a then some v else find b l := by
  induction l generalizing lo with
  | nil =>
    simp only [insert, find]
    split <;> split <;> first | rfl | omega
  | cons c cs ih =>
    obtain ⟨k, w⟩ := c
    simp only [sortedFrom, Bool.and_eq_true, decide_eq_true_eq] at h
    rw [insert]
    split
    · rw [find]
      rcases Nat.lt_trichotomy b a with hb | hb | hb
      · rw [if_pos hb, if_neg (by omega), find, if_pos (by omega)]
      · rw [if_neg (by omega), if_pos hb]
      · rw [if_neg (by omega), if_neg (by omega)]
    · split
      · subst a
        rw [find]
        rcases Nat.lt_trichotomy b k with hb | hb | hb
        · rw [if_pos hb, if_neg (by omega), find, if_pos hb]
        · rw [if_neg (by omega), if_pos hb, if_pos hb]
        · rw [if_neg (by omega), if_neg (by omega), if_neg (by omega), find, if_neg (by omega),
            if_neg (by omega)]
      · rw [find, find]
        split
        · rw [if_neg (by omega)]
        · split
          · rw [if_neg (by omega)]
          · exact ih h.2

theorem find_erase {l : List Host.Cell} {lo : Nat} (h : sortedFrom lo l = true) (a b : Nat) :
    find b (erase a l) = if b = a then none else find b l := by
  induction l generalizing lo with
  | nil => simp [erase, find]
  | cons c cs ih =>
    obtain ⟨k, w⟩ := c
    simp only [sortedFrom, Bool.and_eq_true, decide_eq_true_eq] at h
    rw [erase]
    split
    · by_cases hb : b = a
      · rw [if_pos hb, find, if_pos (by omega)]
      · rw [if_neg hb]
    · split
      · subst a
        by_cases hb : b = k
        · subst hb
          rw [if_pos rfl]
          exact find_of_lt h.2 (by omega)
        · rw [if_neg hb, find]
          split
          · exact find_of_lt h.2 (by omega)
          · rfl
      · rw [find, find]
        split
        · rw [if_neg (by omega)]
        · split
          · rw [if_neg (by omega)]
          · exact ih h.2

theorem sorted_insert {l : List Host.Cell} {lo : Nat} (h : sortedFrom lo l = true) {a : Nat} {v : Byte}
    (ha : lo ≤ a) : sortedFrom lo (insert a v l) = true := by
  induction l generalizing lo with
  | nil => simp [insert, sortedFrom, ha]
  | cons c cs ih =>
    obtain ⟨k, w⟩ := c
    simp only [sortedFrom, Bool.and_eq_true, decide_eq_true_eq] at h
    rw [insert]
    split
    · simp only [sortedFrom, Bool.and_eq_true, decide_eq_true_eq]
      exact ⟨ha, by omega, h.2⟩
    · split
      · simp only [sortedFrom, Bool.and_eq_true, decide_eq_true_eq]
        exact ⟨ha, by subst a; exact h.2⟩
      · simp only [sortedFrom, Bool.and_eq_true, decide_eq_true_eq]
        exact ⟨h.1, ih h.2 (by omega)⟩

theorem sorted_erase {l : List Host.Cell} {lo : Nat} (h : sortedFrom lo l = true) (a : Nat) :
    sortedFrom lo (erase a l) = true := by
  induction l generalizing lo with
  | nil => rfl
  | cons c cs ih =>
    obtain ⟨k, w⟩ := c
    have h' := h
    simp only [sortedFrom, Bool.and_eq_true, decide_eq_true_eq] at h
    rw [erase]
    split
    · exact h'
    · split
      · exact sortedFrom_mono h.2 (by omega)
      · simp only [sortedFrom, Bool.and_eq_true, decide_eq_true_eq]
        exact ⟨h.1, ih h.2⟩

theorem sorted_filter {l : List Host.Cell} {lo : Nat} (h : sortedFrom lo l = true) (p : Host.Cell → Bool) :
    sortedFrom lo (l.filter p) = true := by
  induction l generalizing lo with
  | nil => rfl
  | cons c cs ih =>
    obtain ⟨k, w⟩ := c
    simp only [sortedFrom, Bool.and_eq_true, decide_eq_true_eq] at h
    rw [List.filter_cons]
    split
    · simp only [sortedFrom, Bool.and_eq_true, decide_eq_true_eq]
      exact ⟨h.1, ih h.2⟩
    · exact sortedFrom_mono (ih h.2) (by omega)

theorem mem_insert {l : List Host.Cell} {a : Nat} {v : Byte} {c : Host.Cell} (h : c ∈ insert a v l) :
    c = (a, v) ∨ c ∈ l := by
  induction l with
  | nil => exact .inl (by simpa [insert] using h)
  | cons d ds ih =>
    obtain ⟨k, w⟩ := d
    rw [insert] at h
    split at h
    · rcases List.mem_cons.1 h with h | h
      · exact .inl h
      · exact .inr h
    · split at h
      · rcases List.mem_cons.1 h with h | h
        · exact .inl h
        · exact .inr (List.mem_cons_of_mem _ h)
      · rcases List.mem_cons.1 h with h | h
        · exact .inr (h ▸ List.mem_cons_self)
        · rcases ih h with h | h
          · exact .inl h
          · exact .inr (List.mem_cons_of_mem _ h)

theorem mem_erase {l : List Host.Cell} {a : Nat} {c : Host.Cell} (h : c ∈ erase a l) : c ∈ l := by
  induction l with
  | nil => exact h
  | cons d ds ih =>
    obtain ⟨k, w⟩ := d
    rw [erase] at h
    split at h
    · exact h
    · split at h
      · exact List.mem_cons_of_mem _ h
      · rcases List.mem_cons.1 h with h | h
        · exact h ▸ List.mem_cons_self
        · exact List.mem_cons_of_mem _ (ih h)

theorem wf_sorted {m : Memory} (h : m.wf = true) : sortedFrom 0 m.cells = true := by
  simp only [wf, Bool.and_eq_true] at h
  exact h.1

theorem wf_blank : blank.wf = true := rfl

@[simp] theorem read_blank (a : Nat) : blank.read a = 0 := rfl

/-- What a write does to every read. -/
theorem read_write {m : Memory} (h : m.wf = true) (a b : Nat) (v : Byte) :
    (m.write a v).read b = if b = a then v else m.read b := by
  have hs := wf_sorted h
  unfold write
  split
  · rename_i hc
    by_cases hb : b = a
    · subst hb
      simp [read, find_erase hs, unlisted, Nat.not_lt.2 hc.1, hc.2]
    · simp [read, find_erase hs, hb, unlisted]
  · by_cases hb : b = a
    · subst hb
      simp [read, find_insert hs]
    · simp [read, find_insert hs, hb, unlisted]

/-- A write keeps the canonical form. -/
theorem wf_write {m : Memory} (h : m.wf = true) (a : Nat) (v : Byte) : (m.write a v).wf = true := by
  have hs := wf_sorted h
  simp only [wf, Bool.and_eq_true, List.all_eq_true, Bool.or_eq_true, decide_eq_true_eq] at h
  unfold write
  split
  · simp only [wf, Bool.and_eq_true, List.all_eq_true, Bool.or_eq_true, decide_eq_true_eq]
    exact ⟨sorted_erase hs a, fun c hc => h.2 c (mem_erase hc)⟩
  · rename_i hn
    simp only [wf, Bool.and_eq_true, List.all_eq_true, Bool.or_eq_true, decide_eq_true_eq]
    refine ⟨sorted_insert hs (Nat.zero_le _), fun c hc => ?_⟩
    rcases mem_insert hc with rfl | hc
    · by_cases hv : v = 0
      · exact .inl (Nat.lt_of_not_le fun hle => hn ⟨hle, hv⟩)
      · exact .inr hv
    · exact h.2 c hc

/-- The bytes a list of writes leaves, and every other byte. -/
theorem read_writeList {m : Memory} (h : m.wf = true) (a : Nat) (bs : List Byte) (b : Nat) :
    (m.writeList a bs).read b =
      if a ≤ b ∧ b < a + bs.length then bs.getD (b - a) 0 else m.read b := by
  induction bs generalizing m a with
  | nil => rw [writeList, if_neg (by simp)]
  | cons v vs ih =>
    rw [writeList, ih (wf_write h a v), read_write h]
    simp only [List.length_cons]
    by_cases h1 : b = a
    · subst h1
      rw [if_neg (by omega), if_pos rfl, if_pos (by omega), Nat.sub_self]
      rfl
    · by_cases h2 : a + 1 ≤ b ∧ b < a + 1 + vs.length
      · rw [if_pos h2, if_pos (by omega)]
        obtain ⟨k, rfl⟩ : ∃ k, b = a + 1 + k := ⟨b - (a + 1), by omega⟩
        rw [show a + 1 + k - (a + 1) = k by omega, show a + 1 + k - a = k + 1 by omega]
        rfl
      · rw [if_neg h2, if_neg h1, if_neg (by omega)]

theorem wf_writeList {m : Memory} (h : m.wf = true) (a : Nat) (bs : List Byte) :
    (m.writeList a bs).wf = true := by
  induction bs generalizing m a with
  | nil => exact h
  | cons v vs ih => exact ih (wf_write h a v) (a + 1)

/-- An opened buffer: free bytes below the bound; above it the listed bytes as they were, and the unlisted
ones of an open region that reached further drawn again. -/
theorem read_openBelow {m : Memory} (h : m.wf = true) (hi d b : Nat) :
    (m.openBelow hi d).read b =
      if b < hi then Config.freeByte d b
      else (find b m.cells).getD (if b < m.openTo then Config.freeByte d b else 0) := by
  have key : ∀ (l : List Host.Cell) (lo t : Nat), sortedFrom lo l = true →
      find b (l.filter (fun c => decide (t ≤ c.1))) = if b < t then none else find b l := by
    intro l
    induction l with
    | nil => intro lo t _; simp [find]
    | cons c cs ih =>
      obtain ⟨k, w⟩ := c
      intro lo t hl
      have hl' := hl
      simp only [sortedFrom, Bool.and_eq_true, decide_eq_true_eq] at hl
      rw [List.filter_cons]
      split
      · rename_i hk
        simp only [decide_eq_true_eq] at hk
        by_cases hb : b < t
        · rw [find, if_pos (by omega), if_pos hb]
        · rw [find, find, ih _ t hl.2, if_neg hb, if_neg hb]
      · rename_i hk
        simp only [decide_eq_true_eq] at hk
        rw [ih _ t hl.2]
        by_cases hb : b < t
        · rw [if_pos hb, if_pos hb]
        · rw [if_neg hb, if_neg hb, find, if_neg (by omega), if_neg (by omega)]
  have hs := wf_sorted h
  have hu : (m.openBelow hi d).unlisted b =
      if b < max m.openTo hi then Config.freeByte d b else 0 := rfl
  have hf : find b (m.openBelow hi d).cells = if b < hi then none else find b m.cells :=
    key _ _ _ hs
  rw [read, hu, hf]
  by_cases hb : b < hi
  · rw [if_pos hb, if_pos hb, if_pos (by omega)]
    rfl
  · rw [if_neg hb, if_neg hb]
    by_cases ho : b < m.openTo
    · rw [if_pos ho, if_pos (by omega)]
    · rw [if_neg ho, if_neg (by omega)]

/-- Beyond the bound and the old open region an opened buffer reads as before. -/
theorem read_openBelow_of_le {m : Memory} (h : m.wf = true) {hi b : Nat} (d : Nat) (hb : hi ≤ b)
    (ho : m.openTo ≤ b) : (m.openBelow hi d).read b = m.read b := by
  rw [read_openBelow h, if_neg (by omega), if_neg (by omega), read, unlisted, if_neg (by omega)]

theorem wf_openBelow {m : Memory} (h : m.wf = true) (hi d : Nat) : (m.openBelow hi d).wf = true := by
  have hs := wf_sorted h
  simp only [wf, Bool.and_eq_true, List.all_eq_true, Bool.or_eq_true, decide_eq_true_eq] at h ⊢
  refine ⟨sorted_filter hs _, fun c hc => ?_⟩
  have hc' := List.mem_filter.1 hc
  rcases h.2 c hc'.1 with h' | h'
  · exact .inl (Nat.lt_of_lt_of_le h' (Nat.le_max_left _ _))
  · exact .inr h'

theorem length_readList (m : Memory) (a n : Nat) : (m.readList a n).length = n := by
  induction n generalizing a with
  | zero => rfl
  | succ n ih => simp [readList, ih]

/-- Reading back what was written. -/
theorem readList_writeList {m : Memory} (h : m.wf = true) (a : Nat) (bs : List Byte) :
    (m.writeList a bs).readList a bs.length = bs := by
  have key : ∀ (m' : Memory) (bs : List Byte) (a : Nat),
      (∀ i, i < bs.length → m'.read (a + i) = bs.getD i 0) → m'.readList a bs.length = bs := by
    intro m' bs
    induction bs with
    | nil => intro a _; rfl
    | cons v vs ih =>
      intro a hr
      rw [List.length_cons, readList]
      have h0 := hr 0 (by simp)
      rw [Nat.add_zero] at h0
      rw [h0, ih (a + 1)]
      · rfl
      · intro i hi
        have := hr (i + 1) (by simpa using hi)
        rw [show a + 1 + i = a + (i + 1) by omega, this]
        rfl
  refine key _ bs a fun i hi => ?_
  rw [read_writeList h, if_pos (by omega), Nat.add_sub_cancel_left]

end Sys2Proof.Machine.Memory
end

