-- ==== Sys2Proof/Laws/Monad.lean ====
section
/-! SUPPORT. How the rules' pseudocode runs: one lemma for each primitive of the monad, so that no proof
unfolds it. They hold of the stream codec and of the machine alike. -/

namespace Sys2Proof.Machine

variable {ε σ α β : Type}

@[simp] theorem run_pure (a : α) (s : σ) : (pure a : EStateM ε σ α) s = .ok a s := rfl

@[simp] theorem run_get (s : σ) : (get : EStateM ε σ σ) s = .ok s s := rfl

@[simp] theorem run_set (t s : σ) : (set t : EStateM ε σ PUnit) s = .ok () t := rfl

@[simp] theorem run_modify (f : σ → σ) (s : σ) : (modify f : EStateM ε σ PUnit) s = .ok () (f s) := rfl

@[simp] theorem run_throw (e : ε) (s : σ) : (throw e : EStateM ε σ α) s = .error e s := rfl

/-- A sequence runs its second part on what the first leaves, unless the first raises. -/
theorem run_bind (x : EStateM ε σ α) (f : α → EStateM ε σ β) (s : σ) :
    (x >>= f) s =
      match x s with
      | .ok a t => f a t
      | .error e t => .error e t := by
  show EStateM.bind x f s = _
  rw [EStateM.bind]
  cases x s <;> rfl

/-- A mapped computation runs as the computation, its value mapped. -/
theorem run_map (f : α → β) (x : EStateM ε σ α) (s : σ) :
    (f <$> x) s =
      match x s with
      | .ok a t => .ok (f a) t
      | .error e t => .error e t := by
  rw [← bind_pure_comp, run_bind]
  cases x s <;> rfl

theorem run_bind_ok {x : EStateM ε σ α} {f : α → EStateM ε σ β} {s t : σ} {a : α}
    (h : x s = .ok a t) : (x >>= f) s = f a t := by
  rw [run_bind, h]

theorem run_bind_error {x : EStateM ε σ α} {f : α → EStateM ε σ β} {s t : σ} {e : ε}
    (h : x s = .error e t) : (x >>= f) s = .error e t := by
  rw [run_bind, h]

/-- A sequence that ends normally ran both parts. -/
theorem of_run_bind {x : EStateM ε σ α} {f : α → EStateM ε σ β} {s u : σ} {b : β}
    (h : (x >>= f) s = .ok b u) : ∃ a t, x s = .ok a t ∧ f a t = .ok b u := by
  rw [run_bind] at h
  cases hx : x s with
  | ok a t => exact ⟨a, t, rfl, by rw [hx] at h; exact h⟩
  | error e t => rw [hx] at h; cases h

/-- A sequence that raises did so in one of its parts. -/
theorem of_run_bind_error {x : EStateM ε σ α} {f : α → EStateM ε σ β} {s u : σ} {e : ε}
    (h : (x >>= f) s = .error e u) :
    x s = .error e u ∨ ∃ a t, x s = .ok a t ∧ f a t = .error e u := by
  rw [run_bind] at h
  cases hx : x s with
  | ok a t => exact .inr ⟨a, t, rfl, by rw [hx] at h; exact h⟩
  | error e' t =>
    rw [hx] at h
    exact .inl (by simpa using h)

@[simp] theorem run_fail (e : Raise) (s : State) : (fail e : M α) s = .error e s := rfl

@[simp] theorem run_failPre (r : PrecondReason) (s : State) :
    (failPre r : M α) s = .error (.precondition r) s := rfl

@[simp] theorem run_failSerial (c : SerialCause) (s : State) :
    (failSerial c : M α) s = .error (.serialFormat c) s := rfl

@[simp] theorem run_faultPre (r : PrecondReason) (c : Stream) :
    (faultPre r : Codec α) c = .error (.precondition r) c := rfl

@[simp] theorem run_draw (s : State) : draw s = .ok s.draws { s with draws := s.draws + 1 } := rfl

@[simp] theorem run_onStore (f : Params → BlockStore → BlockStore) (s : State) :
    onStore f s = .ok () { s with bs := f s.params s.bs } := rfl

@[simp] theorem run_orMalformed_some (a : α) (s : State) : orMalformed (some a) s = .ok a s := rfl

@[simp] theorem run_orMalformed_none (s : State) :
    (orMalformed none : M α) s = .error (.precondition .malformed) s := rfl

/-! ### What a computation leaves, however it ends -/

/-- A relation between states that holds of doing nothing and of one thing after another. -/
structure Path (R : σ → σ → Prop) : Prop where
  refl : ∀ s, R s s
  trans : ∀ {s t u}, R s t → R t u → R s u

/-- However the computation ends, the state it leaves stands in the relation to the one it began in. -/
def Closed (R : σ → σ → Prop) (x : EStateM ε σ α) : Prop :=
  ∀ s,
    match x s with
    | .ok _ t => R s t
    | .error _ t => R s t

theorem Closed.ok {R : σ → σ → Prop} {x : EStateM ε σ α} (h : Closed R x) {s t : σ} {a : α}
    (e : x s = .ok a t) : R s t := by
  have := h s
  rwa [e] at this

theorem Closed.error {R : σ → σ → Prop} {x : EStateM ε σ α} (h : Closed R x) {s t : σ} {e : ε}
    (e1 : x s = .error e t) : R s t := by
  have := h s
  rwa [e1] at this

theorem Closed.pure {R : σ → σ → Prop} (hR : Path R) (a : α) :
    Closed R (Pure.pure a : EStateM ε σ α) := fun s => hR.refl s

theorem Closed.throw {R : σ → σ → Prop} (hR : Path R) (e : ε) :
    Closed R (MonadExcept.throw e : EStateM ε σ α) := fun s => hR.refl s

theorem Closed.get {R : σ → σ → Prop} (hR : Path R) :
    Closed R (MonadState.get : EStateM ε σ σ) := fun s => hR.refl s

theorem Closed.modify {R : σ → σ → Prop} {f : σ → σ} (h : ∀ s, R s (f s)) :
    Closed R (modify f : EStateM ε σ PUnit) := fun s => h s

theorem Closed.bind {R : σ → σ → Prop} (hR : Path R) {x : EStateM ε σ α} {f : α → EStateM ε σ β}
    (hx : Closed R x) (hf : ∀ a, Closed R (f a)) : Closed R (x >>= f) := fun s => by
  rw [run_bind]
  cases e : x s with
  | error e1 t => exact hx.error e
  | ok a t =>
    dsimp only
    have h1 := hx.ok e
    cases e2 : f a t with
    | error e1 u => exact hR.trans h1 ((hf a).error e2)
    | ok b u => exact hR.trans h1 ((hf a).ok e2)

/-- A read of the state, and what follows it from that state. -/
theorem Closed.getBind {R : σ → σ → Prop} {f : σ → EStateM ε σ β}
    (hf : ∀ s, match f s s with | .ok _ t => R s t | .error _ t => R s t) :
    Closed R (MonadState.get >>= f : EStateM ε σ β) := fun s => hf s

theorem Closed.ite {R : σ → σ → Prop} {p : Prop} [Decidable p] {x y : EStateM ε σ α}
    (hx : Closed R x) (hy : Closed R y) : Closed R (if p then x else y) := by
  split
  · exact hx
  · exact hy

theorem run_onStream_ok {x : Codec α} {s : State} {a : α} {c : Stream} (h : x s.stream = .ok a c) :
    onStream x s = .ok a { s with stream := c } := by
  rw [onStream, h]

theorem run_onStream_error {x : Codec α} {s : State} {e : Raise} {c : Stream}
    (h : x s.stream = .error e c) : onStream x s = .error e { s with stream := c } := by
  rw [onStream, h]

theorem settle_ok {m : M Unit} {s t : State} (h : m s = .ok () t) : settle m s = t := by
  rw [settle, h]

theorem settle_error {m : M Unit} {s t : State} {e : Raise} (h : m s = .error e t) :
    settle m s = takeError e t := by
  rw [settle, h]

end Sys2Proof.Machine
end

