-- ==== Sys2Proof/Laws/Stream.lean ====
section
/-! SUPPORT. The laws of the byte codec C1: what each primitive does, said once (20_memory.md rules R62 to
R66, R78), and what any reader leaves alone. -/

namespace Sys2Proof.Machine

/-! ### Bytes of a number -/

theorem length_leBytes (n v : Nat) : (leBytes n v).length = n := by
  induction n generalizing v with
  | zero => rfl
  | succ n ih => rw [leBytes, List.length_cons, ih]

theorem leValue_leBytes (n v : Nat) : leValue (leBytes n v) = v % 256 ^ n := by
  induction n generalizing v with
  | zero => simp [leBytes, leValue, Nat.mod_one]
  | succ n ih =>
    rw [leBytes, leValue, ih, BitVec.toNat_ofNat, show (2 : Nat) ^ 8 = 256 by rfl, Nat.pow_succ,
      Nat.mul_comm (256 ^ n) 256, Nat.mod_mul]

theorem length_wireBytes (sbo : Bool) (n v : Nat) : (wireBytes sbo n v).length = n := by
  rw [wireBytes]
  split
  · exact length_leBytes n v
  · rw [List.length_reverse, length_leBytes]

/-- Reading a number in the byte order it is written in gives it back (rules R64, R65, R77). -/
theorem bytesValue_wireBytes (sbo : Bool) (n v : Nat) :
    bytesValue sbo (wireBytes sbo n v) = v % 256 ^ n := by
  cases sbo
  · simp [bytesValue, wireBytes, leValue_leBytes]
  · simp [bytesValue, wireBytes, leValue_leBytes]

/-! ### Reads -/

theorem run_memRead (a n : Nat) (c : Stream) :
    memRead a n c =
      if c.bufSize.toNat < a + n then .error (.precondition .buffer) c
      else .ok (c.buf.readList a n) c := by
  by_cases h : c.bufSize.toNat < a + n
  · simp [memRead, run_bind, run_map, h]
  · simp [memRead, run_bind, h]

/-- A read inside the buffer gives the bytes at POS and moves POS past them; a read past its end faults and
changes nothing (rules R62, R65, R66). -/
theorem run_getUint (n : Nat) (c : Stream) :
    getUint n c =
      if c.bufSize.toNat < c.pos + n then .error (.precondition .buffer) c
      else .ok (bytesValue c.sbo (c.buf.readList c.pos n)) { c with pos := c.pos + n } := by
  by_cases h : c.bufSize.toNat < c.pos + n
  · simp [getUint, run_bind, run_memRead, h]
  · simp [getUint, run_bind, run_map, run_memRead, h]

theorem run_getU8 (c : Stream) :
    getU8 c =
      if c.bufSize.toNat < c.pos + 1 then .error (.precondition .buffer) c
      else .ok (c.buf.read c.pos) { c with pos := c.pos + 1 } := by
  rw [getU8, run_bind, run_getUint]
  by_cases h : c.bufSize.toNat < c.pos + 1
  · rw [if_pos h, if_pos h]
  · rw [if_neg h, if_neg h]
    dsimp only
    rw [run_pure]
    cases c.sbo <;> simp [bytesValue, Memory.readList, leValue]

theorem run_getU16 (c : Stream) :
    getU16 c =
      if c.bufSize.toNat < c.pos + 2 then .error (.precondition .buffer) c
      else .ok (BitVec.ofNat 16 (bytesValue c.sbo (c.buf.readList c.pos 2)))
        { c with pos := c.pos + 2 } := by
  rw [getU16, run_bind, run_getUint]
  by_cases h : c.bufSize.toNat < c.pos + 2
  · rw [if_pos h, if_pos h]
  · rw [if_neg h, if_neg h]
    rfl

theorem run_getU32 (c : Stream) :
    getU32 c =
      if c.bufSize.toNat < c.pos + 4 then .error (.precondition .buffer) c
      else .ok (BitVec.ofNat 32 (bytesValue c.sbo (c.buf.readList c.pos 4)))
        { c with pos := c.pos + 4 } := by
  rw [getU32, run_bind, run_getUint]
  by_cases h : c.bufSize.toNat < c.pos + 4
  · rw [if_pos h, if_pos h]
  · rw [if_neg h, if_neg h]
    rfl

theorem run_getU64 (c : Stream) :
    getU64 c =
      if c.bufSize.toNat < c.pos + 8 then .error (.precondition .buffer) c
      else .ok (BitVec.ofNat 64 (bytesValue c.sbo (c.buf.readList c.pos 8)))
        { c with pos := c.pos + 8 } := by
  rw [getU64, run_bind, run_getUint]
  by_cases h : c.bufSize.toNat < c.pos + 8
  · rw [if_pos h, if_pos h]
  · rw [if_neg h, if_neg h]
    rfl

/-! ### Writes -/

/-- A write inside the buffer puts the bytes at POS and moves POS past them; a write past its end faults and
changes nothing (rules R63, R64, R66). -/
theorem run_putBytes (bs : List Byte) (c : Stream) :
    putBytes bs c =
      if c.bufSize.toNat < c.pos + bs.length then .error (.precondition .buffer) c
      else .ok () { c with buf := c.buf.writeList c.pos bs, pos := c.pos + bs.length } := by
  by_cases h : c.bufSize.toNat < c.pos + bs.length
  · simp [putBytes, memWrite, run_bind, h]
  · simp [putBytes, memWrite, run_bind, h]

theorem Wrote.nil (c : Stream) : Wrote [] c c :=
  ⟨rfl, rfl, fun _ _ => rfl⟩

theorem readList_append (m : Memory) (a n k : Nat) :
    m.readList a (n + k) = m.readList a n ++ m.readList (a + n) k := by
  induction n generalizing a with
  | zero => simp [Memory.readList]
  | succ n ih =>
    rw [show n + 1 + k = (n + k) + 1 by omega, Memory.readList, Memory.readList, ih,
      show a + 1 + n = a + (n + 1) by omega, List.cons_append]

theorem readList_congr {m m' : Memory} {a n : Nat}
    (h : ∀ b, a ≤ b → b < a + n → m.read b = m'.read b) : m.readList a n = m'.readList a n := by
  induction n generalizing a with
  | zero => rfl
  | succ n ih =>
    rw [Memory.readList, Memory.readList, h a (by omega) (by omega),
      ih (fun b h1 h2 => h b (by omega) (by omega))]

/-- Two writes in a row write the bytes of both. -/
theorem Wrote.append {xs ys : List Byte} {c d e : Stream} (h1 : Wrote xs c d) (h2 : Wrote ys d e) :
    Wrote (xs ++ ys) c e := by
  obtain ⟨a1, b1, f1⟩ := h1
  obtain ⟨a2, b2, f2⟩ := h2
  have hp : d.pos = c.pos + xs.length := by rw [a1]
  refine ⟨?_, ?_, fun a ha => ?_⟩
  · rw [a2, a1]
    simp only [List.length_append, Nat.add_assoc]
  · rw [List.length_append, readList_append, ← hp, b2]
    exact congrArg (· ++ ys)
      ((readList_congr fun b _ h2 => f2 b (by rw [hp]; exact h2)).trans b1)
  · rw [f2 a (by omega), f1 a ha]

/-- Bytes put at POS of a buffer in canonical form are there, and no earlier byte changes. -/
theorem putBytes_wrote {bs : List Byte} {c : Stream} (hw : c.buf.wf = true)
    (h : c.pos + bs.length ≤ c.bufSize.toNat) :
    ∃ d, putBytes bs c = .ok () d ∧ Wrote bs c d ∧ d.buf.wf = true ∧
      ∀ a, c.pos + bs.length ≤ a → d.buf.read a = c.buf.read a := by
  refine ⟨_, by rw [run_putBytes, if_neg (by omega)], ⟨rfl, ?_, fun a ha => ?_⟩, ?_, fun a ha => ?_⟩
  · exact Memory.readList_writeList hw c.pos bs
  · rw [Memory.read_writeList hw, if_neg (by omega)]
  · exact Memory.wf_writeList hw c.pos bs
  · rw [Memory.read_writeList hw, if_neg (by omega)]

/-! ### What a reader leaves alone -/

/-- What a reader may change: POS, forward and inside the buffer, and the bit reader; the only error it ends
with is a stream that ends too early; and a value it ends with has the property `P`. -/
def ReadsAs {α : Type} (P : α → Prop) (x : Codec α) : Prop :=
  ∀ c : Stream,
    match x c with
    | .ok a d =>
      d = { c with pos := d.pos, racc := d.racc, ravail := d.ravail } ∧ c.pos ≤ d.pos ∧
        (d.pos = c.pos ∨ d.pos ≤ c.bufSize.toNat) ∧ P a
    | .error e d =>
      e = .precondition .buffer ∧
        d = { c with pos := d.pos, racc := d.racc, ravail := d.ravail } ∧ c.pos ≤ d.pos

/-- A reader, whatever its value. -/
abbrev Reads {α : Type} (x : Codec α) : Prop := ReadsAs (fun _ => True) x

theorem ReadsAs.pure {α : Type} {P : α → Prop} {a : α} (h : P a) :
    ReadsAs P (Pure.pure a : Codec α) := fun _ => ⟨rfl, Nat.le_refl _, .inl rfl, h⟩

theorem ReadsAs.bind {α β : Type} {P : α → Prop} {Q : β → Prop} {x : Codec α} {f : α → Codec β}
    (hx : ReadsAs P x) (hf : ∀ a, P a → ReadsAs Q (f a)) : ReadsAs Q (x >>= f) := fun c => by
  rw [run_bind]
  have h := hx c
  cases e : x c with
  | error e1 d => rw [e] at h; exact h
  | ok a d =>
    rw [e] at h
    dsimp only at h ⊢
    obtain ⟨h3, h4, h5, h6⟩ := h
    have h2 := hf a h6 d
    have hb : d.bufSize = c.bufSize := by rw [h3]
    cases e2 : f a d with
    | error e1 d2 =>
      rw [e2] at h2
      dsimp only at h2 ⊢
      obtain ⟨h7, h8, h9⟩ := h2
      refine ⟨h7, ?_, by omega⟩
      rw [h3] at h8
      exact h8
    | ok b d2 =>
      rw [e2] at h2
      dsimp only at h2 ⊢
      obtain ⟨h7, h8, h9, h10⟩ := h2
      refine ⟨?_, by omega, ?_, h10⟩
      · rw [h3] at h7
        exact h7
      · rw [hb] at h9
        omega

theorem ReadsAs.mono {α : Type} {P Q : α → Prop} {x : Codec α} (h : ReadsAs P x)
    (hpq : ∀ a, P a → Q a) : ReadsAs Q x := fun c => by
  have h1 := h c
  cases e : x c with
  | error e1 d => rw [e] at h1; exact h1
  | ok a d =>
    rw [e] at h1
    exact ⟨h1.1, h1.2.1, h1.2.2.1, hpq a h1.2.2.2⟩

theorem Reads.bind {α β : Type} {Q : β → Prop} {x : Codec α} {f : α → Codec β} (hx : Reads x)
    (hf : ∀ a, ReadsAs Q (f a)) : ReadsAs Q (x >>= f) := ReadsAs.bind hx fun a _ => hf a

theorem Reads.pure {α : Type} (a : α) : Reads (Pure.pure a : Codec α) := ReadsAs.pure trivial

theorem Reads.map {α β : Type} {x : Codec α} (h : Reads x) (f : α → β) :
    Reads (do return f (← x)) := h.bind fun _ => Reads.pure _

theorem ReadsAs.ite {α : Type} {P : α → Prop} {p : Prop} [Decidable p] {x y : Codec α}
    (hx : p → ReadsAs P x) (hy : ¬p → ReadsAs P y) : ReadsAs P (if p then x else y) := by
  split
  · exact hx ‹_›
  · exact hy ‹_›

theorem reads_getUint (n : Nat) : Reads (getUint n) := fun c => by
  rw [run_getUint]
  by_cases h : c.bufSize.toNat < c.pos + n
  · rw [if_pos h]
    exact ⟨rfl, rfl, Nat.le_refl _⟩
  · rw [if_neg h]
    exact ⟨rfl, Nat.le_add_right _ _, .inr (Nat.not_lt.1 h), trivial⟩

theorem reads_getU8 : Reads getU8 := (reads_getUint 1).map _
theorem reads_getU16 : Reads getU16 := (reads_getUint 2).map _
theorem reads_getU32 : Reads getU32 := (reads_getUint 4).map _
theorem reads_getU64 : Reads getU64 := (reads_getUint 8).map _

theorem reads_getU16Array (n : Nat) : Reads (getU16Array n) := by
  induction n with
  | zero => exact Reads.pure _
  | succ n ih => exact reads_getU16.bind fun _ => ih.bind fun _ => Reads.pure _

theorem reads_getU32Array (n : Nat) : Reads (getU32Array n) := by
  induction n with
  | zero => exact Reads.pure _
  | succ n ih => exact reads_getU32.bind fun _ => ih.bind fun _ => Reads.pure _

end Sys2Proof.Machine
end

