-- ==== Sys2Proof/Laws/Decode.lean ====
section
/-! SUPPORT. What the decoder leaves alone (20_memory.md rules R60, R62, R66, 40_bitcodec.md rules R180, R186,
R187): every part of it is a reader in the sense of Laws/Stream.lean. -/

namespace Sys2Proof.Machine

/-! ### The bit reader -/

/-- One stream bit (40_bitcodec.md rule R178): the next bit of the accumulator, a word being loaded first if none
is left. -/
theorem run_getBit (c : Stream) :
    getBit c =
      if c.ravail = 0 then
        if c.bufSize.toNat < c.pos + 4 then .error (.precondition .buffer) c
        else
          let w := BitVec.ofNat 32 (bytesValue c.sbo (c.buf.readList c.pos 4))
          .ok (w.getLsbD 0) { c with pos := c.pos + 4, racc := w >>> 1, ravail := 31 }
      else .ok (c.racc.getLsbD 0) { c with racc := c.racc >>> 1, ravail := c.ravail - 1 } := by
  by_cases h : c.ravail = 0
  · by_cases h2 : c.bufSize.toNat < c.pos + 4
    · simp [getBit, run_bind, run_getU32, h, h2]
    · simp [getBit, run_bind, run_map, run_getU32, h, h2]
  · simp [getBit, run_bind, run_map, h]

theorem reads_getBit : Reads getBit := fun c => by
  rw [run_getBit]
  by_cases h : c.ravail = 0
  · rw [if_pos h]
    by_cases h2 : c.bufSize.toNat < c.pos + 4
    · rw [if_pos h2]
      exact ⟨rfl, rfl, Nat.le_refl _⟩
    · rw [if_neg h2]
      exact ⟨rfl, Nat.le_add_right _ _, .inr (Nat.not_lt.1 h2), trivial⟩
  · rw [if_neg h]
    exact ⟨rfl, Nat.le_refl _, .inl rfl, trivial⟩

/-- `n` stream bits are a number below `2 ^ n` (rule R179). -/
theorem reads_getBits (n : Nat) : ReadsAs (fun v => v < 2 ^ n) (getBits n) := by
  induction n with
  | zero => exact ReadsAs.pure (by decide)
  | succ n ih =>
    refine reads_getBit.bind fun b => ih.bind fun v hv => ReadsAs.pure ?_
    rw [Nat.pow_succ]
    split <;> omega

theorem reads_endBits : Reads endBits := fun _ => ⟨rfl, Nat.le_refl _, .inl rfl, trivial⟩

theorem reads_gammaZeros (fuel l : Nat) : Reads (gammaZeros fuel l) := by
  induction fuel generalizing l with
  | zero => exact Reads.pure _
  | succ n ih => exact reads_getBit.bind fun _ => ReadsAs.ite (fun _ => Reads.pure _) fun _ => ih _

theorem reads_gammaDec : Reads gammaDec :=
  (reads_gammaZeros 32 0).bind fun o => by
    cases o with
    | none => exact Reads.pure _
    | some l => exact (reads_getBits l).bind fun _ _ => Reads.pure _

/-- The long codes of the centre-minimal code, with `2 ^ log2 (r + 1)` for the shorter half (rule R186). -/
theorem centerLong_iff (r x : Nat) :
    centerLong r x = true ↔ x + 2 ^ Nat.log2 (r + 1) ≤ r ∨ 2 ^ Nat.log2 (r + 1) ≤ x := by
  have h1 : 2 ^ Nat.log2 (r + 1) ≤ r + 1 := Nat.log2_self_le (by omega)
  have h2 : r + 1 < 2 ^ (Nat.log2 (r + 1) + 1) := Nat.lt_log2_self
  rw [centerLong, Bool.or_eq_true, decide_eq_true_eq, decide_eq_true_eq, centerLo, centerHi]
  rw [Nat.pow_succ] at h2 ⊢
  generalize 2 ^ Nat.log2 (r + 1) = P at h1 h2 ⊢
  omega

/-- What `center_dec` reads is at most `r`: its last check never fires (rule R186). -/
theorem reads_centerDec (r : Nat) : ReadsAs (fun x => x ≤ r) (centerDec r) := by
  have h1 : 2 ^ Nat.log2 (r + 1) ≤ r + 1 := Nat.log2_self_le (by omega)
  have k : ∀ x, x ≤ r →
      ReadsAs (fun x => x ≤ r) (do
        if r < x then faultPre .malformed
        return x : Codec Nat) :=
    fun x hx => ReadsAs.ite (fun h => absurd h (by omega)) fun _ => ReadsAs.pure hx
  refine (reads_getBits _).bind fun t ht => ?_
  refine ReadsAs.ite (fun hl => ?_) fun hl => ?_
  · have := (centerLong_iff r t).1 hl
    refine (reads_getBit.bind (Q := fun x => x ≤ r) fun b => ReadsAs.pure ?_).bind k
    split <;> omega
  · exact (ReadsAs.pure (P := fun x => x ≤ r) (by omega)).bind k

/-- The recursion of the BIC decoder reads `sz` values, and its domain check never fires once the values fit
the range (rule R182). -/
theorem reads_bicDecodeFuel (fuel sz lo hiX : Nat) (h : lo + sz ≤ hiX) (hf : sz ≤ fuel) :
    ReadsAs (fun l => l.length = sz) (bicDecodeFuel fuel sz lo hiX) := by
  induction fuel generalizing sz lo hiX with
  | zero => exact ReadsAs.pure (by simp; omega)
  | succ fuel ih =>
    rw [bicDecodeFuel]
    refine ReadsAs.ite (fun h0 => ReadsAs.pure (by simp [h0])) fun h0 => ?_
    have k : ∀ x, x ≤ hiX - lo - sz →
        ReadsAs (fun l => l.length = sz) (do
          let left ← bicDecodeFuel fuel (sz / 2) lo (lo + sz / 2 + x)
          let right ← bicDecodeFuel fuel (sz - sz / 2 - 1) (lo + sz / 2 + x + 1) hiX
          return left ++ BitVec.ofNat 16 (lo + sz / 2 + x) :: right : Codec (List U16)) := by
      intro x hx
      refine (ih (sz / 2) lo (lo + sz / 2 + x) (by omega) (by omega)).bind fun l hl => ?_
      refine (ih (sz - sz / 2 - 1) (lo + sz / 2 + x + 1) hiX (by omega) (by omega)).bind
        fun r hr => ReadsAs.pure ?_
      rw [List.length_append, List.length_cons, hl, hr]
      omega
    refine ReadsAs.ite (fun h1 => absurd h1 (by omega)) fun _ => ?_
    refine ReadsAs.ite (fun _ => (reads_centerDec _).bind k) fun _ => ?_
    exact (ReadsAs.pure (P := fun x => x ≤ hiX - lo - sz) (Nat.zero_le _)).bind k

theorem reads_bicDecode (sz lo hi : Nat) : Reads (bicDecode sz lo hi) := by
  refine ReadsAs.ite (fun _ => Reads.pure _) fun h => ?_
  exact (reads_bicDecodeFuel sz sz lo (hi + 1) (by omega) (Nat.le_refl _)).mono fun _ _ => trivial

end Sys2Proof.Machine

namespace Sys2Proof

open Sys2Proof.Machine

/-! ### The payloads -/

theorem reads_readGammas (n : Nat) : Reads (readGammas n) := by
  induction n with
  | zero => exact Reads.pure _
  | succ n ih =>
    exact reads_gammaDec.bind fun g =>
      ReadsAs.ite (fun _ => Reads.pure _) fun _ => ih.bind fun _ => Reads.pure _

theorem reads_readRuns (fuel : Nat) (nz : Bool) (left : Nat) : Reads (readRuns fuel nz left) := by
  induction fuel generalizing nz left with
  | zero => exact Reads.pure _
  | succ n ih =>
    refine ReadsAs.ite (fun _ => Reads.pure _) fun _ => reads_getU16.bind fun len =>
      ReadsAs.ite (fun _ => Reads.pure _) fun _ => ReadsAs.ite
        (fun _ => (reads_getU32Array _).bind fun _ => (ih _ _).bind fun _ => Reads.pure _)
        fun _ => (Reads.pure _).bind fun _ => (ih _ _).bind fun _ => Reads.pure _

theorem reads_readIdx : Reads readIdx := reads_getU16.bind fun _ => reads_getU16Array _

theorem reads_readArrGamma : Reads readArrGamma :=
  reads_gammaDec.bind fun _ => ReadsAs.ite (fun _ => Reads.pure _) fun _ =>
    (reads_readGammas _).bind fun _ => reads_endBits.bind fun _ => Reads.pure _

theorem reads_readArrBic : Reads readArrBic :=
  reads_getU16.bind fun _ => reads_getU16.bind fun _ => reads_gammaDec.bind fun _ =>
    ReadsAs.ite (fun _ => Reads.pure _) fun _ =>
      (reads_bicDecode _ _ _).bind fun _ => reads_endBits.bind fun _ => Reads.pure _

theorem reads_readArrBienc : Reads readArrBienc :=
  reads_getU16.bind fun _ => reads_getU16.bind fun _ => reads_getU16.bind fun _ =>
    ReadsAs.ite (fun _ => Reads.pure _) fun _ =>
      (reads_bicDecode _ _ _).bind fun _ => reads_endBits.bind fun _ => Reads.pure _

theorem reads_readGapGamma : Reads readGapGamma :=
  reads_getU16.bind fun _ => (reads_readGammas _).bind fun _ => reads_endBits.bind fun _ =>
    Reads.pure _

theorem reads_readGapBic : Reads readGapBic :=
  reads_getU16.bind fun _ => ReadsAs.ite (fun _ => Reads.pure _) fun _ => reads_getU16.bind fun _ =>
    (reads_bicDecode _ _ _).bind fun _ => reads_endBits.bind fun _ => Reads.pure _

theorem reads_readBitgapBic : Reads readBitgapBic :=
  reads_getU8.bind fun _ => reads_getU16.bind fun _ => reads_getU16.bind fun _ =>
    ReadsAs.ite (fun _ => Reads.pure _) fun _ =>
      (reads_bicDecode _ _ _).bind fun _ => reads_endBits.bind fun _ => Reads.pure _

theorem reads_readInterval : Reads readInterval :=
  reads_getU16.bind fun _ => reads_getU16.bind fun _ =>
    ReadsAs.ite (fun _ => Reads.pure _) fun _ => (reads_getU32Array _).bind fun _ => Reads.pure _

theorem reads_readDigest : Reads readDigest :=
  reads_getU64.bind fun _ => (reads_getU32Array _).bind fun _ => Reads.pure _

theorem reads_read0runs : Reads read0runs :=
  reads_getU8.bind fun _ => ReadsAs.ite (fun _ => Reads.pure _) fun _ =>
    (reads_readRuns _ _ _).bind fun _ => Reads.pure _

theorem reads_readGap : Reads readGap :=
  reads_getU16.bind fun _ => (reads_getU16Array _).bind fun _ => Reads.pure _

theorem reads_decodePayload (t : Byte) : Reads (decodePayload t) := by
  refine ReadsAs.ite (fun _ => Reads.pure _) fun _ => ?_
  split
  case h_4 => exact reads_getU8.map _
  case h_5 => exact reads_getU8.map _
  case h_6 => exact reads_getU16.map _
  case h_7 => exact reads_getU16.map _
  case h_8 => exact reads_getU32.map _
  case h_9 => exact reads_getU32.map _
  case h_12 => exact (reads_getU32Array _).map _
  case h_15 => exact reads_readGap.bind fun _ => Reads.pure _
  case h_17 => exact reads_readIdx.map _
  case h_18 => exact reads_readInterval.bind fun _ => Reads.pure _
  case h_19 => exact reads_readIdx.map _
  case h_20 => exact reads_getU16.map _
  case h_21 => exact reads_readGapGamma.bind fun _ => Reads.pure _
  case h_22 => exact reads_readArrGamma.bind fun _ => Reads.pure _
  case h_23 => exact reads_read0runs.bind fun _ => Reads.pure _
  case h_24 => exact reads_readArrGamma.bind fun _ => Reads.pure _
  case h_25 => exact reads_readIdx.map _
  case h_26 => exact reads_getU64.map _
  case h_27 => exact reads_getU64.map _
  case h_28 => exact reads_readGapBic.bind fun _ => Reads.pure _
  case h_29 => exact reads_readArrBic.bind fun _ => Reads.pure _
  case h_30 => exact reads_readArrBic.bind fun _ => Reads.pure _
  case h_31 => exact reads_readIdx.map _
  case h_32 => exact reads_readArrBienc.bind fun _ => Reads.pure _
  case h_33 => exact reads_readArrBienc.bind fun _ => Reads.pure _
  case h_34 => exact reads_readBitgapBic.bind fun _ => Reads.pure _
  case h_35 => exact reads_readDigest.bind fun _ => Reads.pure _
  all_goals exact Reads.pure _

theorem reads_decodeToken : Reads decodeToken := reads_getU8.bind reads_decodePayload

/-! ### The bit reader is drained (40_bitcodec.md rule R187) -/

/-- A reader that starts with a drained bit reader leaves it drained, unless its value is a bad one. -/
def Drains {α : Type} (good : α → Prop) (x : Codec α) : Prop :=
  ∀ c a d, c.ravail = 0 → x c = .ok a d → good a → d.ravail = 0

/-- The same for a reader that starts anyhow. -/
def Ends {α : Type} (good : α → Prop) (x : Codec α) : Prop :=
  ∀ c a d, x c = .ok a d → good a → d.ravail = 0

theorem Ends.drains {α : Type} {B : α → Prop} {x : Codec α} (h : Ends B x) : Drains B x :=
  fun c a d _ => h c a d

theorem Drains.pure {α : Type} {B : α → Prop} (a : α) : Drains B (Pure.pure a : Codec α) :=
  fun c b d hc h _ => by
    cases h
    exact hc

theorem Drains.bind {α β : Type} {B : β → Prop} {x : Codec α} {f : α → Codec β}
    (hx : Drains (fun _ => True) x) (hf : ∀ a, Drains B (f a)) : Drains B (x >>= f) :=
  fun c b e hc h hb => by
    obtain ⟨a, d, h1, h2⟩ := of_run_bind h
    exact hf a d b e (hx c a d hc h1 trivial) h2 hb

theorem Drains.ite {α : Type} {B : α → Prop} {p : Prop} [Decidable p] {x y : Codec α}
    (hx : Drains B x) (hy : Drains B y) : Drains B (if p then x else y) := by
  split
  · exact hx
  · exact hy

theorem Ends.pure_bad {α : Type} {B : α → Prop} {a : α} (h : ¬B a) : Ends B (Pure.pure a : Codec α) :=
  fun c b d h1 hb => by
    cases h1
    exact absurd hb h

theorem Ends.bind {α β : Type} {B : β → Prop} {x : Codec α} {f : α → Codec β}
    (hf : ∀ a, Ends B (f a)) : Ends B (x >>= f) := fun c b e h hb => by
  obtain ⟨a, d, _, h2⟩ := of_run_bind h
  exact hf a d b e h2 hb

theorem Ends.endBits {α : Type} {B : α → Prop} (a : α) :
    Ends B (do
      Machine.endBits
      return a : Codec α) := fun c b d h _ => by
  cases h
  rfl

theorem drains_getUint (n : Nat) : Drains (fun _ => True) (getUint n) := fun c a d hc h _ => by
  rw [run_getUint] at h
  split at h
  · cases h
  · cases h
    exact hc

theorem drains_getU8 : Drains (fun _ => True) getU8 := (drains_getUint 1).bind fun _ => Drains.pure _
theorem drains_getU16 : Drains (fun _ => True) getU16 := (drains_getUint 2).bind fun _ => Drains.pure _
theorem drains_getU32 : Drains (fun _ => True) getU32 := (drains_getUint 4).bind fun _ => Drains.pure _
theorem drains_getU64 : Drains (fun _ => True) getU64 := (drains_getUint 8).bind fun _ => Drains.pure _

theorem drains_getU16Array (n : Nat) : Drains (fun _ => True) (getU16Array n) := by
  induction n with
  | zero => exact Drains.pure _
  | succ n ih => exact drains_getU16.bind fun _ => ih.bind fun _ => Drains.pure _

theorem drains_getU32Array (n : Nat) : Drains (fun _ => True) (getU32Array n) := by
  induction n with
  | zero => exact Drains.pure _
  | succ n ih => exact drains_getU32.bind fun _ => ih.bind fun _ => Drains.pure _

theorem drains_readRuns (fuel : Nat) (nz : Bool) (left : Nat) :
    Drains (fun _ => True) (readRuns fuel nz left) := by
  induction fuel generalizing nz left with
  | zero => exact Drains.pure _
  | succ n ih =>
    exact Drains.ite (Drains.pure _) (drains_getU16.bind fun len =>
      Drains.ite (Drains.pure _) (Drains.ite
        ((drains_getU32Array _).bind fun _ => (ih _ _).bind fun _ => Drains.pure _)
        ((Drains.pure _).bind fun _ => (ih _ _).bind fun _ => Drains.pure _)))

theorem ends_readArrGamma : Ends (fun r => wfArrGamma r.1 r.2 = true) readArrGamma := by
  refine Ends.bind fun n => ?_
  by_cases h : n.toNat = 0 ∨ 65536 < n.toNat
  · rw [if_pos h]
    refine Ends.pure_bad fun hw => ?_
    simp only [wfArrGamma, Bool.and_eq_true, decide_eq_true_eq] at hw
    omega
  · rw [if_neg h]
    exact Ends.bind fun _ => Ends.endBits _

theorem drains_readArrBic :
    Drains (fun r => wfArrBic r.1 r.2.1 r.2.2.1 r.2.2.2 = true) readArrBic := by
  refine drains_getU16.bind fun mn => drains_getU16.bind fun mx => Ends.drains (Ends.bind fun n4 => ?_)
  by_cases h : n4.toNat = 0 ∨ 65536 < n4.toNat + 4
  · rw [if_pos h]
    refine Ends.pure_bad fun hw => ?_
    simp only [wfArrBic, Bool.and_eq_true, decide_eq_true_eq] at hw
    omega
  · rw [if_neg h]
    exact Ends.bind fun _ => Ends.endBits _

theorem drains_readArrBienc : Drains (fun _ => True) readArrBienc :=
  drains_getU16.bind fun _ => drains_getU16.bind fun _ => drains_getU16.bind fun _ =>
    Drains.ite (Drains.pure _) (Ends.drains (Ends.bind fun _ => Ends.endBits _))

theorem drains_readGapGamma : Drains (fun _ => True) readGapGamma :=
  drains_getU16.bind fun _ => Ends.drains (Ends.bind fun _ => Ends.endBits _)

theorem drains_readGapBic : Drains (fun _ => True) readGapBic :=
  drains_getU16.bind fun _ => Drains.ite (Drains.pure _) (drains_getU16.bind fun _ =>
    Ends.drains (Ends.bind fun _ => Ends.endBits _))

theorem drains_readBitgapBic : Drains (fun _ => True) readBitgapBic :=
  drains_getU8.bind fun _ => drains_getU16.bind fun _ => drains_getU16.bind fun _ =>
    Drains.ite (Drains.pure _) (Ends.drains (Ends.bind fun _ => Ends.endBits _))

theorem drains_readIdx : Drains (fun _ => True) readIdx :=
  drains_getU16.bind fun _ => drains_getU16Array _

theorem drains_readInterval : Drains (fun _ => True) readInterval :=
  drains_getU16.bind fun _ => drains_getU16.bind fun _ => Drains.ite (Drains.pure _)
    ((drains_getU32Array _).bind fun _ => Drains.pure _)

theorem drains_readDigest : Drains (fun _ => True) readDigest :=
  drains_getU64.bind fun _ => (drains_getU32Array _).bind fun _ => Drains.pure _

theorem drains_read0runs : Drains (fun _ => True) read0runs :=
  drains_getU8.bind fun _ => Drains.ite (Drains.pure _)
    ((drains_readRuns _ _ _).bind fun _ => Drains.pure _)

theorem drains_readGap : Drains (fun _ => True) readGap :=
  drains_getU16.bind fun _ => (drains_getU16Array _).bind fun _ => Drains.pure _

/-- A last step that only wraps a value keeps the reader drained. -/
theorem Drains.wrap {α : Type} {B : α → Prop} {x : Codec α} (hx : Drains B x) {f : α → Instr}
    (h : ∀ a, (f a).wf = true → B a) : Drains (fun i => i.wf = true) (do return f (← x)) :=
  fun c i e hc hi hw => by
    obtain ⟨a, d, h1, h2⟩ := of_run_bind hi
    cases h2
    exact hx c a _ hc h1 (h a hw)

theorem drains_decodePayload (t : Byte) : Drains (fun i => i.wf = true) (decodePayload t) := by
  have triv : ∀ {α : Type} (f : α → Instr) (a : α), (f a).wf = true → True := fun _ _ _ => trivial
  refine Drains.ite (Drains.pure _) ?_
  split
  case h_4 => exact drains_getU8.wrap (triv _)
  case h_5 => exact drains_getU8.wrap (triv _)
  case h_6 => exact drains_getU16.wrap (triv _)
  case h_7 => exact drains_getU16.wrap (triv _)
  case h_8 => exact drains_getU32.wrap (triv _)
  case h_9 => exact drains_getU32.wrap (triv _)
  case h_12 => exact (drains_getU32Array _).wrap (triv _)
  case h_15 => exact drains_readGap.wrap (f := fun r => Instr.gap r.1 r.2) (triv _)
  case h_17 => exact drains_readIdx.wrap (triv _)
  case h_18 => exact drains_readInterval.wrap (f := fun r => Instr.bitInterval r.1 r.2.1 r.2.2) (triv _)
  case h_19 => exact drains_readIdx.wrap (triv _)
  case h_20 => exact drains_getU16.wrap (triv _)
  case h_21 => exact drains_readGapGamma.wrap (f := fun r => Instr.gapEgamma r.1 r.2) (triv _)
  case h_22 =>
    exact ends_readArrGamma.drains.wrap (f := fun r => Instr.arrgapEgamma r.1 r.2) fun _ h => h
  case h_23 => exact drains_read0runs.wrap (f := fun r => Instr.bit0runs r.1 r.2) (triv _)
  case h_24 =>
    exact ends_readArrGamma.drains.wrap (f := fun r => Instr.arrgapEgammaInv r.1 r.2) fun _ h => h
  case h_25 => exact drains_readIdx.wrap (triv _)
  case h_26 => exact drains_getU64.wrap (triv _)
  case h_27 => exact drains_getU64.wrap (triv _)
  case h_28 => exact drains_readGapBic.wrap (f := fun r => Instr.gapBienc r.1 r.2.1 r.2.2) (triv _)
  case h_29 =>
    exact drains_readArrBic.wrap
      (f := fun r => Instr.arrgapBienc r.1 r.2.1 r.2.2.1 r.2.2.2) fun _ h => h
  case h_30 =>
    exact drains_readArrBic.wrap
      (f := fun r => Instr.arrgapBiencInv r.1 r.2.1 r.2.2.1 r.2.2.2) fun _ h => h
  case h_31 => exact drains_readIdx.wrap (triv _)
  case h_32 =>
    exact drains_readArrBienc.wrap (f := fun r => Instr.arrBienc r.1 r.2.1 r.2.2.1 r.2.2.2) (triv _)
  case h_33 =>
    exact drains_readArrBienc.wrap (f := fun r => Instr.arrBiencInv r.1 r.2.1 r.2.2.1 r.2.2.2) (triv _)
  case h_34 =>
    exact drains_readBitgapBic.wrap (f := fun r => Instr.bitgapBienc r.1 r.2.1 r.2.2.1 r.2.2.2) (triv _)
  case h_35 => exact drains_readDigest.wrap (f := fun r => Instr.bitDigest0 r.1 r.2) (triv _)
  all_goals exact Drains.pure _

end Sys2Proof
end

