-- ==== Sys2Proof/Laws/Gap.lean ====
section
/-! SUPPORT. `to_gap` (42_block_encoder.md rule R258): it gives a legal GAP with the same content. -/

namespace Sys2Proof.Machine

theorem getLsbD_transitions (c : Content) (p : Nat) :
    (transitions c).getLsbD p = (decide (p < 65535) && (c.getLsbD p ^^ c.getLsbD (p + 1))) := by
  rw [transitions, BitVec.getLsbD_and, BitVec.getLsbD_xor, BitVec.getLsbD_ushiftRight,
    getLsbD_maskRange (by omega), Nat.add_comm 1 p, Bool.and_comm]
  simp

theorem bitGapsOf_eq (c : Content) :
    bitGapsOf c = countBits (fun p => decide (p < 65535) && (c.getLsbD p ^^ c.getLsbD (p + 1))) := by
  rw [bitGapsOf, popcount_eq]
  exact congrArg List.length (List.filter_congr fun p _ => getLsbD_transitions c p)

theorem mem_transitions {c : Content} {p : Nat} (h : p ∈ positions (transitions c)) : p < 65535 := by
  rw [mem_positions] at h
  rw [getLsbD_transitions, Bool.and_eq_true, decide_eq_true_eq] at h
  exact h.2.1

theorem risesNat_of_pairwise {l : List Nat} {lo : Nat} (h : l.Pairwise (· < ·))
    (hlo : ∀ x ∈ l, lo ≤ x) : risesNat lo l = true := by
  induction l generalizing lo with
  | nil => rfl
  | cons x r ih =>
    rw [List.pairwise_cons] at h
    simp only [risesNat, Bool.and_eq_true, decide_eq_true_eq]
    exact ⟨hlo x List.mem_cons_self, ih h.2 fun y hy => h.1 y hy⟩

theorem pairwise_of_risesNat {l : List Nat} {lo : Nat} (h : risesNat lo l = true) :
    l.Pairwise (· < ·) ∧ ∀ x ∈ l, lo ≤ x := by
  induction l generalizing lo with
  | nil => exact ⟨List.Pairwise.nil, fun x hx => absurd hx (by simp)⟩
  | cons x r ih =>
    simp only [risesNat, Bool.and_eq_true, decide_eq_true_eq] at h
    obtain ⟨h1, h2⟩ := ih h.2
    refine ⟨List.pairwise_cons.2 ⟨fun y hy => h2 y hy, h1⟩, fun y hy => ?_⟩
    rcases List.mem_cons.1 hy with rfl | hy
    · exact h.1
    · have := h2 y hy
      omega

theorem toGap_ends (c : Content) : gapEndsOk (toGap c).2 = true := by
  simp only [gapEndsOk, toGap, Bool.and_eq_true]
  refine ⟨risesNat_of_pairwise ?_ fun x _ => Nat.zero_le x, by simp⟩
  rw [List.pairwise_append]
  refine ⟨positions_sorted _, by simp, fun x hx y hy => ?_⟩
  rw [List.mem_singleton.1 hy]
  exact mem_transitions hx

theorem length_toGap (c : Content) : (toGap c).2.length = bitGapsOf c + 1 := by
  simp [toGap, length_positions, bitGapsOf]

theorem filter_range_lt (f : Nat → Bool) {p n : Nat} (h : p ≤ n) :
    ((List.range n).filter f).filter (fun e => decide (e < p)) = (List.range p).filter f := by
  rw [List.filter_filter]
  obtain ⟨k, rfl⟩ := Nat.le.dest h
  have hnil : ((List.range k).map (fun x => p + x)).filter (fun e => decide (e < p) && f e) = [] := by
    rw [List.filter_eq_nil_iff]
    intro x hx
    obtain ⟨y, -, rfl⟩ := List.mem_map.1 hx
    simp
  rw [List.range_add, List.filter_append, hnil, List.append_nil]
  exact List.filter_congr fun x hx => by simp [List.mem_range.1 hx]

theorem parity_transitions (c : Content) {p : Nat} (hp : p < 65536) :
    (c.getLsbD 0 ^^
        decide (((List.range p).filter (fun i => (transitions c).getLsbD i)).length % 2 = 1)) =
      c.getLsbD p := by
  induction p with
  | zero => simp
  | succ p ih =>
    have ih := ih (by omega)
    rw [List.range_succ, List.filter_append, List.length_append]
    by_cases ht : (transitions c).getLsbD p = true
    · rw [List.filter_cons_of_pos ht, List.filter_nil, List.length_singleton]
      rw [getLsbD_transitions, Bool.and_eq_true] at ht
      have hx := ht.2
      rcases Nat.mod_two_eq_zero_or_one
        ((List.range p).filter (fun i => (transitions c).getLsbD i)).length with h | h
      · rw [h] at ih
        rw [show (((List.range p).filter (fun i => (transitions c).getLsbD i)).length + 1) % 2 = 1 by
          omega]
        revert hx ih
        cases c.getLsbD 0 <;> cases c.getLsbD p <;> cases c.getLsbD (p + 1) <;> simp
      · rw [h] at ih
        rw [show (((List.range p).filter (fun i => (transitions c).getLsbD i)).length + 1) % 2 = 0 by
          omega]
        revert hx ih
        cases c.getLsbD 0 <;> cases c.getLsbD p <;> cases c.getLsbD (p + 1) <;> simp
    · rw [List.filter_cons_of_neg ht, List.filter_nil, List.length_nil, Nat.add_zero, ih]
      rw [getLsbD_transitions] at ht
      have : p < 65535 := by omega
      simp only [this, decide_true, Bool.true_and] at ht
      revert ht
      cases c.getLsbD p <;> cases c.getLsbD (p + 1) <;> simp

/-- `to_gap` loses nothing. -/
theorem gapRuns_toGap (c : Content) : gapRuns (toGap c).1 0 (toGap c).2 = c := by
  refine BitVec.eq_of_getLsbD_eq fun p hp => ?_
  rw [getLsbD_gap (toGap_ends c) hp, gapBit, toGap, List.filter_append,
    List.filter_cons_of_neg (by simp; omega), List.filter_nil, List.append_nil, positions_eq,
    filter_range_lt _ (by omega)]
  exact parity_transitions c hp

/-! ### Slots and stores that hold a converted content -/

theorem content_gapOrBit (p : Params) (b : Content) (nb : Nat) : (gapOrBit p b).content nb = b := by
  simp only [gapOrBit]
  split
  · exact gapRuns_toGap b
  · rfl

theorem wf_gapOrBit (p : Params) (b : Content) : (gapOrBit p b).wf p = true := by
  simp only [gapOrBit]
  split
  · rename_i h
    simp only [Slot.wf, toGap_ends b, Bool.true_and, decide_eq_true_eq]
    exact BlockStore.gapCalcLevel_fits h
  · rfl

theorem content_bitResultSlot (d nb : Nat) (op : SetOp) (a b : Content) (h : isCounting op = false) :
    (bitResultSlot d op a b).content nb = (applyOp op a b).1 := by
  unfold bitResultSlot
  by_cases ha : a = Content.zero
  · rw [if_pos ha]
    subst ha
    cases op
    · rfl
    · exact (BitVec.zero_or (x := b)).symm
    · exact (BitVec.zero_and (x := b)).symm
    · exact (BitVec.zero_xor (x := b)).symm
    · exact (BitVec.zero_and (x := ~~~ b)).symm
    all_goals exact absurd h (by decide)
  · rw [if_neg ha]
    rfl

theorem content_gapResultSlot (p : Params) (d nb : Nat) (op : SetOp) (a b : Content) :
    (gapResultSlot p d op a b).content nb = (applyOp op a b).1 := by
  rw [gapResultSlot]
  split
  · rename_i h
    obtain ⟨ha, ho⟩ := h
    subst ha
    rw [content_gapOrBit]
    rcases ho with ho | ho <;> subst ho
    · exact (BitVec.zero_or (x := b)).symm
    · exact (BitVec.zero_xor (x := b)).symm
  · rfl

theorem wf_bitResultSlot (p : Params) (d : Nat) (op : SetOp) (a b : Content) :
    (bitResultSlot d op a b).wf p = true := by
  unfold bitResultSlot
  by_cases ha : a = Content.zero
  · rw [if_pos ha]
    cases op <;> rfl
  · rw [if_neg ha]
    rfl

theorem wf_gapResultSlot (p : Params) (d : Nat) (op : SetOp) (a b : Content) :
    (gapResultSlot p d op a b).wf p = true := by
  rw [gapResultSlot]
  split
  · exact wf_gapOrBit p b
  · rfl

/-- A slot as one of the four forms holds the same content. -/
theorem content_ofForm (p : Params) (f : SlotForm) (c : Content) (nb : Nat) :
    (Slot.ofForm p f c).content nb = c :=
  BlockStore.content_ofForm_of p f c nb fun _ _ => gapRuns_toGap c

theorem content_resolve (p : Params) (nb : Nat) (s : Slot) :
    (s.resolve p nb).content nb = s.content nb := by
  cases s with
  | empty => rfl
  | full => rfl
  | bit w => rfl
  | gap level start ends => rfl
  | drawn form c => exact content_ofForm p _ c nb
  | opened src flipped form => exact content_ofForm p _ _ nb

/-- A form that has been looked up is one of the four of rule R71 of 20_memory.md. -/
theorem resolve_forms (p : Params) (nb : Nat) (s : Slot) :
    s.resolve p nb = .empty ∨ s.resolve p nb = .full ∨ (∃ w, s.resolve p nb = .bit w) ∨
      ∃ level start ends, s.resolve p nb = .gap level start ends := by
  have key : ∀ (f : SlotForm) (c : Content), Slot.ofForm p f c = .empty ∨ Slot.ofForm p f c = .full ∨
      (∃ w, Slot.ofForm p f c = .bit w) ∨
        ∃ level start ends, Slot.ofForm p f c = .gap level start ends := by
    intro f c
    unfold Slot.ofForm
    cases f <;> dsimp only <;> (try split) <;> simp
  cases s with
  | empty => exact .inl rfl
  | full => exact .inr (.inl rfl)
  | bit w => exact .inr (.inr (.inl ⟨_, rfl⟩))
  | gap level start ends => exact .inr (.inr (.inr ⟨_, _, _, rfl⟩))
  | drawn form c => exact key _ _
  | opened src flipped form => exact key _ _

theorem kind_empty_iff {p : Params} {nb : Nat} {s : Slot} :
    s.kind p nb = .empty ↔ s.resolve p nb = .empty := by
  unfold Slot.kind
  rcases resolve_forms p nb s with h | h | ⟨w, h⟩ | ⟨l, b, e, h⟩ <;> simp [h]

/-- A slot of kind BIT is the bit block of its content. -/
theorem kind_bit_iff {p : Params} {nb : Nat} {s : Slot} :
    s.kind p nb = .bit ↔ s.resolve p nb = .bit (s.content nb) := by
  have hc := content_resolve p nb s
  unfold Slot.kind
  rcases resolve_forms p nb s with h | h | ⟨w, h⟩ | ⟨l, b, e, h⟩
  · simp [h]
  · simp [h]
  · rw [h] at hc
    have hw : w = s.content nb := hc
    simp [h, hw]
  · simp [h]

/-- A slot of kind EMPTY has the content ZERO, whatever its form is stored as. -/
theorem content_of_kind_empty {p : Params} {nb : Nat} {s : Slot} (h : s.kind p nb = .empty) :
    s.content nb = Content.zero := by
  rw [← content_resolve p nb s, kind_empty_iff.1 h]
  rfl

theorem wf_ofForm (p : Params) (f : SlotForm) (c : Content) : (Slot.ofForm p f c).wf p = true := by
  cases f with
  | empty =>
    simp only [Slot.ofForm]
    split <;> rfl
  | full =>
    simp only [Slot.ofForm]
    split <;> rfl
  | bit => rfl
  | gap level =>
    simp only [Slot.ofForm]
    split
    · rename_i h
      simp only [Slot.wf, toGap_ends c, Bool.true_and, decide_eq_true_eq]
      exact h
    · rfl

theorem wf_resolve {p : Params} {s : Slot} (nb : Nat) (h : s.wf p = true) :
    (s.resolve p nb).wf p = true := by
  cases s with
  | empty => rfl
  | full => rfl
  | bit w => rfl
  | gap level start ends => exact h
  | drawn form c => exact wf_ofForm p _ c
  | opened src flipped form => exact wf_ofForm p _ _

end Sys2Proof.Machine
end

