-- ==== Sys2Proof/Laws/Emit.lean ====
section
/-! SUPPORT. What a writer may change: the stream buffer, POS and the bit writer (20_memory.md rules R64, R75;
40_bitcodec.md rules R171 to R176), and what an emitter may change besides (42_block_encoder.md). -/

namespace Sys2Proof.Machine

/-- What a writer of the codec may change: the bytes of the buffer, POS and the bit writer; a buffer in
canonical form stays so. -/
def Writes (c d : Stream) : Prop :=
  d = { c with buf := d.buf, pos := d.pos, wacc := d.wacc, wused := d.wused } ∧
    (c.buf.wf = true → d.buf.wf = true)

theorem path_writes : Path Writes where
  refl _ := ⟨rfl, id⟩
  trans := by
    intro s t u h1 h2
    refine ⟨?_, fun h => h2.2 (h1.2 h)⟩
    have := h1.1
    rw [h2.1, h1.1]

/-- A writer of the codec. -/
abbrev Writer {α : Type} (x : Codec α) : Prop := Closed Writes x

theorem Writer.bind {α β : Type} {x : Codec α} {f : α → Codec β} (hx : Writer x)
    (hf : ∀ a, Writer (f a)) : Writer (x >>= f) := Closed.bind path_writes hx hf

theorem Writer.pure {α : Type} (a : α) : Writer (Pure.pure a : Codec α) := Closed.pure path_writes a

theorem Writer.fault {α : Type} (r : PrecondReason) : Writer (faultPre r : Codec α) :=
  fun c => path_writes.refl c

/-- A check that faults, then the rest. -/
theorem Writer.guard {p : Prop} [Decidable p] {α β : Type} {r : PrecondReason} {x : β → Codec α}
    {y : Codec α} (hy : Writer y) : Writer (if p then faultPre r >>= x else y) :=
  Closed.ite (fun c => path_writes.refl c) hy

/-- An optional part, then the rest. -/
theorem Writer.opt {p : Prop} [Decidable p] {α β : Type} {y : Codec β} {x : β → Codec α} {z : Codec α}
    (hy : Writer y) (hz : Writer z) (hx : ∀ b, Writer (x b)) :
    Writer (if p then y >>= x else z) :=
  Closed.ite (Closed.bind path_writes hy hx) hz

theorem writer_putBytes (bs : List Byte) : Writer (putBytes bs) := fun c => by
  rw [run_putBytes]
  split
  · rename_i h
    split at h <;> cases h
    exact ⟨rfl, fun h => Memory.wf_writeList h _ _⟩
  · rename_i h
    split at h <;> cases h
    exact path_writes.refl c

theorem writer_putU8 (v : Byte) : Writer (putU8 v) := writer_putBytes _
theorem writer_putU16 (v : U16) : Writer (putU16 v) := writer_putBytes _
theorem writer_putU32 (v : U32) : Writer (putU32 v) := writer_putBytes _
theorem writer_putU64 (v : U64) : Writer (putU64 v) := writer_putBytes _

theorem writer_setPos (p : Nat) : Writer (setPos p) := fun _ => ⟨rfl, id⟩

theorem writer_putU16Array (l : List U16) : Writer (putU16Array l) := by
  induction l with
  | nil => exact Writer.pure _
  | cons v l ih => exact (writer_putU16 v).bind fun _ => ih

theorem writer_putU32Array (l : List U32) : Writer (putU32Array l) := by
  induction l with
  | nil => exact Writer.pure _
  | cons v l ih => exact (writer_putU32 v).bind fun _ => ih

theorem writer_putU16N (v : Nat) : Writer (putU16N v) := Writer.guard (writer_putU16 _)
theorem writer_putU32N (v : Nat) : Writer (putU32N v) := Writer.guard (writer_putU32 _)
theorem writer_putU64N (v : Nat) : Writer (putU64N v) := Writer.guard (writer_putU64 _)

theorem writer_putU16Ns (l : List Nat) : Writer (putU16Ns l) := by
  induction l with
  | nil => exact Writer.pure _
  | cons v l ih => exact (writer_putU16N v).bind fun _ => ih

/-! ### The bit writer -/

theorem writer_wordOut : Writer wordOut :=
  Closed.bind path_writes (Closed.get path_writes) fun c =>
    (writer_putU32 c.wacc).bind fun _ => fun _ => ⟨rfl, id⟩

theorem writer_putBit (b : Bool) : Writer (putBit b) :=
  Closed.bind path_writes (fun _ => ⟨rfl, id⟩) fun _ =>
    Closed.bind path_writes (Closed.get path_writes) fun _ =>
      Closed.ite writer_wordOut (Writer.pure ())

theorem writer_putLowBits (v n : Nat) : Writer (putLowBits v n) := by
  induction n generalizing v with
  | zero => exact Writer.pure _
  | succ n ih => exact (writer_putBit _).bind fun _ => ih _

theorem writer_putBits (v n : Nat) : Writer (putBits v n) := Writer.guard (writer_putLowBits v n)

theorem writer_putZeros (n : Nat) : Writer (putZeros n) := by
  induction n with
  | zero => exact Writer.pure _
  | succ n ih => exact (writer_putBit _).bind fun _ => ih

theorem writer_putGamma (v : Nat) : Writer (putGamma v) :=
  Writer.guard ((writer_putZeros _).bind fun _ => (writer_putBit _).bind fun _ => writer_putBits _ _)

theorem writer_flush : Writer flush :=
  Closed.bind path_writes (Closed.get path_writes) fun _ => Closed.ite writer_wordOut (Writer.pure ())

theorem writer_bicEncodeFuel (fuel : Nat) (arr : List Nat) (lo hiX : Nat) :
    Writer (bicEncodeFuel fuel arr lo hiX) := by
  induction fuel generalizing arr lo hiX with
  | zero => exact Writer.pure _
  | succ fuel ih =>
    refine Closed.ite (Writer.pure ()) ?_
    refine Writer.guard ?_
    have h := Closed.bind path_writes (ih (arr.take (arr.length / 2)) lo (arr.getD (arr.length / 2) 0))
      fun _ => ih (arr.drop (arr.length / 2 + 1)) (arr.getD (arr.length / 2) 0 + 1) hiX
    exact Writer.opt (writer_putBits _ _) h fun _ => h

theorem writer_bicEncode (arr : List Nat) (lo hi : Nat) : Writer (bicEncode arr lo hi) :=
  Writer.guard (writer_bicEncodeFuel _ _ _ _)

theorem writer_putGammas (l : List Nat) : Writer (putGammas l) := by
  induction l with
  | nil => exact Writer.pure _
  | cons v l ih => exact (writer_putGamma v).bind fun _ => ih

/-! ### The emitters -/

theorem writer_emitZeroRun (n : Nat) : Writer (emitZeroRun n) :=
  Closed.ite (writer_putU8 _) <| Closed.ite (writer_putU8 _) <|
    Closed.ite ((writer_putU8 _).bind fun _ => writer_putU8 _) <|
    Closed.ite ((writer_putU8 _).bind fun _ => writer_putU16N _) <|
    Closed.ite ((writer_putU8 _).bind fun _ => writer_putU32N _) <|
    (writer_putU8 _).bind fun _ => writer_putU64N _

theorem writer_emitOneRun (n : Nat) : Writer (emitOneRun n) :=
  Closed.ite (writer_putU8 _) <|
    Closed.ite ((writer_putU8 _).bind fun _ => writer_putU8 _) <|
    Closed.ite ((writer_putU8 _).bind fun _ => writer_putU16N _) <|
    Closed.ite ((writer_putU8 _).bind fun _ => writer_putU32N _) <|
    (writer_putU8 _).bind fun _ => writer_putU64N _

theorem writer_emitBit (c : Content) : Writer (emitBit c) :=
  (writer_putU8 _).bind fun _ => writer_putU32Array _

theorem writer_emit1bit (p : Nat) : Writer (emit1bit p) :=
  (writer_putU8 _).bind fun _ => writer_putU16N _

theorem writer_emitRuns (l : List (Bool × List U32)) : Writer (emitRuns l) := by
  induction l with
  | nil => exact Writer.pure _
  | cons r l ih =>
    obtain ⟨nz, ws⟩ := r
    exact (writer_putU16N _).bind fun _ =>
      Writer.opt (writer_putU32Array _) ih fun _ => ih

theorem writer_emit0runs (c : Content) : Writer (emit0runs c) :=
  (writer_putU8 _).bind fun _ => (writer_putU8 _).bind fun _ => writer_emitRuns _

theorem writer_emitWaves (c : Content) (l : List Nat) : Writer (emitWaves c l) := by
  induction l with
  | nil => exact Writer.pure _
  | cons j l ih => exact (writer_putU32Array _).bind fun _ => ih

theorem writer_emitDigest0 (c : Content) : Writer (emitDigest0 c) :=
  (writer_putU8 _).bind fun _ => (writer_putU64 _).bind fun _ => writer_emitWaves _ _

theorem writer_emitPlainArr (tag : Byte) (idx : List Nat) : Writer (emitPlainArr tag idx) := by
  refine (writer_putU8 _).bind fun _ => ?_
  rw [if_pos rfl]
  exact Writer.guard ((writer_putU16 _).bind fun _ => writer_putU16Array _)

theorem writer_emitPlainGap (level : Fin 4) (start : Bool) (ends : List Nat) :
    Writer (emitPlainGap level start ends) :=
  (writer_putU8 _).bind fun _ => (writer_putU16N _).bind fun _ => writer_putU16Ns _

theorem writer_attemptGapEgamma (level : Fin 4) (start : Bool) (ends : List Nat) :
    Writer (attemptGapEgamma level start ends) :=
  (writer_putU8 _).bind fun _ => (writer_putU16N _).bind fun _ => (writer_putGammas _).bind fun _ =>
    writer_flush

theorem writer_attemptGapBienc (level : Fin 4) (start : Bool) (ends : List Nat) :
    Writer (attemptGapBienc level start ends) :=
  (writer_putU8 _).bind fun _ => (writer_putU16N _).bind fun _ => (writer_putU16N _).bind fun _ =>
    (writer_bicEncode _ _ _).bind fun _ => writer_flush

theorem writer_attemptArrGamma (tag : Byte) (idx : List Nat) : Writer (attemptArrGamma tag idx) :=
  (writer_putU8 _).bind fun _ => (writer_putGamma _).bind fun _ => (writer_putGammas _).bind fun _ =>
    writer_flush

theorem writer_attemptArrBic (tag : Byte) (idx : List Nat) : Writer (attemptArrBic tag idx) :=
  (writer_putU8 _).bind fun _ => (writer_putU16N _).bind fun _ => (writer_putU16N _).bind fun _ =>
    (writer_putGamma _).bind fun _ => (writer_bicEncode _ _ _).bind fun _ => writer_flush

theorem writer_attemptArrBienc (tag : Byte) (idx : List Nat) : Writer (attemptArrBienc tag idx) :=
  (writer_putU8 _).bind fun _ => (writer_putU16N _).bind fun _ => (writer_putU16N _).bind fun _ =>
    (writer_putU16N _).bind fun _ => (writer_bicEncode _ _ _).bind fun _ => writer_flush

theorem writer_attemptBitgap (start : Bool) (ends : List Nat) : Writer (attemptBitgap start ends) :=
  (writer_putU8 _).bind fun _ => (writer_putU8 _).bind fun _ => (writer_putU16N _).bind fun _ =>
    (writer_putU16N _).bind fun _ => (writer_bicEncode _ _ _).bind fun _ => writer_flush

theorem writer_writeHeader (p : Params) (size : Nat) (cfg : U64) : Writer (writeHeader p size cfg) :=
  (writer_putU8 _).bind fun _ =>
    have h := Closed.ite (p := p.aw = .w48) (writer_putU64N size) (writer_putU32N size)
    have h1 := Closed.ite (p := size ≠ p.sizeDefault) h (Writer.pure ())
    have h2 := Writer.opt (p := cfgGapl cfg = true)
      (writer_putU16Ns [p.gapLevel0, p.gapLevel1, p.gapLevel2, p.gapLevel3]) h1 fun _ => h1
    Writer.opt (writer_putU8 _) h2 fun _ => h2

/-! ### The machine -/

/-- What an emitter may change: what a writer may, the classifier's registers, POS0, ROLLED, HDR_FLAGS,
the scratch arrays and the number of draws. -/
def Emits (s t : State) : Prop :=
  t = { s with
      stream := t.stream
      hdrFlags := t.hdrFlags
      d0 := t.d0
      bc := t.bc
      bitGaps := t.bitGaps
      nzSize := t.nzSize
      bestTag := t.bestTag
      bestCost := t.bestCost
      pos0 := t.pos0
      rolled := t.rolled
      tempBlock := t.tempBlock
      idxArr := t.idxArr
      draws := t.draws } ∧ Writes s.stream t.stream

theorem path_emits : Path Emits where
  refl s := ⟨rfl, path_writes.refl _⟩
  trans := by
    intro s t u h1 h2
    refine ⟨?_, path_writes.trans h1.2 h2.2⟩
    have := h1.1
    rw [h2.1, h1.1]

/-- An emitter on the machine. -/
abbrev Emitter {α : Type} (x : M α) : Prop := Closed Emits x

theorem Emitter.bind {α β : Type} {x : M α} {f : α → M β} (hx : Emitter x)
    (hf : ∀ a, Emitter (f a)) : Emitter (x >>= f) := Closed.bind path_emits hx hf

theorem Emitter.pure {α : Type} (a : α) : Emitter (Pure.pure a : M α) := Closed.pure path_emits a

theorem Emitter.get : Emitter (MonadState.get : M State) := Closed.get path_emits

theorem emitter_onStream {α : Type} {x : Codec α} (h : Writer x) : Emitter (onStream x) := fun s => by
  cases e : x s.stream with
  | ok a c =>
    rw [run_onStream_ok e]
    exact ⟨rfl, h.ok e⟩
  | error e1 c =>
    rw [run_onStream_error e]
    exact ⟨rfl, h.error e⟩

theorem emitter_speculate {attempt fallback : Codec Unit} (n : Nat) (h1 : Writer attempt)
    (h2 : Writer fallback) : Emitter (speculate attempt n fallback) :=
  Emitter.bind (Closed.modify fun _ => ⟨rfl, path_writes.refl _⟩) fun _ =>
    (emitter_onStream h1).bind fun _ => Emitter.get.bind fun _ =>
      Closed.ite
        ((emitter_onStream (writer_setPos _)).bind fun _ =>
          Emitter.bind (Closed.modify fun _ => ⟨rfl, path_writes.refl _⟩) fun _ =>
            emitter_onStream h2)
        (Emitter.pure ())

theorem emitter_emitGap (t : Proposal) (level : Fin 4) (start : Bool) (ends : List Nat) :
    Emitter (emitGap t level start ends) := by
  have hp := emitter_onStream (writer_emitPlainGap level start ends)
  cases t
  all_goals first
    | exact hp
    | exact emitter_speculate _ (writer_attemptGapEgamma _ _ _) (writer_emitPlainGap _ _ _)
    | exact emitter_speculate _ (writer_attemptGapBienc _ _ _) (writer_emitPlainGap _ _ _)

theorem emitter_useTemp : Emitter useTemp := fun s => by
  simp only [useTemp, writeTemp, run_bind, run_draw, run_modify]
  exact ⟨rfl, path_writes.refl _⟩

theorem emitter_loadIdx (idx : List Nat) : Emitter (loadIdx idx) :=
  emitter_useTemp.bind fun _ => Closed.modify fun _ => ⟨rfl, path_writes.refl _⟩

theorem emitter_emitArrgap (t : Proposal) (idx : List Nat) : Emitter (emitArrgap t idx) := by
  have hp (tag : Byte) := emitter_onStream (writer_emitPlainArr tag idx)
  cases t
  all_goals first
    | exact hp _
    | exact emitter_speculate _ (writer_attemptArrGamma _ _) (writer_emitPlainArr _ _)
    | exact Closed.ite (hp _) (emitter_speculate _ (writer_attemptArrBic _ _) (writer_emitPlainArr _ _))

theorem emitter_emitArrBienc (tag : Byte) (idx : List Nat) (c : Content) :
    Emitter (emitArrBienc tag idx c) :=
  emitter_speculate 8193 (writer_attemptArrBienc tag idx) (writer_emitBit c)

theorem emitter_emitBitgap (start : Bool) (ends : List Nat) (c : Content) :
    Emitter (emitBitgap start ends c) :=
  emitter_speculate 8193 (writer_attemptBitgap start ends) (writer_emitBit c)

theorem emitter_arr {idx : List Nat} {x : M Unit} (h : Emitter x) :
    Emitter (loadIdx idx >>= fun _ => x) := (emitter_loadIdx idx).bind fun _ => h

theorem emitter_emitAs (t : Proposal) (level : Fin 4) (start : Bool) (ends : List Nat) (c : Content) :
    Emitter (emitAs t level start ends c) := by
  cases t <;> rw [emitAs]
  case azero => exact Emitter.pure ()
  case aone => exact Emitter.pure ()
  case bit => exact emitter_onStream (writer_emitBit c)
  case gap => exact emitter_emitGap .gap level start ends
  case gapEgamma => exact emitter_emitGap .gapEgamma level start ends
  case gapBienc => exact emitter_emitGap .gapBienc level start ends
  case bit1bit => exact emitter_onStream (writer_emit1bit ((positions c).getD 0 0))
  case bit0runs => exact emitter_onStream (writer_emit0runs c)
  case bitDigest0 => exact emitter_onStream (writer_emitDigest0 c)
  case arrbit => exact emitter_arr (emitter_onStream (writer_emitPlainArr 16 (positions c)))
  case arrbitInv => exact emitter_arr (emitter_onStream (writer_emitPlainArr 30 (positions (~~~ c))))
  case arrgap => refine emitter_arr ?_; exact emitter_emitArrgap _ _
  case arrgapEgamma => refine emitter_arr ?_; exact emitter_emitArrgap _ _
  case arrgapBienc => refine emitter_arr ?_; exact emitter_emitArrgap _ _
  case arrgapInv => refine emitter_arr ?_; exact emitter_emitArrgap _ _
  case arrgapEgammaInv => refine emitter_arr ?_; exact emitter_emitArrgap _ _
  case arrgapBiencInv => refine emitter_arr ?_; exact emitter_emitArrgap _ _
  case arrBienc => exact emitter_arr (emitter_emitArrBienc 31 (positions c) c)
  case arrBiencInv => refine emitter_arr ?_; exact emitter_emitArrBienc _ _ _
  case bitgapBienc => exact emitter_arr (emitter_emitBitgap start ends c)

theorem emits_statistics (s : State) (d0 : U64) (bc : BitVec 17) (bitGaps : U16) (nzSize : BitVec 14)
    (bestTag : Byte) (bestCost : BitVec 21) :
    Emits s
      { s with
        d0 := d0, bc := bc, bitGaps := bitGaps, nzSize := nzSize, bestTag := bestTag,
        bestCost := bestCost } := ⟨rfl, path_writes.refl _⟩

theorem emitter_classifyBlock (c : Content) : Emitter (classifyBlock c) := fun s => by
  simp only [classifyBlock, run_bind, run_get, run_set, run_pure]
  exact emits_statistics s _ _ _ _ _ _

theorem emitter_emitGapBlock (level : Fin 4) (start : Bool) (ends : List Nat) :
    Emitter (emitGapBlock level start ends) :=
  Emitter.get.bind fun _ =>
    Closed.ite
      (Emitter.bind (Closed.modify fun _ => ⟨rfl, path_writes.refl _⟩) fun _ =>
        emitter_emitAs _ _ _ _ _)
      (emitter_emitAs _ _ _ _ _)

theorem emitter_emitBitBlock (c : Content) : Emitter (emitBitBlock c) :=
  (emitter_classifyBlock c).bind fun _ => Emitter.get.bind fun _ =>
    Closed.ite ((emitter_loadIdx _).bind fun _ => emitter_emitAs _ _ _ _ _) (emitter_emitAs _ _ _ _ _)

theorem emitter_emitHeader : Emitter emitHeader :=
  Closed.getBind fun s => by
    have h := emitter_onStream (writer_writeHeader s.params s.bsSize s.cfg)
      { s with hdrFlags := headerFlags s.params s.bsSize s.cfg }
    rw [run_bind, run_set]
    dsimp only
    revert h
    cases onStream (writeHeader s.params s.bsSize s.cfg)
      { s with hdrFlags := headerFlags s.params s.bsSize s.cfg } <;>
      exact fun h => path_emits.trans ⟨rfl, path_writes.refl _⟩ h

end Sys2Proof.Machine
end

