-- ==== Sys2Proof/Laws/Ops.lean ====
section
/-! SUPPORT. What each shared operation of the token rules does, said once. -/

namespace Sys2Proof.Machine

/-! ### The guards -/

theorem tokenMode_merge {s : State} (h : Merging s) : tokenMode s = .ok .merge s := by
  obtain ⟨h1, h2, h3, h4⟩ := h
  simp [tokenMode, run_bind, h1, h2, h3, h4]

theorem tokenMode_operate {s : State} (h : Operating s) : tokenMode s = .ok .operate s := by
  obtain ⟨h1, h2, h3, h4 | h4, -⟩ := h <;> simp [tokenMode, run_bind, h1, h2, h3, h4]

theorem tokenMode_walk {s : State} (h : Walking s) : ∃ m, tokenMode s = .ok m s :=
  h.elim (fun h => ⟨_, tokenMode_merge h⟩) fun h => ⟨_, tokenMode_operate h⟩

theorem requireRoom_ok {s : State} {n : Nat} (h : s.nb + n ≤ s.params.totalBlocks) :
    requireRoom n s = .ok () s := by
  simp [requireRoom, run_bind, Nat.not_lt.2 h]

theorem requireRoom_error {s : State} {n : Nat} (h : s.params.totalBlocks < s.nb + n) :
    requireRoom n s = .error (.precondition .malformed) s := by
  simp [requireRoom, run_bind, h]

theorem requireBlock_ok {s : State} (h : s.nb < s.params.totalBlocks) : requireBlock s = .ok () s :=
  requireRoom_ok h

theorem totalBlocks_lt (p : Params) : p.totalBlocks < 2 ^ 33 := by
  unfold Params.totalBlocks
  cases p.aw <;> decide

/-! ### Taking an error -/

theorem reports_takeError (e : Raise) (s : State) : Reports e (takeError e s) := by
  cases e <;> exact ⟨rfl, rfl, rfl, by trivial⟩

/-- A token that fails: the error is reported, and of the memories only the block at NB may differ. -/
theorem tokenError_takeError {s : State} (e : Raise) (hp : s.phase = .tokens)
    (hw : s.bs.wf s.params = true) : TokenError e s (takeError e s) := by
  refine ⟨reports_takeError e s, ?_⟩
  have hm : errorMemories e s = s ∨
      errorMemories e s = { s with bs := s.bs.put s.nb (.opened (s.draws + 3) false (s.draws + 4)) } := by
    simp only [errorMemories, hp]
    cases e with
    | serialFormat c => exact .inl rfl
    | precondition r =>
      by_cases h : s.nb < s.params.totalBlocks
      · exact .inr (by simp [h])
      · exact .inl (by simp [h])
  rw [takeError]
  rcases hm with hm | hm <;> rw [hm]
  · exact ⟨⟨rfl, rfl, rfl, rfl, rfl, rfl, rfl, rfl, rfl⟩, rfl, rfl, rfl, fun _ _ => rfl⟩
  · refine ⟨⟨rfl, rfl, rfl, rfl, rfl, rfl, rfl, rfl, rfl⟩, rfl, rfl, rfl, fun j hj => ?_⟩
    show (s.bs.put _ _).content j = _
    rw [BlockStore.content_put (BlockStore.wf_rising hw), if_neg hj]

/-! ### Terminators and run tokens -/

theorem endToken_walk {s : State} (h : Walking s) : endToken s = .ok () { s with eos := true } := by
  rcases h with h | h
  · simp [endToken, run_bind, tokenMode_merge h, setEos]
  · simp [endToken, run_bind, tokenMode_operate h, nextEnd, requireSt, h.2.2.2.2, setEos]

theorem runToken_merge {s : State} {one : Bool} {n : Nat} (h : Merging s)
    (hn : s.nb + n ≤ s.params.totalBlocks) :
    runToken one n s =
      .ok () { s with bs := if one then s.bs.setAllSet s.nb n else s.bs, nb := s.nb + n } := by
  cases one <;> simp [runToken, run_bind, tokenMode_merge h, requireRoom_ok hn]

/-- What a run token does under an operation. -/
theorem runToken_operate {s : State} {one : Bool} {n : Nat} (h : Operating s)
    (hn : s.nb + n ≤ s.params.totalBlocks) :
    runToken one n s =
      .ok ()
        { s with
          bs := if one then oneRunStore s.eop s.draws s.nb n s.bs else zeroRunStore s.eop s.nb n s.bs
          nb := s.nb + n
          monoCnt := 0
          count := s.count + BitVec.ofNat 64
            (if one then oneRunCount s.eop s.bs s.nb n else zeroRunCount s.eop s.bs s.nb n)
          draws := if one then s.draws + 1 else s.draws } := by
  have hs := h.2.2.2.2
  have ht := totalBlocks_lt s.params
  have hm : (BitVec.ofNat 64 n).toNat = n := by
    rw [BitVec.toNat_ofNat]
    exact Nat.mod_eq_of_lt (by omega)
  have hr := requireRoom_ok (s := s) hn
  cases one <;>
    simp [runToken, run_bind, tokenMode_operate h, nextRun, requireSt, hs, hr, doZeroRun, doOneRun,
      addCount, skipMono, hm]

/-- A run token that overruns the block space fails with the state as it was. -/
theorem runToken_overrun {s : State} {one : Bool} {n : Nat} (h : Walking s)
    (hn : s.params.totalBlocks < s.nb + n) :
    runToken one n s = .error (.precondition .malformed) s := by
  rcases h with h | h
  · simp [runToken, run_bind, tokenMode_merge h, requireRoom_error hn]
  · simp [runToken, run_bind, tokenMode_operate h, nextRun, requireSt, h.2.2.2.2,
      requireRoom_error hn]

theorem reservedTag_walk {s : State} (h : Walking s) :
    reservedTag s = .error (.serialFormat .unknownTag) s := by
  obtain ⟨m, hm⟩ := tokenMode_walk h
  simp [reservedTag, run_bind, hm]

/-- Every run token is the shared run rule with its kind and its length. -/
theorem exec_run {i : Instr} {s : State} {one : Bool} {n : Nat} (h : runOf s i = some (one, n)) :
    exec i s = .next (settle (runToken one n) s) := by
  cases i
  all_goals first
    | (cases h; done)
    | (cases h; rfl)

/-- Every reserved tag is the shared rule of the reserved tags. -/
theorem exec_reserved {i : Instr} (h : isReserved i = true) (s : State) :
    exec i s = .next (settle reservedTag s) := by
  cases i
  all_goals first
    | (cases h; done)
    | rfl

theorem phase_of_walking {s : State} (h : Walking s) : s.phase = .tokens :=
  h.elim (fun h => h.2.1) fun h => h.2.1

/-! ### Block tokens -/

/-- The state in which a block token's operand is used: IDX_ARR holds the list, if there is one. -/
def withIdx (b : BlockOperand) (s : State) : State :=
  { s with idxArr := (b.idx.map (loadArr · s.idxArr)).getD s.idxArr }

theorem keepIdx_run (b : BlockOperand) (s : State) : keepIdx b.idx s = .ok () (withIdx b s) := by
  cases h : b.idx <;> simp [keepIdx, writeIdx, withIdx, h]

theorem blockToken_merge {s : State} {st : ItState} {b : BlockOperand} {merge : BlockOperand → M Unit}
    (h : Merging s) (hn : s.nb < s.params.totalBlocks) :
    blockToken st (some b) merge s = merge b (withIdx b s) := by
  simp [blockToken, run_bind, tokenMode_merge h, requireBlock_ok hn, keepIdx_run]

/-- A malformed payload fails with the state as it was, but for ST, which `next()` has moved under an
operation (44_stream_iterator.md rule R373). -/
theorem blockToken_malformed {s : State} {st : ItState} {merge : BlockOperand → M Unit}
    (h : Walking s) (hn : s.nb < s.params.totalBlocks) :
    ∃ st', blockToken st none merge s = .error (.precondition .malformed) { s with st := st' } := by
  rcases h with h | h
  · exact ⟨s.st, by simp [blockToken, run_bind, tokenMode_merge h, requireBlock_ok hn]⟩
  · exact ⟨st, by
      simp [blockToken, run_bind, tokenMode_operate h, requireBlock_ok hn, nextBlock, requireSt,
        h.2.2.2.2]⟩

theorem mergeBlock_run (b : BlockOperand) (s : State) :
    mergeBlock b s =
      .ok ()
        { s with
          bs := s.bs.put s.nb (mergeSlot s.params s.draws s.nb (s.bs.at' s.nb) b)
          tempBlock := if s.bs.kind s.params s.nb = .empty then s.tempBlock else b.content
          nb := s.nb + 1
          draws := s.draws + 1 } := by
  simp [mergeBlock, run_bind]

theorem mergeInPlace_run (ran : Bool) (r : Content × Bool) (s : State) :
    mergeInPlace ran r s =
      .ok ()
        { s with
          bs := s.bs.put s.nb (orredSlot ran s.draws r.1)
          allone := r.2
          nb := s.nb + 1
          draws := s.draws + 1 } := by
  simp [mergeInPlace, run_bind]

theorem mergeBit_run (words : List U32) (b : BlockOperand) (s : State) :
    mergeBit words b s =
      if s.bs.kind s.params s.nb = .bit then
        mergeInPlace true (fusedOr (s.bs.content s.nb) 0 words) s
      else mergeBlock b s := by
  simp only [mergeBit, run_bind, run_get]
  split <;> rfl

theorem mergeDigest_run (digest : U64) (words : List U32) (b : BlockOperand) (s : State) :
    mergeDigest digest words b s =
      if s.bs.kind s.params s.nb = .bit then
        mergeInPlace (decide (digest ≠ 0))
          (orWaves (digestList digest) words (s.bs.content s.nb, s.allone)) s
      else mergeBlock b s := by
  simp only [mergeDigest, run_bind, run_get]
  split <;> rfl

/-- The slot an EMPTY block takes holds the token's content. -/
theorem content_freshSlot (p : Params) (nb : Nat) (b : BlockOperand)
    (hb : ∀ start es, b.headed = some (start, es) → b.content = gapRuns start 0 es) :
    (freshSlot p b).content nb = b.content := by
  unfold freshSlot
  cases hh : b.headed with
  | none => rfl
  | some g =>
    obtain ⟨start, es⟩ := g
    dsimp only
    split
    · exact (hb start es hh).symm
    · rfl

/-- A merged slot holds the union. -/
theorem content_mergeSlot (p : Params) (d nb : Nat) (old : Slot) (b : BlockOperand)
    (hb : ∀ start es, b.headed = some (start, es) → b.content = gapRuns start 0 es) :
    (mergeSlot p d nb old b).content nb = old.content nb ||| b.content := by
  unfold mergeSlot
  split
  · rename_i h
    rw [content_freshSlot p nb b hb, content_of_kind_empty h]
    exact BitVec.zero_or.symm
  · rfl

/-- A slot ORed in place holds the result. -/
theorem content_orredSlot (ran : Bool) (d nb : Nat) (c : Content) :
    (orredSlot ran d c).content nb = c := by
  unfold orredSlot
  split <;> rfl

/-- What a block token does under an operation. -/
theorem blockToken_operate {s : State} {st : ItState} {b : BlockOperand}
    {merge : BlockOperand → M Unit} (h : Operating s) (hst : st = .bitBlock ∨ st = .gapBlock)
    (hn : s.nb < s.params.totalBlocks) :
    ∃ idx,
      blockToken st (some b) merge s =
        .ok ()
          { s with
            bs := if isCounting s.eop then s.bs
              else s.bs.put s.nb
                (if st = .bitBlock then bitResultSlot s.draws s.eop (s.bs.content s.nb) b.content
                else gapResultSlot s.params s.draws s.eop (s.bs.content s.nb) b.content)
            nb := s.nb + 1
            count := if isCounting s.eop then
                s.count + BitVec.ofNat 64 (applyOp s.eop (s.bs.content s.nb) b.content).2
              else s.count
            idxArr := idx
            tempBlock := if st = .bitBlock then b.content else s.tempBlock
            draws := s.draws + 1 } := by
  have hs := h.2.2.2.2
  rcases hst with hst | hst <;> subst hst <;> cases hc : isCounting s.eop
  all_goals
    refine ⟨?_, ?_⟩
    rotate_left
    · simp [blockToken, run_bind, tokenMode_operate h, requireBlock_ok hn, nextBlock, requireSt, hs,
        doBitBlock, doGapBlock, getBitBlock, getGapBlock, consumeBlock, hc, addCount, keepIdx_run,
        withIdx, writeTemp, writeIdx]
      rfl

/-! ### Every block token as one rule -/

/-- The merge rule of a block token. -/
def mergeOf : Instr → BlockOperand → M Unit
  | .bit words => mergeBit words
  | .bitDigest0 digest words => mergeDigest digest words
  | _ => mergeBlock

/-- GAP_HEAD as a block token's fetch leaves it. -/
def preBlock (s : State) (i : Instr) : State := { s with gapHead := (headOf i).getD s.gapHead }

theorem exec_block {i : Instr} {st : ItState} (h : blockForm i = some st) (s : State) :
    exec i s = .next (settle (blockToken st (tokenOperand i) (mergeOf i)) (preBlock s i)) := by
  cases i
  all_goals first
    | (cases h; done)
    | (cases h; rfl)

theorem blockForm_states {i : Instr} {st : ItState} (h : blockForm i = some st) :
    st = .bitBlock ∨ st = .gapBlock := by
  cases i
  all_goals first
    | (cases h; done)
    | (cases h; exact .inl rfl)
    | (cases h; exact .inr rfl)

end Sys2Proof.Machine
end

