-- ==== Sys2Proof/Laws/Operands.lean ====
section
/-! SUPPORT. What the operand forms of Machine/Operands.lean denote, position by position. -/

namespace Sys2Proof.Machine

theorem or_getLsbD_zero (p : Nat) : (0 : Content).getLsbD p = false := BitVec.getLsbD_zero

/-! ### Lists of positions -/

theorem getLsbD_listedContent (inv : Bool) (xs : List U16) {p : Nat} (hp : p < 65536) :
    (listedContent inv xs).getLsbD p = (inv ^^ xs.any (fun x => decide (x.toNat = p))) := by
  have hs : (setOf (xs.map BitVec.toNat)).getLsbD p = xs.any (fun x => decide (x.toNat = p)) := by
    rw [getLsbD_setOf, List.any_map]
    · rfl
    · intro x hx
      obtain ⟨y, -, rfl⟩ := List.mem_map.1 hx
      exact y.isLt
  cases inv
  · rw [listedContent, if_neg (by decide), hs, Bool.false_xor]
  · rw [listedContent, if_pos rfl, BitVec.getLsbD_not, hs, Bool.true_xor]
    simp [hp]

/-! ### Gamma-coded lists -/

theorem gammaPositions_eq (acc : Nat) (gs : List U32) (h : gammasOk gs = true) :
    gammaPositions acc gs = (prefixSums acc gs).map (· - 1) := by
  induction gs generalizing acc with
  | nil => rfl
  | cons g r ih =>
    simp only [gammasOk, List.all_cons, Bool.and_eq_true, decide_eq_true_eq] at h
    rw [gammaPositions, prefixSums, List.map_cons, ih _ h.2]

theorem prefixSums_bound (acc : Nat) (gs : List U32) (h : gammasOk gs = true) :
    ∀ x ∈ prefixSums acc gs, acc + 1 ≤ x ∧ x ≤ acc + gammaTotal gs := by
  induction gs generalizing acc with
  | nil => intro x hx; cases hx
  | cons g r ih =>
    simp only [gammasOk, List.all_cons, Bool.and_eq_true, decide_eq_true_eq] at h
    intro x hx
    rw [show gammaTotal (g :: r) = g.toNat + gammaTotal r from rfl]
    rcases List.mem_cons.1 hx with rfl | hx
    · omega
    · have := ih (acc + g.toNat) h.2 x hx
      omega

theorem length_prefixSums (acc : Nat) (gs : List U32) : (prefixSums acc gs).length = gs.length := by
  induction gs generalizing acc with
  | nil => rfl
  | cons g r ih => rw [prefixSums, List.length_cons, ih, List.length_cons]

theorem gammaPositions_rises (acc : Nat) (gs : List U32) (h : gammasOk gs = true) :
    risesNat acc (gammaPositions acc gs) = true := by
  induction gs generalizing acc with
  | nil => rfl
  | cons g r ih =>
    simp only [gammasOk, List.all_cons, Bool.and_eq_true, decide_eq_true_eq] at h
    simp only [gammaPositions, risesNat, Bool.and_eq_true, decide_eq_true_eq]
    refine ⟨by omega, ?_⟩
    rw [show acc + g.toNat - 1 + 1 = acc + g.toNat by omega]
    exact ih _ h.2

theorem getLsbD_gammaList (inv : Bool) {gs : List U32} (h : gammasOk gs = true)
    (ht : gammaTotal gs ≤ 65536) {p : Nat} (hp : p < 65536) :
    (listedContent inv ((gammaPositions 0 gs).map (BitVec.ofNat 16))).getLsbD p =
      (inv ^^ (prefixSums 0 gs).any (fun x => decide (x = p + 1))) := by
  rw [getLsbD_listedContent _ _ hp, gammaPositions_eq 0 gs h, List.map_map, List.any_map]
  congr 1
  refine Bool.eq_iff_iff.2 ?_
  simp only [List.any_eq_true, Function.comp, decide_eq_true_eq]
  refine exists_congr fun x => and_congr_right fun hx => ?_
  have := prefixSums_bound 0 gs h x hx
  rw [BitVec.toNat_ofNat, Nat.mod_eq_of_lt (by omega)]
  omega

/-! ### GAP forms -/

theorem risesNat_append (l : List Nat) (lo e : Nat) (h : risesNat lo l = true)
    (ht : ∀ x ∈ l, x < e) (hlo : lo ≤ e) : risesNat lo (l ++ [e]) = true := by
  induction l generalizing lo with
  | nil => simpa [risesNat] using hlo
  | cons x r ih =>
    simp only [risesNat, Bool.and_eq_true, decide_eq_true_eq] at h
    simp only [List.cons_append, risesNat, Bool.and_eq_true, decide_eq_true_eq]
    have hx := ht x List.mem_cons_self
    exact ⟨h.1, ih _ h.2 (fun y hy => ht y (List.mem_cons_of_mem _ hy)) (by omega)⟩

theorem gapEndsOk_append {l : List Nat} (h : risesNat 0 l = true) (ht : ∀ x ∈ l, x < 65535) :
    gapEndsOk (l ++ [65535]) = true := by
  simp only [gapEndsOk, Bool.and_eq_true, decide_eq_true_eq]
  exact ⟨risesNat_append l 0 65535 h ht (by omega), by simp⟩

theorem gapContent_ok {start : Bool} {es : List Nat} (h : gapEndsOk es = true) :
    gapContent start es = some (gapRuns start 0 es) := by
  rw [gapContent, if_pos h]

theorem headedOperand_ok (head : U16) {l : List Nat} (idx : Option (List U16))
    (h : risesNat 0 l = true) (ht : ∀ x ∈ l, x < 65535) :
    headedOperand head l idx =
      some
        { content := gapRuns (head.getLsbD 0) 0 (l ++ [65535])
          headed := some (head.getLsbD 0, l ++ [65535])
          idx := idx } := by
  simp only [headedOperand, gapStart, gapContent_ok (gapEndsOk_append h ht)]

/-- The terminal endpoint flips nothing inside the block. -/
theorem gapBit_append (start : Bool) (l : List Nat) {p : Nat} (hp : p < 65536) :
    gapBit start (l ++ [65535]) p = gapBit start l p := by
  rw [gapBit, gapBit, List.filter_append, List.filter_cons_of_neg (by simp; omega), List.filter_nil,
    List.append_nil]

theorem getLsbD_headed (start : Bool) {l : List Nat} (h : risesNat 0 l = true)
    (ht : ∀ x ∈ l, x < 65535) {p : Nat} (hp : p < 65536) :
    (gapRuns start 0 (l ++ [65535])).getLsbD p = gapBit start l p := by
  rw [getLsbD_gap (gapEndsOk_append h ht) hp, gapBit_append start l hp]

theorem risesNat_of_risesFrom {lo : Nat} {xs : List U16} (h : risesFrom lo xs = true) :
    risesNat lo (xs.map BitVec.toNat) = true := by
  induction xs generalizing lo with
  | nil => rfl
  | cons x r ih =>
    simp only [risesFrom, Bool.and_eq_true, decide_eq_true_eq] at h
    simp only [List.map_cons, risesNat, Bool.and_eq_true, decide_eq_true_eq]
    exact ⟨h.1, ih h.2⟩

theorem risesFrom_mem {lo : Nat} {xs : List U16} (h : risesFrom lo xs = true) :
    ∀ x ∈ xs, lo ≤ x.toNat := by
  intro x hx
  exact (pairwise_of_risesNat (risesNat_of_risesFrom h)).2 x.toNat (List.mem_map_of_mem hx)

/-- The GAP of a GAP-headed token is legal and is its content. -/
theorem headed_ok {i : Instr} {b : BlockOperand} (h : tokenOperand i = some b) {start : Bool}
    {es : List Nat} (hh : b.headed = some (start, es)) :
    gapEndsOk es = true ∧ b.content = gapRuns start 0 es := by
  have key : ∀ (head : U16) (l : List Nat) (idx : Option (List U16)),
      headedOperand head l idx = some b →
        gapEndsOk es = true ∧ b.content = gapRuns start 0 es := by
    intro head l idx hl
    simp only [headedOperand, gapContent] at hl
    split at hl
    · rename_i c hc
      split at hc
      · rename_i hok
        cases hc
        cases hl
        cases hh
        exact ⟨hok, rfl⟩
      · cases hc
    · cases hl
  have none_of : ∀ {P : Prop} [Decidable P] {x : BlockOperand},
      (if P then some x else none) = some b → b = x := by
    intro P _ x hx
    split at hx
    · exact (Option.some.inj hx).symm
    · cases hx
  cases i
  case gap head ends =>
    simp only [tokenOperand, gapOperand] at h
    split at h
    · exact key _ _ _ h
    · cases h
  case gapEgamma head gs =>
    simp only [tokenOperand, gapEgammaOperand] at h
    split at h
    · exact key _ _ _ h
    · cases h
  case gapBienc head mn ends =>
    simp only [tokenOperand, gapBiencOperand] at h
    split at h
    · exact key _ _ _ h
    · cases h
  case bitgapBienc start sz mn ends =>
    simp only [tokenOperand, bitgapBiencOperand] at h
    split at h
    · split at h
      · cases h
        cases hh
      · cases h
    · cases h
  case bit1bit => cases h; cases hh
  all_goals first
    | (cases h)
    | (rw [none_of h] at hh; cases hh)

/-! ### Bit forms -/

theorem runWords_length (nz : Bool) (left : Nat) (runs : List (U16 × List U32))
    (h : runsOk nz left runs = true) : (runWords nz runs).length = left := by
  induction runs generalizing nz left with
  | nil => simpa [runsOk, runWords, eq_comm] using h
  | cons r rs ih =>
    obtain ⟨len, ws⟩ := r
    simp only [runsOk, Bool.and_eq_true, decide_eq_true_eq] at h
    rw [runWords, List.length_append, ih _ _ h.2]
    cases nz
    · simp only [if_neg Bool.false_ne_true, List.length_replicate]
      omega
    · simp only [if_true] at h ⊢
      omega

theorem getD_append_word (a b : List U32) (i : Nat) :
    (a ++ b).getD i 0 = if i < a.length then a.getD i 0 else b.getD (i - a.length) 0 := by
  split
  · rename_i h
    exact List.getD_append _ _ _ _ h
  · rename_i h
    exact List.getD_append_right _ _ _ _ (by omega)

theorem getD_replicate_zero (n i : Nat) : (List.replicate n (0 : U32)).getD i 0 = 0 := by
  rw [List.getD_eq_getElem?_getD, List.getElem?_replicate]
  split <;> rfl

theorem getD_nil_word (i : Nat) : ([] : List U32).getD i 0 = 0 := by
  rw [List.getD_eq_getElem?_getD]
  rfl

theorem getD_beyond {l : List U32} {i : Nat} (h : l.length ≤ i) : l.getD i 0 = 0 :=
  List.getD_eq_default _ _ h

theorem zero_word_bit (k : Nat) : (0 : U32).getLsbD k = false := BitVec.getLsbD_zero

theorem getLsbD_runsContent (nz : Bool) (left k : Nat) (runs : List (U16 × List U32))
    (h : runsOk nz left runs = true) {p : Nat} (hp : p < 65536) :
    (runsContent k runs).getLsbD p =
      (decide (32 * k ≤ p) && ((runWords nz runs).getD (p / 32 - k) 0).getLsbD (p % 32)) := by
  induction runs generalizing nz left k with
  | nil => rw [runsContent, runWords, getD_nil_word, zero_word_bit, or_getLsbD_zero, Bool.and_false]
  | cons r rs ih =>
    obtain ⟨len, ws⟩ := r
    simp only [runsOk, Bool.and_eq_true, decide_eq_true_eq] at h
    rw [runsContent, BitVec.getLsbD_or, getLsbD_contentOfWords k ws hp, ih _ _ _ h.2, runWords,
      getD_append_word]
    have hlen : (if nz = true then ws else List.replicate len.toNat 0).length = len.toNat := by
      cases nz
      · simp
      · simpa using h.1.2
    rw [hlen]
    have hget : ∀ i, (if nz = true then ws else List.replicate len.toNat (0 : U32)).getD i 0 =
        ws.getD i 0 := by
      intro i
      cases nz
      · rw [if_neg Bool.false_ne_true, getD_replicate_zero]
        have hw : ws.length = 0 := by simpa using h.1.2
        rw [List.length_eq_zero_iff.1 hw, getD_nil_word]
      · rw [if_pos rfl]
    have hws : ∀ i, len.toNat ≤ i → ws.getD i 0 = 0 := by
      intro i hi
      refine getD_beyond ?_
      have hl := h.1.2
      cases nz
      · rw [if_neg Bool.false_ne_true] at hl
        omega
      · rw [if_pos rfl] at hl
        omega
    by_cases hk : 32 * k ≤ p
    · by_cases hi : p / 32 - k < len.toNat
      · have : ¬ 32 * (k + len.toNat) ≤ p := by omega
        rw [if_pos hi, hget]
        simp [hk, this]
      · have h1 : 32 * (k + len.toNat) ≤ p := by omega
        rw [if_neg hi, hws _ (by omega), zero_word_bit,
          show p / 32 - (k + len.toNat) = p / 32 - k - len.toNat by omega]
        simp [hk, h1]
    · have : ¬ 32 * (k + len.toNat) ≤ p := by omega
      simp [hk, this]

/-- The waves from `j` on that a digest flags. -/
theorem digestList_step (d : U64) (n j : Nat) :
    ((List.range (n + 1)).map (fun k => j + k)).filter (fun k => d.getLsbD k) =
      (if d.getLsbD j then [j] else []) ++
        ((List.range n).map (fun k => j + 1 + k)).filter (fun k => d.getLsbD k) := by
  rw [List.range_succ_eq_map, List.map_cons, List.map_map, List.filter_cons]
  have : List.map ((fun k => j + k) ∘ Nat.succ) (List.range n) =
      List.map (fun k => j + 1 + k) (List.range n) :=
    List.map_congr_left fun k _ => by simp only [Function.comp]; omega
  rw [this, Nat.add_zero]
  cases d.getLsbD j <;> rfl

theorem length_waveWords (d : U64) (ws : List U32) (j n : Nat)
    (h : ws.length =
      32 * (((List.range n).map (fun k => j + k)).filter (fun k => d.getLsbD k)).length) :
    (waveWords d ws j n).length = 32 * n := by
  induction n generalizing ws j with
  | zero => rfl
  | succ n ih =>
    rw [digestList_step] at h
    rw [waveWords]
    cases hd : d.getLsbD j
    · rw [hd] at h
      simp only [if_neg Bool.false_ne_true, List.nil_append] at h ⊢
      rw [List.length_append, List.length_replicate, ih _ _ h]
      omega
    · rw [hd] at h
      simp only [if_true, List.singleton_append, List.length_cons] at h ⊢
      rw [List.length_append, List.length_take, ih _ _ (by rw [List.length_drop]; omega)]
      omega

theorem getLsbD_wavesContent (d : U64) (ws : List U32) (j n : Nat)
    (h : ws.length =
      32 * (((List.range n).map (fun k => j + k)).filter (fun k => d.getLsbD k)).length)
    {p : Nat} (hp : p < 65536) :
    (wavesContent (((List.range n).map (fun k => j + k)).filter (fun k => d.getLsbD k)) ws).getLsbD p =
      (decide (1024 * j ≤ p) && ((waveWords d ws j n).getD (p / 32 - 32 * j) 0).getLsbD (p % 32)) := by
  induction n generalizing ws j with
  | zero =>
    show (0 : Content).getLsbD p = _
    rw [waveWords, getD_nil_word, zero_word_bit, or_getLsbD_zero, Bool.and_false]
  | succ n ih =>
    rw [digestList_step] at h ⊢
    rw [waveWords]
    cases hd : d.getLsbD j
    · rw [hd] at h
      simp only [if_neg Bool.false_ne_true, List.nil_append] at h ⊢
      rw [ih _ _ h, getD_append_word, List.length_replicate, getD_replicate_zero]
      by_cases hj : 1024 * j ≤ p
      · by_cases hi : p / 32 - 32 * j < 32
        · have : ¬ 1024 * (j + 1) ≤ p := by omega
          rw [if_pos hi, zero_word_bit]
          simp [this]
        · have h1 : 1024 * (j + 1) ≤ p := by omega
          rw [if_neg hi, show p / 32 - 32 * (j + 1) = p / 32 - 32 * j - 32 by omega]
          simp [hj, h1]
      · have : ¬ 1024 * (j + 1) ≤ p := by omega
        simp [hj, this]
    · rw [hd] at h
      simp only [if_true, List.singleton_append, List.length_cons] at h ⊢
      rw [wavesContent, BitVec.getLsbD_or, getLsbD_contentOfWords _ _ hp,
        ih _ _ (by rw [List.length_drop]; omega), getD_append_word, List.length_take,
        Nat.min_eq_left (by omega : 32 ≤ ws.length)]
      by_cases hj : 1024 * j ≤ p
      · by_cases hi : p / 32 - 32 * j < 32
        · have h1 : ¬ 1024 * (j + 1) ≤ p := by omega
          have h2 : 32 * (32 * j) ≤ p := by omega
          rw [if_pos hi]
          simp [hj, h1, h2]
        · have h1 : 1024 * (j + 1) ≤ p := by omega
          have h2 : (ws.take 32).getD (p / 32 - 32 * j) 0 = 0 :=
            getD_beyond (by rw [List.length_take]; omega)
          rw [if_neg hi, h2, zero_word_bit,
            show p / 32 - 32 * (j + 1) = p / 32 - 32 * j - 32 by omega]
          simp [hj, h1]
      · have h1 : ¬ 1024 * (j + 1) ≤ p := by omega
        have h2 : ¬ 32 * (32 * j) ≤ p := by omega
        simp [hj, h1, h2]

theorem digestList_eq (d : U64) :
    digestList d = ((List.range 64).map (fun k => 0 + k)).filter (fun k => d.getLsbD k) := by
  rw [digestList]
  congr 1

/-! ### In-place merges -/

/-- ORing wave by wave is ORing the token's content. -/
theorem orWaves_content (js : List Nat) (ws : List U32) (r : Content × Bool) :
    (orWaves js ws r).1 = r.1 ||| wavesContent js ws := by
  induction js generalizing ws r with
  | nil =>
    show r.1 = r.1 ||| Content.zero
    rw [Content.or_zero]
  | cons j r' ih =>
    rw [orWaves, ih, wavesContent, fusedOr, BitVec.or_assoc]

/-- A `get_u32_OR` pass over a whole block sets ALLONE exactly when the block becomes ONES (20_memory.md
rule R69). -/
theorem orAllone_eq (w : Content) {ws : List U32} (h : ws.length = 2048) :
    orAllone w 0 ws = decide (w ||| contentOfWords 0 ws = Content.ones) := by
  rw [orAllone, fusedOr]
  dsimp only
  refine Bool.eq_iff_iff.2 ?_
  rw [List.all_eq_true, decide_eq_true_eq, h]
  generalize w ||| contentOfWords 0 ws = c
  have hmem : ∀ k, k < 2048 → wordAt c k ∈ wordsFrom c 0 2048 := by
    intro k hk
    have h1 := getD_wordsFrom c 0 2048 k
    rw [if_pos hk, Nat.zero_add, List.getD_eq_getElem?_getD,
      List.getElem?_eq_getElem (by rw [length_wordsFrom]; exact hk), Option.getD_some] at h1
    rw [← h1]
    exact List.getElem_mem _
  constructor
  · intro hall
    refine BitVec.eq_of_getLsbD_eq fun p hp => ?_
    rw [Content.getLsbD_ones hp]
    have h2 : wordAt c (p / 32) = 0xFFFFFFFF#32 := by
      simpa using hall _ (hmem (p / 32) (by omega))
    have h3 := getLsbD_wordAt c (p / 32) (Nat.mod_lt p (by omega : 0 < 32))
    rw [show 32 * (p / 32) + p % 32 = p by omega, h2] at h3
    rw [← h3, show 0xFFFFFFFF#32 = BitVec.allOnes 32 from rfl, BitVec.getLsbD_allOnes]
    exact decide_eq_true (Nat.mod_lt p (by omega))
  · rintro rfl x hx
    obtain ⟨k, hk, rfl⟩ := List.getElem_of_mem hx
    rw [length_wordsFrom] at hk
    have h1 := getD_wordsFrom Content.ones 0 2048 k
    rw [if_pos hk, Nat.zero_add, List.getD_eq_getElem?_getD,
      List.getElem?_eq_getElem (by rw [length_wordsFrom]; exact hk), Option.getD_some] at h1
    rw [h1, decide_eq_true_eq]
    refine BitVec.eq_of_getLsbD_eq fun b hb => ?_
    rw [getLsbD_wordAt _ _ hb, Content.getLsbD_ones (by omega),
      show 0xFFFFFFFF#32 = BitVec.allOnes 32 from rfl, BitVec.getLsbD_allOnes]
    exact (decide_eq_true hb).symm

end Sys2Proof.Machine
end

