-- ==== Sys2Proof/Laws/PerInstr.lean ====
section
/-! SUPPORT. One statement about every instruction as syntax, proved constructor by constructor: which
tag bytes 30_encoding.md rules R110, R111 and R152 give the tokens. -/

namespace Sys2Proof.Laws.TagRange

open Sys2Proof.Machine

/-- A well-formed token's first byte is its tag; it is one of 0..34 or the shortcut, or the token is
reserved (rules R110, R111, R152). -/
def Statement (i : Instr) : Prop :=
  i.isToken = true → i.wf = true →
    (encode i).head? = some i.tag ∧
      (i.tag.toNat ≤ 34 ∨ 128 ≤ i.tag.toNat ∨ (isReserved i = true ∧ 35 ≤ i.tag.toNat))

theorem endOfStream : Statement .endOfStream := fun _ _ => ⟨rfl, .inl (Nat.le_of_ble_eq_true rfl)⟩

theorem zero1 : Statement .zero1 := fun _ _ => ⟨rfl, .inl (Nat.le_of_ble_eq_true rfl)⟩

theorem one1 : Statement .one1 := fun _ _ => ⟨rfl, .inl (Nat.le_of_ble_eq_true rfl)⟩

theorem zero8 (n : Byte) : Statement (.zero8 n) := fun _ _ => ⟨rfl, .inl (Nat.le_of_ble_eq_true rfl)⟩

theorem one8 (n : Byte) : Statement (.one8 n) := fun _ _ => ⟨rfl, .inl (Nat.le_of_ble_eq_true rfl)⟩

theorem zero16 (n : U16) : Statement (.zero16 n) := fun _ _ => ⟨rfl, .inl (Nat.le_of_ble_eq_true rfl)⟩

theorem one16 (n : U16) : Statement (.one16 n) := fun _ _ => ⟨rfl, .inl (Nat.le_of_ble_eq_true rfl)⟩

theorem zero32 (n : U32) : Statement (.zero32 n) := fun _ _ => ⟨rfl, .inl (Nat.le_of_ble_eq_true rfl)⟩

theorem one32 (n : U32) : Statement (.one32 n) := fun _ _ => ⟨rfl, .inl (Nat.le_of_ble_eq_true rfl)⟩

theorem azero : Statement .azero := fun _ _ => ⟨rfl, .inl (Nat.le_of_ble_eq_true rfl)⟩

theorem aone : Statement .aone := fun _ _ => ⟨rfl, .inl (Nat.le_of_ble_eq_true rfl)⟩

theorem bit (words : List U32) : Statement (.bit words) := fun _ _ => ⟨rfl, .inl (Nat.le_of_ble_eq_true rfl)⟩

theorem sgapbit : Statement .sgapbit := fun _ _ => ⟨rfl, .inl (Nat.le_of_ble_eq_true rfl)⟩

theorem sgapgap : Statement .sgapgap := fun _ _ => ⟨rfl, .inl (Nat.le_of_ble_eq_true rfl)⟩

theorem gap (head : U16) (ends : List U16) : Statement (.gap head ends) := fun _ _ => ⟨rfl, .inl (Nat.le_of_ble_eq_true rfl)⟩

theorem gapbit : Statement .gapbit := fun _ _ => ⟨rfl, .inl (Nat.le_of_ble_eq_true rfl)⟩

theorem arrbit (idx : List U16) : Statement (.arrbit idx) := fun _ _ => ⟨rfl, .inl (Nat.le_of_ble_eq_true rfl)⟩

theorem bitInterval (head tail : U16) (words : List U32) : Statement (.bitInterval head tail words) := fun _ _ => ⟨rfl, .inl (Nat.le_of_ble_eq_true rfl)⟩

theorem arrgap (idx : List U16) : Statement (.arrgap idx) := fun _ _ => ⟨rfl, .inl (Nat.le_of_ble_eq_true rfl)⟩

theorem bit1bit (pos : U16) : Statement (.bit1bit pos) := fun _ _ => ⟨rfl, .inl (Nat.le_of_ble_eq_true rfl)⟩

theorem gapEgamma (head : U16) (gammas : List U32) : Statement (.gapEgamma head gammas) := fun _ _ => ⟨rfl, .inl (Nat.le_of_ble_eq_true rfl)⟩

theorem arrgapEgamma (n : U32) (gammas : List U32) : Statement (.arrgapEgamma n gammas) := fun _ _ => ⟨rfl, .inl (Nat.le_of_ble_eq_true rfl)⟩

theorem arrgapEgammaInv (n : U32) (gammas : List U32) : Statement (.arrgapEgammaInv n gammas) := fun _ _ => ⟨rfl, .inl (Nat.le_of_ble_eq_true rfl)⟩

theorem arrgapInv (idx : List U16) : Statement (.arrgapInv idx) := fun _ _ => ⟨rfl, .inl (Nat.le_of_ble_eq_true rfl)⟩

theorem zero64 (n : U64) : Statement (.zero64 n) := fun _ _ => ⟨rfl, .inl (Nat.le_of_ble_eq_true rfl)⟩

theorem one64 (n : U64) : Statement (.one64 n) := fun _ _ => ⟨rfl, .inl (Nat.le_of_ble_eq_true rfl)⟩

theorem gapBienc (head min : U16) (ends : List U16) : Statement (.gapBienc head min ends) := fun _ _ => ⟨rfl, .inl (Nat.le_of_ble_eq_true rfl)⟩

theorem arrgapBienc (min max : U16) (n4 : U32) (inner : List U16) : Statement (.arrgapBienc min max n4 inner) := fun _ _ => ⟨rfl, .inl (Nat.le_of_ble_eq_true rfl)⟩

theorem arrgapBiencInv (min max : U16) (n4 : U32) (inner : List U16) : Statement (.arrgapBiencInv min max n4 inner) := fun _ _ => ⟨rfl, .inl (Nat.le_of_ble_eq_true rfl)⟩

theorem arrbitInv (idx : List U16) : Statement (.arrbitInv idx) := fun _ _ => ⟨rfl, .inl (Nat.le_of_ble_eq_true rfl)⟩

theorem arrBienc (min max sz : U16) (inner : List U16) : Statement (.arrBienc min max sz inner) := fun _ _ => ⟨rfl, .inl (Nat.le_of_ble_eq_true rfl)⟩

theorem arrBiencInv (min max sz : U16) (inner : List U16) : Statement (.arrBiencInv min max sz inner) := fun _ _ => ⟨rfl, .inl (Nat.le_of_ble_eq_true rfl)⟩

theorem bitgapBienc (start : Byte) (sz min : U16) (ends : List U16) : Statement (.bitgapBienc start sz min ends) := fun _ _ => ⟨rfl, .inl (Nat.le_of_ble_eq_true rfl)⟩

theorem bitDigest0 (digest : U64) (words : List U32) : Statement (.bitDigest0 digest words) := fun _ _ => ⟨rfl, .inl (Nat.le_of_ble_eq_true rfl)⟩

theorem zskip (n : BitVec 7) : Statement (.zskip n) := fun _ _ =>
  ⟨rfl, .inr (.inl (by
    show 128 ≤ (0x80#8 ||| n.setWidth 8).toNat
    revert n
    decide))⟩

theorem unassigned (tag : Byte) : Statement (.unassigned tag) := fun _ h =>
  ⟨rfl, .inr (.inr ⟨rfl, of_decide_eq_true (Bool.and_eq_true _ _ ▸ h : _ ∧ _).1⟩)⟩

theorem streamHeader (h : Header) : Statement (.streamHeader h) := fun h => Bool.noConfusion h

theorem serialize : Statement .serialize := fun h => Bool.noConfusion h

theorem serializeDestroy : Statement .serializeDestroy := fun h => Bool.noConfusion h

theorem deserialize : Statement .deserialize := fun h => Bool.noConfusion h

theorem opDeserialize : Statement .opDeserialize := fun h => Bool.noConfusion h

theorem rangeDeserialize : Statement .rangeDeserialize := fun h => Bool.noConfusion h

end Sys2Proof.Laws.TagRange
end

