-- ==== Sys2Proof/Laws/Scratch.lean ====
section
/-! SUPPORT. What IDX_ARR holds after a load, what the fused read forms do, and when the BIC decoder
faults, said once. -/

namespace Sys2Proof.Machine

/-! ### The scratch arrays -/

/-- Without the zeros at its end an array has the same elements. -/
theorem getD_trimZeros (l : List U16) (i : Nat) : (trimZeros l).getD i 0 = l.getD i 0 := by
  induction l generalizing i with
  | nil => rfl
  | cons x xs ih =>
    rw [trimZeros]
    cases h : trimZeros xs with
    | nil =>
      rw [h] at ih
      dsimp only
      split
      · subst x
        cases i with
        | zero => rfl
        | succ i => simpa using ih i
      · cases i with
        | zero => rfl
        | succ i => simpa using ih i
    | cons y ys =>
      rw [h] at ih
      cases i with
      | zero => rfl
      | succ i => simpa using ih i

theorem length_trimZeros (l : List U16) : (trimZeros l).length ≤ l.length := by
  induction l with
  | nil => exact Nat.le_refl 0
  | cons x xs ih =>
    rw [trimZeros]
    cases h : trimZeros xs with
    | nil => dsimp only; split <;> simp
    | cons y ys =>
      rw [h] at ih
      simpa using ih

theorem getLast_trimZeros (l : List U16) : (trimZeros l).getLast? ≠ some 0 := by
  induction l with
  | nil => simp [trimZeros]
  | cons x xs ih =>
    rw [trimZeros]
    cases h : trimZeros xs with
    | nil =>
      dsimp only
      split
      · simp
      · simpa using ‹¬ x = 0›
    | cons y ys =>
      rw [h] at ih
      simpa using ih

/-- IDX_ARR after a load: the loaded elements, every later one as it was (10_state.md rule R48). -/
theorem getD_loadArr (xs arr : List U16) {i : Nat} (hi : i < 65536) :
    (loadArr xs arr).getD i 0 = if i < xs.length then xs.getD i 0 else arr.getD i 0 := by
  rw [loadArr, getD_trimZeros, List.getD_eq_getElem?_getD, List.getElem?_take_of_lt hi,
    List.getElem?_append]
  split
  · rfl
  · rename_i h
    rw [List.getElem?_drop, Nat.add_sub_of_le (by omega)]
    rfl

/-- A load keeps the canonical form of IDX_ARR. -/
theorem canon_loadArr (xs arr : List U16) :
    (loadArr xs arr).length ≤ 65536 ∧ (loadArr xs arr).getLast? ≠ some 0 :=
  ⟨Nat.le_trans (length_trimZeros _) (List.length_take_le _ _), getLast_trimZeros _⟩

/-! ### The fused read forms (20_memory.md rule R69) -/

theorem getU32Or_some {s : State} {c : Content} {k n : Nat} {ws : List U32} {t : Stream}
    (h : getU32Array n s.stream = .ok ws t) :
    getU32Or (some c) k n s =
      .ok (some (fusedOr c k ws).1) { s with stream := t, allone := orAllone c k ws } := by
  simp [getU32Or, run_bind, run_map, run_onStream_ok h]

theorem getU32And_some {s : State} {c : Content} {k n : Nat} {ws : List U32} {t : Stream}
    (h : getU32Array n s.stream = .ok ws t) :
    getU32And (some c) k n s = .ok (some (fusedAnd c k ws)) { s with stream := t } := by
  simp [getU32And, run_bind, run_onStream_ok h]

theorem getU32Or_none {s : State} {k n : Nat} (h : s.stream.pos + 4 * n ≤ s.stream.bufSize.toNat) :
    getU32Or none k n s =
      .ok none
        { s with stream := { s.stream with pos := s.stream.pos + 4 * n }, allone := false } := by
  have hs : seek (4 * n) s.stream = .ok () { s.stream with pos := s.stream.pos + 4 * n } := by
    simp [seek, run_bind, Nat.not_lt.2 h]
  simp [getU32Or, run_bind, run_map, run_onStream_ok hs]

theorem getU32And_none {s : State} {k n : Nat} (h : s.stream.pos + 4 * n ≤ s.stream.bufSize.toNat) :
    getU32And none k n s =
      .ok none { s with stream := { s.stream with pos := s.stream.pos + 4 * n } } := by
  have hs : seek (4 * n) s.stream = .ok () { s.stream with pos := s.stream.pos + 4 * n } := by
    simp [seek, run_bind, Nat.not_lt.2 h]
  simp [getU32And, run_bind, run_onStream_ok hs]

/-- The words of a `get_u32_AND` pass are ANDed, every other bit is as it was. -/
theorem getLsbD_fusedAnd (c : Content) {k : Nat} {ws : List U32} (hk : k + ws.length ≤ 2048) {p : Nat}
    (hp : p < 65536) :
    (fusedAnd c k ws).getLsbD p =
      (c.getLsbD p &&
        (!decide (32 * k ≤ p ∧ p < 32 * (k + ws.length)) ||
          (decide (32 * k ≤ p) && (ws.getD (p / 32 - k) 0).getLsbD (p % 32)))) := by
  rw [fusedAnd, BitVec.getLsbD_and, BitVec.getLsbD_or, getLsbD_contentOfWords k ws hp,
    BitVec.getLsbD_not, getLsbD_maskRange (by omega), decide_eq_true hp, Bool.true_and, Bool.or_comm]

/-! ### BIC decoding with its own fault (40_bitcodec.md rules R182 to R184) -/

theorem bicDecodeU16_fits {sz lo hi : Nat} (h : lo + sz ≤ hi + 1) :
    bicDecodeU16 sz lo hi = bicDecode sz lo hi := by
  rw [bicDecode, if_neg (by omega), bicDecodeU16]

theorem bicDecodeU16_malformed {sz lo hi : Nat} (h0 : 0 < sz) (h : hi + 1 < lo + sz) (c : Stream) :
    bicDecodeU16 sz lo hi c = .error (.precondition .malformed) c := by
  obtain ⟨n, rfl⟩ : ∃ n, sz = n + 1 := ⟨sz - 1, by omega⟩
  rw [bicDecodeU16, bicDecodeFuel, if_neg (by omega)]
  simp [h, run_bind]

end Sys2Proof.Machine
end

