-- ==== Sys2Proof/Laws/Sequencer.lean ====
section
/-! SUPPORT. What one step does, case by case (10_state.md rule R20, 43_block_decoder.md rule R300,
45_operation_engine.md rule R431, 46_host_commands.md rule R491). -/

namespace Sys2Proof.Machine

/-- With nothing pending from the host the engine makes a step. -/
theorem step_engine {s : State} (h : s.host = []) : step s = engineStep s := by
  rw [step, advance, h]

/-- A pending host event other than `await` is the host's. -/
theorem step_host {s : State} {e : HostEvent} {rest : List HostEvent} (h : s.host = e :: rest)
    (he : e ≠ .await) : step s = hostStep e { s with host := rest } := by
  rw [step, advance, h]
  exact if_neg fun h2 => he h2.1

/-- Without a running command the engine does nothing. -/
theorem engineStep_idle {s : State} (h : s.runState ≠ .busy) : engineStep s = .next s := by
  rw [engineStep, if_pos h]

/-- Between two tokens of either walk, with the walk not at its end, the step fetches a token. -/
theorem step_token {s : State} (hh : s.host = [])
    (h : Merging s ∨ (Operating s ∧ exitsNow s = false)) (hn : s.nb < s.params.totalBlocks) :
    step s = tokenStep s := by
  rw [step_engine hh, engineStep]
  rcases h with ⟨h1, h2, h3, h4⟩ | ⟨⟨h1, h2, h3, h4, h5⟩, h6⟩
  · rw [if_neg (by simp [h1]), h2]
    dsimp only
    rw [if_pos h4, mergeStep, if_neg (by simp [h3]; omega)]
  · rw [if_neg (by simp [h1]), h2]
    dsimp only
    rw [if_neg (by rcases h4 with h | h <;> simp [h]), operateStep, if_neg (by simp [h3]),
      if_neg (by simp [h6]), if_neg (by omega)]

/-- A running command that expects its header fetches it. -/
theorem step_header {s : State} (hh : s.host = []) (hb : s.runState = .busy)
    (hp : s.phase = .header) : step s = headerStep s := by
  rw [step_engine hh, engineStep, if_neg (by simp [hb]), hp]

/-- An id list is one step. -/
theorem step_ids {s : State} (hh : s.host = []) (hb : s.runState = .busy)
    (hp : s.phase = .ids) : step s = idStep s := by
  rw [step_engine hh, engineStep, if_neg (by simp [hb]), hp]

/-- The walk of a DESERIALIZE takes a turn. -/
theorem step_merge {s : State} (hh : s.host = []) (hb : s.runState = .busy)
    (hp : s.phase = .tokens) (hc : s.cmd = 3) : step s = mergeStep s := by
  rw [step_engine hh, engineStep, if_neg (by simp [hb]), hp]
  dsimp only
  rw [if_pos hc]

/-- The walk of an operation takes a turn. -/
theorem step_operate {s : State} (hh : s.host = []) (hb : s.runState = .busy)
    (hp : s.phase = .tokens) (hc : s.cmd ≠ 3) : step s = operateStep s := by
  rw [step_engine hh, engineStep, if_neg (by simp [hb]), hp]
  dsimp only
  rw [if_neg hc]

/-- A token that decodes is executed with BLOCK_TYPE holding its tag byte (rules R300, R373). -/
theorem tokenStep_ok {s : State} {i : Instr} {c : Stream} (h : decodeToken s.stream = .ok i c) :
    tokenStep s = exec i { s with blockType := s.stream.buf.read s.stream.pos, stream := c } := by
  have hp : s.stream.pos < s.stream.bufSize.toNat := by
    by_contra hn
    rw [decodeToken, run_bind, run_getU8, if_pos (by omega)] at h
    cases h
  rw [tokenStep, fetchThen, latchTag, if_pos hp, show
    ({ s with blockType := s.stream.buf.read s.stream.pos } : State).stream = s.stream from rfl, h]

/-- A token that does not decode is a stream that ends too early: the error is taken. -/
theorem tokenStep_error {s : State} {e : Raise} {c : Stream} (h : decodeToken s.stream = .error e c) :
    e = .precondition .buffer ∧
      ∃ bt, tokenStep s =
        .next (takeError (.precondition .buffer) { s with blockType := bt, stream := c }) := by
  have hr := reads_decodeToken s.stream
  rw [h] at hr
  obtain ⟨he, -, -⟩ := hr
  refine ⟨he, ?_⟩
  subst he
  rw [tokenStep, fetchThen, latchTag]
  by_cases hp : s.stream.pos < s.stream.bufSize.toNat
  · rw [if_pos hp, show
      ({ s with blockType := s.stream.buf.read s.stream.pos } : State).stream = s.stream from rfl, h]
    exact ⟨_, rfl⟩
  · rw [if_neg hp, h]
    exact ⟨s.blockType, rfl⟩

end Sys2Proof.Machine
end

