-- ==== Sys2Proof/Laws/State.lean ====
section
/-! SUPPORT. One lemma for each field of each named update of State. -/

namespace Sys2Proof.Machine

@[simp] theorem setEos_params (s : State) : (setEos s).params = s.params := rfl
@[simp] theorem setEos_stream (s : State) : (setEos s).stream = s.stream := rfl
@[simp] theorem setEos_cfg (s : State) : (setEos s).cfg = s.cfg := rfl
@[simp] theorem setEos_cmd (s : State) : (setEos s).cmd = s.cmd := rfl
@[simp] theorem setEos_op (s : State) : (setEos s).op = s.op := rfl
@[simp] theorem setEos_rangeFrom (s : State) : (setEos s).rangeFrom = s.rangeFrom := rfl
@[simp] theorem setEos_rangeTo (s : State) : (setEos s).rangeTo = s.rangeTo := rfl
@[simp] theorem setEos_runState (s : State) : (setEos s).runState = s.runState := rfl
@[simp] theorem setEos_err (s : State) : (setEos s).err = s.err := rfl
@[simp] theorem setEos_cause (s : State) : (setEos s).cause = s.cause := rfl
@[simp] theorem setEos_resultBytes (s : State) : (setEos s).resultBytes = s.resultBytes := rfl
@[simp] theorem setEos_resultCount (s : State) : (setEos s).resultCount = s.resultCount := rfl
@[simp] theorem setEos_nb (s : State) : (setEos s).nb = s.nb := rfl
@[simp] theorem setEos_st (s : State) : (setEos s).st = s.st := rfl
@[simp] theorem setEos_blockType (s : State) : (setEos s).blockType = s.blockType := rfl
@[simp] theorem setEos_monoCnt (s : State) : (setEos s).monoCnt = s.monoCnt := rfl
@[simp] theorem setEos_gapHead (s : State) : (setEos s).gapHead = s.gapHead := rfl
@[simp] theorem setEos_idCnt (s : State) : (setEos s).idCnt = s.idCnt := rfl
@[simp] theorem setEos_lastId (s : State) : (setEos s).lastId = s.lastId := rfl
@[simp] theorem setEos_count (s : State) : (setEos s).count = s.count := rfl
@[simp] theorem setEos_eop (s : State) : (setEos s).eop = s.eop := rfl
@[simp] theorem setEos_hdrFlags (s : State) : (setEos s).hdrFlags = s.hdrFlags := rfl
@[simp] theorem setEos_hdrBo (s : State) : (setEos s).hdrBo = s.hdrBo := rfl
@[simp] theorem setEos_hdrGapl (s : State) : (setEos s).hdrGapl = s.hdrGapl := rfl
@[simp] theorem setEos_hdrSize (s : State) : (setEos s).hdrSize = s.hdrSize := rfl
@[simp] theorem setEos_d0 (s : State) : (setEos s).d0 = s.d0 := rfl
@[simp] theorem setEos_bc (s : State) : (setEos s).bc = s.bc := rfl
@[simp] theorem setEos_bitGaps (s : State) : (setEos s).bitGaps = s.bitGaps := rfl
@[simp] theorem setEos_nzSize (s : State) : (setEos s).nzSize = s.nzSize := rfl
@[simp] theorem setEos_bestTag (s : State) : (setEos s).bestTag = s.bestTag := rfl
@[simp] theorem setEos_bestCost (s : State) : (setEos s).bestCost = s.bestCost := rfl
@[simp] theorem setEos_pos0 (s : State) : (setEos s).pos0 = s.pos0 := rfl
@[simp] theorem setEos_eos (s : State) : (setEos s).eos = true := rfl
@[simp] theorem setEos_allone (s : State) : (setEos s).allone = s.allone := rfl
@[simp] theorem setEos_rolled (s : State) : (setEos s).rolled = s.rolled := rfl
@[simp] theorem setEos_rangeSet (s : State) : (setEos s).rangeSet = s.rangeSet := rfl
@[simp] theorem setEos_tempBlock (s : State) : (setEos s).tempBlock = s.tempBlock := rfl
@[simp] theorem setEos_idxArr (s : State) : (setEos s).idxArr = s.idxArr := rfl
@[simp] theorem setEos_bs (s : State) : (setEos s).bs = s.bs := rfl
@[simp] theorem setEos_bsSize (s : State) : (setEos s).bsSize = s.bsSize := rfl
@[simp] theorem setEos_phase (s : State) : (setEos s).phase = s.phase := rfl
@[simp] theorem setEos_host (s : State) : (setEos s).host = s.host := rfl
@[simp] theorem setEos_hostData (s : State) : (setEos s).hostData = s.hostData := rfl
@[simp] theorem setEos_draws (s : State) : (setEos s).draws = s.draws := rfl

@[simp] theorem setRolled_params (s : State) : (setRolled s).params = s.params := rfl
@[simp] theorem setRolled_stream (s : State) : (setRolled s).stream = s.stream := rfl
@[simp] theorem setRolled_cfg (s : State) : (setRolled s).cfg = s.cfg := rfl
@[simp] theorem setRolled_cmd (s : State) : (setRolled s).cmd = s.cmd := rfl
@[simp] theorem setRolled_op (s : State) : (setRolled s).op = s.op := rfl
@[simp] theorem setRolled_rangeFrom (s : State) : (setRolled s).rangeFrom = s.rangeFrom := rfl
@[simp] theorem setRolled_rangeTo (s : State) : (setRolled s).rangeTo = s.rangeTo := rfl
@[simp] theorem setRolled_runState (s : State) : (setRolled s).runState = s.runState := rfl
@[simp] theorem setRolled_err (s : State) : (setRolled s).err = s.err := rfl
@[simp] theorem setRolled_cause (s : State) : (setRolled s).cause = s.cause := rfl
@[simp] theorem setRolled_resultBytes (s : State) : (setRolled s).resultBytes = s.resultBytes := rfl
@[simp] theorem setRolled_resultCount (s : State) : (setRolled s).resultCount = s.resultCount := rfl
@[simp] theorem setRolled_nb (s : State) : (setRolled s).nb = s.nb := rfl
@[simp] theorem setRolled_st (s : State) : (setRolled s).st = s.st := rfl
@[simp] theorem setRolled_blockType (s : State) : (setRolled s).blockType = s.blockType := rfl
@[simp] theorem setRolled_monoCnt (s : State) : (setRolled s).monoCnt = s.monoCnt := rfl
@[simp] theorem setRolled_gapHead (s : State) : (setRolled s).gapHead = s.gapHead := rfl
@[simp] theorem setRolled_idCnt (s : State) : (setRolled s).idCnt = s.idCnt := rfl
@[simp] theorem setRolled_lastId (s : State) : (setRolled s).lastId = s.lastId := rfl
@[simp] theorem setRolled_count (s : State) : (setRolled s).count = s.count := rfl
@[simp] theorem setRolled_eop (s : State) : (setRolled s).eop = s.eop := rfl
@[simp] theorem setRolled_hdrFlags (s : State) : (setRolled s).hdrFlags = s.hdrFlags := rfl
@[simp] theorem setRolled_hdrBo (s : State) : (setRolled s).hdrBo = s.hdrBo := rfl
@[simp] theorem setRolled_hdrGapl (s : State) : (setRolled s).hdrGapl = s.hdrGapl := rfl
@[simp] theorem setRolled_hdrSize (s : State) : (setRolled s).hdrSize = s.hdrSize := rfl
@[simp] theorem setRolled_d0 (s : State) : (setRolled s).d0 = s.d0 := rfl
@[simp] theorem setRolled_bc (s : State) : (setRolled s).bc = s.bc := rfl
@[simp] theorem setRolled_bitGaps (s : State) : (setRolled s).bitGaps = s.bitGaps := rfl
@[simp] theorem setRolled_nzSize (s : State) : (setRolled s).nzSize = s.nzSize := rfl
@[simp] theorem setRolled_bestTag (s : State) : (setRolled s).bestTag = s.bestTag := rfl
@[simp] theorem setRolled_bestCost (s : State) : (setRolled s).bestCost = s.bestCost := rfl
@[simp] theorem setRolled_pos0 (s : State) : (setRolled s).pos0 = s.pos0 := rfl
@[simp] theorem setRolled_eos (s : State) : (setRolled s).eos = s.eos := rfl
@[simp] theorem setRolled_allone (s : State) : (setRolled s).allone = s.allone := rfl
@[simp] theorem setRolled_rolled (s : State) : (setRolled s).rolled = true := rfl
@[simp] theorem setRolled_rangeSet (s : State) : (setRolled s).rangeSet = s.rangeSet := rfl
@[simp] theorem setRolled_tempBlock (s : State) : (setRolled s).tempBlock = s.tempBlock := rfl
@[simp] theorem setRolled_idxArr (s : State) : (setRolled s).idxArr = s.idxArr := rfl
@[simp] theorem setRolled_bs (s : State) : (setRolled s).bs = s.bs := rfl
@[simp] theorem setRolled_bsSize (s : State) : (setRolled s).bsSize = s.bsSize := rfl
@[simp] theorem setRolled_phase (s : State) : (setRolled s).phase = s.phase := rfl
@[simp] theorem setRolled_host (s : State) : (setRolled s).host = s.host := rfl
@[simp] theorem setRolled_hostData (s : State) : (setRolled s).hostData = s.hostData := rfl
@[simp] theorem setRolled_draws (s : State) : (setRolled s).draws = s.draws := rfl

@[simp] theorem clearRolled_params (s : State) : (clearRolled s).params = s.params := rfl
@[simp] theorem clearRolled_stream (s : State) : (clearRolled s).stream = s.stream := rfl
@[simp] theorem clearRolled_cfg (s : State) : (clearRolled s).cfg = s.cfg := rfl
@[simp] theorem clearRolled_cmd (s : State) : (clearRolled s).cmd = s.cmd := rfl
@[simp] theorem clearRolled_op (s : State) : (clearRolled s).op = s.op := rfl
@[simp] theorem clearRolled_rangeFrom (s : State) : (clearRolled s).rangeFrom = s.rangeFrom := rfl
@[simp] theorem clearRolled_rangeTo (s : State) : (clearRolled s).rangeTo = s.rangeTo := rfl
@[simp] theorem clearRolled_runState (s : State) : (clearRolled s).runState = s.runState := rfl
@[simp] theorem clearRolled_err (s : State) : (clearRolled s).err = s.err := rfl
@[simp] theorem clearRolled_cause (s : State) : (clearRolled s).cause = s.cause := rfl
@[simp] theorem clearRolled_resultBytes (s : State) : (clearRolled s).resultBytes = s.resultBytes := rfl
@[simp] theorem clearRolled_resultCount (s : State) : (clearRolled s).resultCount = s.resultCount := rfl
@[simp] theorem clearRolled_nb (s : State) : (clearRolled s).nb = s.nb := rfl
@[simp] theorem clearRolled_st (s : State) : (clearRolled s).st = s.st := rfl
@[simp] theorem clearRolled_blockType (s : State) : (clearRolled s).blockType = s.blockType := rfl
@[simp] theorem clearRolled_monoCnt (s : State) : (clearRolled s).monoCnt = s.monoCnt := rfl
@[simp] theorem clearRolled_gapHead (s : State) : (clearRolled s).gapHead = s.gapHead := rfl
@[simp] theorem clearRolled_idCnt (s : State) : (clearRolled s).idCnt = s.idCnt := rfl
@[simp] theorem clearRolled_lastId (s : State) : (clearRolled s).lastId = s.lastId := rfl
@[simp] theorem clearRolled_count (s : State) : (clearRolled s).count = s.count := rfl
@[simp] theorem clearRolled_eop (s : State) : (clearRolled s).eop = s.eop := rfl
@[simp] theorem clearRolled_hdrFlags (s : State) : (clearRolled s).hdrFlags = s.hdrFlags := rfl
@[simp] theorem clearRolled_hdrBo (s : State) : (clearRolled s).hdrBo = s.hdrBo := rfl
@[simp] theorem clearRolled_hdrGapl (s : State) : (clearRolled s).hdrGapl = s.hdrGapl := rfl
@[simp] theorem clearRolled_hdrSize (s : State) : (clearRolled s).hdrSize = s.hdrSize := rfl
@[simp] theorem clearRolled_d0 (s : State) : (clearRolled s).d0 = s.d0 := rfl
@[simp] theorem clearRolled_bc (s : State) : (clearRolled s).bc = s.bc := rfl
@[simp] theorem clearRolled_bitGaps (s : State) : (clearRolled s).bitGaps = s.bitGaps := rfl
@[simp] theorem clearRolled_nzSize (s : State) : (clearRolled s).nzSize = s.nzSize := rfl
@[simp] theorem clearRolled_bestTag (s : State) : (clearRolled s).bestTag = s.bestTag := rfl
@[simp] theorem clearRolled_bestCost (s : State) : (clearRolled s).bestCost = s.bestCost := rfl
@[simp] theorem clearRolled_pos0 (s : State) : (clearRolled s).pos0 = s.pos0 := rfl
@[simp] theorem clearRolled_eos (s : State) : (clearRolled s).eos = s.eos := rfl
@[simp] theorem clearRolled_allone (s : State) : (clearRolled s).allone = s.allone := rfl
@[simp] theorem clearRolled_rolled (s : State) : (clearRolled s).rolled = false := rfl
@[simp] theorem clearRolled_rangeSet (s : State) : (clearRolled s).rangeSet = s.rangeSet := rfl
@[simp] theorem clearRolled_tempBlock (s : State) : (clearRolled s).tempBlock = s.tempBlock := rfl
@[simp] theorem clearRolled_idxArr (s : State) : (clearRolled s).idxArr = s.idxArr := rfl
@[simp] theorem clearRolled_bs (s : State) : (clearRolled s).bs = s.bs := rfl
@[simp] theorem clearRolled_bsSize (s : State) : (clearRolled s).bsSize = s.bsSize := rfl
@[simp] theorem clearRolled_phase (s : State) : (clearRolled s).phase = s.phase := rfl
@[simp] theorem clearRolled_host (s : State) : (clearRolled s).host = s.host := rfl
@[simp] theorem clearRolled_hostData (s : State) : (clearRolled s).hostData = s.hostData := rfl
@[simp] theorem clearRolled_draws (s : State) : (clearRolled s).draws = s.draws := rfl

@[simp] theorem startFlags_params (r : Bool) (s : State) : (startFlags r s).params = s.params := rfl
@[simp] theorem startFlags_stream (r : Bool) (s : State) : (startFlags r s).stream = s.stream := rfl
@[simp] theorem startFlags_cfg (r : Bool) (s : State) : (startFlags r s).cfg = s.cfg := rfl
@[simp] theorem startFlags_cmd (r : Bool) (s : State) : (startFlags r s).cmd = s.cmd := rfl
@[simp] theorem startFlags_op (r : Bool) (s : State) : (startFlags r s).op = s.op := rfl
@[simp] theorem startFlags_rangeFrom (r : Bool) (s : State) : (startFlags r s).rangeFrom = s.rangeFrom := rfl
@[simp] theorem startFlags_rangeTo (r : Bool) (s : State) : (startFlags r s).rangeTo = s.rangeTo := rfl
@[simp] theorem startFlags_runState (r : Bool) (s : State) : (startFlags r s).runState = s.runState := rfl
@[simp] theorem startFlags_err (r : Bool) (s : State) : (startFlags r s).err = s.err := rfl
@[simp] theorem startFlags_cause (r : Bool) (s : State) : (startFlags r s).cause = s.cause := rfl
@[simp] theorem startFlags_resultBytes (r : Bool) (s : State) : (startFlags r s).resultBytes = s.resultBytes := rfl
@[simp] theorem startFlags_resultCount (r : Bool) (s : State) : (startFlags r s).resultCount = s.resultCount := rfl
@[simp] theorem startFlags_nb (r : Bool) (s : State) : (startFlags r s).nb = s.nb := rfl
@[simp] theorem startFlags_st (r : Bool) (s : State) : (startFlags r s).st = s.st := rfl
@[simp] theorem startFlags_blockType (r : Bool) (s : State) : (startFlags r s).blockType = s.blockType := rfl
@[simp] theorem startFlags_monoCnt (r : Bool) (s : State) : (startFlags r s).monoCnt = s.monoCnt := rfl
@[simp] theorem startFlags_gapHead (r : Bool) (s : State) : (startFlags r s).gapHead = s.gapHead := rfl
@[simp] theorem startFlags_idCnt (r : Bool) (s : State) : (startFlags r s).idCnt = s.idCnt := rfl
@[simp] theorem startFlags_lastId (r : Bool) (s : State) : (startFlags r s).lastId = s.lastId := rfl
@[simp] theorem startFlags_count (r : Bool) (s : State) : (startFlags r s).count = s.count := rfl
@[simp] theorem startFlags_eop (r : Bool) (s : State) : (startFlags r s).eop = s.eop := rfl
@[simp] theorem startFlags_hdrFlags (r : Bool) (s : State) : (startFlags r s).hdrFlags = s.hdrFlags := rfl
@[simp] theorem startFlags_hdrBo (r : Bool) (s : State) : (startFlags r s).hdrBo = s.hdrBo := rfl
@[simp] theorem startFlags_hdrGapl (r : Bool) (s : State) : (startFlags r s).hdrGapl = s.hdrGapl := rfl
@[simp] theorem startFlags_hdrSize (r : Bool) (s : State) : (startFlags r s).hdrSize = s.hdrSize := rfl
@[simp] theorem startFlags_d0 (r : Bool) (s : State) : (startFlags r s).d0 = s.d0 := rfl
@[simp] theorem startFlags_bc (r : Bool) (s : State) : (startFlags r s).bc = s.bc := rfl
@[simp] theorem startFlags_bitGaps (r : Bool) (s : State) : (startFlags r s).bitGaps = s.bitGaps := rfl
@[simp] theorem startFlags_nzSize (r : Bool) (s : State) : (startFlags r s).nzSize = s.nzSize := rfl
@[simp] theorem startFlags_bestTag (r : Bool) (s : State) : (startFlags r s).bestTag = s.bestTag := rfl
@[simp] theorem startFlags_bestCost (r : Bool) (s : State) : (startFlags r s).bestCost = s.bestCost := rfl
@[simp] theorem startFlags_pos0 (r : Bool) (s : State) : (startFlags r s).pos0 = s.pos0 := rfl
@[simp] theorem startFlags_eos (r : Bool) (s : State) : (startFlags r s).eos = false := rfl
@[simp] theorem startFlags_allone (r : Bool) (s : State) : (startFlags r s).allone = false := rfl
@[simp] theorem startFlags_rolled (r : Bool) (s : State) : (startFlags r s).rolled = false := rfl
@[simp] theorem startFlags_rangeSet (r : Bool) (s : State) : (startFlags r s).rangeSet = r := rfl
@[simp] theorem startFlags_tempBlock (r : Bool) (s : State) : (startFlags r s).tempBlock = s.tempBlock := rfl
@[simp] theorem startFlags_idxArr (r : Bool) (s : State) : (startFlags r s).idxArr = s.idxArr := rfl
@[simp] theorem startFlags_bs (r : Bool) (s : State) : (startFlags r s).bs = s.bs := rfl
@[simp] theorem startFlags_bsSize (r : Bool) (s : State) : (startFlags r s).bsSize = s.bsSize := rfl
@[simp] theorem startFlags_phase (r : Bool) (s : State) : (startFlags r s).phase = s.phase := rfl
@[simp] theorem startFlags_host (r : Bool) (s : State) : (startFlags r s).host = s.host := rfl
@[simp] theorem startFlags_hostData (r : Bool) (s : State) : (startFlags r s).hostData = s.hostData := rfl
@[simp] theorem startFlags_draws (r : Bool) (s : State) : (startFlags r s).draws = s.draws := rfl

@[simp] theorem startCommand_params (c : U64) (s : State) : (startCommand c s).params = s.params := rfl
@[simp] theorem startCommand_stream (c : U64) (s : State) : (startCommand c s).stream = { s.stream with pos := 0, sbo := true, wacc := 0, wused := 0, racc := 0, ravail := 0 } := rfl
@[simp] theorem startCommand_cfg (c : U64) (s : State) : (startCommand c s).cfg = s.cfg := rfl
@[simp] theorem startCommand_cmd (c : U64) (s : State) : (startCommand c s).cmd = c := rfl
@[simp] theorem startCommand_op (c : U64) (s : State) : (startCommand c s).op = s.op := rfl
@[simp] theorem startCommand_rangeFrom (c : U64) (s : State) : (startCommand c s).rangeFrom = s.rangeFrom := rfl
@[simp] theorem startCommand_rangeTo (c : U64) (s : State) : (startCommand c s).rangeTo = s.rangeTo := rfl
@[simp] theorem startCommand_runState (c : U64) (s : State) : (startCommand c s).runState = .busy := rfl
@[simp] theorem startCommand_err (c : U64) (s : State) : (startCommand c s).err = .none := rfl
@[simp] theorem startCommand_cause (c : U64) (s : State) : (startCommand c s).cause = 0 := rfl
@[simp] theorem startCommand_resultBytes (c : U64) (s : State) : (startCommand c s).resultBytes = s.resultBytes := rfl
@[simp] theorem startCommand_resultCount (c : U64) (s : State) : (startCommand c s).resultCount = s.resultCount := rfl
@[simp] theorem startCommand_nb (c : U64) (s : State) : (startCommand c s).nb = 0 := rfl
@[simp] theorem startCommand_st (c : U64) (s : State) : (startCommand c s).st = .unknown := rfl
@[simp] theorem startCommand_blockType (c : U64) (s : State) : (startCommand c s).blockType = s.blockType := rfl
@[simp] theorem startCommand_monoCnt (c : U64) (s : State) : (startCommand c s).monoCnt = 0 := rfl
@[simp] theorem startCommand_gapHead (c : U64) (s : State) : (startCommand c s).gapHead = s.gapHead := rfl
@[simp] theorem startCommand_idCnt (c : U64) (s : State) : (startCommand c s).idCnt = 0 := rfl
@[simp] theorem startCommand_lastId (c : U64) (s : State) : (startCommand c s).lastId = s.lastId := rfl
@[simp] theorem startCommand_count (c : U64) (s : State) : (startCommand c s).count = 0 := rfl
@[simp] theorem startCommand_eop (c : U64) (s : State) : (startCommand c s).eop = s.eop := rfl
@[simp] theorem startCommand_hdrFlags (c : U64) (s : State) : (startCommand c s).hdrFlags = s.hdrFlags := rfl
@[simp] theorem startCommand_hdrBo (c : U64) (s : State) : (startCommand c s).hdrBo = s.hdrBo := rfl
@[simp] theorem startCommand_hdrGapl (c : U64) (s : State) : (startCommand c s).hdrGapl = s.hdrGapl := rfl
@[simp] theorem startCommand_hdrSize (c : U64) (s : State) : (startCommand c s).hdrSize = s.hdrSize := rfl
@[simp] theorem startCommand_d0 (c : U64) (s : State) : (startCommand c s).d0 = s.d0 := rfl
@[simp] theorem startCommand_bc (c : U64) (s : State) : (startCommand c s).bc = s.bc := rfl
@[simp] theorem startCommand_bitGaps (c : U64) (s : State) : (startCommand c s).bitGaps = s.bitGaps := rfl
@[simp] theorem startCommand_nzSize (c : U64) (s : State) : (startCommand c s).nzSize = s.nzSize := rfl
@[simp] theorem startCommand_bestTag (c : U64) (s : State) : (startCommand c s).bestTag = s.bestTag := rfl
@[simp] theorem startCommand_bestCost (c : U64) (s : State) : (startCommand c s).bestCost = s.bestCost := rfl
@[simp] theorem startCommand_pos0 (c : U64) (s : State) : (startCommand c s).pos0 = s.pos0 := rfl
@[simp] theorem startCommand_eos (c : U64) (s : State) : (startCommand c s).eos = false := rfl
@[simp] theorem startCommand_allone (c : U64) (s : State) : (startCommand c s).allone = false := rfl
@[simp] theorem startCommand_rolled (c : U64) (s : State) : (startCommand c s).rolled = false := rfl
@[simp] theorem startCommand_rangeSet (c : U64) (s : State) : (startCommand c s).rangeSet = decide (c = 5) := rfl
@[simp] theorem startCommand_tempBlock (c : U64) (s : State) : (startCommand c s).tempBlock = s.tempBlock := rfl
@[simp] theorem startCommand_idxArr (c : U64) (s : State) : (startCommand c s).idxArr = s.idxArr := rfl
@[simp] theorem startCommand_bs (c : U64) (s : State) : (startCommand c s).bs = s.bs := rfl
@[simp] theorem startCommand_bsSize (c : U64) (s : State) : (startCommand c s).bsSize = s.bsSize := rfl
@[simp] theorem startCommand_phase (c : U64) (s : State) : (startCommand c s).phase = .idle := rfl
@[simp] theorem startCommand_host (c : U64) (s : State) : (startCommand c s).host = s.host := rfl
@[simp] theorem startCommand_hostData (c : U64) (s : State) : (startCommand c s).hostData = s.hostData := rfl
@[simp] theorem startCommand_draws (c : U64) (s : State) : (startCommand c s).draws = s.draws := rfl

@[simp] theorem errorStatus_params (e : Raise) (s : State) : (errorStatus e s).params = s.params := rfl
@[simp] theorem errorStatus_stream (e : Raise) (s : State) : (errorStatus e s).stream = s.stream := rfl
@[simp] theorem errorStatus_cfg (e : Raise) (s : State) : (errorStatus e s).cfg = s.cfg := rfl
@[simp] theorem errorStatus_cmd (e : Raise) (s : State) : (errorStatus e s).cmd = s.cmd := rfl
@[simp] theorem errorStatus_op (e : Raise) (s : State) : (errorStatus e s).op = s.op := rfl
@[simp] theorem errorStatus_rangeFrom (e : Raise) (s : State) : (errorStatus e s).rangeFrom = s.rangeFrom := rfl
@[simp] theorem errorStatus_rangeTo (e : Raise) (s : State) : (errorStatus e s).rangeTo = s.rangeTo := rfl
@[simp] theorem errorStatus_runState (e : Raise) (s : State) : (errorStatus e s).runState = .error := rfl
@[simp] theorem errorStatus_err (e : Raise) (s : State) : (errorStatus e s).err = e.kind := rfl
@[simp] theorem errorStatus_cause (e : Raise) (s : State) : (errorStatus e s).cause = (match e with | .serialFormat c => c.code | .precondition _ => Config.freeCause s.draws) := rfl
@[simp] theorem errorStatus_resultBytes (e : Raise) (s : State) : (errorStatus e s).resultBytes = Config.freeResult (s.draws + 1) := rfl
@[simp] theorem errorStatus_resultCount (e : Raise) (s : State) : (errorStatus e s).resultCount = Config.freeResult (s.draws + 2) := rfl
@[simp] theorem errorStatus_nb (e : Raise) (s : State) : (errorStatus e s).nb = s.nb := rfl
@[simp] theorem errorStatus_st (e : Raise) (s : State) : (errorStatus e s).st = s.st := rfl
@[simp] theorem errorStatus_blockType (e : Raise) (s : State) : (errorStatus e s).blockType = s.blockType := rfl
@[simp] theorem errorStatus_monoCnt (e : Raise) (s : State) : (errorStatus e s).monoCnt = s.monoCnt := rfl
@[simp] theorem errorStatus_gapHead (e : Raise) (s : State) : (errorStatus e s).gapHead = s.gapHead := rfl
@[simp] theorem errorStatus_idCnt (e : Raise) (s : State) : (errorStatus e s).idCnt = s.idCnt := rfl
@[simp] theorem errorStatus_lastId (e : Raise) (s : State) : (errorStatus e s).lastId = s.lastId := rfl
@[simp] theorem errorStatus_count (e : Raise) (s : State) : (errorStatus e s).count = s.count := rfl
@[simp] theorem errorStatus_eop (e : Raise) (s : State) : (errorStatus e s).eop = s.eop := rfl
@[simp] theorem errorStatus_hdrFlags (e : Raise) (s : State) : (errorStatus e s).hdrFlags = s.hdrFlags := rfl
@[simp] theorem errorStatus_hdrBo (e : Raise) (s : State) : (errorStatus e s).hdrBo = s.hdrBo := rfl
@[simp] theorem errorStatus_hdrGapl (e : Raise) (s : State) : (errorStatus e s).hdrGapl = s.hdrGapl := rfl
@[simp] theorem errorStatus_hdrSize (e : Raise) (s : State) : (errorStatus e s).hdrSize = s.hdrSize := rfl
@[simp] theorem errorStatus_d0 (e : Raise) (s : State) : (errorStatus e s).d0 = s.d0 := rfl
@[simp] theorem errorStatus_bc (e : Raise) (s : State) : (errorStatus e s).bc = s.bc := rfl
@[simp] theorem errorStatus_bitGaps (e : Raise) (s : State) : (errorStatus e s).bitGaps = s.bitGaps := rfl
@[simp] theorem errorStatus_nzSize (e : Raise) (s : State) : (errorStatus e s).nzSize = s.nzSize := rfl
@[simp] theorem errorStatus_bestTag (e : Raise) (s : State) : (errorStatus e s).bestTag = s.bestTag := rfl
@[simp] theorem errorStatus_bestCost (e : Raise) (s : State) : (errorStatus e s).bestCost = s.bestCost := rfl
@[simp] theorem errorStatus_pos0 (e : Raise) (s : State) : (errorStatus e s).pos0 = s.pos0 := rfl
@[simp] theorem errorStatus_eos (e : Raise) (s : State) : (errorStatus e s).eos = s.eos := rfl
@[simp] theorem errorStatus_allone (e : Raise) (s : State) : (errorStatus e s).allone = s.allone := rfl
@[simp] theorem errorStatus_rolled (e : Raise) (s : State) : (errorStatus e s).rolled = s.rolled := rfl
@[simp] theorem errorStatus_rangeSet (e : Raise) (s : State) : (errorStatus e s).rangeSet = s.rangeSet := rfl
@[simp] theorem errorStatus_tempBlock (e : Raise) (s : State) : (errorStatus e s).tempBlock = Config.freeTemp s.draws := rfl
@[simp] theorem errorStatus_idxArr (e : Raise) (s : State) : (errorStatus e s).idxArr = trimZeros ((Config.freeIndices s.draws).take 65536) := rfl
@[simp] theorem errorStatus_bs (e : Raise) (s : State) : (errorStatus e s).bs = s.bs := rfl
@[simp] theorem errorStatus_bsSize (e : Raise) (s : State) : (errorStatus e s).bsSize = s.bsSize := rfl
@[simp] theorem errorStatus_phase (e : Raise) (s : State) : (errorStatus e s).phase = .idle := rfl
@[simp] theorem errorStatus_host (e : Raise) (s : State) : (errorStatus e s).host = s.host := rfl
@[simp] theorem errorStatus_hostData (e : Raise) (s : State) : (errorStatus e s).hostData = s.hostData := rfl
@[simp] theorem errorStatus_draws (e : Raise) (s : State) : (errorStatus e s).draws = s.draws + 5 := rfl

end Sys2Proof.Machine
end

