-- ==== Sys2Proof/Tests/Slice0.lean ====
section
/-! SUPPORT. Tests: the checks of WellFormed refuse ill-formed terms; bytes written out from 30_encoding.md,
95_test_vectors.md and 43_block_decoder.md decode to their instructions; single steps end as those files
say; and for every obligation with hypotheses a state and operands that meet them. -/

namespace Sys2Proof.Tests

open Sys2Proof Sys2Proof.Machine

set_option Elab.async false

/-! ### WellFormed refuses -/

theorem test_wf_refuses_bit_short : Instr.wf (.bit [1, 2]) = false := by decide +kernel

theorem test_wf_refuses_gap_no_endpoint : Instr.wf (.gap 0x0000 []) = false := by decide +kernel

theorem test_wf_refuses_gap_endpoint_count : Instr.wf (.gap 0x0018 [9]) = false := by decide +kernel

theorem test_wf_refuses_gap_not_rising : Instr.wf (.gap 0x0018 [9, 5]) = false := by decide +kernel

theorem test_wf_refuses_gap_terminal_listed : Instr.wf (.gap 0x0010 [65535]) = false := by decide +kernel

theorem test_wf_refuses_arrbit_not_rising : Instr.wf (.arrbit [10, 5]) = false := by decide +kernel

theorem test_wf_refuses_arrgap_repeated : Instr.wf (.arrgap [5, 5]) = false := by decide +kernel

theorem test_wf_refuses_arrgap_inv_not_rising : Instr.wf (.arrgapInv [1, 0]) = false := by decide +kernel

theorem test_wf_refuses_arrbit_inv_not_rising : Instr.wf (.arrbitInv [7, 3]) = false := by decide +kernel

theorem test_wf_refuses_interval_reversed : Instr.wf (.bitInterval 2 1 []) = false := by decide +kernel

theorem test_wf_refuses_interval_past_end : Instr.wf (.bitInterval 2047 2048 [1, 1]) = false := by decide +kernel

theorem test_wf_refuses_interval_word_count : Instr.wf (.bitInterval 1 2 [1]) = false := by decide +kernel

theorem test_wf_refuses_gap_egamma_no_endpoint : Instr.wf (.gapEgamma 0 []) = false := by decide +kernel

theorem test_wf_refuses_gap_egamma_count : Instr.wf (.gapEgamma 0x0018 [1]) = false := by decide +kernel

theorem test_wf_refuses_gap_egamma_broken_code : Instr.wf (.gapEgamma 0x0010 [0]) = false := by decide +kernel

theorem test_wf_refuses_gap_egamma_past_end : Instr.wf (.gapEgamma 0x0010 [65536]) = false := by decide +kernel

theorem test_wf_refuses_arrgap_egamma_empty : Instr.wf (.arrgapEgamma 0 []) = false := by decide +kernel

theorem test_wf_refuses_arrgap_egamma_too_many : Instr.wf (.arrgapEgamma 65537 []) = false := by decide +kernel

theorem test_wf_refuses_arrgap_egamma_count : Instr.wf (.arrgapEgamma 2 [1]) = false := by decide +kernel

theorem test_wf_refuses_arrgap_egamma_broken_code : Instr.wf (.arrgapEgamma 1 [0]) = false := by decide +kernel

theorem test_wf_refuses_arrgap_egamma_inv_past_end : Instr.wf (.arrgapEgammaInv 2 [65536, 1]) = false := by decide +kernel

theorem test_wf_refuses_runs_start_byte : Instr.wf (.bit0runs 2 [(2048, [])]) = false := by decide +kernel

theorem test_wf_refuses_runs_empty_run : Instr.wf (.bit0runs 0 [(0, []), (2048, [])]) = false := by decide +kernel

theorem test_wf_refuses_runs_overshoot : Instr.wf (.bit0runs 0 [(2049, [])]) = false := by decide +kernel

theorem test_wf_refuses_runs_word_count : Instr.wf (.bit0runs 1 [(1, []), (2047, [])]) = false := by decide +kernel

theorem test_wf_refuses_runs_total : Instr.wf (.bit0runs 0 [(2047, [])]) = false := by decide +kernel

theorem test_wf_refuses_gap_bienc_no_min : Instr.wf (.gapBienc 0x0008 0 []) = false := by decide +kernel

theorem test_wf_refuses_gap_bienc_count : Instr.wf (.gapBienc 0x0018 0 []) = false := by decide +kernel

theorem test_wf_refuses_gap_bienc_min_terminal : Instr.wf (.gapBienc 0x0010 65535 []) = false := by decide +kernel

theorem test_wf_refuses_gap_bienc_not_rising : Instr.wf (.gapBienc 0x0018 9 [5]) = false := by decide +kernel

theorem test_wf_refuses_arrgap_bienc_few : Instr.wf (.arrgapBienc 0 9 0 [1, 2]) = false := by decide +kernel

theorem test_wf_refuses_arrgap_bienc_many : Instr.wf (.arrgapBienc 0 9 65533 []) = false := by decide +kernel

theorem test_wf_refuses_arrgap_bienc_count : Instr.wf (.arrgapBienc 0 9 1 [1, 2]) = false := by decide +kernel

theorem test_wf_refuses_arrgap_bienc_inv_range : Instr.wf (.arrgapBiencInv 0 9 1 [1, 2, 9]) = false := by decide +kernel

theorem test_wf_refuses_arr_bienc_few : Instr.wf (.arrBienc 0 9 1 []) = false := by decide +kernel

theorem test_wf_refuses_arr_bienc_count : Instr.wf (.arrBienc 0 9 3 []) = false := by decide +kernel

theorem test_wf_refuses_arr_bienc_inv_reversed : Instr.wf (.arrBiencInv 9 0 2 []) = false := by decide +kernel

theorem test_wf_refuses_bitgap_start_byte : Instr.wf (.bitgapBienc 2 2 0 []) = false := by decide +kernel

theorem test_wf_refuses_bitgap_few : Instr.wf (.bitgapBienc 0 1 0 []) = false := by decide +kernel

theorem test_wf_refuses_bitgap_count : Instr.wf (.bitgapBienc 0 3 0 []) = false := by decide +kernel

theorem test_wf_refuses_bitgap_terminal_listed : Instr.wf (.bitgapBienc 0 3 0 [65535]) = false := by decide +kernel

theorem test_wf_refuses_digest_word_count : Instr.wf (.bitDigest0 1 []) = false := by decide +kernel

theorem test_wf_refuses_unassigned_below : Instr.wf (.unassigned 34) = false := by decide +kernel

theorem test_wf_refuses_unassigned_above : Instr.wf (.unassigned 128) = false := by decide +kernel

theorem test_wf_refuses_header_byte_order_value : Instr.wf (.streamHeader ⟨0x11, some 2, none, none⟩) = false := by decide +kernel

theorem test_wf_refuses_header_byte_order_missing : Instr.wf (.streamHeader ⟨0x11, none, none, none⟩) = false := by decide +kernel

theorem test_wf_refuses_header_gap_levels_missing : Instr.wf (.streamHeader ⟨0x09, none, none, none⟩) = false := by decide +kernel

theorem test_wf_refuses_header_size_missing : Instr.wf (.streamHeader ⟨0x1A, none, none, none⟩) = false := by decide +kernel

theorem test_wf_refuses_header_size_wide : Instr.wf (.streamHeader ⟨0x1A, none, none, some 0x100000000⟩) = false := by decide +kernel

/-! ### Decoding

Bytes from 95_test_vectors.md section 2.4 and 2.5 where it lists the form, else written out from the format
of 30_encoding.md. -/

theorem test_decode_end :
    decodeBytes true [0x00] = some (.endOfStream, 1) := by
  decide +kernel

theorem test_decode_1zero :
    decodeBytes true [0x01] = some (.zero1, 1) := by
  decide +kernel

theorem test_decode_1one :
    decodeBytes true [0x02] = some (.one1, 1) := by
  decide +kernel

theorem test_decode_8zero :
    decodeBytes true [0x03, 0x80] = some (.zero8 128, 2) := by
  decide +kernel

theorem test_decode_8one :
    decodeBytes true [0x04, 0xFF] = some (.one8 255, 2) := by
  decide +kernel

theorem test_decode_16zero :
    decodeBytes true [0x05, 0x2C, 0x01] = some (.zero16 300, 3) := by
  decide +kernel

theorem test_decode_16one :
    decodeBytes true [0x06, 0x2C, 0x01] = some (.one16 300, 3) := by
  decide +kernel

theorem test_decode_32zero :
    decodeBytes true [0x07, 0xD3, 0xFE, 0xFF, 0x00] = some (.zero32 16776915, 5) := by
  decide +kernel

theorem test_decode_32one :
    decodeBytes true [0x08, 0x00, 0x00, 0x01, 0x00] = some (.one32 65536, 5) := by
  decide +kernel

theorem test_decode_azero :
    decodeBytes true [0x09] = some (.azero, 1) := by
  decide +kernel

theorem test_decode_aone :
    decodeBytes true [0x0A] = some (.aone, 1) := by
  decide +kernel

theorem test_decode_sgapbit :
    decodeBytes true [0x0C] = some (.sgapbit, 1) := by
  decide +kernel

theorem test_decode_sgapgap :
    decodeBytes true [0x0D] = some (.sgapgap, 1) := by
  decide +kernel

theorem test_decode_gap :
    decodeBytes true [0x0E, 0x38, 0x00, 0x04, 0x00, 0x05, 0x00, 0x09, 0x00, 0x0A, 0x00, 0x62, 0x00, 0x63, 0x00] = some (.gap 0x0038 [4, 5, 9, 10, 98, 99], 15) := by
  decide +kernel

theorem test_decode_gapbit :
    decodeBytes true [0x0F] = some (.gapbit, 1) := by
  decide +kernel

theorem test_decode_arrbit :
    decodeBytes true [0x10, 0x03, 0x00, 0x00, 0x00, 0x07, 0x00, 0xFF, 0xFF] = some (.arrbit [0, 7, 65535], 9) := by
  decide +kernel

theorem test_decode_bit_interval :
    decodeBytes true [0x11, 0x01, 0x00, 0x02, 0x00, 0x01, 0x00, 0x00, 0x80, 0x00, 0x00, 0x00, 0x00] = some (.bitInterval 1 2 [0x80000001, 0], 13) := by
  decide +kernel

theorem test_decode_arrgap :
    decodeBytes true [0x12, 0x03, 0x00, 0x05, 0x00, 0x0A, 0x00, 0x63, 0x00] = some (.arrgap [5, 10, 99], 9) := by
  decide +kernel

theorem test_decode_bit_1bit :
    decodeBytes true [0x13, 0x40, 0x42] = some (.bit1bit 16960, 3) := by
  decide +kernel

theorem test_decode_gap_egamma :
    decodeBytes true [0x14, 0x38, 0x00, 0x2C, 0x09, 0xC4, 0x02] = some (.gapEgamma 0x0038 [5, 1, 4, 1, 88, 1], 7) := by
  decide +kernel

theorem test_decode_arrgap_egamma :
    decodeBytes true [0x15, 0xA6, 0x0C, 0x98, 0x01] = some (.arrgapEgamma 3 [6, 5, 89], 5) := by
  decide +kernel

theorem test_decode_bit_0runs :
    decodeBytes true [0x16, 0x01, 0x02, 0x00, 0xA5, 0xA5, 0xA5, 0xA5, 0x5A, 0x5A, 0x5A, 0x5A, 0xFE, 0x07] = some (.bit0runs 1 [(2, [0xA5A5A5A5, 0x5A5A5A5A]), (2046, [])], 14) := by
  decide +kernel

theorem test_decode_arrgap_egamma_inv :
    decodeBytes true [0x17, 0xA6, 0x0C, 0x98, 0x01] = some (.arrgapEgammaInv 3 [6, 5, 89], 5) := by
  decide +kernel

theorem test_decode_arrgap_inv :
    decodeBytes true [0x18, 0x02, 0x00, 0x00, 0x00, 0xFF, 0xFF] = some (.arrgapInv [0, 65535], 7) := by
  decide +kernel

theorem test_decode_64zero :
    decodeBytes true [0x19, 0x00, 0x00, 0x00, 0x00, 0x01, 0x00, 0x00, 0x00] = some (.zero64 0x100000000, 9) := by
  decide +kernel

theorem test_decode_64one :
    decodeBytes true [0x1A, 0x05, 0x00, 0x00, 0x00, 0x00, 0x00, 0x00, 0x80] = some (.one64 0x8000000000000005, 9) := by
  decide +kernel

theorem test_decode_gap_bienc :
    decodeBytes true [0x1B, 0x38, 0x00, 0x04, 0x00, 0x04, 0x00, 0xEC, 0x0A, 0xE0, 0x0A, 0x00, 0x00] = some (.gapBienc 0x0038 4 [5, 9, 10, 98, 99], 13) := by
  decide +kernel

theorem test_decode_arrgap_bienc :
    decodeBytes true [0x1C, 0x03, 0x00, 0xFF, 0xFF, 0x34, 0xC3, 0x89, 0xF9, 0xC0, 0xFC, 0x30, 0x58, 0x6D, 0x1E, 0xCE, 0x87, 0xF3, 0xE1, 0x04, 0x00] = some (.arrgapBienc 3 65535 6 [100, 2000, 2001, 9000, 20000, 30000, 40000, 50000], 21) := by
  decide +kernel

theorem test_decode_arrgap_bienc_inv :
    decodeBytes true [0x1D, 0x03, 0x00, 0xFF, 0xFF, 0x34, 0xC3, 0x89, 0xF9, 0xC0, 0xFC, 0x30, 0x58, 0x6D, 0x1E, 0xCE, 0x87, 0xF3, 0xE1, 0x04, 0x00] = some (.arrgapBiencInv 3 65535 6 [100, 2000, 2001, 9000, 20000, 30000, 40000, 50000], 21) := by
  decide +kernel

theorem test_decode_arrbit_inv :
    decodeBytes true [0x1E, 0x02, 0x00, 0x00, 0x00, 0xFF, 0xFF] = some (.arrbitInv [0, 65535], 7) := by
  decide +kernel

theorem test_decode_arr_bienc :
    decodeBytes true [0x1F, 0x04, 0x00, 0xFF, 0xFF, 0x07, 0x00, 0x04, 0x00, 0xEC, 0x0A, 0xE0, 0x0A, 0x00, 0x00] = some (.arrBienc 4 65535 7 [5, 9, 10, 98, 99], 15) := by
  decide +kernel

theorem test_decode_arr_bienc_inv :
    decodeBytes true [0x20, 0x04, 0x00, 0xFF, 0xFF, 0x07, 0x00, 0x04, 0x00, 0xEC, 0x0A, 0xE0, 0x0A, 0x00, 0x00] = some (.arrBiencInv 4 65535 7 [5, 9, 10, 98, 99], 15) := by
  decide +kernel

theorem test_decode_bitgap_bienc :
    decodeBytes true [0x21, 0x00, 0x07, 0x00, 0x04, 0x00, 0x04, 0x00, 0xEC, 0x0A, 0xE0, 0x0A, 0x00, 0x00] = some (.bitgapBienc 0 7 4 [5, 9, 10, 98, 99], 14) := by
  decide +kernel

theorem test_decode_zskip :
    decodeBytes true [0x8F] = some (.zskip 15, 1) := by
  decide +kernel

theorem test_decode_unassigned :
    decodeBytes true [0x23] = some (.unassigned 35, 1) := by
  decide +kernel

theorem test_decode_unassigned_last :
    decodeBytes true [0x7F] = some (.unassigned 127, 1) := by
  decide +kernel

theorem test_decode_bit :
    (match decodeToken (Stream.ofBytes true [0x0B, 0x20, 0x04] 8193) with
      | .ok (.bit (w :: ws)) t => decide (w = 0x0420 ∧ ws.length = 2047 ∧ t.pos = 8193)
      | _ => false) = true := by
  decide +kernel

theorem test_decode_bit_digest0 :
    decodeBytes true
        (0x22 :: 0x04 :: List.replicate 7 0 ++ 0x55 :: List.replicate 126 0 ++ [0x80]) =
      some (.bitDigest0 4 (0x55 :: List.replicate 30 0 ++ [0x80000000]), 137) := by
  decide +kernel

theorem test_decode_big_endian :
    decodeBytes false [0x1B, 0x00, 0x38, 0x00, 0x04, 0x0A, 0xEC, 0x00, 0x04, 0x00, 0x00, 0x0A, 0xE0] =
      some (.gapBienc 0x0038 4 [5, 9, 10, 98, 99], 13) := by
  decide +kernel

theorem test_header_default :
    decodeHeaderBytes .w32 [0x11, 0x01] =
      some (.streamHeader ⟨0x11, some 1, none, none⟩, 2) := by
  decide +kernel

theorem test_header_no_byte_order :
    decodeHeaderBytes .w32 [0x19] =
      some (.streamHeader ⟨0x19, none, none, none⟩, 1) := by
  decide +kernel

theorem test_header_gap_levels :
    decodeHeaderBytes .w32 [0x01, 0x01, 0x80, 0x00, 0x00, 0x01, 0x00, 0x02, 0x00, 0x05] =
      some (.streamHeader ⟨0x01, some 1, some ⟨128, 256, 512, 1280⟩, none⟩, 10) := by
  decide +kernel

theorem test_header_size_32 :
    decodeHeaderBytes .w32 [0x12, 0x01, 0xE8, 0x03, 0x00, 0x00] =
      some (.streamHeader ⟨0x12, some 1, none, some 1000⟩, 6) := by
  decide +kernel

theorem test_header_size_64 :
    decodeHeaderBytes .w48 [0x32, 0x01, 0x00, 0x00, 0x00, 0x00, 0x00, 0x01, 0x00, 0x00] =
      some (.streamHeader ⟨0x32, some 1, none, some 0x10000000000⟩, 10) := by
  decide +kernel

theorem test_header_big_endian :
    decodeHeaderBytes .w32 [0x12, 0x00, 0x00, 0x00, 0x03, 0xE8] =
      some (.streamHeader ⟨0x12, some 0, none, some 1000⟩, 6) := by
  decide +kernel

theorem test_header_bad_byte_order :
    decodeHeaderBytes .w32 [0x31, 0x02] =
      some (.streamHeader ⟨0x31, some 2, none, none⟩, 2) := by
  decide +kernel

theorem test_header_id_list :
    decodeHeaderBytes .w32 [0x1D] =
      some (.streamHeader ⟨0x1D, none, none, none⟩, 1) := by
  decide +kernel

theorem test_decode_commands :
    (List.range 8).map (fun n => decodeCommand (BitVec.ofNat 64 n)) =
      [none, some .serialize, some .serializeDestroy, some .deserialize, some .opDeserialize,
        some .rangeDeserialize, none, none] := by
  decide

theorem test_decode_truncated : decodeBytes true [0x13, 0x05] = none := by decide +kernel

/-! ### Single steps

The expected results are those of 95_test_vectors.md section 2.5 to 2.7, or read off the rule cited. -/

/-- A block store with the given slots. -/
def stored (slots : List (Nat × Slot)) : BlockStore := slots.foldl (fun b e => b.put e.1 e.2) []

/-- A DESERIALIZE that walks the tokens in the given bytes. -/
def merging (slots : List (Nat × Slot)) (bytes : List Byte) : State :=
  { State.reset with
    bs := stored slots, runState := .busy, phase := .tokens, cmd := 3
    stream := Stream.ofBytes true bytes bytes.length }

/-- An OP_DESERIALIZE that walks the tokens in the given bytes. -/
def operating (op : SetOp) (slots : List (Nat × Slot)) (bytes : List Byte) : State :=
  { merging slots bytes with cmd := 4, st := .blocks, op := (setOpCode op).setWidth 64, eop := op }

/-- What one step leaves, as far as `f` looks at it. -/
def after {α : Type} (f : State → α) (s : State) : Option α :=
  match step s with
  | .next t => some (f t)
  | _ => none

theorem test_step_end :
    after (·.eos) (merging [] [0x00]) =
      some (true) := by
  decide +kernel

theorem test_step_1zero :
    after (fun t => (t.nb, t.bs)) (merging [(0, .full)] [0x01]) =
      some ((1, stored [(0, .full)])) := by
  decide +kernel

theorem test_step_1one :
    after (fun t => (t.nb, t.bs)) (merging [] [0x02]) =
      some ((1, stored [(0, .full)])) := by
  decide +kernel

theorem test_step_8zero :
    after (fun t => (t.nb, t.bs)) (merging [] [0x03, 0x80]) =
      some ((128, [])) := by
  decide +kernel

theorem test_step_8one :
    after (fun t => (t.nb, t.bs)) (merging [] [0x04, 0x03]) =
      some ((3, stored [(0, .full), (1, .full), (2, .full)])) := by
  decide +kernel

theorem test_step_16zero :
    after (fun t => (t.nb, t.bs)) (merging [] [0x05, 0x2C, 0x01]) =
      some ((300, [])) := by
  decide +kernel

theorem test_step_16one :
    after (fun t => (t.nb, t.bs.at' 0, t.bs.at' 299, t.bs.at' 300)) (merging [] [0x06, 0x2C, 0x01]) =
      some ((300, .full, .full, .empty)) := by
  decide +kernel

theorem test_step_32zero :
    after (fun t => (t.nb, t.bs)) (merging [] [0x07, 0x00, 0x00, 0x01, 0x00]) =
      some ((65536, [])) := by
  decide +kernel

theorem test_step_32one :
    after (fun t => (t.nb, t.bs.at' 0, t.bs.at' 65535)) (merging [] [0x08, 0x00, 0x00, 0x01, 0x00]) =
      some ((65536, .full, .full)) := by
  decide +kernel

theorem test_step_azero :
    after (fun t => (t.eos, t.bs)) (merging [(0, .full)] [0x09]) =
      some ((true, stored [(0, .full)])) := by
  decide +kernel

theorem test_step_aone :
    after (fun t => (t.nb, t.bs.at' 0, t.bs.at' 7, t.bs.at' 65535)) (merging [(7, .bit (bitAt 5))] [0x0A]) =
      some ((65536, .full, .full, .full)) := by
  decide +kernel

theorem test_step_sgapbit :
    after (fun t => (statusWord t).toNat) (merging [] [0x0C]) =
      some (0x47) := by
  decide +kernel

theorem test_step_sgapgap :
    after (fun t => (statusWord t).toNat) (merging [] [0x0D]) =
      some (0x47) := by
  decide +kernel

theorem test_step_gapbit :
    after (fun t => (statusWord t).toNat) (merging [] [0x0F]) =
      some (0x47) := by
  decide +kernel

theorem test_step_unassigned :
    after (fun t => (statusWord t).toNat) (merging [] [0x23]) =
      some (0x47) := by
  decide +kernel

theorem test_step_64zero :
    after (·.nb) (merging [] [0x19, 0x10, 0x00, 0x00, 0x00, 0x00, 0x00, 0x00, 0x00]) =
      some (16) := by
  decide +kernel

theorem test_step_64one :
    after (fun t => (t.nb, t.bs.at' 0, t.bs.at' 1, t.bs.at' 2)) (merging [] [0x1A, 0x02, 0x00, 0x00, 0x00, 0x00, 0x00, 0x00, 0x00]) =
      some ((2, .full, .full, .empty)) := by
  decide +kernel

theorem test_step_zskip :
    after (fun t => (t.nb, t.bs)) (merging [] [0x8F]) =
      some ((15, [])) := by
  decide +kernel

theorem test_step_run_overrun :
    after (·.nb) (merging [] [0x05, 0xFF, 0xFF]) =
      some (65535) := by
  decide +kernel

theorem test_step_gap :
    after (fun t => (t.nb, t.bs.at' 0)) (merging [] [0x0E, 0x38, 0x00, 0x04, 0x00, 0x05, 0x00, 0x09, 0x00, 0x0A, 0x00, 0x62, 0x00, 0x63, 0x00]) =
      some ((1, .gap 0 false [4, 5, 9, 10, 98, 99, 65535])) := by
  decide +kernel

theorem test_step_gap_one :
    after (fun t => (t.nb, t.bs.at' 0)) (merging [] [0x0E, 0x09, 0x00]) =
      some ((1, .gap 0 true [65535])) := by
  decide +kernel

theorem test_step_arrbit :
    after (fun t => (t.nb, t.bs.at' 0)) (merging [] [0x10, 0x03, 0x00, 0x00, 0x00, 0x07, 0x00, 0xFF, 0xFF]) =
      some ((1, .bit (setOf [0, 7, 65535]))) := by
  decide +kernel

theorem test_step_bit_interval :
    after (fun t => (t.nb, t.bs.at' 0)) (merging [] [0x11, 0x01, 0x00, 0x02, 0x00, 0x01, 0x00, 0x00, 0x80, 0x00, 0x00, 0x00, 0x00]) =
      some ((1, .bit (setOf [32, 63]))) := by
  decide +kernel

theorem test_step_arrgap :
    after (fun t => (t.nb, t.bs.at' 0)) (merging [] [0x12, 0x03, 0x00, 0x05, 0x00, 0x0A, 0x00, 0x63, 0x00]) =
      some ((1, .bit (setOf [5, 10, 99]))) := by
  decide +kernel

theorem test_step_bit_1bit :
    after (fun t => (t.nb, t.bs.at' 0)) (merging [] [0x13, 0x40, 0x42]) =
      some ((1, .bit (setOf [16960]))) := by
  decide +kernel

theorem test_step_gap_egamma :
    after (fun t => (t.nb, t.bs.at' 0)) (merging [] [0x14, 0x38, 0x00, 0x2C, 0x09, 0xC4, 0x02]) =
      some ((1, .gap 0 false [4, 5, 9, 10, 98, 99, 65535])) := by
  decide +kernel

theorem test_step_arrgap_egamma :
    after (fun t => (t.nb, t.bs.at' 0)) (merging [] [0x15, 0xA6, 0x0C, 0x98, 0x01]) =
      some ((1, .bit (setOf [5, 10, 99]))) := by
  decide +kernel

theorem test_step_bit_0runs :
    after (fun t => (t.nb, t.bs.at' 0)) (merging [] [0x16, 0x00, 0x02, 0x00, 0x01, 0x00, 0xFF, 0x00, 0x00, 0xF0, 0xFD, 0x07]) =
      some ((1, .bit (setOf [64, 65, 66, 67, 68, 69, 70, 71, 92, 93, 94, 95]))) := by
  decide +kernel

theorem test_step_arrgap_egamma_inv :
    after (fun t => (t.nb, t.bs.at' 0)) (merging [] [0x17, 0xA6, 0x0C, 0x98, 0x01]) =
      some ((1, .bit (~~~ setOf [5, 10, 99]))) := by
  decide +kernel

theorem test_step_arrgap_inv :
    after (fun t => (t.nb, t.bs.at' 0)) (merging [] [0x18, 0x02, 0x00, 0x00, 0x00, 0xFF, 0xFF]) =
      some ((1, .bit (~~~ setOf [0, 65535]))) := by
  decide +kernel

theorem test_step_gap_bienc :
    after (fun t => (t.nb, t.bs.at' 0)) (merging [] [0x1B, 0x38, 0x00, 0x04, 0x00, 0x04, 0x00, 0xEC, 0x0A, 0xE0, 0x0A, 0x00, 0x00]) =
      some ((1, .gap 0 false [4, 5, 9, 10, 98, 99, 65535])) := by
  decide +kernel

theorem test_step_arrgap_bienc :
    after (fun t => (t.nb, t.bs.at' 0)) (merging [] [0x1C, 0x03, 0x00, 0xFF, 0xFF, 0x34, 0xC3, 0x89, 0xF9, 0xC0, 0xFC, 0x30, 0x58, 0x6D, 0x1E, 0xCE, 0x87, 0xF3, 0xE1, 0x04, 0x00]) =
      some ((1, .bit (setOf [3, 100, 2000, 2001, 9000, 20000, 30000, 40000, 50000, 65535]))) := by
  decide +kernel

theorem test_step_arrgap_bienc_inv :
    after (fun t => (t.nb, t.bs.at' 0)) (merging [] [0x1D, 0x03, 0x00, 0xFF, 0xFF, 0x34, 0xC3, 0x89, 0xF9, 0xC0, 0xFC, 0x30, 0x58, 0x6D, 0x1E, 0xCE, 0x87, 0xF3, 0xE1, 0x04, 0x00]) =
      some ((1, .bit (~~~ setOf [3, 100, 2000, 2001, 9000, 20000, 30000, 40000, 50000, 65535]))) := by
  decide +kernel

theorem test_step_arrbit_inv :
    after (fun t => (t.nb, t.bs.at' 0)) (merging [] [0x1E, 0x02, 0x00, 0x00, 0x00, 0xFF, 0xFF]) =
      some ((1, .bit (~~~ setOf [0, 65535]))) := by
  decide +kernel

theorem test_step_arr_bienc :
    after (fun t => (t.nb, t.bs.at' 0)) (merging [] [0x1F, 0x04, 0x00, 0xFF, 0xFF, 0x07, 0x00, 0x04, 0x00, 0xEC, 0x0A, 0xE0, 0x0A, 0x00, 0x00]) =
      some ((1, .bit (setOf [4, 5, 9, 10, 98, 99, 65535]))) := by
  decide +kernel

theorem test_step_arr_bienc_inv :
    after (fun t => (t.nb, t.bs.at' 0)) (merging [] [0x20, 0x04, 0x00, 0xFF, 0xFF, 0x07, 0x00, 0x04, 0x00, 0xEC, 0x0A, 0xE0, 0x0A, 0x00, 0x00]) =
      some ((1, .bit (~~~ setOf [4, 5, 9, 10, 98, 99, 65535]))) := by
  decide +kernel

theorem test_step_bitgap_bienc :
    after (fun t => (t.nb, t.bs.at' 0)) (merging [] [0x21, 0x00, 0x07, 0x00, 0x04, 0x00, 0x04, 0x00, 0xEC, 0x0A, 0xE0, 0x0A, 0x00, 0x00]) =
      some ((1, .bit (setOf [5, 10, 99]))) := by
  decide +kernel

theorem test_step_bit :
    after (fun t => (t.nb, t.bs.at' 0, t.allone))
        { merging [] [] with stream := Stream.ofBytes true [0x0B, 0x20, 0x04] 8193 } =
      some (1, .bit (setOf [5, 10]), false) := by
  decide +kernel

theorem test_step_bit_digest0 :
    after (fun t => t.bs.at' 0)
        { merging [] [] with
          stream := Stream.ofBytes true [0x22, 0x04, 0, 0, 0, 0, 0, 0, 0, 0x81] 137 } =
      some (.bit (setOf [2048, 2055])) := by
  decide +kernel

theorem test_step_malformed_arrgap :
    after (fun t => (t.runState, t.err, t.nb)) (merging [] [0x12, 0x02, 0x00, 0x0A, 0x00, 0x05, 0x00]) =
      some (.error, .precondition, 0) := by
  decide +kernel

theorem test_step_malformed_run_type :
    after (fun t => (t.runState, t.err, t.nb)) (merging [] [0x16, 0x02, 0x01, 0x00]) =
      some (.error, .precondition, 0) := by
  decide +kernel

theorem test_step_malformed_gap_head :
    after (fun t => (t.runState, t.err, t.nb)) (merging [] [0x0E, 0x00, 0x00]) =
      some (.error, .precondition, 0) := by
  decide +kernel

theorem test_step_malformed_endpoints :
    after (fun t => (t.runState, t.err, t.nb)) (merging [] [0x0E, 0x18, 0x00, 0x09, 0x00, 0x05, 0x00]) =
      some (.error, .precondition, 0) := by
  decide +kernel

theorem test_step_truncated :
    after (fun t => (t.runState, t.err, t.nb)) (merging [] [0x13, 0x05]) =
      some (.error, .precondition, 0) := by
  decide +kernel

theorem test_operate_countAnd :
    after (fun t => (t.count.toNat, t.nb, t.bs.at' 0))
        (operating .countAnd [(0, .bit (setOf [0, 5, 10]))] [0x12, 0x03, 0x00, 0x05, 0x00, 0x0A, 0x00, 0x63, 0x00]) =
      some (2, 1, .bit (setOf [0, 5, 10])) := by
  decide +kernel

theorem test_operate_countSubBA :
    after (fun t => (t.count.toNat, t.nb, t.bs.at' 0))
        (operating .countSubBA [(0, .bit (setOf [0, 5, 10]))] [0x12, 0x03, 0x00, 0x05, 0x00, 0x0A, 0x00, 0x63, 0x00]) =
      some (1, 1, .bit (setOf [0, 5, 10])) := by
  decide +kernel

theorem test_operate_one_run :
    after (fun t => (t.count.toNat, t.nb)) (operating .countXor [(0, .bit (bitAt 3))] [0x02]) =
      some (65535, 1) := by
  decide +kernel

theorem test_operate_end :
    after (·.eos) (operating .and [] [0x00]) =
      some true := by
  decide +kernel

theorem test_apply_assign :
    applyOp .assign (setOf [0, 5, 10]) (setOf [5, 10, 99]) =
      (setOf [5, 10, 99], 0) := by
  decide +kernel

theorem test_apply_or :
    applyOp .or (setOf [0, 5, 10]) (setOf [5, 10, 99]) =
      (setOf [0, 5, 10, 99], 0) := by
  decide +kernel

theorem test_apply_and :
    applyOp .and (setOf [0, 5, 10]) (setOf [5, 10, 99]) =
      (setOf [5, 10], 0) := by
  decide +kernel

theorem test_apply_xor :
    applyOp .xor (setOf [0, 5, 10]) (setOf [5, 10, 99]) =
      (setOf [0, 99], 0) := by
  decide +kernel

theorem test_apply_sub :
    applyOp .sub (setOf [0, 5, 10]) (setOf [5, 10, 99]) =
      (setOf [0], 0) := by
  decide +kernel

theorem test_apply_counts :
    [SetOp.count, .countAnd, .countOr, .countXor, .countSubAB, .countSubBA, .countA, .countB].map
        (fun o => (applyOp o (setOf [0, 5, 10]) (setOf [5, 10, 99])).2) =
      [3, 2, 4, 2, 1, 1, 3, 3] := by
  decide +kernel

/-- Reset with a buffer size and one pending write to a host register. -/
def asked (size no : Nat) (v : U64) : State :=
  { State.reset with
    stream := { State.reset.stream with bufSize := BitVec.ofNat 64 size }
    host := [.writeReg no v] }

/-- STATUS without CAUSE, which is open for a Precondition error (assumption 9). -/
def stateAndErr (t : State) : RunState × ErrKind := (t.runState, t.err)

theorem test_read_status_after_reset :
    after (·.hostData) { State.reset with host := [.readReg 6] } = some 0 := by decide +kernel

theorem test_read_cfg_after_reset :
    after (·.hostData) { State.reset with host := [.readReg 0] } = some 0x15 := by decide +kernel

theorem test_serialize_empty :
    after (fun t => (stateAndErr t, t.resultBytes, t.stream.buf.readList 0 3)) (asked 64 1 1) =
      some ((.done, .none), 3, [0x11, 0x01, 0x09]) := by
  decide +kernel

theorem test_serialize_destroy_empty :
    after (fun t => (stateAndErr t, t.resultBytes, t.bs)) (asked 3 1 2) = some ((.done, .none), 3, []) := by
  decide +kernel

theorem test_serialize_one_run :
    after (fun t => (t.resultBytes, t.stream.buf.readList 0 6))
        { asked 64 1 1 with bs := [(0, .full), (300, .empty)] } =
      some (6, [0x11, 0x01, 0x06, 0x2C, 0x01, 0x09]) := by
  decide +kernel

theorem test_serialize_bit_block :
    after (fun t => (t.resultBytes, t.stream.buf.readList 0 17))
        { asked 64 1 1 with bs := stored [(0, .bit (setOf [5, 10, 99]))] } =
      some (16, [0x11, 0x01, 0x1B, 0x38, 0x00, 0x04, 0x00, 0x04, 0x00, 0xEC, 0x0A, 0xE0, 0x0A, 0x00, 0x00,
        0x09, 0x00]) := by
  decide +kernel

theorem test_serialize_gap_block :
    after (fun t => (t.resultBytes, t.stream.buf.readList 0 14))
        { asked 64 1 1 with bs := stored [(0, .gap 1 false [99, 199, 1000, 1999, 65535])] } =
      some (14, [0x11, 0x01, 0x0E, 0x2A, 0x00, 0x63, 0x00, 0xC7, 0x00, 0xE8, 0x03, 0xCF, 0x07,
        0x09]) := by
  decide +kernel

theorem test_serialize_no_room :
    after stateAndErr (asked 2 1 1) = some (.error, .precondition) := by decide +kernel

theorem test_serialize_level_6 :
    after (fun t => (stateAndErr t, t.stream.buf)) { asked 64 1 1 with cfg := 0x16 } =
      some ((.error, .precondition), Memory.blank) := by
  decide +kernel

theorem test_deserialize_starts :
    after (fun t => (t.runState, t.phase, t.cmd)) (asked 64 1 3) = some (.busy, .header, 3) := by
  decide +kernel

theorem test_op_deserialize_illegal_op :
    after stateAndErr { asked 64 1 4 with op := 13 } = some (.error, .precondition) := by decide +kernel

theorem test_op_deserialize_starts :
    after (fun t => (t.runState, t.cmd, t.rangeSet)) { asked 64 1 4 with op := 12 } =
      some (.busy, 4, false) := by
  decide +kernel

theorem test_range_deserialize_reversed :
    after stateAndErr { asked 64 1 5 with rangeFrom := 7, rangeTo := 6 } = some (.error, .precondition) := by
  decide +kernel

theorem test_range_deserialize_starts :
    after (fun t => (t.runState, t.cmd, t.rangeSet)) { asked 64 1 5 with rangeTo := 6 } =
      some (.busy, 5, true) := by
  decide +kernel

/-- The stream can be loaded before BUF_SIZE is written (70_reset_and_hazards.md rule R566). -/
theorem test_load_before_size :
    after (fun t => (t.stream.buf.read 5, t.stream.bufSize))
        { State.reset with host := [.writeBuf 5 0x2A] } = some (0x2A, 0) := by
  decide +kernel

/-- RANGE_FROM takes the low bits its field needs (10_state.md rule R31). -/
theorem test_range_from_bits :
    after (·.rangeFrom) (asked 0 3 0x100000005) = some 5 ∧
      after (·.rangeTo) (asked 0 4 0x100000005) = some 0x100000005 := by
  decide +kernel

/-- IDX_ARR keeps the elements a load does not write (10_state.md rule R48). -/
theorem test_load_keeps : loadArr [5, 10] [1, 2, 3] = [5, 10, 3] ∧ loadArr [0] [7] = [] := by decide

theorem test_illegal_command : step (asked 64 1 6) = .refused .illegalCommand := rfl

/-- A decode command that reads its header next. -/
def heading (cmd : U64) (bytes : List Byte) : State :=
  { merging [] bytes with phase := .header, cmd := cmd }

theorem test_step_header :
    after (fun t => (t.phase, t.stream.pos, t.bsSize, t.hdrFlags)) (heading 3 [0x12, 0x01, 0xE8, 0x03, 0x00, 0x00]) =
      some (.tokens, 6, 4294967295, 0x12) := by
  decide +kernel

theorem test_step_header_width :
    after (fun t => (statusWord t).toNat) (heading 3 [0x31, 0x01, 0x09]) =
      some 0x87 := by
  decide +kernel

theorem test_step_header_byte_order :
    after (fun t => (statusWord t).toNat) (heading 4 [0x31, 0x02, 0x09]) =
      some 0xC7 := by
  decide +kernel

theorem test_step_header_id_list :
    after (fun t => (t.phase, t.idCnt, t.stream.pos)) (heading 3 [0x1D, 0x03, 0x00, 0x00, 0x00]) =
      some (.ids, 3, 5) := by
  decide +kernel

theorem test_merge_ends :
    after (fun t => (t.runState, t.resultBytes)) { merging [] [0x00] with nb := 65536 } =
      some (.done, 0) := by
  decide +kernel

theorem test_classify_ten :
    [1, 2, 4, 5].map (fun l => classifyBit Params.default l (setOf [3, 100, 2000, 2001, 9000, 20000, 30000, 40000, 50000, 65535])) =
      [.bit, .arrgapEgamma, .arrgapEgamma, .arrgapBienc] := by
  decide +kernel

theorem test_classify_three :
    [1, 2, 4, 5].map (fun l => classifyBit Params.default l (setOf [5, 10, 99])) =
      [.bit, .gapEgamma, .gapEgamma, .gapBienc] := by
  decide +kernel

theorem test_classify_gap :
    [1, 3, 4, 5].map (fun l => classifyGap l false [4, 5, 9, 10, 98, 99, 65535]) =
      [.gap, .arrgap, .arrgapEgamma, .arrgapBienc] := by
  decide +kernel

/-! ### What the hypotheses of the obligations admit

For each obligation with hypotheses a concrete state and operands that meet all of them together, at a
boundary of each range a clause names. -/

theorem test_witness_ResetRegisters :
    ({ State.reset with host := [.reset] } : State).host = [.reset] ∧
      AfterReset { State.reset with params := { Params.default with aw := .w48 } } ∧
      AfterReset { State.reset with host := [.writeReg 1 3] } ∧
      ∃ t, step { State.reset with host := [.writeReg 1 3] } = .next t ∧ t.runState = .busy := by
  unfold AfterReset
  exact ⟨rfl, by decide +kernel, by decide +kernel, _, rfl, rfl⟩

theorem test_witness_ResetMemories :
    ∀ s ∈ [{ merging [(0, .full)] [0x02] with host := [.reset] },
        { State.reset with host := [.reset], bs := stored [(0, .full)] }],
      s.host = [.reset] ∧ s.bs.wf s.params = true := by
  decide +kernel

theorem test_witness_ConfigRegister :
    (asked 0 0 0x1F).host = [.writeReg 0 0x1F] ∧ (asked 0 0 0x1F).runState ≠ .busy := by decide

theorem test_witness_OpRegister :
    (asked 0 2 0x1D).host = [.writeReg 2 0x1D] ∧ (asked 0 2 0x1D).runState ≠ .busy := by decide

/-- A host that resets the block in the middle of a command. -/
def interrupting (v : U64) : State :=
  { asked 9 0 0 with host := [.resetDuring v], bs := stored [(3, .full)] }

theorem test_witness_ResetDuring :
    (interrupting 1).runState ≠ .busy ∧ 1 ≤ (1 : U64).toNat ∧ (5 : U64).toNat ≤ 5 ∧
      (interrupting 5).bs.wf (interrupting 5).params = true ∧ (interrupting 5).stream.buf.wf = true ∧
      (interrupting 5).stream.bufSize.toNat ≤ 9 ∧ (interrupting 5).stream.buf.openTo ≤ 9 :=
  ⟨by decide, by decide, by decide, by decide +kernel, by decide, by decide, by decide⟩

theorem test_witness_DataRegisters :
    State.reset.runState ≠ .busy ∧ State.reset.host = [] ∧ (merging [] []).runState = .busy ∧
      ({ merging [] [] with host := [.readReg 5] } : State).host = .readReg 5 :: [] := by
  decide

/-- A machine of 48-bit address width, after reset. -/
def wide : State := { State.reset with params := { Params.default with aw := .w48 } }

theorem test_inv_wide : Inv wide where
  params := by decide
  buf := by decide
  store := by decide
  nb := by decide
  size := by decide
  cfg := by decide
  op := by decide
  phase := by decide
  status := by decide
  command := by decide
  writer := by decide
  reader := by decide
  rangeFrom := by decide
  scratch := by decide
  range := by decide
  walk := by decide

theorem test_witness_StatusFields : Inv wide ∧ wide.err = .none := ⟨test_inv_wide, rfl⟩

theorem test_witness_ForbiddenAccesses :
    (merging [] []).runState = .busy ∧ (asked 0 1 0).runState ≠ .busy ∧
      (asked 0 1 0).host = [.writeReg 1 0] ∧ (asked 0 1 6).host = [.writeReg 1 6] := by
  decide

theorem test_witness_DecodeCommandsStart :
    ({ State.reset with op := 0x1C } : State).op.toNat % 16 ≤ 12 ∧
      State.reset.rangeFrom.toNat ≤ State.reset.rangeTo.toNat ∧
      ({ State.reset with rangeTo := 0xFFFFFFFF } : State).rangeTo.toNat < 2 ^ wide.params.aw.bits := by
  decide

theorem test_witness_IllegalConfiguration :
    5 < cfgLevel 0x16 ∧ 5 < cfgLevel 0x17 ∧ 12 < (13 : U64).toNat % 16 ∧ 12 < (15 : U64).toNat % 16 ∧
      ((0 : U64).toNat < (1 : U64).toNat) ∧
      2 ^ State.reset.params.aw.bits ≤ (0x100000000 : U64).toNat := by
  decide

theorem test_witness_SerializeZeroVector :
    (asked 19 1 1).params.Valid ∧ (asked 19 1 1).stream.buf.wf = true ∧ (asked 19 1 1).bs.wf (asked 19 1 1).params = true ∧
      (∀ j, (asked 19 1 1).bs.content j = Content.zero) ∧ 1 ≤ (asked 19 1 1).bsSize ∧
      (asked 19 1 1).bsSize < 2 ^ (asked 19 1 1).params.aw.bits ∧
      cfgLevel (asked 19 1 1).cfg ≤ 5 ∧ 19 ≤ (asked 19 1 1).stream.bufSize.toNat :=
  ⟨by decide, by decide, by decide, fun _ => rfl, by decide, by decide, by decide, by decide⟩

theorem test_witness_DestroyEmpties :
    ({ State.reset with bs := stored [(0, .full), (9, .bit (bitAt 3))] } : State).bs.wf
      Params.default = true := by
  decide +kernel

theorem test_witness_SerializedHeader :
    (asked 64 1 1).params.Valid ∧ (asked 64 1 1).stream.buf.wf = true ∧ 1 ≤ (asked 64 1 1).bsSize ∧
      (asked 64 1 1).bsSize < 2 ^ (asked 64 1 1).params.aw.bits ∧
      ∃ t, exec .serialize (asked 64 1 1) = .next t ∧ t.runState = .done :=
  ⟨by decide, by decide, by decide, by decide, _, rfl, by decide +kernel⟩

theorem test_witness_SerializeCompletes :
    let s := { asked (2 ^ 20 * 65537) 1 1 with bs := stored [(65535, .bit (bitAt 3))] }
    s.params.Valid ∧ s.bs.wf s.params = true ∧ 1 ≤ s.bsSize ∧ s.bsSize < 2 ^ s.params.aw.bits ∧
      cfgLevel s.cfg ≤ 5 ∧ 2 ^ 20 * (s.params.totalBlocks + 1) ≤ s.stream.bufSize.toNat := by
  decide +kernel

theorem test_witness_EndTokens : Walking (merging [] []) ∧ Walking (operating .and [] []) := by
  decide

theorem test_witness_RunMerges :
    ∀ i ∈ [Instr.one8 3, .zero8 0, .zskip 127, .one32 65536, .aone],
      (runOf (merging [] []) i).any
          (fun r => decide ((merging [] []).nb + r.2 ≤ (merging [] []).params.totalBlocks)) = true ∧
        Merging (merging [] []) ∧ (merging [] []).bs.wf (merging [] []).params = true := by
  decide +kernel

theorem test_witness_RunOperates :
    ∀ s ∈ [operating .and [] [], { operating .countXor [(65535, .full)] [] with nb := 65535 }],
      runOf s .one1 = some (true, 1) ∧ Operating s ∧ s.eop ≠ .assign ∧ s.bs.wf s.params = true ∧
        s.nb + 1 ≤ s.params.totalBlocks := by
  decide +kernel

theorem test_witness_RunOverrun :
    let s := { merging [] [] with nb := 65535 }
    runOf s (.zero8 2) = some (false, 2) ∧ Walking s ∧ s.params.totalBlocks < s.nb + 2 ∧
      runOf s (.one8 0) = some (true, 0) ∧ Merging s ∧ s.nb ≤ s.params.totalBlocks ∧
      s.bs.wf s.params = true := by
  decide

theorem test_witness_ReservedTags :
    ∀ i ∈ [Instr.sgapbit, .sgapgap, .gapbit, .unassigned 35, .unassigned 127],
      isReserved i = true ∧ Walking (merging [] []) := by
  decide

theorem test_witness_ReservedByteReported :
    ∀ b ∈ [(12 : Byte), 13, 15, 35, 127], ∀ s ∈ [merging [] [b], operating .sub [] [b]],
      s.host = [] ∧ (Merging s ∨ (Operating s ∧ exitsNow s = false)) ∧ s.nb < s.params.totalBlocks ∧
        s.stream.pos < s.stream.bufSize.toNat ∧ s.stream.buf.read s.stream.pos = b := by
  decide +kernel

theorem test_witness_BlockMerges :
    ∀ s ∈ [merging [] [], { merging [(65535, .bit (bitAt 9))] [] with nb := 65535 }],
      blockForm (.bit1bit 65535) = some .gapBlock ∧
        (tokenOperand (.bit1bit 65535)).isSome = true ∧ blockForm (.gap 9 []) = some .gapBlock ∧
        (tokenOperand (.gap 9 [])).isSome = true ∧ Merging s ∧ s.bs.wf s.params = true ∧
        s.nb < s.params.totalBlocks := by
  decide +kernel

theorem test_witness_BlockMerges_bit :
    blockForm (.bit (List.replicate 2048 0)) = some .bitBlock ∧
      (tokenOperand (.bit (List.replicate 2048 0))).isSome = true ∧
      (merging [(0, .bit (bitAt 9))] []).bs.slot Params.default 0 = .bit (bitAt 9) ∧
      (merging [] []).bs.slot Params.default 0 = .empty :=
  ⟨rfl, by decide +kernel, by decide +kernel, rfl⟩

theorem test_witness_BlockMerges_no_wave :
    blockForm (.bitDigest0 0 []) = some .bitBlock ∧
      (tokenOperand (.bitDigest0 0 [])).isSome = true ∧
      (merging [(0, .bit Content.ones)] []).bs.slot Params.default 0 = .bit Content.ones := by
  decide +kernel

/-- 43_block_decoder.md rule R344: a digest of no wave makes no pass, so a bit block stays one. -/
theorem test_digest_no_wave_keeps_bit :
    after (fun t => (t.bs.at' 0, t.nb))
      (merging [(0, .bit Content.ones)] [0x22, 0, 0, 0, 0, 0, 0, 0, 0]) =
      some (.bit Content.ones, 1) := by
  decide +kernel

theorem test_witness_BlockOperates :
    ∀ s ∈ [operating .xor [(0, .full)] [], { operating .count [] [] with nb := 65535 }],
      blockForm (.arrgap [5, 10]) = some .gapBlock ∧
        (tokenOperand (.arrgap [5, 10])).isSome = true ∧ Operating s ∧ s.bs.wf s.params = true ∧
        s.nb < s.params.totalBlocks := by
  decide +kernel

theorem test_witness_MalformedBlock :
    blockForm (.arrgap [10, 5]) = some .gapBlock ∧ tokenOperand (.arrgap [10, 5]) = none ∧
      Walking (operating .sub [] []) ∧ (operating .sub [] []).bs.wf Params.default = true ∧
      (operating .sub [] []).nb < (operating .sub [] []).params.totalBlocks := by
  decide +kernel

theorem test_witness_MalformedPayloads :
    (2047 : Nat) < (2048 : U16).toNat ∧ 1 < (2 : Byte).toNat ∧
      ([((2047 : U16), ([] : List U32))].map (fun r => r.1.toNat)).sum ≠ 2048 ∧
      gapCount 7 = 0 ∧ rises [5, 5] = false ∧ gapCount 15 < 2 ∧
      65535 < ([(65536 : U32)].map BitVec.toNat).sum ∧ 65536 < (65537 : U32).toNat ∧
      65536 < (65533 : U32).toNat + 4 ∧ (9 : U16).toNat < (10 : U16).toNat ∧
      ([] : List U16).length ≠ (1 : U32).toNat + 2 ∧ ([] : List U16).length + 2 ≠ (3 : U16).toNat ∧
      ([] : List U16).length + 2 ≠ gapCount 24 ∧ 65535 + 1 < 65534 + 3 := by
  decide

theorem test_witness_WellFormedDenotes :
    blockForm (.bitgapBienc 1 2 65534 []) = some .bitBlock ∧
      (Instr.bitgapBienc 1 2 65534 []).wf = true := by
  decide

theorem test_witness_IndexListContent : rises [0, 65535] = true ∧ rises [5, 5] = false := by decide

theorem test_witness_BitFormContent :
    (List.replicate 2048 (1 : U32)).length = 2048 ∧ (Instr.bitInterval 2047 2047 [1]).wf = true ∧
      (Instr.bit0runs 0 [(2047, []), (1, [7])]).wf = true ∧
      (Instr.bitDigest0 0x8000000000000000 (List.replicate 32 1)).wf = true := by
  decide +kernel

theorem test_witness_GapFormContent :
    (Instr.gap 9 []).wf = true ∧ (Instr.gapEgamma 0x10 [65535]).wf = true ∧
      (Instr.gapBienc 0x10 65534 []).wf = true ∧ (Instr.bitgapBienc 1 3 0 [65534]).wf = true := by
  decide +kernel

theorem test_witness_GammaListContent : wfArrGamma 2 [1, 65535] = true := by decide

theorem test_witness_BicListContent :
    1 ≤ (1 : U32).toNat ∧ (1 : U32).toNat + 4 ≤ 65536 ∧ (7 : U16).toNat ≤ (7 : U16).toNat ∧
      [(7 : U16), 7, 7].length = (1 : U32).toNat + 2 ∧ (65532 : U32).toNat + 4 ≤ 65536 ∧
      2 ≤ (2 : U16).toNat ∧ ([] : List U16).length = (2 : U16).toNat - 2 := by
  decide

theorem test_witness_HeaderMerges :
    (⟨0x1A, none, none, some 0⟩ : Header).wf = true ∧
      (⟨0x1A, none, none, some 1⟩ : Header).wf = true ∧
      (⟨0x1A, none, none, some 0xFFFFFFFF⟩ : Header).wf = true ∧
      (⟨0x1A, none, none, some 1⟩ : Header).is64 = decide ((heading 3 []).params.aw = .w48) ∧
      (⟨0x1A, none, none, some 1⟩ : Header).isIdList = false ∧ (heading 3 []).runState = .busy ∧
      (heading 3 []).phase = .header ∧ (heading 3 []).cmd = 3 ∧
      (0xFFFFFFFF : U64).toNat < 2 ^ (heading 3 []).params.aw.bits := by
  refine ⟨by decide, by decide, by decide, by decide, by decide, by decide, by decide, by decide,
    by decide⟩

theorem test_witness_HeaderMerges_wide :
    (⟨0x3A, none, none, some 0x1000000000000⟩ : Header).wf = true ∧
      (⟨0x3A, none, none, some 0xFFFFFFFFFFFF⟩ : Header).wf = true ∧
      (⟨0x3A, none, none, some 0⟩ : Header).is64 = decide (wide.params.aw = .w48) ∧
      2 ^ wide.params.aw.bits = (0x1000000000000 : U64).toNat := by
  refine ⟨by decide, by decide, by decide, by decide⟩

theorem test_witness_HeaderErrors :
    (heading 5 []).runState = .busy ∧ (heading 5 []).phase = .header ∧ (heading 5 []).cmd = 5 ∧
      1 < (2 : Byte).toNat ∧
      (⟨0x31, some 1, none, none⟩ : Header).is64 ≠ decide ((heading 5 []).params.aw = .w48) := by
  decide

theorem test_witness_HeaderOperates :
    ∀ o ∈ [SetOp.assign, .countB], let s := { heading 4 [] with op := (setOpCode o).setWidth 64 }
      (⟨0x19, none, none, none⟩ : Header).wf = true ∧
        (⟨0x19, none, none, none⟩ : Header).is64 = decide (s.params.aw = .w48) ∧
        (⟨0x19, none, none, none⟩ : Header).isIdList = false ∧ s.runState = .busy ∧
        s.phase = .header ∧ s.cmd = 4 ∧ s.rangeSet = false ∧ setOpOf s.op = some o ∧
        s.bs.wf s.params = true := by
  decide +kernel

theorem test_witness_HeaderMasks :
    let s := { heading 5 [] with rangeSet := true, rangeFrom := 5, rangeTo := 0xFFFFFFFF }
    (⟨0x19, none, none, none⟩ : Header).wf = true ∧ s.runState = .busy ∧ s.phase = .header ∧
      s.cmd = 5 ∧ s.rangeSet = true ∧ s.rangeFrom.toNat ≤ s.rangeTo.toNat ∧
      s.rangeTo.toNat < 2 ^ s.params.aw.bits ∧ s.bs.wf s.params = true := by
  refine ⟨by decide, by decide, by decide, by decide, by decide, by decide, by decide, by decide⟩

theorem test_witness_HeaderIdList :
    ∀ s ∈ [heading 3 [3, 0, 0, 0], { heading 4 [3, 0, 0, 0] with op := 0 },
        { heading 5 [3, 0, 0, 0] with rangeSet := true, rangeFrom := 5, rangeTo := 0xFFFFFFFF }],
      ∀ h ∈ [(⟨0x1D, none, none, none⟩ : Header), ⟨0x1E, none, none, some 1⟩,
          ⟨0x1E, none, none, some 0⟩],
        h.wf = true ∧ h.is64 = decide (s.params.aw = .w48) ∧ h.isIdList = true ∧
          s.runState = .busy ∧ s.phase = .header ∧ (s.cmd = 5 → s.rangeSet = true) ∧
          (s.cmd = 4 → setOpOf s.op = some .assign ∧ s.rangeSet = false) ∧
          s.rangeFrom.toNat ≤ s.rangeTo.toNat ∧ s.rangeTo.toNat < 2 ^ s.params.aw.bits ∧
          s.stream.pos + 4 ≤ s.stream.bufSize.toNat ∧ s.bs.wf s.params = true := by
  decide +kernel

theorem test_witness_HeaderIdList_short :
    ∀ s ∈ [heading 3 [3, 0, 0], heading 4 [3, 0, 0], heading 5 []],
      (⟨0x1D, none, none, none⟩ : Header).wf = true ∧
        (⟨0x1D, none, none, none⟩ : Header).is64 = decide (s.params.aw = .w48) ∧
        (⟨0x1D, none, none, none⟩ : Header).isIdList = true ∧ s.runState = .busy ∧
        s.phase = .header ∧ s.bs.wf s.params = true ∧
        ¬ s.stream.pos + 4 ≤ s.stream.bufSize.toNat := by
  decide +kernel

/-- An id list of one id, 65541, whose bytes are at POS. -/
def listing (cmd : U64) : State :=
  { merging [(0, .full)] [0x05, 0x00, 0x01, 0x00] with
    phase := .ids, cmd := cmd, idCnt := 1, st := .listIds, eop := .and }

theorem test_witness_IdListMerges :
    (listing 3).host = [] ∧ (listing 3).runState = .busy ∧ (listing 3).phase = .ids ∧
      (listing 3).cmd = 3 ∧ (listing 3).bs.wf (listing 3).params = true ∧
      (listing 3).idCnt.toNat = [(65541 : U32)].length ∧
      (listing 3).stream.buf.readList (listing 3).stream.pos 4 =
        wireU32s (listing 3).stream.sbo [65541] ∧
      (listing 3).stream.pos + 4 ≤ (listing 3).stream.bufSize.toNat := by
  decide +kernel

theorem test_witness_IdListOperates_forms :
    let masked : State := { listing 5 with rangeSet := true, rangeTo := 65535 }
    let leaving : State := { listing 4 with op := 0x15, eop := .count }
    masked.eop = .and ∧ masked.cmd = 5 ∧
      (∀ j, masked.rangeTo.toNat / 65536 < j → masked.bs.content j = Content.zero) ∧
      leaving.rangeSet = false ∧ exitOnOne leaving.op = true ∧ leaving.eop ≠ .assign := by
  refine ⟨by decide, by decide, fun j hj => ?_, by decide, by decide, by decide⟩
  have h0 : (stored [(0, .full)]) = [(0, .full), (1, .empty)] := by decide +kernel
  show (stored [(0, .full)]).content j = _
  have h1 : 0 < j := Nat.lt_of_le_of_lt (Nat.zero_le _) hj
  have h2 : ¬ j < 0 := Nat.not_lt_zero j
  have h3 : ¬ j < 1 := by omega
  simp [h0, BlockStore.content, BlockStore.at', BlockStore.slotFrom, h3, Slot.content]

theorem test_witness_IdListOperates :
    (listing 4).host = [] ∧ (listing 4).runState = .busy ∧ (listing 4).phase = .ids ∧
      (listing 4).cmd = 4 ∧ (listing 4).st = .listIds ∧ (listing 4).eop ≠ .assign ∧
      (listing 4).rangeSet = false ∧ exitOnOne (listing 4).op = false ∧ (listing 4).nb = 0 ∧
      (listing 4).count = 0 ∧ (listing 4).idCnt.toNat = [(65541 : U32)].length ∧
      ∃ B : Nat → Content, ∀ j p, p < 65536 → (B j).getLsbD p = listedBit [65541] j p := by
  refine ⟨by decide, by decide, by decide, by decide, by decide, by decide, by decide, by decide,
    by decide, by decide, by decide, fun j => if j = 1 then bitAt 5 else 0, fun j p hp => ?_⟩
  have e : listedBit [65541] j p = decide (65541 = 65536 * j + p) := by
    simp [listedBit]
  rw [e]
  show (if j = 1 then bitAt 5 else (0 : Content)).getLsbD p = _
  by_cases hj : j = 1
  · subst hj
    rw [if_pos rfl, getLsbD_bitAt (by decide)]
    exact decide_eq_decide.2 (by omega)
  · rw [if_neg hj, decide_eq_false (by omega)]
    exact BitVec.getLsbD_zero

theorem test_witness_StepRunsDecoded :
    (∃ c, decodeToken (operating .or [] [0x13, 0x40, 0x42]).stream = .ok (.bit1bit 16960) c) ∧
      Operating (operating .or [] [0x13, 0x40, 0x42]) ∧
      exitsNow (operating .or [] [0x13, 0x40, 0x42]) = false ∧
      (∃ c, decodeHeader .w32 (heading 3 [0x19]).stream =
        .ok (.streamHeader ⟨0x19, none, none, none⟩) c) ∧
      (asked 0 1 5).runState ≠ .busy ∧ decodeCommand 5 = some .rangeDeserialize :=
  ⟨⟨_, rfl⟩, by decide, by decide, ⟨_, rfl⟩, by decide, by decide⟩

theorem test_witness_TruncatedStream :
    (∃ d, decodeToken (merging [] [0x13, 0x05]).stream = .error (.precondition .buffer) d) ∧
      (∃ d, decodeToken (merging [] []).stream = .error (.precondition .buffer) d) ∧
      Merging (merging [] []) ∧ (merging [] []).nb < (merging [] []).params.totalBlocks :=
  ⟨⟨_, rfl⟩, ⟨_, rfl⟩, by decide, by decide⟩

theorem test_witness_TruncatedStream_header :
    (∃ d, decodeHeader .w32 (heading 3 [0x1A, 5]).stream = .error (.precondition .buffer) d) ∧
      (heading 3 [0x1A, 5]).host = [] ∧ (heading 3 [0x1A, 5]).runState = .busy ∧
      (heading 3 [0x1A, 5]).phase = .header :=
  ⟨⟨_, rfl⟩, by decide, by decide, by decide⟩

theorem test_witness_TruncatedStream_ids :
    let s := { listing 3 with idCnt := 2 }
    s.host = [] ∧ s.runState = .busy ∧ s.phase = .ids ∧ s.bs.wf s.params = true ∧
      [(65541 : U32)].length < s.idCnt.toNat ∧
      s.stream.buf.readList s.stream.pos 4 = wireU32s s.stream.sbo [65541] ∧
      s.stream.pos + 4 ≤ s.stream.bufSize.toNat ∧
      s.stream.bufSize.toNat < s.stream.pos + 4 * (1 + 1) := by
  decide +kernel

theorem test_witness_MergeEnds :
    ∀ s ∈ [{ merging [] [0x01] with eos := true }, { merging [] [0x01] with nb := 65536 }],
      s.host = [] ∧ s.runState = .busy ∧ s.phase = .tokens ∧ s.cmd = 3 ∧
        (s.eos = true ∨ s.params.totalBlocks ≤ s.nb) := by
  decide +kernel

theorem test_witness_OperationFinalizes :
    ∀ s ∈ [{ operating .xor [(7, .full)] [] with eos := true },
        { operating .countA [] [] with nb := 65536 }],
      s.host = [] ∧ s.runState = .busy ∧ s.phase = .tokens ∧ s.cmd = 4 ∧ s.st = .blocks ∧
        s.eop ≠ .assign ∧ s.bs.wf s.params = true ∧ s.nb ≤ s.params.totalBlocks ∧
        (s.eos = true ∨ (exitsNow s = false ∧ s.nb = s.params.totalBlocks)) := by
  decide +kernel

theorem test_witness_OperationExits :
    ∀ s ∈ [{ operating .count [] [] with op := 0x15, count := 1 },
        { operating .and [] [] with cmd := 5, rangeSet := true, rangeTo := 65535, nb := 1 }],
      s.host = [] ∧ Operating s ∧
        (exitOnOne s.op = true ∧ s.count ≠ 0 ∨
          s.rangeSet = true ∧ s.rangeTo.toNat / 65536 < s.nb) := by
  decide

theorem test_witness_DecodeEncodeBytes :
    ∀ i ∈ [Instr.zero64 (BitVec.allOnes 64), .gap 9 [], .arrbit [], .zskip 0, .unassigned 127],
      byteCoded i = true ∧ i.wf = true ∧ (encodeAs false i ++ [0xFF]).length < 2 ^ 64 := by
  decide

theorem test_witness_DecodeEncodeGamma :
    gammaCoded (.gapEgamma 8 []) = true ∧ (Instr.gapEgamma 8 []).wf = true ∧
      gammaCoded (.arrgapEgamma 2 [1, 65535]) = true ∧ (Instr.arrgapEgamma 2 [1, 65535]).wf = true ∧
      (encodeAs true (.arrgapEgamma 2 [1, 65535]) ++ [0xFF]).length < 2 ^ 64 := by
  decide +kernel

theorem test_witness_DecodeEncodeBic :
    bicCoded (.gapBienc 0x10 65534 []) = true ∧ (Instr.gapBienc 0x10 65534 []).wf = true ∧
      bicCoded (.arrBienc 0 65535 3 [1]) = true ∧ (Instr.arrBienc 0 65535 3 [1]).wf = true ∧
      (encodeAs true (.arrBienc 0 65535 3 [1]) ++ [0xFF]).length < 2 ^ 64 := by
  decide +kernel

theorem test_witness_DecodeEncodeHeader :
    ∀ h ∈ [(⟨0x21, some 0, some ⟨1, 2, 3, 4⟩, none⟩ : Header), ⟨0x3A, none, none, some 5⟩],
      h.wf = true ∧ h.is64 = decide (AddrWidth.w48 = .w48) := by
  decide

theorem test_witness_DecodeDrains :
    (∃ d, decodeToken (merging [] [0x13, 0x40, 0x42]).stream = .ok (.bit1bit 16960) d) ∧
      (Instr.bit1bit 16960).wf = true ∧ (merging [] [0x13, 0x40, 0x42]).stream.ravail = 0 ∧
      (merging [] [0x13, 0x40, 0x42]).stream.racc = 0 :=
  ⟨⟨_, rfl⟩, by decide, by decide, by decide⟩

theorem test_witness_PutThenGet :
    (merging [] []).stream.buf.wf = true ∧
      ({ (merging [] []).stream with bufSize := 4 } : Stream).pos + 4 ≤ (4 : U64).toNat ∧
      (3 : U64).toNat < ({ (merging [] []).stream with bufSize := 3 } : Stream).pos + 4 := by
  decide

theorem test_witness_FusedPasses :
    let s := merging [] [1, 2, 3, 4]
    2047 + 1 ≤ 2048 ∧ s.stream.pos + 4 * 1 ≤ s.stream.bufSize.toNat ∧ 0 < 2 ∧
      s.stream.bufSize.toNat < s.stream.pos + 4 * 2 := by
  decide

theorem test_witness_RunEmission :
    (asked 9 0 0).stream.buf.wf = true ∧ 1 ≤ 1 ∧ 2 ^ 64 - 1 < 2 ^ 64 ∧
      (asked 9 0 0).stream.pos + 9 ≤ (asked 9 0 0).stream.bufSize.toNat := by
  decide

theorem test_witness_BitBlockEmission :
    let s := asked (2 ^ 20) 1 1
    s.params.Valid ∧ s.stream.buf.wf = true ∧ cfgLevel s.cfg ≤ 5 ∧ s.stream.wacc = 0 ∧ s.stream.wused = 0 ∧
      bitAt 65535 ≠ Content.zero ∧ bitAt 65535 ≠ Content.ones ∧
      s.stream.pos + 2 ^ 20 ≤ s.stream.bufSize.toNat := by
  decide +kernel

theorem test_witness_GapBlockEmission :
    let s := asked (2 ^ 20) 1 1
    s.params.Valid ∧ s.stream.buf.wf = true ∧ cfgLevel s.cfg ≤ 5 ∧ s.stream.wacc = 0 ∧ s.stream.wused = 0 ∧
      s.stream.pos + 2 ^ 20 ≤ s.stream.bufSize.toNat ∧
      Slot.wf s.params (.gap 3 true [65534, 65535]) = true ∧
      gapRuns true 0 [65534, 65535] ≠ Content.zero ∧
      gapRuns true 0 [65534, 65535] ≠ Content.ones := by
  decide +kernel

theorem test_witness_Selection :
    ∀ s ∈ [(⟨1, 3, 6, 16⟩ : Stats), ⟨0xFFFFFFFFFFFFFFFF, 65535, 2, 8194⟩], s.d0 ≠ 0 ∧ s.bc ≠ 65536 := by
  decide

theorem test_witness_ClassifierTables :
    classifyGap 5 true [0, 65535] = .bit1bit ∧ classifyGap 4 false [4, 5, 9, 10, 98, 99, 65535] = .arrgapEgamma ∧
      classifyGap 3 true [4, 5, 9, 10, 98, 99, 65535] = .arrgapInv ∧
      classifyGap 2 true [99, 65535] = .gap := by
  decide +kernel

theorem test_witness_RoundTrip :
    let s := { asked 64 1 1 with bs := stored [(15, .bit (bitAt 16960))] }
    s.params.Valid ∧ s.stream.buf.wf = true ∧ s.bs.wf s.params = true ∧ 1 ≤ s.bsSize ∧ s.bsSize < 2 ^ s.params.aw.bits ∧
      cfgLevel s.cfg ≤ 5 ∧ (∃ t, exec .serialize s = .next t ∧ t.runState = .done) ∧
      (∃ t, exec .serializeDestroy { s with bs := [] } = .next t ∧ t.runState = .done) ∧
      State.reset.params.Valid ∧ State.reset.params.aw = s.params.aw ∧
      State.reset.runState ≠ .busy ∧ (∀ j, State.reset.bs.at' j = .empty) ∧
      State.reset.bs.wf State.reset.params = true ∧
      s.bs.content (s.params.totalBlocks - 1) = Content.zero :=
  ⟨by decide, by decide, by decide +kernel, by decide, by decide, by decide, ⟨_, rfl, by decide +kernel⟩,
    ⟨_, rfl, by decide +kernel⟩, by decide, by decide, by decide, fun _ => rfl, by decide, by decide +kernel⟩

theorem test_witness_RoundTrip_end :
    let s := { asked 64 1 1 with bs := stored [(65535, .full)] }
    s.bs.wf s.params = true ∧ (∃ t, exec .serialize s = .next t ∧ t.runState = .done) ∧
      s.bs.content (s.params.totalBlocks - 1) ≠ Content.zero :=
  ⟨by decide +kernel, ⟨_, rfl, by decide +kernel⟩, by decide +kernel⟩

theorem test_witness_InvariantKept : Inv wide ∧ step wide = .next wide := ⟨test_inv_wide, rfl⟩

end Sys2Proof.Tests
end

/-! The host registers and reset (10_state.md rules R40, R42, R44, R52): what the host port does with each
event these rules speak of, the fields of CFG, OP and STATUS as numbers, what a command start leaves, and the
obligations that follow. -/

namespace Sys2Proof.Machine

/-! ### The host port, event by event -/

section HostPort

variable {s : State} {rest : List HostEvent} {v : U64} {i : Instr}

theorem step_writeCfg (h : s.host = .writeReg 0 v :: rest) (hb : s.runState ≠ .busy) :
    step s = .next { s with host := rest, cfg := cfgMask v } :=
  (step_host h nofun).trans (if_neg hb)

theorem step_writeOp (h : s.host = .writeReg 2 v :: rest) (hb : s.runState ≠ .busy) :
    step s = .next { s with host := rest, op := opMask v } :=
  (step_host h nofun).trans (if_neg hb)

theorem step_writeCmd (h : s.host = .writeReg 1 v :: rest) (hb : s.runState ≠ .busy)
    (hi : decodeCommand v = some i) : step s = exec i { s with host := rest } := by
  rw [step_host h nofun, hostStep, writeReg, if_neg hb, hi]

/-- A value that is no command's code is refused (70_reset_and_hazards.md rule R572). -/
theorem step_writeCmd_refused (h : s.host = .writeReg 1 v :: rest) (hb : s.runState ≠ .busy)
    (hi : decodeCommand v = none) : step s = .refused .illegalCommand := by
  rw [step_host h nofun, hostStep, writeReg, if_neg hb, hi]

theorem step_readCfg (h : s.host = .readReg 0 :: rest) (hb : s.runState ≠ .busy) :
    step s = .next { s with host := rest, hostData := s.cfg } :=
  (step_host h nofun).trans (if_neg (by simpa using hb))

theorem step_readOp (h : s.host = .readReg 2 :: rest) (hb : s.runState ≠ .busy) :
    step s = .next { s with host := rest, hostData := s.op } :=
  (step_host h nofun).trans (if_neg (by simpa using hb))

theorem step_reset (h : s.host = .reset :: rest) :
    step s = .next (resetMachine { s with host := rest }) := step_host h nofun

theorem step_resetDuring (h : s.host = .resetDuring v :: rest) (hb : s.runState ≠ .busy)
    (hi : decodeCommand v = some i) :
    step s = .next (resetDuringCommand i { s with host := rest }) := by
  rw [step_host h nofun, hostStep, whenIdle, if_neg hb, hi]

end HostPort

/-! ### The codes of CMD (rule R41) -/

/-- The codes 1..5 are commands. -/
theorem decodeCommand_isSome {v : U64} (h1 : 1 ≤ v.toNat) (h5 : v.toNat ≤ 5) :
    ∃ i, decodeCommand v = some i := by
  unfold decodeCommand
  interval_cases v.toNat <;> exact ⟨_, rfl⟩

/-- What a value written to CMD can start. -/
theorem decodeCommand_cases {v : U64} {i : Instr} (h : decodeCommand v = some i) :
    i = .serialize ∨ i = .serializeDestroy ∨ i = .deserialize ∨ i = .opDeserialize ∨
      i = .rangeDeserialize := by
  unfold decodeCommand at h
  split at h <;> cases h <;> simp

/-! ### The fields of CFG and OP -/

theorem toNat_extractLsb' {w : Nat} (x : BitVec w) (k n : Nat) :
    (x.extractLsb' k n).toNat = x.toNat / 2 ^ k % 2 ^ n := by
  rw [BitVec.extractLsb'_toNat, Nat.shiftRight_eq_div_pow]

/-- The mask of CFG and of OP keeps the five low bits. -/
theorem toNat_mask5 (v : U64) : (v &&& 0x1F).toNat = v.toNat % 32 := by
  rw [BitVec.toNat_and]
  exact Nat.and_two_pow_sub_one_eq_mod v.toNat 5

theorem getLsbD_mask5 (v : U64) (k : Nat) : (v &&& 0x1F).getLsbD k = (decide (k < 5) && v.getLsbD k) := by
  rw [getLsbD_testBit, toNat_mask5, getLsbD_testBit]
  exact Nat.testBit_mod_two_pow v.toNat 5 k

theorem cfgLevel_eq_mod (c : U64) : cfgLevel c = c.toNat % 8 := by
  simp [cfgLevel]

theorem cfgLevel_cfgMask (v : U64) : cfgLevel (cfgMask v) = v.toNat % 8 := by
  rw [cfgLevel_eq_mod, cfgMask, toNat_mask5, Nat.mod_mod_of_dvd _ (by decide)]

theorem cfgGapl_cfgMask (v : U64) : cfgGapl (cfgMask v) = v.getLsbD 3 := getLsbD_mask5 v 3

theorem cfgBo_cfgMask (v : U64) : cfgBo (cfgMask v) = v.getLsbD 4 := getLsbD_mask5 v 4

theorem cfgMask_high (v : U64) {k : Nat} (hk : 5 ≤ k) : (cfgMask v).getLsbD k = false := by
  rw [cfgMask, getLsbD_mask5, decide_eq_false (by omega), Bool.false_and]

theorem exitOnOne_opMask (v : U64) : exitOnOne (opMask v) = v.getLsbD 4 := getLsbD_mask5 v 4

theorem opMask_high (v : U64) {k : Nat} (hk : 5 ≤ k) : (opMask v).getLsbD k = false := cfgMask_high v hk

/-- SETOP, the low four bits, names the operation whose code it holds. -/
theorem setOpOf_eq_some_iff (op : U64) (o : SetOp) :
    setOpOf op = some o ↔ op.toNat % 16 = (setOpCode o).toNat := by
  have hcode : (op.extractLsb' 0 4).toNat = op.toNat % 16 := by simp
  rw [setOpOf, hcode]
  constructor
  · intro h
    split at h <;> cases h <;> assumption
  · intro h
    rw [h]
    cases o <;> rfl

theorem setOpCode_le (o : SetOp) : (setOpCode o).toNat ≤ 12 := by
  cases o <;> decide

/-- The codes from 13 on name no operation. -/
theorem setOpOf_eq_none {op : U64} (h : 12 < op.toNat % 16) : setOpOf op = none := by
  rw [Option.eq_none_iff_forall_ne_some]
  intro o ho
  have hcode := (setOpOf_eq_some_iff op o).1 ho
  have hle := setOpCode_le o
  omega

theorem setOpOf_opMask (v : U64) (o : SetOp) :
    setOpOf (opMask v) = some o ↔ v.toNat % 16 = (setOpCode o).toNat := by
  rw [setOpOf_eq_some_iff, opMask, toNat_mask5, Nat.mod_mod_of_dvd _ (by decide)]

/-! ### The fields of STATUS (rule R44) -/

section Status

variable (s : State)

theorem runStateCode_lt (r : RunState) : runStateCode r < 4 := by
  cases r <;> decide

theorem ErrKind.code_lt (e : ErrKind) : e.code < 16 := by
  cases e <;> decide

theorem toNat_statusWord :
    (statusWord s).toNat = runStateCode s.runState + 4 * s.err.code + 64 * s.cause.toNat := by
  have hstate := runStateCode_lt s.runState
  have herr := s.err.code_lt
  have hcause := s.cause.isLt
  rw [statusWord, BitVec.toNat_ofNat]
  omega

theorem statusWord_state :
    (statusWord s).extractLsb' 0 2 = BitVec.ofNat 2 (runStateCode s.runState) := by
  apply BitVec.eq_of_toNat_eq
  rw [toNat_extractLsb', toNat_statusWord, BitVec.toNat_ofNat]
  omega

theorem statusWord_err : (statusWord s).extractLsb' 2 4 = BitVec.ofNat 4 s.err.code := by
  have hstate := runStateCode_lt s.runState
  apply BitVec.eq_of_toNat_eq
  rw [toNat_extractLsb', toNat_statusWord, BitVec.toNat_ofNat]
  omega

theorem statusWord_cause : (statusWord s).extractLsb' 6 4 = s.cause := by
  have hstate := runStateCode_lt s.runState
  have herr := s.err.code_lt
  have hcause := s.cause.isLt
  apply BitVec.eq_of_toNat_eq
  rw [toNat_extractLsb', toNat_statusWord]
  omega

theorem statusWord_high : (statusWord s).extractLsb' 10 54 = 0 := by
  have hstate := runStateCode_lt s.runState
  have herr := s.err.code_lt
  have hcause := s.cause.isLt
  apply BitVec.eq_of_toNat_eq
  rw [toNat_extractLsb', toNat_statusWord]
  show _ = 0
  omega

/-- Between two steps CAUSE is 0 unless an error is reported. -/
theorem Inv.cause_eq_zero {s : State} (hi : Inv s) (he : s.err = .none) : s.cause = 0 := by
  rcases hi.status with ⟨-, herr⟩ | ⟨-, -, hcause⟩
  · exact absurd he herr
  · exact hcause

end Status

/-! ### Reset (rule R52) -/

/-- The registers that reset writes hold their reset values, whatever the memories hold. -/
theorem afterReset_resetOver (p : Params) (buf : Memory) (bs : BlockStore) (size draws : Nat)
    (host : List HostEvent) (hostData : U64) :
    AfterReset (State.resetOver p buf bs size draws host hostData) := by
  have hcfg : cfgLevel State.cfgReset = 5 ∧ cfgGapl State.cfgReset = false ∧
      cfgBo State.cfgReset = true := by decide
  obtain ⟨hlevel, hgapl, hbo⟩ := hcfg
  exact ⟨rfl, rfl, rfl, hlevel, hgapl, hbo, rfl, rfl, rfl, rfl, rfl, rfl, rfl, rfl, rfl, rfl, rfl, rfl,
    rfl, rfl, rfl, rfl, rfl, rfl⟩

theorem afterReset_resetMachine (s : State) : AfterReset (resetMachine s) :=
  afterReset_resetOver _ _ _ _ _ _ _

theorem afterReset_resetDuringCommand (i : Instr) (s : State) : AfterReset (resetDuringCommand i s) := by
  unfold resetDuringCommand
  split <;> exact afterReset_resetOver _ _ _ _ _ _ _

theorem AfterReset.not_busy {s : State} (h : AfterReset s) : s.runState ≠ .busy := by
  obtain ⟨hidle, -⟩ := h
  simp [hidle]

/-! ### Starting a command -/

section Start

variable {s : State}

theorem requireLevel_error (h : 5 < cfgLevel s.cfg) :
    requireLevel s = .error (.precondition .config) s := by
  simp [requireLevel, run_bind, h]

theorem beginOp_error (h : setOpOf s.op = none) : beginOp s = .error (.precondition .config) s := by
  simp [beginOp, run_bind, h]

/-- A serialize command at an illegal level ends at once (46_host_commands.md rule R493). -/
theorem exec_serialize_illegalLevel (h : 5 < cfgLevel s.cfg) :
    exec .serialize s = .next (takeError (.precondition .config) (startCommand 1 s)) ∧
      exec .serializeDestroy s = .next (takeError (.precondition .config) (startCommand 2 s)) :=
  ⟨congrArg Host.Outcome.next (settle_error (run_bind_error (requireLevel_error h))),
    congrArg Host.Outcome.next (settle_error (run_bind_error (requireLevel_error h)))⟩

/-- OP_DESERIALIZE with an illegal SETOP ends at once (46_host_commands.md rule R493). -/
theorem exec_opDeserialize_illegalOp (h : setOpOf s.op = none) :
    exec .opDeserialize s = .next (takeError (.precondition .config) (startCommand 4 s)) :=
  congrArg Host.Outcome.next (settle_error (beginOp_error h))

/-- A command that still runs after its pseudocode has not raised. -/
theorem settle_busy {m : M Unit} (hb : (settle m s).runState = .busy) : m s = .ok () (settle m s) := by
  cases hm : m s with
  | ok a u => rw [settle_ok hm]
  | error e u =>
    rw [settle_error hm] at hb
    obtain ⟨herror, -⟩ := reports_takeError e u
    rw [herror] at hb
    cases hb

/-- The pseudocode, if it does not raise, ends the command. -/
def EndsDone (x : M Unit) : Prop := ∀ s t, x s = .ok () t → t.runState = .done

theorem EndsDone.bind {α : Type} {x : M α} {f : α → M Unit} (hf : ∀ a, EndsDone (f a)) :
    EndsDone (x >>= f) := by
  intro s t h
  obtain ⟨a, u, -, hu⟩ := of_run_bind h
  exact hf a u t hu

theorem endsDone_finishBytes : EndsDone finishBytes := by
  intro s t h
  cases h
  rfl

theorem endsDone_runSerialize : EndsDone runSerialize :=
  .bind fun _ => .bind fun _ => .bind fun _ => .bind fun _ => endsDone_finishBytes

theorem endsDone_runSerializeDestroy : EndsDone runSerializeDestroy :=
  .bind fun _ => .bind fun _ => .bind fun _ => .bind fun _ => .bind fun _ => .bind fun _ =>
    .bind fun _ => endsDone_finishBytes

/-- A serialize command does not outlast the step that starts it. -/
theorem EndsDone.settle_not_busy {m : M Unit} (hm : EndsDone m) : (settle m s).runState ≠ .busy := by
  intro hb
  have hdone := hm _ _ (settle_busy hb)
  rw [hdone] at hb
  cases hb

theorem beginOp_legal (h : setOpOf s.op ≠ none) : beginOp s = .ok () { s with phase := .header } := by
  simp [beginOp, run_bind, h, setPhase]

theorem beginRange_error
    (h : s.rangeTo.toNat < s.rangeFrom.toNat ∨ 2 ^ s.params.aw.bits ≤ s.rangeTo.toNat) :
    beginRange s = .error (.precondition .range) s := by
  simp [beginRange, run_bind, h]

theorem beginRange_legal (h1 : s.rangeFrom.toNat ≤ s.rangeTo.toNat)
    (h2 : s.rangeTo.toNat < 2 ^ s.params.aw.bits) :
    beginRange s = .ok () { s with phase := .header } := by
  simp [beginRange, run_bind, Nat.not_lt.2 h1, Nat.not_le.2 h2, setPhase]

/-- OP_DESERIALIZE, if its guard lets it pass, only moves on to the header. -/
theorem beginOp_ok {t : State} (h : beginOp s = .ok () t) : t = { s with phase := .header } := by
  by_cases hop : setOpOf s.op = none
  · rw [beginOp_error hop] at h
    cases h
  · rw [beginOp_legal hop] at h
    cases h
    rfl

/-- RANGE_DESERIALIZE, if its guard lets it pass, only moves on to the header. -/
theorem beginRange_ok {t : State} (h : beginRange s = .ok () t) : t = { s with phase := .header } := by
  by_cases hr : s.rangeTo.toNat < s.rangeFrom.toNat ∨ 2 ^ s.params.aw.bits ≤ s.rangeTo.toNat
  · rw [beginRange_error hr] at h
    cases h
  · rw [beginRange_legal (by omega) (by omega)] at h
    cases h
    rfl

/-- A command that runs on after its start is to read its header next, from offset 0. -/
theorem exec_command_busy {v : U64} {i : Instr} {t : State} (hi : decodeCommand v = some i)
    (h : exec i s = .next t) (hb : t.runState = .busy) : t.phase = .header ∧ t.stream.pos = 0 := by
  rcases decodeCommand_cases hi with rfl | rfl | rfl | rfl | rfl <;> cases h
  case inl => exact absurd hb endsDone_runSerialize.settle_not_busy
  case inr.inl => exact absurd hb endsDone_runSerializeDestroy.settle_not_busy
  case inr.inr.inl => exact ⟨rfl, rfl⟩
  case inr.inr.inr.inl =>
    rw [beginOp_ok (settle_busy hb)]
    exact ⟨rfl, rfl⟩
  case inr.inr.inr.inr =>
    rw [beginRange_ok (settle_busy hb)]
    exact ⟨rfl, rfl⟩

/-- A write to CMD that leaves a command running leaves it before its header, at offset 0. -/
theorem step_writeCmd_busy {t : State} {v : U64} {rest : List HostEvent}
    (hs : s.runState ≠ .busy) (hh : s.host = .writeReg 1 v :: rest) (h : step s = .next t)
    (hb : t.runState = .busy) : t.phase = .header ∧ t.stream.pos = 0 := by
  cases hi : decodeCommand v with
  | none =>
    rw [step_writeCmd_refused hh hs hi] at h
    cases h
  | some i =>
    rw [step_writeCmd hh hs hi] at h
    exact exec_command_busy hi h hb

end Start

/-! ### The obligations -/

/-- Settles O1: both kinds of reset write the registers through `State.resetOver`, and a step of the
engine fetches only while a command runs. -/
theorem resetRegisters : Obligations.ResetRegisters := by
  refine ⟨afterReset_resetOver _ _ _ _ _ _ _, fun s rest hh => ?_, fun s rest v hh hb h1 h5 => ?_,
    fun s hs hh => ?_, fun s t v hs hh => step_writeCmd_busy hs.not_busy hh⟩
  · exact ⟨_, step_reset hh, afterReset_resetMachine _⟩
  · obtain ⟨i, hi⟩ := decodeCommand_isSome h1 h5
    exact ⟨_, step_resetDuring hh hb hi, afterReset_resetDuringCommand i _⟩
  · rw [step_engine hh, engineStep_idle hs.not_busy]

/-- Settles O3: a write leaves `cfgMask v` in CFG, and both serialize commands test LEVEL first. -/
theorem configRegister : Obligations.ConfigRegister := by
  intro s v rest hh hb
  refine ⟨{ s with host := rest, cfg := cfgMask v }, step_writeCfg hh hb, rfl,
    cfgLevel_cfgMask v, cfgGapl_cfgMask v, cfgBo_cfgMask v, fun k => cfgMask_high v, fun hlevel i hi => ?_,
    fun more => step_readCfg rfl hb⟩
  rw [← cfgLevel_cfgMask v] at hlevel
  obtain ⟨hser, hdestroy⟩ :=
    exec_serialize_illegalLevel (s := { s with host := rest, cfg := cfgMask v }) hlevel
  rcases hi with rfl | rfl
  · exact ⟨_, hser, reports_takeError _ _⟩
  · exact ⟨_, hdestroy, reports_takeError _ _⟩

/-- Settles O4: a write leaves `opMask v` in OP, and OP_DESERIALIZE tests SETOP first. -/
theorem opRegister : Obligations.OpRegister := by
  refine ⟨by decide, fun s v rest hh hb => ?_⟩
  refine ⟨{ s with host := rest, op := opMask v }, step_writeOp hh hb, rfl, setOpOf_opMask v,
    exitOnOne_opMask v, fun k => opMask_high v, fun hop => ?_, fun more => step_readOp rfl hb⟩
  have hnone : setOpOf (opMask v) = none := by
    apply setOpOf_eq_none
    rwa [opMask, toNat_mask5, Nat.mod_mod_of_dvd _ (by decide)]
  exact ⟨_, exec_opDeserialize_illegalOp hnone, reports_takeError _ _⟩

/-- Settles O6: each field is read off `toNat_statusWord`, and a SerialFormat error writes its own code to
CAUSE. -/
theorem statusFields : Obligations.StatusFields := by
  intro s
  refine ⟨?_, ?_, statusWord_cause s, statusWord_high s, Inv.cause_eq_zero, fun c => ?_⟩
  · rw [statusWord_state]
    cases s.runState <;> rfl
  · rw [statusWord_err]
    cases s.err <;> rfl
  · obtain ⟨-, -, -, hcause⟩ := reports_takeError (.serialFormat c) s
    rw [statusWord_cause, hcause]
    cases c <;> rfl

end Sys2Proof.Machine

/-! The fused read forms (20_memory.md rule R69): the words a pass reads from the stream, what the pass makes
of each word of its target, and the obligation that follows. -/

namespace Sys2Proof.Machine

/-! ### The words of the stream -/

/-- Word `i` of the u32 array that starts at POS (20_memory.md rules R65, R68). -/
def streamWord (c : Stream) (i : Nat) : U32 :=
  BitVec.ofNat 32 (bytesValue c.sbo (c.buf.readList (c.pos + 4 * i) 4))

/-- The `n` words from POS on. -/
def streamWords (c : Stream) (n : Nat) : List U32 := (List.range n).map (streamWord c)

@[simp] theorem length_streamWords (c : Stream) (n : Nat) : (streamWords c n).length = n := by
  simp [streamWords]

theorem getD_streamWords (c : Stream) {n i : Nat} (hi : i < n) :
    (streamWords c n).getD i 0 = streamWord c i := by
  simp [streamWords, List.getD_eq_getElem?_getD, hi]

theorem streamWords_succ (c : Stream) (n : Nat) :
    streamWords c (n + 1) = streamWord c 0 :: streamWords { c with pos := c.pos + 4 } n := by
  rw [streamWords, List.range_succ_eq_map, List.map_cons, List.map_map, streamWords]
  congr 1
  refine List.map_congr_left fun i _ => ?_
  simp only [Function.comp, streamWord]
  rw [show c.pos + 4 * (i + 1) = c.pos + 4 + 4 * i by omega]

theorem getU32Array_fits {n : Nat} {c : Stream} (h : c.pos + 4 * n ≤ c.bufSize.toNat) :
    getU32Array n c = .ok (streamWords c n) { c with pos := c.pos + 4 * n } := by
  induction n generalizing c with
  | zero => rfl
  | succ n ih =>
    have hrest := ih (c := { c with pos := c.pos + 4 }) (by dsimp only; omega)
    rw [getU32Array, run_bind, run_getU32, if_neg (by omega)]
    dsimp only
    rw [run_bind, hrest, streamWords_succ]
    dsimp only
    rw [run_pure, show c.pos + 4 + 4 * n = c.pos + 4 * (n + 1) by omega]
    rfl

/-- An array that does not fit faults at its first word past the end (rule R66). -/
theorem getU32Array_overrun {n : Nat} {c : Stream} (h0 : 0 < n)
    (h : c.bufSize.toNat < c.pos + 4 * n) :
    ∃ d, getU32Array n c = .error (.precondition .buffer) d := by
  induction n generalizing c with
  | zero => exact absurd h0 (Nat.lt_irrefl 0)
  | succ n ih =>
    rw [getU32Array, run_bind, run_getU32]
    by_cases hfirst : c.bufSize.toNat < c.pos + 4
    · rw [if_pos hfirst]
      exact ⟨_, rfl⟩
    · obtain ⟨d, hd⟩ :=
        ih (c := { c with pos := c.pos + 4 }) (by omega) (by dsimp only; omega)
      rw [if_neg hfirst]
      dsimp only
      rw [run_bind, hd]
      exact ⟨_, rfl⟩

theorem seek_overrun {n : Nat} {c : Stream} (h : c.bufSize.toNat < c.pos + n) :
    seek n c = .error (.precondition .buffer) c := by
  simp [seek, run_bind, h]

/-! ### The words of a content -/

theorem mem_wordsFrom {c : Content} {k n : Nat} {x : U32} :
    x ∈ wordsFrom c k n ↔ ∃ i, k ≤ i ∧ i < k + n ∧ wordAt c i = x := by
  induction n generalizing k with
  | zero => simpa [wordsFrom] using fun i _ _ => by omega
  | succ n ih =>
    rw [wordsFrom, List.mem_cons, ih]
    constructor
    · rintro (rfl | ⟨i, hlo, hhi, rfl⟩)
      · exact ⟨k, Nat.le_refl k, by omega, rfl⟩
      · exact ⟨i, by omega, by omega, rfl⟩
    · rintro ⟨i, hlo, hhi, rfl⟩
      rcases Nat.eq_or_lt_of_le hlo with rfl | hlt
      · exact .inl rfl
      · exact .inr ⟨i, hlt, by omega, rfl⟩

theorem wordAt_or (a b : Content) (i : Nat) : wordAt (a ||| b) i = wordAt a i ||| wordAt b i :=
  BitVec.extractLsb'_or

theorem wordAt_contentOfWords (k : Nat) (ws : List U32) {i : Nat} (hi : i < 2048) :
    wordAt (contentOfWords k ws) i = if k ≤ i then ws.getD (i - k) 0 else 0 := by
  refine BitVec.eq_of_getLsbD_eq fun b hb => ?_
  rw [getLsbD_wordAt _ _ hb, getLsbD_contentOfWords k ws (by omega),
    show (32 * i + b) / 32 = i by omega, show (32 * i + b) % 32 = b by omega]
  by_cases hk : k ≤ i
  · rw [if_pos hk, decide_eq_true (by omega), Bool.true_and]
  · rw [if_neg hk, decide_eq_false (by omega), Bool.false_and, BitVec.ofNat_eq_ofNat,
      BitVec.getLsbD_zero]

/-! ### The words of a fused pass -/

theorem wordAt_fusedOr (c : Content) (k : Nat) (ws : List U32) {i : Nat} (hi : i < 2048) :
    wordAt (fusedOr c k ws).1 i =
      if k ≤ i ∧ i < k + ws.length then wordAt c i ||| ws.getD (i - k) 0 else wordAt c i := by
  rw [fusedOr]
  dsimp only
  rw [wordAt_or, wordAt_contentOfWords k ws hi]
  by_cases hlo : k ≤ i
  · by_cases hhi : i < k + ws.length
    · rw [if_pos hlo, if_pos ⟨hlo, hhi⟩]
    · rw [if_pos hlo, if_neg fun h => hhi h.2, List.getD_eq_default _ _ (by omega)]
      exact BitVec.or_zero
  · rw [if_neg hlo, if_neg fun h => hlo h.1]
    exact BitVec.or_zero

theorem wordAt_fusedAnd (c : Content) {k : Nat} {ws : List U32} (hk : k + ws.length ≤ 2048) {i : Nat}
    (hi : i < 2048) :
    wordAt (fusedAnd c k ws) i =
      if k ≤ i ∧ i < k + ws.length then wordAt c i &&& ws.getD (i - k) 0 else wordAt c i := by
  refine BitVec.eq_of_getLsbD_eq fun b hb => ?_
  rw [getLsbD_wordAt _ _ hb, getLsbD_fusedAnd c hk (by omega),
    show (32 * i + b) / 32 = i by omega, show (32 * i + b) % 32 = b by omega,
    ← getLsbD_wordAt c i hb]
  by_cases hin : k ≤ i ∧ i < k + ws.length
  · rw [if_pos hin, decide_eq_true (by omega), decide_eq_true (by omega), BitVec.getLsbD_and]
    rfl
  · rw [if_neg hin, decide_eq_false (by omega)]
    exact Bool.and_true _

/-- ALLONE says that every result word of the pass is 0xFFFFFFFF. -/
theorem orAllone_iff (c : Content) (k : Nat) (ws : List U32) :
    orAllone c k ws = true ↔
      ∀ i, k ≤ i → i < k + ws.length → wordAt (fusedOr c k ws).1 i = 0xFFFFFFFF#32 := by
  rw [orAllone, fusedOr]
  simp only [List.all_eq_true, mem_wordsFrom, decide_eq_true_eq]
  exact ⟨fun h i hlo hhi => h _ ⟨i, hlo, hhi, rfl⟩,
    fun h x ⟨i, hlo, hhi, hx⟩ => hx ▸ h i hlo hhi⟩

/-! ### Passes that do not fit -/

section Overrun

variable {s : State} {k n : Nat}

theorem getU32Or_overrun (h0 : 0 < n) (h : s.stream.bufSize.toNat < s.stream.pos + 4 * n)
    (target : Option Content) :
    ∃ t, getU32Or target k n s = .error (.precondition .buffer) t := by
  cases target with
  | none =>
    rw [getU32Or, run_bind, run_onStream_error (seek_overrun h)]
    exact ⟨_, rfl⟩
  | some c =>
    obtain ⟨d, hd⟩ := getU32Array_overrun h0 h
    rw [getU32Or, run_bind, run_onStream_error hd]
    exact ⟨_, rfl⟩

theorem getU32And_overrun (h0 : 0 < n) (h : s.stream.bufSize.toNat < s.stream.pos + 4 * n)
    (target : Option Content) :
    ∃ t, getU32And target k n s = .error (.precondition .buffer) t := by
  cases target with
  | none =>
    rw [getU32And, run_bind, run_onStream_error (seek_overrun h)]
    exact ⟨_, rfl⟩
  | some c =>
    obtain ⟨d, hd⟩ := getU32Array_overrun h0 h
    rw [getU32And, run_bind, run_onStream_error hd]
    exact ⟨_, rfl⟩

end Overrun

/-! ### The obligation -/

/-- Word `i` of a target, where the pass reads word `i - k` of the stream: the list form of the word laws
with the words that `getU32Array` reads. -/
theorem ite_getD_streamWords (c : Stream) (op : U32 → U32 → U32) (w : U32) (k n i : Nat) :
    (if k ≤ i ∧ i < k + (streamWords c n).length then op w ((streamWords c n).getD (i - k) 0) else w) =
      if k ≤ i ∧ i < k + n then op w (streamWord c (i - k)) else w := by
  rw [length_streamWords]
  refine ite_congr rfl (fun hin => ?_) fun _ => rfl
  rw [getD_streamWords c (by omega)]

/-- Settles O51: a pass that fits reads `streamWords`, which the word laws of `fusedOr` and `fusedAnd` put
into the target; one that does not faults in `getU32Array` or in `seek`. -/
theorem fusedPasses : Obligations.FusedPasses := by
  intro s c k count hk word past
  refine ⟨fun hfits => ?_, fun h0 hover => ⟨getU32Or_overrun h0 hover, getU32And_overrun h0 hover⟩⟩
  have hread : getU32Array count s.stream = .ok (streamWords s.stream count) past :=
    getU32Array_fits hfits
  have hlen : (streamWords s.stream count).length = count := length_streamWords _ _
  refine ⟨⟨_, _, getU32Or_some hread, fun i hi => ?_, ?_, ?_⟩,
    ⟨_, getU32And_some hread, fun i hi => ?_⟩, getU32Or_none hfits, getU32And_none hfits⟩
  · rw [wordAt_fusedOr c k _ hi]
    exact ite_getD_streamWords s.stream (· ||| ·) _ k count i
  · rw [orAllone_iff, hlen]
  · intro hcount
    obtain rfl : k = 0 := by omega
    rw [orAllone_eq c (hlen.trans hcount), decide_eq_true_eq]
    rfl
  · rw [wordAt_fusedAnd c (by omega) hi]
    exact ite_getD_streamWords s.stream (· &&& ·) _ k count i

end Sys2Proof.Machine

/-! The header a serialize command writes (30_encoding.md rule R106). Everything BMSC writes goes through one
primitive, `putBytes`, so a relation that `putBytes` keeps is kept by every writer; one such relation says
that a writer goes forward and leaves the bytes behind it alone, and so the header is still there when the
command ends. -/

namespace Sys2Proof.Machine

/-! ### What every writer keeps -/

/-- A relation between stream sides that writing bytes at POS keeps and that does not look at the bit
writer's accumulator. -/
structure WriterLaw (R : Stream → Stream → Prop) : Prop extends Path R where
  put : ∀ (bs : List Byte) (c : Stream), c.pos + bs.length ≤ c.bufSize.toNat →
    R c { c with buf := c.buf.writeList c.pos bs, pos := c.pos + bs.length }
  bits : ∀ (c : Stream) (wacc : U32) (wused : Nat), R c { c with wacc := wacc, wused := wused }

section WriterLaw

variable {R : Stream → Stream → Prop} {α β : Type}

theorem WriterLaw.bind (h : WriterLaw R) {x : Codec α} {f : α → Codec β} (hx : Closed R x)
    (hf : ∀ a, Closed R (f a)) : Closed R (x >>= f) := Closed.bind h.toPath hx hf

theorem WriterLaw.done (h : WriterLaw R) (a : α) : Closed R (Pure.pure a : Codec α) :=
  Closed.pure h.toPath a

/-- A check that faults, then the rest. -/
theorem WriterLaw.guard (h : WriterLaw R) {p : Prop} [Decidable p] {r : PrecondReason}
    {x : β → Codec α} {y : Codec α} (hy : Closed R y) :
    Closed R (if p then faultPre r >>= x else y) :=
  Closed.ite (fun c => h.refl c) hy

/-- An optional part, then the rest. -/
theorem WriterLaw.opt (h : WriterLaw R) {p : Prop} [Decidable p] {x : Codec β} {f : β → Codec α}
    {y : Codec α} (hx : Closed R x) (hy : Closed R y) (hf : ∀ b, Closed R (f b)) :
    Closed R (if p then x >>= f else y) :=
  Closed.ite (h.bind hx hf) hy

theorem closed_putBytes (h : WriterLaw R) (bs : List Byte) : Closed R (putBytes bs) := fun c => by
  rw [run_putBytes]
  by_cases hfull : c.bufSize.toNat < c.pos + bs.length
  · rw [if_pos hfull]
    exact h.refl c
  · rw [if_neg hfull]
    exact h.put bs c (by omega)

theorem closed_putU8 (h : WriterLaw R) (v : Byte) : Closed R (putU8 v) := closed_putBytes h _

theorem closed_putU32 (h : WriterLaw R) (v : U32) : Closed R (putU32 v) := closed_putBytes h _

theorem closed_putU16N (h : WriterLaw R) (v : Nat) : Closed R (putU16N v) :=
  h.guard (closed_putBytes h _)

theorem closed_putU32N (h : WriterLaw R) (v : Nat) : Closed R (putU32N v) :=
  h.guard (closed_putBytes h _)

theorem closed_putU64N (h : WriterLaw R) (v : Nat) : Closed R (putU64N v) :=
  h.guard (closed_putBytes h _)

theorem closed_putU16Array (h : WriterLaw R) (l : List U16) : Closed R (putU16Array l) := by
  induction l with
  | nil => exact h.done ()
  | cons v l ih => exact h.bind (closed_putBytes h _) fun _ => ih

theorem closed_putU32Array (h : WriterLaw R) (l : List U32) : Closed R (putU32Array l) := by
  induction l with
  | nil => exact h.done ()
  | cons v l ih => exact h.bind (closed_putU32 h v) fun _ => ih

theorem closed_putU16Ns (h : WriterLaw R) (l : List Nat) : Closed R (putU16Ns l) := by
  induction l with
  | nil => exact h.done ()
  | cons v l ih => exact h.bind (closed_putU16N h v) fun _ => ih

theorem closed_wordOut (h : WriterLaw R) : Closed R wordOut :=
  h.bind (Closed.get h.toPath) fun c =>
    h.bind (closed_putU32 h c.wacc) fun _ => Closed.modify fun c => h.bits c 0 0

theorem closed_putBit (h : WriterLaw R) (b : Bool) : Closed R (putBit b) :=
  h.bind (Closed.modify fun c => h.bits c _ _) fun _ =>
    h.bind (Closed.get h.toPath) fun _ => Closed.ite (closed_wordOut h) (h.done ())

theorem closed_putLowBits (h : WriterLaw R) (v n : Nat) : Closed R (putLowBits v n) := by
  induction n generalizing v with
  | zero => exact h.done ()
  | succ n ih => exact h.bind (closed_putBit h _) fun _ => ih _

theorem closed_putBits (h : WriterLaw R) (v n : Nat) : Closed R (putBits v n) :=
  h.guard (closed_putLowBits h v n)

theorem closed_putZeros (h : WriterLaw R) (n : Nat) : Closed R (putZeros n) := by
  induction n with
  | zero => exact h.done ()
  | succ n ih => exact h.bind (closed_putBit h false) fun _ => ih

theorem closed_putGamma (h : WriterLaw R) (v : Nat) : Closed R (putGamma v) :=
  h.guard <| h.bind (closed_putZeros h _) fun _ => h.bind (closed_putBit h true) fun _ =>
    closed_putBits h _ _

theorem closed_putGammas (h : WriterLaw R) (l : List Nat) : Closed R (putGammas l) := by
  induction l with
  | nil => exact h.done ()
  | cons v l ih => exact h.bind (closed_putGamma h v) fun _ => ih

theorem closed_flush (h : WriterLaw R) : Closed R flush :=
  h.bind (Closed.get h.toPath) fun _ => Closed.ite (closed_wordOut h) (h.done ())

theorem closed_bicEncodeFuel (h : WriterLaw R) (fuel : Nat) (arr : List Nat) (lo hiX : Nat) :
    Closed R (bicEncodeFuel fuel arr lo hiX) := by
  induction fuel generalizing arr lo hiX with
  | zero => exact h.done ()
  | succ fuel ih =>
    have halves := h.bind (ih (arr.take (arr.length / 2)) lo (arr.getD (arr.length / 2) 0))
      fun _ => ih (arr.drop (arr.length / 2 + 1)) (arr.getD (arr.length / 2) 0 + 1) hiX
    exact Closed.ite (h.done ()) (h.guard (h.opt (closed_putBits h _ _) halves fun _ => halves))

theorem closed_bicEncode (h : WriterLaw R) (arr : List Nat) (lo hi : Nat) :
    Closed R (bicEncode arr lo hi) := h.guard (closed_bicEncodeFuel h _ _ _ _)

/-! ### What follows a token's tag -/

theorem closed_emitRuns (h : WriterLaw R) (l : List (Bool × List U32)) : Closed R (emitRuns l) := by
  induction l with
  | nil => exact h.done ()
  | cons r l ih =>
    exact h.bind (closed_putU16N h _) fun _ => h.opt (closed_putU32Array h _) ih fun _ => ih

theorem closed_emitWaves (h : WriterLaw R) (c : Content) (l : List Nat) :
    Closed R (emitWaves c l) := by
  induction l with
  | nil => exact h.done ()
  | cons j l ih => exact h.bind (closed_putU32Array h _) fun _ => ih

theorem closed_emitZeroRun (h : WriterLaw R) (n : Nat) : Closed R (emitZeroRun n) :=
  have tag (v : Byte) := closed_putU8 h v
  Closed.ite (tag _) <| Closed.ite (tag _) <| Closed.ite (h.bind (tag _) fun _ => tag _) <|
    Closed.ite (h.bind (tag _) fun _ => closed_putU16N h n) <|
    Closed.ite (h.bind (tag _) fun _ => closed_putU32N h n) <|
    h.bind (tag _) fun _ => closed_putU64N h n

theorem closed_emitOneRun (h : WriterLaw R) (n : Nat) : Closed R (emitOneRun n) :=
  have tag (v : Byte) := closed_putU8 h v
  Closed.ite (tag _) <| Closed.ite (h.bind (tag _) fun _ => tag _) <|
    Closed.ite (h.bind (tag _) fun _ => closed_putU16N h n) <|
    Closed.ite (h.bind (tag _) fun _ => closed_putU32N h n) <|
    h.bind (tag _) fun _ => closed_putU64N h n

theorem closed_emitBit (h : WriterLaw R) (c : Content) : Closed R (emitBit c) :=
  h.bind (closed_putU8 h _) fun _ => closed_putU32Array h _

theorem closed_emit1bit (h : WriterLaw R) (p : Nat) : Closed R (emit1bit p) :=
  h.bind (closed_putU8 h _) fun _ => closed_putU16N h p

theorem closed_emit0runs (h : WriterLaw R) (c : Content) : Closed R (emit0runs c) :=
  h.bind (closed_putU8 h _) fun _ => h.bind (closed_putU8 h _) fun _ => closed_emitRuns h _

theorem closed_emitDigest0 (h : WriterLaw R) (c : Content) : Closed R (emitDigest0 c) :=
  h.bind (closed_putU8 h _) fun _ => h.bind (closed_putBytes h _) fun _ => closed_emitWaves h c _

theorem closed_emitPlainArr (h : WriterLaw R) (tag : Byte) (idx : List Nat) :
    Closed R (emitPlainArr tag idx) := by
  refine h.bind (closed_putU8 h tag) fun _ => ?_
  rw [if_pos rfl]
  exact h.guard (h.bind (closed_putBytes h _) fun _ => closed_putU16Array h _)

theorem closed_emitPlainGap (h : WriterLaw R) (level : Fin 4) (start : Bool) (ends : List Nat) :
    Closed R (emitPlainGap level start ends) :=
  h.bind (closed_putU8 h _) fun _ => h.bind (closed_putU16N h _) fun _ => closed_putU16Ns h _

theorem closed_attemptGapEgamma (h : WriterLaw R) (level : Fin 4) (start : Bool) (ends : List Nat) :
    Closed R (attemptGapEgamma level start ends) :=
  h.bind (closed_putU8 h _) fun _ => h.bind (closed_putU16N h _) fun _ =>
    h.bind (closed_putGammas h _) fun _ => closed_flush h

theorem closed_attemptGapBienc (h : WriterLaw R) (level : Fin 4) (start : Bool) (ends : List Nat) :
    Closed R (attemptGapBienc level start ends) :=
  h.bind (closed_putU8 h _) fun _ => h.bind (closed_putU16N h _) fun _ =>
    h.bind (closed_putU16N h _) fun _ => h.bind (closed_bicEncode h _ _ _) fun _ => closed_flush h

theorem closed_attemptArrGamma (h : WriterLaw R) (tag : Byte) (idx : List Nat) :
    Closed R (attemptArrGamma tag idx) :=
  h.bind (closed_putU8 h tag) fun _ => h.bind (closed_putGamma h _) fun _ =>
    h.bind (closed_putGammas h _) fun _ => closed_flush h

theorem closed_attemptArrBic (h : WriterLaw R) (tag : Byte) (idx : List Nat) :
    Closed R (attemptArrBic tag idx) :=
  h.bind (closed_putU8 h tag) fun _ => h.bind (closed_putU16N h _) fun _ =>
    h.bind (closed_putU16N h _) fun _ => h.bind (closed_putGamma h _) fun _ =>
    h.bind (closed_bicEncode h _ _ _) fun _ => closed_flush h

theorem closed_attemptArrBienc (h : WriterLaw R) (tag : Byte) (idx : List Nat) :
    Closed R (attemptArrBienc tag idx) :=
  h.bind (closed_putU8 h tag) fun _ => h.bind (closed_putU16N h _) fun _ =>
    h.bind (closed_putU16N h _) fun _ => h.bind (closed_putU16N h _) fun _ =>
    h.bind (closed_bicEncode h _ _ _) fun _ => closed_flush h

theorem closed_attemptBitgap (h : WriterLaw R) (start : Bool) (ends : List Nat) :
    Closed R (attemptBitgap start ends) :=
  h.bind (closed_putU8 h _) fun _ => h.bind (closed_putU8 h _) fun _ =>
    h.bind (closed_putU16N h _) fun _ => h.bind (closed_putU16N h _) fun _ =>
    h.bind (closed_bicEncode h _ _ _) fun _ => closed_flush h

theorem closed_writeHeader (h : WriterLaw R) (p : Params) (size : Nat) (cfg : U64) :
    Closed R (writeHeader p size cfg) :=
  have hsize := Closed.ite (p := size ≠ p.sizeDefault)
    (Closed.ite (p := p.aw = .w48) (closed_putU64N h size) (closed_putU32N h size)) (h.done ())
  have hgapl := h.opt (p := cfgGapl cfg = true) (closed_putU16Ns h _) hsize fun _ => hsize
  h.bind (closed_putU8 h _) fun _ => h.opt (closed_putU8 h 1) hgapl fun _ => hgapl

end WriterLaw

/-! ### Writers go forward -/

/-- POS has not gone back and is inside the buffer if it was, and in a buffer in canonical form, which stays
so, no byte before the old POS has changed (20_memory.md rules R63, R64). -/
structure Appends (c d : Stream) : Prop where
  pos_le : c.pos ≤ d.pos
  bufSize_eq : d.bufSize = c.bufSize
  fits : c.pos ≤ c.bufSize.toNat → d.pos ≤ d.bufSize.toNat
  wf : c.buf.wf = true → d.buf.wf = true
  read_eq : c.buf.wf = true → ∀ a, a < c.pos → d.buf.read a = c.buf.read a

theorem path_appends : Path Appends where
  refl _ := ⟨Nat.le_refl _, rfl, id, id, fun _ _ _ => rfl⟩
  trans h1 h2 :=
    { pos_le := Nat.le_trans h1.pos_le h2.pos_le
      bufSize_eq := h2.bufSize_eq.trans h1.bufSize_eq
      fits := fun h => h2.fits (h1.fits h)
      wf := fun h => h2.wf (h1.wf h)
      read_eq := fun h a ha =>
        (h2.read_eq (h1.wf h) a (Nat.lt_of_lt_of_le ha h1.pos_le)).trans (h1.read_eq h a ha) }

theorem writerLaw_appends : WriterLaw Appends where
  toPath := path_appends
  put bs c hfits :=
    { pos_le := Nat.le_add_right _ _
      bufSize_eq := rfl
      fits := fun _ => hfits
      wf := fun h => Memory.wf_writeList h _ _
      read_eq := fun h a ha => by rw [Memory.read_writeList h, if_neg (by omega)] }
  bits _ _ _ := ⟨Nat.le_refl _, rfl, id, id, fun _ _ _ => rfl⟩

/-- A writer that ends normally only with POS beyond where it was. -/
def Advances {α : Type} (x : Codec α) : Prop := ∀ c d a, x c = .ok a d → c.pos < d.pos

theorem Advances.ite {α : Type} {p : Prop} [Decidable p] {x y : Codec α} (hx : Advances x)
    (hy : Advances y) : Advances (if p then x else y) := by
  split
  · exact hx
  · exact hy

theorem Advances.bind {α β : Type} {x : Codec α} {f : α → Codec β} (hx : Advances x)
    (hf : ∀ a, Closed Appends (f a)) : Advances (x >>= f) := by
  intro c e b h
  obtain ⟨a, d, hd, he⟩ := of_run_bind h
  exact Nat.lt_of_lt_of_le (hx c d a hd) ((hf a).ok he).pos_le

theorem advances_putU8 (v : Byte) : Advances (putU8 v) := by
  intro c d a h
  rw [putU8, run_putBytes] at h
  split at h
  · cases h
  · cases h
    exact Nat.lt_succ_self c.pos

theorem advances_emitZeroRun (n : Nat) : Advances (emitZeroRun n) :=
  have law := writerLaw_appends
  have tag (v : Byte) := advances_putU8 v
  .ite (tag _) <| .ite (tag _) <| .ite ((tag _).bind fun _ => closed_putU8 law _) <|
    .ite ((tag _).bind fun _ => closed_putU16N law n) <|
    .ite ((tag _).bind fun _ => closed_putU32N law n) <|
    (tag _).bind fun _ => closed_putU64N law n

theorem advances_emitOneRun (n : Nat) : Advances (emitOneRun n) :=
  have law := writerLaw_appends
  have tag (v : Byte) := advances_putU8 v
  .ite (tag _) <| .ite ((tag _).bind fun _ => closed_putU8 law _) <|
    .ite ((tag _).bind fun _ => closed_putU16N law n) <|
    .ite ((tag _).bind fun _ => closed_putU32N law n) <|
    (tag _).bind fun _ => closed_putU64N law n

/-! ### Emitters go forward -/

/-- The stream side goes forward; the parameters and HDR_FLAGS stay. -/
structure Extends (s t : State) : Prop where
  appends : Appends s.stream t.stream
  params_eq : t.params = s.params
  hdrFlags_eq : t.hdrFlags = s.hdrFlags

theorem Extends.of_stream_eq {s t : State} (hstream : t.stream = s.stream)
    (hparams : t.params = s.params) (hflags : t.hdrFlags = s.hdrFlags) : Extends s t :=
  ⟨hstream ▸ path_appends.refl _, hparams, hflags⟩

/-- A change the stream does not show, then what extends the stream. -/
theorem Extends.of_start {s s' t : State} (h : Extends s' t) (hstream : s'.stream = s.stream)
    (hparams : s'.params = s.params) (hflags : s'.hdrFlags = s.hdrFlags) : Extends s t :=
  ⟨hstream ▸ h.appends, h.params_eq.trans hparams, h.hdrFlags_eq.trans hflags⟩

theorem path_extends : Path Extends where
  refl _ := .of_stream_eq rfl rfl rfl
  trans h1 h2 :=
    ⟨path_appends.trans h1.appends h2.appends, h2.params_eq.trans h1.params_eq,
      h2.hdrFlags_eq.trans h1.hdrFlags_eq⟩

theorem closed_extends_bind {α β : Type} {x : M α} {f : α → M β} (hx : Closed Extends x)
    (hf : ∀ a, Closed Extends (f a)) : Closed Extends (x >>= f) := Closed.bind path_extends hx hf

theorem extends_onStream {α : Type} {x : Codec α} (h : Closed Appends x) :
    Closed Extends (onStream x) := fun s => by
  cases e : x s.stream with
  | ok a c =>
    rw [run_onStream_ok e]
    exact ⟨h.ok e, rfl, rfl⟩
  | error r c =>
    rw [run_onStream_error e]
    exact ⟨h.error e, rfl, rfl⟩

/-- What a writer of the codec leaves when it ends normally on the machine. -/
theorem of_run_onStream {α : Type} {x : Codec α} {s t : State} {a : α} (h : onStream x s = .ok a t) :
    x s.stream = .ok a t.stream ∧ t = { s with stream := t.stream } := by
  cases e : x s.stream with
  | ok b c =>
    rw [run_onStream_ok e] at h
    cases h
    exact ⟨rfl, rfl⟩
  | error r c =>
    rw [run_onStream_error e] at h
    cases h

/-- A rollback (42_block_encoder.md rule R262) goes back to where the attempt began and no further. -/
theorem Appends.rollback {c d : Stream} (h : Appends c d) : Appends c { d with pos := c.pos } :=
  ⟨Nat.le_refl _, h.bufSize_eq, fun hc => h.bufSize_eq ▸ hc, h.wf, h.read_eq⟩

/-- What a computation leaves when it begins where another has ended. -/
theorem Closed.after {ε σ α : Type} {R : σ → σ → Prop} {x : EStateM ε σ α} (hx : Closed R x)
    (hR : Path R) {s t : σ} (h : R s t) :
    match x t with
    | .ok _ u => R s u
    | .error _ u => R s u := by
  cases e : x t with
  | ok a u => exact hR.trans h (hx.ok e)
  | error r u => exact hR.trans h (hx.error e)

theorem extends_speculate {attempt fallback : Codec Unit} (n : Nat) (ha : Closed Appends attempt)
    (hf : Closed Appends fallback) : Closed Extends (speculate attempt n fallback) := fun s => by
  rw [speculate, run_bind, run_modify]
  dsimp only
  rw [run_bind]
  cases e : attempt s.stream with
  | error r c =>
    rw [run_onStream_error (s := { s with pos0 := s.stream.pos }) e]
    exact ⟨ha.error e, rfl, rfl⟩
  | ok a c =>
    rw [run_onStream_ok (s := { s with pos0 := s.stream.pos }) e]
    dsimp only
    rw [run_bind, run_get]
    dsimp only
    by_cases hlong : n < c.pos - s.stream.pos
    · rw [if_pos hlong]
      have hback : Extends s
          { s with pos0 := s.stream.pos, stream := { c with pos := s.stream.pos }, rolled := true } :=
        ⟨(ha.ok e).rollback, rfl, rfl⟩
      exact (extends_onStream hf).after path_extends hback
    · rw [if_neg hlong]
      exact ⟨ha.ok e, rfl, rfl⟩

theorem extends_loadIdx (idx : List Nat) : Closed Extends (loadIdx idx) :=
  fun _ => .of_stream_eq rfl rfl rfl

theorem extends_emitPlainArr (tag : Byte) (idx : List Nat) :
    Closed Extends (onStream (emitPlainArr tag idx)) :=
  extends_onStream (closed_emitPlainArr writerLaw_appends tag idx)

theorem extends_emitGap (t : Proposal) (level : Fin 4) (start : Bool) (ends : List Nat) :
    Closed Extends (emitGap t level start ends) := by
  have law := writerLaw_appends
  have hplain := closed_emitPlainGap law level start ends
  unfold emitGap
  split
  · exact extends_speculate _ (closed_attemptGapEgamma law level start ends) hplain
  · exact extends_speculate _ (closed_attemptGapBienc law level start ends) hplain
  · exact extends_onStream hplain

theorem extends_emitArrgap (t : Proposal) (idx : List Nat) : Closed Extends (emitArrgap t idx) := by
  have law := writerLaw_appends
  have hplain (tag : Byte) := closed_emitPlainArr law tag idx
  have hgamma (tag : Byte) := closed_attemptArrGamma law tag idx
  have hbic (tag : Byte) := closed_attemptArrBic law tag idx
  unfold emitArrgap
  split
  · exact extends_speculate _ (hgamma 21) (hplain 18)
  · exact extends_speculate _ (hgamma 23) (hplain 24)
  · exact Closed.ite (extends_emitPlainArr 18 idx) (extends_speculate _ (hbic 28) (hplain 18))
  · exact Closed.ite (extends_emitPlainArr 24 idx) (extends_speculate _ (hbic 29) (hplain 24))
  · exact extends_emitPlainArr 24 idx
  · exact extends_emitPlainArr 18 idx

theorem extends_emitArrBienc (tag : Byte) (idx : List Nat) (c : Content) :
    Closed Extends (emitArrBienc tag idx c) :=
  extends_speculate _ (closed_attemptArrBienc writerLaw_appends tag idx)
    (closed_emitBit writerLaw_appends c)

theorem extends_emitBitgap (start : Bool) (ends : List Nat) (c : Content) :
    Closed Extends (emitBitgap start ends c) :=
  extends_speculate _ (closed_attemptBitgap writerLaw_appends start ends)
    (closed_emitBit writerLaw_appends c)

/-- An emission that loads IDX_ARR first. -/
theorem extends_load {idx : List Nat} {x : M Unit} (h : Closed Extends x) :
    Closed Extends (do loadIdx idx; x) := closed_extends_bind (extends_loadIdx idx) fun _ => h

theorem extends_loadArrgap (t : Proposal) (idx : List Nat) :
    Closed Extends (do loadIdx idx; emitArrgap t idx) := extends_load (extends_emitArrgap t idx)

theorem extends_emitAs (t : Proposal) (level : Fin 4) (start : Bool) (ends : List Nat) (c : Content) :
    Closed Extends (emitAs t level start ends c) := by
  have law := writerLaw_appends
  cases t with
  | azero => exact Closed.pure path_extends ()
  | aone => exact Closed.pure path_extends ()
  | bit => exact extends_onStream (closed_emitBit law c)
  | gap => exact extends_emitGap .gap level start ends
  | gapEgamma => exact extends_emitGap .gapEgamma level start ends
  | gapBienc => exact extends_emitGap .gapBienc level start ends
  | bit1bit => exact extends_onStream (closed_emit1bit law _)
  | bit0runs => exact extends_onStream (closed_emit0runs law c)
  | bitDigest0 => exact extends_onStream (closed_emitDigest0 law c)
  | arrbit => exact extends_load (extends_emitPlainArr 16 _)
  | arrbitInv => exact extends_load (extends_emitPlainArr 30 _)
  | arrgap => exact extends_loadArrgap .arrgap _
  | arrgapEgamma => exact extends_loadArrgap .arrgapEgamma _
  | arrgapBienc => exact extends_loadArrgap .arrgapBienc _
  | arrgapInv => exact extends_loadArrgap .arrgapInv _
  | arrgapEgammaInv => exact extends_loadArrgap .arrgapEgammaInv _
  | arrgapBiencInv => exact extends_loadArrgap .arrgapBiencInv _
  | arrBienc => exact extends_load (extends_emitArrBienc 31 _ c)
  | arrBiencInv => exact extends_load (extends_emitArrBienc 32 _ c)
  | bitgapBienc => exact extends_load (extends_emitBitgap start ends c)

theorem extends_emitGapBlock (level : Fin 4) (start : Bool) (ends : List Nat) :
    Closed Extends (emitGapBlock level start ends) :=
  closed_extends_bind (Closed.get path_extends) fun _ =>
    have hemit := extends_emitAs _ level start ends (gapRuns start 0 ends)
    Closed.ite
      (closed_extends_bind (Closed.modify fun _ => .of_stream_eq rfl rfl rfl) fun _ => hemit) hemit

theorem extends_classifyBlock (c : Content) : Closed Extends (classifyBlock c) := fun s => by
  simp only [classifyBlock, run_bind, run_get, run_set, run_pure]
  exact ⟨path_appends.refl s.stream, rfl, rfl⟩

theorem extends_emitBitBlock (c : Content) : Closed Extends (emitBitBlock c) := by
  refine closed_extends_bind (extends_classifyBlock c) fun _ =>
    closed_extends_bind (Closed.get path_extends) fun _ => ?_
  generalize toGap c = g
  exact Closed.ite (extends_load (extends_emitAs _ 0 g.1 g.2 c)) (extends_emitAs _ 0 g.1 g.2 c)

/-! ### The body -/

/-- The block at NB by the form of its slot (42_block_encoder.md rules R250, R251). -/
def emitBlockAt (s : State) : M Unit :=
  match s.bs.slot s.params s.nb with
  | .gap level start ends => emitGapBlock level start ends
  | _ => emitBitBlock (s.bs.content s.nb)

theorem extends_emitBlockAt (s : State) : Closed Extends (emitBlockAt s) := by
  unfold emitBlockAt
  split
  · exact extends_emitGapBlock _ _ _
  · exact extends_emitBitBlock _

section BodyTurn

variable {destroy : Bool} {s : State}

theorem bodyTurn_zeroTail (hc : s.bs.content s.nb = Content.zero)
    (hj : s.bs.nextNonzero s.params s.nb = s.params.totalBlocks) :
    bodyTurn destroy s = (do onStream (putU8 9); return Turn.done : M Turn) s := by
  rw [bodyTurn, run_bind, run_get]
  dsimp only
  rw [if_pos hc, if_pos hj]

theorem bodyTurn_zeroRun (hc : s.bs.content s.nb = Content.zero)
    (hj : s.bs.nextNonzero s.params s.nb ≠ s.params.totalBlocks) :
    bodyTurn destroy s =
      (do
        onStream (emitZeroRun (s.bs.nextNonzero s.params s.nb - s.nb))
        setNb (s.bs.nextNonzero s.params s.nb)
        return Turn.again : M Turn) s := by
  rw [bodyTurn, run_bind, run_get]
  dsimp only
  rw [if_pos hc, if_neg hj]

/-- What SERIALIZE_DESTROY does to the blocks it has written (42_block_encoder.md rule R270). -/
def destroyBlocks (destroy : Bool) (nb n : Nat) : M Unit :=
  if destroy then onStore fun _ bs => bs.zero nb n else return ()

theorem bodyTurn_oneTail (hz : s.bs.content s.nb ≠ Content.zero)
    (hc : s.bs.content s.nb = Content.ones)
    (hj : s.bs.nextNotOnes s.params s.nb = s.params.totalBlocks) :
    bodyTurn destroy s =
      (do
        destroyBlocks destroy s.nb (s.params.totalBlocks - s.nb)
        onStream (putU8 10)
        setNb s.params.totalBlocks
        return Turn.leave : M Turn) s := by
  rw [bodyTurn, run_bind, run_get]
  dsimp only
  rw [if_neg hz, if_pos hc, hj, if_pos rfl]
  cases destroy <;> rfl

theorem bodyTurn_oneRun (hz : s.bs.content s.nb ≠ Content.zero)
    (hc : s.bs.content s.nb = Content.ones)
    (hj : s.bs.nextNotOnes s.params s.nb ≠ s.params.totalBlocks) :
    bodyTurn destroy s =
      (do
        destroyBlocks destroy s.nb (s.bs.nextNotOnes s.params s.nb - s.nb)
        onStream (emitOneRun (s.bs.nextNotOnes s.params s.nb - s.nb))
        setNb (s.bs.nextNotOnes s.params s.nb)
        return Turn.again : M Turn) s := by
  rw [bodyTurn, run_bind, run_get]
  dsimp only
  rw [if_neg hz, if_pos hc, if_neg hj]
  cases destroy <;> rfl

theorem bodyTurn_block (hz : s.bs.content s.nb ≠ Content.zero)
    (ho : s.bs.content s.nb ≠ Content.ones) :
    bodyTurn destroy s =
      (do
        modify clearRolled
        emitBlockAt s
        destroyBlocks destroy s.nb 1
        setNb (s.nb + 1)
        return Turn.again : M Turn) s := by
  rw [bodyTurn, run_bind, run_get]
  dsimp only
  rw [if_neg hz, if_neg ho, emitBlockAt]
  cases s.bs.slot s.params s.nb <;> cases destroy <;> rfl


theorem destroyBlocks_ok (destroy : Bool) (nb n : Nat) (s : State) :
    ∃ bs, destroyBlocks destroy nb n s = .ok () { s with bs := bs } := by
  cases destroy
  · exact ⟨s.bs, rfl⟩
  · exact ⟨_, rfl⟩

/-- A writer that advances, and then only what extends the stream. -/
theorem extends_of_advances {α : Type} {x : Codec Unit} {f : Unit → M α} {t : State} {a : α}
    (hx : Closed Appends x) (hadv : Advances x) (hf : ∀ a, Closed Extends (f a))
    (h : (onStream x >>= f) s = .ok a t) : Extends s t ∧ s.stream.pos < t.stream.pos := by
  obtain ⟨b, u, hu, ht⟩ := of_run_bind h
  have hrest := (hf b).ok ht
  obtain ⟨hc, -⟩ := of_run_onStream hu
  exact ⟨path_extends.trans ((extends_onStream hx).ok hu) hrest,
    Nat.lt_of_lt_of_le (hadv _ _ _ hc) hrest.appends.pos_le⟩

/-- The same after blocks have been emptied, which the stream does not show. -/
theorem extends_of_destroy_advances {α : Type} {nb n : Nat} {x : Codec Unit} {f : Unit → M α}
    {t : State} {a : α} (hx : Closed Appends x) (hadv : Advances x) (hf : ∀ a, Closed Extends (f a))
    (h : (do destroyBlocks destroy nb n; onStream x >>= f : M α) s = .ok a t) :
    Extends s t ∧ s.stream.pos < t.stream.pos := by
  obtain ⟨bs, hbs⟩ := destroyBlocks_ok destroy nb n s
  rw [run_bind_ok hbs] at h
  obtain ⟨hext, hlt⟩ := extends_of_advances hx hadv hf h
  exact ⟨hext.of_start rfl rfl rfl, hlt⟩

theorem extends_setNb_return (j : Nat) (r : Turn) :
    Closed Extends (do setNb j; return r : M Turn) := fun _ => .of_stream_eq rfl rfl rfl

/-- A turn extends the stream, and either it writes a byte or it has passed one block. -/
theorem bodyTurn_ok {r : Turn} {t : State} (h : bodyTurn destroy s = .ok r t) :
    Extends s t ∧ (s.stream.pos < t.stream.pos ∨ r = .again ∧ t.nb = s.nb + 1) := by
  have law := writerLaw_appends
  by_cases hz : s.bs.content s.nb = Content.zero
  · by_cases hj : s.bs.nextNonzero s.params s.nb = s.params.totalBlocks
    · rw [bodyTurn_zeroTail hz hj] at h
      exact (extends_of_advances (closed_putU8 law 9) (advances_putU8 9)
        (fun _ => Closed.pure path_extends _) h).imp id .inl
    · rw [bodyTurn_zeroRun hz hj] at h
      exact (extends_of_advances (closed_emitZeroRun law _) (advances_emitZeroRun _)
        (fun _ => extends_setNb_return _ _) h).imp id .inl
  · by_cases ho : s.bs.content s.nb = Content.ones
    · by_cases hj : s.bs.nextNotOnes s.params s.nb = s.params.totalBlocks
      · rw [bodyTurn_oneTail hz ho hj] at h
        exact (extends_of_destroy_advances (closed_putU8 law 10) (advances_putU8 10)
          (fun _ => extends_setNb_return _ _) h).imp id .inl
      · rw [bodyTurn_oneRun hz ho hj] at h
        exact (extends_of_destroy_advances (closed_emitOneRun law _) (advances_emitOneRun _)
          (fun _ => extends_setNb_return _ _) h).imp id .inl
    · rw [bodyTurn_block hz ho, run_bind, run_modify] at h
      obtain ⟨⟨⟩, u, hu, h⟩ := of_run_bind h
      obtain ⟨bs, hbs⟩ := destroyBlocks_ok destroy s.nb 1 u
      rw [run_bind_ok hbs] at h
      have hemit : Extends s u := ((extends_emitBlockAt s).ok hu).of_start rfl rfl rfl
      cases h
      exact ⟨path_extends.trans hemit (.of_stream_eq rfl rfl rfl), .inr ⟨rfl, rfl⟩⟩

/-- How the loop goes on after a turn. -/
def afterTurn (destroy : Bool) (fuel : Nat) : Turn → M Unit
  | .again => bodyLoop destroy fuel
  | .leave => onStream (putU8 0)
  | .done => return ()

/-- A loop that ends normally wrote the terminator at once, or took a turn and went on from there. -/
theorem bodyLoop_succ_ok {fuel : Nat} {t : State} (h : bodyLoop destroy (fuel + 1) s = .ok () t) :
    s.params.totalBlocks ≤ s.nb ∧ onStream (putU8 0) s = .ok () t ∨
      ∃ r u, s.nb < s.params.totalBlocks ∧ bodyTurn destroy s = .ok r u ∧
        afterTurn destroy fuel r u = .ok () t := by
  rw [bodyLoop, run_bind, run_get] at h
  dsimp only at h
  by_cases hend : s.params.totalBlocks ≤ s.nb
  · rw [if_pos hend] at h
    exact .inl ⟨hend, h⟩
  · rw [if_neg hend] at h
    obtain ⟨r, u, hr, hu⟩ := of_run_bind h
    refine .inr ⟨r, u, by omega, hr, ?_⟩
    cases r <;> exact hu

theorem extends_putU8 (v : Byte) : Closed Extends (onStream (putU8 v)) :=
  extends_onStream (closed_putU8 writerLaw_appends v)

theorem bodyLoop_extends {fuel : Nat} {t : State} (h : bodyLoop destroy fuel s = .ok () t) :
    Extends s t := by
  induction fuel generalizing s with
  | zero =>
    cases h
    exact path_extends.refl _
  | succ fuel ih =>
    obtain ⟨-, h⟩ | ⟨r, u, -, hturn, h⟩ := bodyLoop_succ_ok h
    · exact (extends_putU8 0).ok h
    · refine path_extends.trans (bodyTurn_ok hturn).1 ?_
      cases r with
      | again => exact ih h
      | leave => exact (extends_putU8 0).ok h
      | done =>
        cases h
        exact path_extends.refl _

theorem afterTurn_extends {fuel : Nat} {r : Turn} {t : State}
    (h : afterTurn destroy fuel r s = .ok () t) : Extends s t := by
  cases r with
  | again => exact bodyLoop_extends h
  | leave => exact (extends_putU8 0).ok h
  | done =>
    cases h
    exact path_extends.refl _

/-- A loop with a turn for every block left writes at least one byte: a turn that writes none has passed one
block, and after the last block comes the terminator. -/
theorem bodyLoop_pos_lt {fuel : Nat} {t : State} (hnb : s.nb ≤ s.params.totalBlocks)
    (hfuel : s.params.totalBlocks < s.nb + fuel) (h : bodyLoop destroy fuel s = .ok () t) :
    s.stream.pos < t.stream.pos := by
  induction fuel generalizing s with
  | zero => omega
  | succ fuel ih =>
    obtain ⟨-, h⟩ | ⟨r, u, hlt, hturn, h⟩ := bodyLoop_succ_ok h
    · exact advances_putU8 0 _ _ _ (of_run_onStream h).1
    · obtain ⟨hext, hwrote | ⟨rfl, hnext⟩⟩ := bodyTurn_ok hturn
      · exact Nat.lt_of_lt_of_le hwrote (afterTurn_extends h).appends.pos_le
      · have hparams := hext.params_eq
        exact Nat.lt_of_le_of_lt hext.appends.pos_le
          (ih (by rw [hnext, hparams]; omega) (by rw [hnext, hparams]; omega) h)

theorem serializeBody_ok {t : State} (h : serializeBody destroy s = .ok () t) :
    Extends s t ∧ s.stream.pos < t.stream.pos := by
  rw [serializeBody, run_bind, setNb, run_modify] at h
  dsimp only at h
  rw [run_bind, run_get] at h
  dsimp only at h
  exact ⟨(bodyLoop_extends h).of_start rfl rfl rfl,
    bodyLoop_pos_lt (s := { s with nb := 0 }) (Nat.zero_le _) (by dsimp only; omega) h⟩

end BodyTurn

/-! ### The bytes of the header -/

/-- A writer that, when it ends normally, has put these bytes into a buffer in canonical form, which stays
so. -/
def Puts (bs : List Byte) (x : Codec Unit) : Prop :=
  ∀ c d, c.buf.wf = true → x c = .ok () d → Wrote bs c d ∧ d.buf.wf = true

theorem Puts.nothing : Puts [] (return ()) := by
  intro c d hwf h
  cases h
  exact ⟨Wrote.nil c, hwf⟩

theorem Puts.bind {xs ys : List Byte} {x y : Codec Unit} (hx : Puts xs x) (hy : Puts ys y) :
    Puts (xs ++ ys) (do x; y) := by
  intro c e hwf h
  obtain ⟨⟨⟩, d, hd, he⟩ := of_run_bind h
  obtain ⟨hwx, hwfd⟩ := hx c d hwf hd
  obtain ⟨hwy, hwfe⟩ := hy d e hwfd he
  exact ⟨hwx.append hwy, hwfe⟩

theorem Puts.ite {p : Prop} [Decidable p] {xs ys : List Byte} {x y : Codec Unit} (hx : Puts xs x)
    (hy : Puts ys y) : Puts (if p then xs else ys) (if p then x else y) := by
  split
  · exact hx
  · exact hy

/-- An optional part, then the rest. -/
theorem Puts.opt {p : Prop} [Decidable p] {xs ys : List Byte} {x y : Codec Unit} (hx : Puts xs x)
    (hy : Puts ys y) : Puts ((if p then xs else []) ++ ys) (if p then (do x; y) else y) := by
  split
  · exact hx.bind hy
  · exact hy

theorem Puts.guard {p : Prop} [Decidable p] {r : PrecondReason} {bs : List Byte} {y : Codec Unit}
    {f : PUnit → Codec Unit} (hy : ¬p → Puts bs y) : Puts bs (if p then faultPre r >>= f else y) := by
  split
  · intro c d _ h
    cases h
  · exact hy ‹_›

theorem puts_putBytes (bs : List Byte) : Puts bs (putBytes bs) := by
  intro c d hwf h
  by_cases hfits : c.pos + bs.length ≤ c.bufSize.toNat
  · obtain ⟨d', hd', hwrote, hwf', -⟩ := putBytes_wrote hwf hfits
    rw [hd'] at h
    cases h
    exact ⟨hwrote, hwf'⟩
  · rw [run_putBytes, if_pos (by omega)] at h
    cases h

theorem puts_putU16Ns (l : List Nat) : Puts (wireU16s true (l.map (BitVec.ofNat 16))) (putU16Ns l) := by
  induction l with
  | nil => exact Puts.nothing
  | cons v l ih => exact (Puts.guard fun _ => puts_putBytes _).bind ih

theorem puts_putU64N (v : Nat) : Puts (wireBytes true 8 (BitVec.ofNat 64 v).toNat) (putU64N v) :=
  Puts.guard fun _ => puts_putBytes _

/-- A size of 4 bytes is the low half of the size of 8 bytes, since one that 4 bytes do not hold faults. -/
theorem puts_putU32N (v : Nat) : Puts (wireBytes true 4 (BitVec.ofNat 64 v).toNat) (putU32N v) := by
  refine Puts.guard fun hv => ?_
  have hlow : (BitVec.ofNat 64 v).toNat = (BitVec.ofNat 32 v).toNat := by
    rw [BitVec.toNat_ofNat, BitVec.toNat_ofNat]
    omega
  rw [hlow]
  exact puts_putBytes _

theorem is64_writtenHeader (p : Params) (size : Nat) (cfg : U64) :
    (writtenHeader p size cfg).is64 = decide (p.aw = .w48) := by
  simp [writtenHeader, Header.is64, apply_ite (fun b : Byte => b[5])]

/-- The bytes of the written header, field by field (30_encoding.md rules R102 to R106). -/
theorem encode_writtenHeader (p : Params) (size : Nat) (cfg : U64) :
    encode (.streamHeader (writtenHeader p size cfg)) =
      headerFlags p size cfg :: ((if cfgBo cfg then [1#8] else []) ++
        (if cfgGapl cfg then
          wireU16s true ([p.gapLevel0, p.gapLevel1, p.gapLevel2, p.gapLevel3].map (BitVec.ofNat 16))
        else []) ++
        (if size ≠ p.sizeDefault then
          if p.aw = .w48 then wireBytes true 8 (BitVec.ofNat 64 size).toNat
          else wireBytes true 4 (BitVec.ofNat 64 size).toNat
        else [])) := by
  rw [encode, encodeAs, payload, wireHeader, is64_writtenHeader]
  refine congrArg (headerFlags p size cfg :: ·) (congrArg₂ _ (congrArg₂ _ ?_ ?_) ?_)
  · rw [writtenHeader]
    cases cfgBo cfg <;> rfl
  · rw [writtenHeader]
    cases cfgGapl cfg <;> rfl
  · rw [writtenHeader]
    by_cases hsize : size = p.sizeDefault
    · simp [hsize]
    · by_cases haw : p.aw = .w48
      · simp [hsize, haw]
      · simp [hsize, haw]

theorem puts_writeHeader (p : Params) (size : Nat) (cfg : U64) :
    Puts (encode (.streamHeader (writtenHeader p size cfg))) (writeHeader p size cfg) := by
  rw [encode_writtenHeader, List.append_assoc]
  have hsize := Puts.ite (p := size ≠ p.sizeDefault)
    (Puts.ite (p := p.aw = .w48) (puts_putU64N size) (puts_putU32N size)) .nothing
  exact (puts_putBytes [headerFlags p size cfg]).bind <| (puts_putBytes [1]).opt <|
    (puts_putU16Ns _).opt hsize

/-- What the header leaves: its bytes at POS, HDR_FLAGS as written, and a stream that has gone forward. -/
theorem emitHeader_ok {s t : State} (hwf : s.stream.buf.wf = true) (h : emitHeader s = .ok () t) :
    Wrote (encode (.streamHeader (writtenHeader s.params s.bsSize s.cfg))) s.stream t.stream ∧
      t.stream.buf.wf = true ∧ Appends s.stream t.stream ∧
      t.hdrFlags = (writtenHeader s.params s.bsSize s.cfg).flags := by
  rw [emitHeader, run_bind, run_get] at h
  dsimp only at h
  rw [run_bind, run_set] at h
  dsimp only at h
  obtain ⟨hc, ht⟩ := of_run_onStream h
  obtain ⟨hwrote, hwf'⟩ := puts_writeHeader s.params s.bsSize s.cfg _ _ hwf hc
  exact ⟨hwrote, hwf', (closed_writeHeader writerLaw_appends _ _ _).ok hc, by rw [ht]; rfl⟩

/-! ### The obligation -/

/-- The stream begins with the header of a vector and goes on after it, and HDR_FLAGS holds the header's
flags; POS is an offset a register of 64 bits holds. -/
structure HeaderWritten (hdr : Header) (t : State) : Prop where
  length_lt : (encode (.streamHeader hdr)).length < t.stream.pos
  bytes_eq : t.stream.buf.readList 0 (encode (.streamHeader hdr)).length = encode (.streamHeader hdr)
  flags_eq : t.hdrFlags = hdr.flags
  pos_lt : t.stream.pos < 2 ^ 64

/-- The header is written at offset 0, and the body changes nothing before the POS it begins at. -/
theorem headerWritten_of_body {destroy : Bool} {s t u : State} (hhead : emitHeader s = .ok () t)
    (hbody : serializeBody destroy t = .ok () u) (hpos : s.stream.pos = 0)
    (hwf : s.stream.buf.wf = true) :
    HeaderWritten (writtenHeader s.params s.bsSize s.cfg) u := by
  obtain ⟨⟨hd, hbytes, -⟩, hwft, happ, hflags⟩ := emitHeader_ok hwf hhead
  obtain ⟨hext, hlt⟩ := serializeBody_ok hbody
  have hlen : t.stream.pos =
      (encode (.streamHeader (writtenHeader s.params s.bsSize s.cfg))).length := by
    rw [hd, hpos, Nat.zero_add]
  refine ⟨hlen ▸ hlt, ?_, hext.hdrFlags_eq.trans hflags, ?_⟩
  · rw [hpos] at hbytes
    exact (readList_congr fun a _ ha => hext.appends.read_eq hwft a (by omega)).trans hbytes
  · exact Nat.lt_of_le_of_lt ((path_appends.trans happ hext.appends).fits (by omega))
      u.stream.bufSize.isLt

/-- A command that ends after its body has put POS into RESULT_BYTES. -/
theorem finishBytes_ok {s t : State} (h : finishBytes s = .ok () t) :
    t.resultBytes = BitVec.ofNat 64 s.stream.pos ∧ t.stream = s.stream ∧ t.hdrFlags = s.hdrFlags := by
  cases h
  exact ⟨rfl, rfl, rfl⟩

theorem requireLevel_legal {s : State} (h : cfgLevel s.cfg ≤ 5) : requireLevel s = .ok () s := by
  simp [requireLevel, run_bind, Nat.not_lt.2 h]

theorem requireLevel_ok {s t : State} (h : requireLevel s = .ok () t) : t = s := by
  rcases Nat.lt_or_ge 5 (cfgLevel s.cfg) with hl | hl
  · rw [requireLevel_error hl] at h
    cases h
  · rw [requireLevel_legal hl] at h
    cases h
    rfl

theorem runSerialize_header {s t : State} (hpos : s.stream.pos = 0) (hwf : s.stream.buf.wf = true)
    (h : runSerialize s = .ok () t) :
    ∃ u, HeaderWritten (writtenHeader s.params s.bsSize s.cfg) u ∧ finishBytes u = .ok () t := by
  obtain ⟨⟨⟩, s1, hlevel, h⟩ := of_run_bind h
  rw [requireLevel_ok hlevel] at h
  rw [run_bind, setPhase, run_modify] at h
  obtain ⟨⟨⟩, v, hhead, h⟩ := of_run_bind h
  obtain ⟨⟨⟩, u, hbody, h⟩ := of_run_bind h
  have hu := headerWritten_of_body hhead hbody hpos hwf
  exact ⟨u, hu, h⟩

theorem runSerializeDestroy_header {s t : State} (hpos : s.stream.pos = 0)
    (hwf : s.stream.buf.wf = true) (h : runSerializeDestroy s = .ok () t) :
    ∃ u, HeaderWritten (writtenHeader s.params s.bsSize s.cfg) u ∧ finishBytes u = .ok () t := by
  obtain ⟨⟨⟩, s1, hlevel, h⟩ := of_run_bind h
  rw [requireLevel_ok hlevel] at h
  rw [run_bind, setPhase, run_modify] at h
  dsimp only at h
  rw [run_bind, run_draw] at h
  dsimp only at h
  rw [run_bind, run_onStore] at h
  obtain ⟨⟨⟩, v, hhead, h⟩ := of_run_bind h
  obtain ⟨⟨⟩, u, hbody, h⟩ := of_run_bind h
  rw [run_bind, run_onStore] at h
  dsimp only at h
  have hu := headerWritten_of_body hhead hbody hpos hwf
  refine ⟨_, ?_, h⟩
  exact ⟨hu.length_lt, hu.bytes_eq, hu.flags_eq, hu.pos_lt⟩

/-- A command that ends DONE has not raised. -/
theorem settle_done {m : M Unit} {s : State} (h : (settle m s).runState = .done) :
    m s = .ok () (settle m s) := by
  cases hm : m s with
  | ok a u => rw [settle_ok hm]
  | error e u =>
    rw [settle_error hm] at h
    obtain ⟨herror, -⟩ := reports_takeError e u
    rw [herror] at h
    cases h

/-- Settles O13: the header is put at offset 0, the body goes forward from its end and writes at least one
byte, and neither a rollback nor the end of the command touches it. -/
theorem serializedHeader : Obligations.SerializedHeader := by
  intro s t i hi _ hwf _ _ hexec hdone
  obtain ⟨u, hu, hend⟩ :
      ∃ u, HeaderWritten (writtenHeader s.params s.bsSize s.cfg) u ∧ finishBytes u = .ok () t := by
    rcases hi with rfl | rfl
    · obtain rfl := Host.Outcome.next.inj hexec
      exact runSerialize_header (s := startCommand 1 s) rfl hwf (settle_done hdone)
    · obtain rfl := Host.Outcome.next.inj hexec
      exact runSerializeDestroy_header (s := startCommand 2 s) rfl hwf (settle_done hdone)
  obtain ⟨hbytes, hstream, hflags⟩ := finishBytes_ok hend
  refine ⟨?_, hstream ▸ hu.bytes_eq, hflags.trans hu.flags_eq⟩
  rw [hbytes, BitVec.toNat_ofNat, Nat.mod_eq_of_lt hu.pos_lt]
  exact hu.length_lt

end Sys2Proof.Machine

/-! The run tokens the encoder writes (42_block_encoder.md rule R247): a writer that has the room for its bytes
does not fault, and the emitter of a run chooses its bytes by the same table as the token of rule R247. -/

namespace Sys2Proof.Machine

/-! ### Writers that have the room -/

/-- A writer that ends normally where the buffer, in canonical form, has the room for these bytes, has then put
them at POS, and keeps the canonical form. -/
def PutsWithRoom (bs : List Byte) (x : Codec Unit) : Prop :=
  ∀ c, c.buf.wf = true → c.pos + bs.length ≤ c.bufSize.toNat →
    ∃ d, x c = .ok () d ∧ Wrote bs c d ∧ d.buf.wf = true

theorem putsWithRoom_putBytes (bs : List Byte) : PutsWithRoom bs (putBytes bs) := by
  intro c hwf hroom
  obtain ⟨d, hd, hwrote, hwfd, -⟩ := putBytes_wrote hwf hroom
  exact ⟨d, hd, hwrote, hwfd⟩

/-- What the first part writes takes its own share of the room. -/
theorem PutsWithRoom.bind {xs ys : List Byte} {x y : Codec Unit} (hx : PutsWithRoom xs x)
    (hy : PutsWithRoom ys y) : PutsWithRoom (xs ++ ys) (do x; y) := by
  intro c hwf hroom
  rw [List.length_append] at hroom
  obtain ⟨d, hd, hwx, hwfd⟩ := hx c hwf (by omega)
  have hpos : d.pos = c.pos + xs.length := by rw [hwx.1]
  have hsize : d.bufSize = c.bufSize := by rw [hwx.1]
  obtain ⟨e, he, hwy, hwfe⟩ := hy d hwfd (by rw [hpos, hsize]; omega)
  exact ⟨e, by rw [run_bind_ok hd, he], hwx.append hwy, hwfe⟩

/-- A range check that passes. -/
theorem PutsWithRoom.guard {p : Prop} [Decidable p] {r : PrecondReason} {bs : List Byte} {y : Codec Unit}
    {f : PUnit → Codec Unit} (hp : ¬p) (hy : PutsWithRoom bs y) :
    PutsWithRoom bs (if p then faultPre r >>= f else y) := by
  rwa [if_neg hp]

/-- A token and its writer chosen by the same condition. -/
theorem PutsWithRoom.ite {p : Prop} [Decidable p] {i j : Instr} {x y : Codec Unit}
    (hx : p → PutsWithRoom (encode i) x) (hy : ¬p → PutsWithRoom (encode j) y) :
    PutsWithRoom (encode (if p then i else j)) (if p then x else y) := by
  split
  · exact hx ‹_›
  · exact hy ‹_›

theorem putsWithRoom_putU16N {v : Nat} (hv : v ≤ 65535) :
    PutsWithRoom (wireBytes true 2 (BitVec.ofNat 16 v).toNat) (putU16N v) :=
  .guard (by omega) (putsWithRoom_putBytes _)

theorem putsWithRoom_putU32N {v : Nat} (hv : v < 2 ^ 32) :
    PutsWithRoom (wireBytes true 4 (BitVec.ofNat 32 v).toNat) (putU32N v) :=
  .guard (by omega) (putsWithRoom_putBytes _)

theorem putsWithRoom_putU64N {v : Nat} (hv : v < 2 ^ 64) :
    PutsWithRoom (wireBytes true 8 (BitVec.ofNat 64 v).toNat) (putU64N v) :=
  .guard (by omega) (putsWithRoom_putBytes _)

/-! ### The emitters of runs -/

/-- The shortcut byte of a run the 7 bits hold (30_encoding.md rule R112). -/
theorem encode_zskip {n : Nat} (hn : n ≤ 127) :
    encode (.zskip (BitVec.ofNat 7 n)) = [0x80#8 ||| BitVec.ofNat 8 n] := by
  have hwidth : (BitVec.ofNat 7 n).setWidth 8 = BitVec.ofNat 8 n :=
    BitVec.setWidth_ofNat_of_le_of_lt (by decide) (by omega)
  rw [encode, encodeAs, Instr.tag, payload, hwidth]

theorem putsWithRoom_emitZeroRun {n : Nat} (hn : n < 2 ^ 64) :
    PutsWithRoom (encode (zeroRunForm n)) (emitZeroRun n) :=
  have tag (v : Byte) := putsWithRoom_putBytes [v]
  .ite (fun _ => tag 1) fun _ =>
  .ite (fun h => encode_zskip h ▸ tag _) fun _ =>
  .ite (fun _ => (tag 3).bind (tag _)) fun _ =>
  .ite (fun h => (tag 5).bind (putsWithRoom_putU16N h)) fun _ =>
  .ite (fun h => (tag 7).bind (putsWithRoom_putU32N h)) fun _ =>
  (tag 25).bind (putsWithRoom_putU64N hn)

theorem putsWithRoom_emitOneRun {n : Nat} (hn : n < 2 ^ 64) :
    PutsWithRoom (encode (oneRunForm n)) (emitOneRun n) :=
  have tag (v : Byte) := putsWithRoom_putBytes [v]
  .ite (fun _ => tag 2) fun _ =>
  .ite (fun _ => (tag 4).bind (tag _)) fun _ =>
  .ite (fun h => (tag 6).bind (putsWithRoom_putU16N h)) fun _ =>
  .ite (fun h => (tag 8).bind (putsWithRoom_putU32N h)) fun _ =>
  (tag 26).bind (putsWithRoom_putU64N hn)

/-! ### The obligation -/

/-- After its tag byte a run token holds the run length in at most 8 bytes (30_encoding.md rule R114). -/
theorem length_encode_zeroRunForm_le (n : Nat) : (encode (zeroRunForm n)).length ≤ 9 := by
  unfold zeroRunForm
  split_ifs <;> simp [encode, encodeAs, payload, length_wireBytes]

theorem length_encode_oneRunForm_le (n : Nat) : (encode (oneRunForm n)).length ≤ 9 := by
  unfold oneRunForm
  split_ifs <;> simp [encode, encodeAs, payload, length_wireBytes]

/-- Settles O52: each emitter writes its token where there is room for it, and 9 bytes are room for every run
token. -/
theorem runEmission : Obligations.RunEmission := by
  intro c n hwf _ hn hroom
  have hzero := length_encode_zeroRunForm_le n
  have hone := length_encode_oneRunForm_le n
  obtain ⟨d, hd, hwd, -⟩ := putsWithRoom_emitZeroRun hn c hwf (by omega)
  obtain ⟨e, he, hwe, -⟩ := putsWithRoom_emitOneRun hn c hwf (by omega)
  exact ⟨⟨d, hd, hwd⟩, e, he, hwe⟩

end Sys2Proof.Machine

/-! The block decoder's terminators and reserved tags (43_block_decoder.md rules R310, R319, R322, R323, R325,
R347): each is the one rule its tags share, run in a token walk. -/

namespace Sys2Proof.Machine

/-! ### Terminators -/

/-- Both terminators are the shared rule of the end tokens. -/
theorem exec_end {i : Instr} (hi : i = .endOfStream ∨ i = .azero) (s : State) :
    exec i s = .next (settle endToken s) := by
  rcases hi with rfl | rfl <;> rfl

/-- Settles O15: the shared rule of the end tokens ends normally with EOS set, when merging and when
operating. -/
theorem endTokens : Obligations.EndTokens := by
  intro i s hi hwalk
  rw [exec_end hi, settle_ok (endToken_walk hwalk)]

/-! ### Reserved tags -/

/-- Outside a serialize a SerialFormat error leaves both memories as they are (60_exceptions.md rule R530);
unlike for a Precondition fault, no well-formedness of the store is needed for that. -/
theorem errorMemories_serialFormat {s : State} (c : SerialCause) (hp : s.phase ≠ .encode) :
    errorMemories (.serialFormat c) s = s := by
  unfold errorMemories
  cases h : s.phase with
  | encode => exact absurd h hp
  | idle | header | ids | tokens => rfl

/-- So it writes nothing but STATUS, the result registers and the scratch arrays. -/
theorem takeError_serialFormat {s : State} (c : SerialCause) (hp : s.phase ≠ .encode) :
    takeError (.serialFormat c) s = errorStatus (.serialFormat c) s := by
  rw [takeError, errorMemories_serialFormat c hp]

/-- A SerialFormat error in a token walk: the report, and no other effect a token error could have. -/
theorem tokenError_serialFormat {s : State} (c : SerialCause) (hp : s.phase ≠ .encode) :
    TokenError (.serialFormat c) s (takeError (.serialFormat c) s) ∧
      (takeError (.serialFormat c) s).bs = s.bs := by
  refine ⟨⟨reports_takeError _ s, ?_⟩, ?_⟩ <;> rw [takeError_serialFormat c hp]
  · exact ⟨⟨rfl, rfl, rfl, rfl, rfl, rfl, rfl, rfl, rfl⟩, rfl, rfl, rfl, fun _ _ => rfl⟩
  · rfl

/-- Settles O19: the shared rule of the reserved tags raises SerialFormat with the state as it was, and the
error leaves both memories. -/
theorem reservedTags : Obligations.ReservedTags := by
  intro i s hi hwalk
  have hphase : s.phase ≠ .encode := by simp [phase_of_walking hwalk]
  refine ⟨takeError (.serialFormat .unknownTag) s, ?_, tokenError_serialFormat _ hphase⟩
  rw [exec_reserved hi, settle_error (reservedTag_walk hwalk)]

end Sys2Proof.Machine

/-! The operation engine's table (45_operation_engine.md rule R430): `apply(op, a, b)` read position by position,
and its counts as numbers of positions. -/

namespace Sys2Proof.Machine

/-! ### A difference, position by position -/

/-- Above its 65536 positions a content's complement is 0, so `!b` is right only inside the block. -/
theorem getLsbD_and_not (a b : Content) {p : Nat} (hp : p < 65536) :
    (a &&& ~~~ b).getLsbD p = (a.getLsbD p && !b.getLsbD p) := by
  rw [BitVec.getLsbD_and, BitVec.getLsbD_not, decide_eq_true hp, Bool.true_and]

/-! ### Populations of combined contents -/

/-- A content whose bits inside the block are `f` has as many 1 bits as `f` holds at positions (00_scope.md
rule R16). -/
theorem popcount_of_bits {c : Content} {f : Nat → Bool} (h : ∀ p, p < 65536 → c.getLsbD p = f p) :
    popcount c = countBits f := by
  rw [popcount_eq]
  exact congrArg List.length (List.filter_congr fun p hp => h p (List.mem_range.1 hp))

theorem popcount_and (a b : Content) :
    popcount (a &&& b) = countBits (fun p => a.getLsbD p && b.getLsbD p) :=
  popcount_of_bits fun _ _ => BitVec.getLsbD_and

theorem popcount_or (a b : Content) :
    popcount (a ||| b) = countBits (fun p => a.getLsbD p || b.getLsbD p) :=
  popcount_of_bits fun _ _ => BitVec.getLsbD_or

theorem popcount_xor (a b : Content) :
    popcount (a ^^^ b) = countBits (fun p => a.getLsbD p ^^ b.getLsbD p) :=
  popcount_of_bits fun _ _ => BitVec.getLsbD_xor

theorem popcount_and_not (a b : Content) :
    popcount (a &&& ~~~ b) = countBits (fun p => a.getLsbD p && !b.getLsbD p) :=
  popcount_of_bits fun _ => getLsbD_and_not a b

/-! ### The two kinds of operation -/

theorem applyOp_counting_fst {o : SetOp} (h : isCounting o = true) (a b : Content) :
    (applyOp o a b).1 = a := by
  cases o with
  | assign | or | and | xor | sub => exact absurd h (by decide)
  | count | countAnd | countOr | countXor | countSubAB | countSubBA | countA | countB => rfl

theorem applyOp_writing_snd {o : SetOp} (h : isCounting o = false) (a b : Content) :
    (applyOp o a b).2 = 0 := by
  cases o with
  | assign | or | and | xor | sub => rfl
  | count | countAnd | countOr | countXor | countSubAB | countSubBA | countA | countB => exact absurd h (by decide)

/-! ### The obligation -/

/-- Settles O26: each row of the table is a bitwise operation on contents or the population of one, so its bits
and its count are those of the two contents, taken at each position. -/
theorem applyTable : Obligations.ApplyTable := by
  intro a b
  exact ⟨fun _ hp => ⟨rfl, BitVec.getLsbD_or, BitVec.getLsbD_and, BitVec.getLsbD_xor, getLsbD_and_not a b hp⟩,
    fun _ h => applyOp_counting_fst h a b, fun _ h => applyOp_writing_snd h a b,
    popcount_eq b, popcount_and a b, popcount_or a b, popcount_xor a b, popcount_and_not a b,
    popcount_and_not b a, popcount_eq a, popcount_eq b⟩

end Sys2Proof.Machine

/-! Illegal configurations (46_host_commands.md rule R493): each is found while the phase is still idle, before
the command has touched a memory, so taking the error leaves both memories as they were. -/

namespace Sys2Proof.Machine

/-! ### Errors before the body of a command -/

/-- Outside the body of a command an error opens no memory (60_exceptions.md rule R530). -/
theorem errorMemories_idle {s : State} (e : Raise) (h : s.phase = .idle) : errorMemories e s = s := by
  simp only [errorMemories, h]

/-- An error taken right after a command's start is reported, and both memories are as before the start. -/
theorem takeError_startCommand (e : Raise) (code : U64) (s : State) :
    Reports e (takeError e (startCommand code s)) ∧
      (takeError e (startCommand code s)).stream.buf = s.stream.buf ∧
      (takeError e (startCommand code s)).bs = s.bs := by
  refine ⟨reports_takeError e _, ?_⟩
  have hmem : errorMemories e (startCommand code s) = startCommand code s := errorMemories_idle e rfl
  rw [takeError, hmem]
  exact ⟨rfl, rfl⟩

/-! ### The range -/

/-- RANGE_DESERIALIZE with an illegal range ends at once (46_host_commands.md rule R493). -/
theorem exec_rangeDeserialize_illegalRange {s : State}
    (h : s.rangeTo.toNat < s.rangeFrom.toNat ∨ 2 ^ s.params.aw.bits ≤ s.rangeTo.toNat) :
    exec .rangeDeserialize s = .next (takeError (.precondition .range) (startCommand 5 s)) :=
  congrArg Host.Outcome.next (settle_error (beginRange_error (s := startCommand 5 s) h))

/-! ### The obligation -/

/-- Settles O9: each command tests its configuration first, and the error it takes comes right after its
start. -/
theorem illegalConfiguration : Obligations.IllegalConfiguration := by
  intro s
  refine ⟨fun i hi hlevel => ?_, fun hop => ?_, fun hrange => ?_⟩
  · obtain ⟨hser, hdestroy⟩ := exec_serialize_illegalLevel hlevel
    rcases hi with rfl | rfl
    · exact ⟨_, hser, takeError_startCommand _ 1 s⟩
    · exact ⟨_, hdestroy, takeError_startCommand _ 2 s⟩
  · exact ⟨_, exec_opDeserialize_illegalOp (setOpOf_eq_none hop), takeError_startCommand _ 4 s⟩
  · exact ⟨_, exec_rangeDeserialize_illegalRange hrange, takeError_startCommand _ 5 s⟩

end Sys2Proof.Machine

/-! The two SerialFormat errors of the header parse (60_exceptions.md rules R522, R523, R526): both are raised
while the header is latched, when only the registers its first two bytes set have been written, so the error
finds both memories as the command left them. -/

namespace Sys2Proof.Machine

section HeaderParse
variable {h : Header} {s : State}

/-! ### The checks of `parse_header()` -/

/-- The state the two checks see: FLAGS and the byte order are latched, nothing else of the header is
(43_block_decoder.md rule R302). -/
def headerBegun (h : Header) (s : State) : State :=
  { s with
    hdrFlags := h.flags
    hdrBo := h.byteOrder.getD (Config.freeHdrBo s.draws)
    stream := { s.stream with sbo := headerSbo h }
    draws := s.draws + 1 }

/-- The byte-order byte is checked first, whatever the address width (60_exceptions.md rule R526). -/
theorem latchHeader_byteOrder (hbo : 1 < (h.byteOrder.getD 0).toNat) :
    latchHeader h s = .error (.serialFormat .byteOrder) (headerBegun h s) := by
  simp only [latchHeader, run_bind, run_draw, run_modify, if_pos hbo, run_failSerial, headerBegun]

theorem latchHeader_addressWidth (hbo : (h.byteOrder.getD 0).toNat ≤ 1)
    (hwidth : h.is64 ≠ decide (s.params.aw = .w48)) :
    latchHeader h s = .error (.serialFormat .addressWidth) (headerBegun h s) := by
  simp only [latchHeader, run_bind, run_draw, run_modify, run_get, if_neg (Nat.not_lt.2 hbo),
    if_pos hwidth, run_failSerial, headerBegun]

/-! ### From the parse to the step -/

/-- Every decode command latches the header before it does anything else with it. -/
theorem headerToken_error {e : Raise} {t : State} (hbusy : s.runState = .busy)
    (hphase : s.phase = .header) (hcmd : s.cmd = 3 ∨ s.cmd = 4 ∨ s.cmd = 5)
    (he : latchHeader h s = .error e t) :
    headerToken h s = .error e t := by
  have hmerge : headerMerge h s = .error e t := run_bind_error he
  have hoperate : headerOperate h s = .error e t := run_bind_error he
  rcases hcmd with hcmd | hcmd | hcmd <;>
    simp [headerToken, run_bind, hbusy, hphase, hcmd, hmerge, hoperate]

/-- A SerialFormat error taken at either check is reported and leaves both memories. -/
theorem takeError_headerBegun (c : SerialCause) (hphase : s.phase = .header) :
    Reports (.serialFormat c) (takeError (.serialFormat c) (headerBegun h s)) ∧
      (takeError (.serialFormat c) (headerBegun h s)).bs = s.bs ∧
      (takeError (.serialFormat c) (headerBegun h s)).bsSize = s.bsSize ∧
      (takeError (.serialFormat c) (headerBegun h s)).stream.buf = s.stream.buf := by
  have hencode : (headerBegun h s).phase ≠ .encode := by simp [headerBegun, hphase]
  refine ⟨reports_takeError _ _, ?_⟩
  rw [takeError_serialFormat c hencode]
  exact ⟨rfl, rfl, rfl⟩

/-- A check that fails ends the command with its error, both memories untouched. -/
theorem exec_streamHeader_serialFormat {c : SerialCause} (hbusy : s.runState = .busy)
    (hphase : s.phase = .header) (hcmd : s.cmd = 3 ∨ s.cmd = 4 ∨ s.cmd = 5)
    (he : latchHeader h s = .error (.serialFormat c) (headerBegun h s)) :
    ∃ t, exec (.streamHeader h) s = .next t ∧ Reports (.serialFormat c) t ∧
      t.bs = s.bs ∧ t.bsSize = s.bsSize ∧ t.stream.buf = s.stream.buf :=
  ⟨_, congrArg Host.Outcome.next (settle_error (headerToken_error hbusy hphase hcmd he)),
    takeError_headerBegun c hphase⟩

end HeaderParse

/-! ### The obligation -/

/-- Without a byte-order byte there is none to refuse. -/
theorem byteOrder_getD_le {h : Header} (hbo : ∀ b, h.byteOrder = some b → b.toNat ≤ 1) :
    (h.byteOrder.getD 0).toNat ≤ 1 := by
  cases hb : h.byteOrder with
  | none => exact Nat.zero_le 1
  | some b => exact hbo b hb

/-- Settles O33: each check fails in the latching of the header, the byte order's before the width's. -/
theorem headerErrors : Obligations.HeaderErrors := by
  intro h s hbusy hphase hcmd
  refine ⟨fun b hb hbad => ?_, fun hbo hwidth => ?_⟩
  · have hbad : 1 < (h.byteOrder.getD 0).toNat := by rwa [hb]
    exact exec_streamHeader_serialFormat hbusy hphase hcmd (latchHeader_byteOrder hbad)
  · exact exec_streamHeader_serialFormat hbusy hphase hcmd
      (latchHeader_addressWidth (byteOrder_getD_le hbo) hwidth)

end Sys2Proof.Machine

/-! What the host must not do (70_reset_and_hazards.md rule R572): the host port answers a forbidden access
with a refusal, whatever the access carries, and leaves STATUS to be read. -/

namespace Sys2Proof.Machine

/-! ### The host port while a command runs -/

section WhileBusy

variable {s : State} {rest : List HostEvent}

/-- An access to either memory is refused, whatever it would have answered. -/
theorem whenIdle_busy (hb : s.runState = .busy) (o : Host.Outcome State Fault Refusal) :
    whenIdle s o = .refused .hostAccessWhileBusy := if_pos hb

/-- No host register can be written, CMD included. -/
theorem step_writeReg_busy {no : Nat} {v : U64} (h : s.host = .writeReg no v :: rest)
    (hb : s.runState = .busy) : step s = .refused .hostAccessWhileBusy :=
  (step_host h nofun).trans (if_pos hb)

/-- STATUS can be read at any time, and the read changes nothing else. -/
theorem step_readStatus (h : s.host = .readReg 6 :: rest) :
    step s = .next { s with host := rest, hostData := statusWord s } := step_host h nofun

end WhileBusy

/-! ### The values of CMD that are no command -/

/-- The codes outside 1..5 name no command (10_state.md rule R41). -/
theorem decodeCommand_eq_none {v : U64} (h : v.toNat = 0 ∨ 5 < v.toNat) : decodeCommand v = none := by
  unfold decodeCommand
  split
  case h_6 => rfl
  all_goals omega

/-! ### The obligation -/

/-- Settles O7: each forbidden event meets the host port's test of BUSY first, and a value outside 1..5 meets
the decoder of CMD. -/
theorem forbiddenAccesses : Obligations.ForbiddenAccesses := by
  intro s rest
  refine ⟨fun hb => ⟨fun no v h => ?write, fun a v h => ?writeBuf, fun a h => ?readBuf, fun nb sl h => ?putSlot,
    fun n h => ?setSize, fun n h => ?readBit, step_readStatus⟩,
    fun v hb hv h => step_writeCmd_refused h hb (decodeCommand_eq_none hv)⟩
  case write => exact step_writeReg_busy h hb
  all_goals exact (step_host h nofun).trans (whenIdle_busy hb _)

end Sys2Proof.Machine

/-! Decoding inverts encoding, the byte formats (30_encoding.md rules R112 to R119, R126, R127). A reader is
described by the bytes it takes; sequences of readers take the bytes of their parts, and so the reader of each
payload takes the payload the encoder writes. -/

namespace Sys2Proof.Machine

/-! ### Bytes ahead of POS -/

/-- These bytes are at POS, all of them inside the buffer. -/
structure Ahead (bs : List Byte) (c : Stream) : Prop where
  fits : c.pos + bs.length ≤ c.bufSize.toNat
  bytes : c.buf.readList c.pos bs.length = bs

/-- The stream side with POS moved on. -/
def Stream.skip (c : Stream) (n : Nat) : Stream := { c with pos := c.pos + n }

theorem Stream.skip_skip (c : Stream) (m n : Nat) : (c.skip m).skip n = c.skip (m + n) := by
  rw [skip, skip, skip, Nat.add_assoc]

section Ahead

variable {xs ys : List Byte} {c : Stream}

theorem readList_append_iff {m : Memory} {a : Nat} :
    m.readList a (xs ++ ys).length = xs ++ ys ↔
      m.readList a xs.length = xs ∧ m.readList (a + xs.length) ys.length = ys := by
  rw [List.length_append, readList_append]
  exact ⟨fun h => List.append_inj h (Memory.length_readList _ _ _),
    fun ⟨h1, h2⟩ => by rw [h1, h2]⟩

theorem Ahead.left (h : Ahead (xs ++ ys) c) : Ahead xs c :=
  ⟨by have := h.fits; rw [List.length_append] at this; omega, (readList_append_iff.1 h.bytes).1⟩

theorem Ahead.right (h : Ahead (xs ++ ys) c) : Ahead ys (c.skip xs.length) :=
  ⟨by have := h.fits; rw [List.length_append, ← Nat.add_assoc] at this; exact this,
    (readList_append_iff.1 h.bytes).2⟩

end Ahead

/-! ### Readers by the bytes they take -/

/-- A reader that, in a stream of the given byte order and with the bit reader drained (40_bitcodec.md rule
R187), takes exactly these bytes for a value, and changes nothing but POS. -/
def Takes {α : Type} (sbo : Bool) (bs : List Byte) (x : Codec α) (a : α) : Prop :=
  ∀ c : Stream, c.sbo = sbo → c.racc = 0 → c.ravail = 0 → Ahead bs c → x c = .ok a (c.skip bs.length)

section Takes

variable {α β : Type} {sbo : Bool} {xs ys : List Byte}

theorem Takes.pure (a : α) : Takes sbo [] (Pure.pure a : Codec α) a := fun _ _ _ _ _ => rfl

theorem Takes.bind {x : Codec α} {a : α} {f : α → Codec β} {b : β} (hx : Takes sbo xs x a)
    (hf : Takes sbo ys (f a) b) : Takes sbo (xs ++ ys) (x >>= f) b := by
  intro c hs hr hv h
  rw [run_bind_ok (hx c hs hr hv h.left), hf (c.skip xs.length) hs hr hv h.right, Stream.skip_skip,
    List.length_append]

/-- A last step that only wraps the value takes no byte. -/
theorem Takes.map {x : Codec α} {a : α} (hx : Takes sbo xs x a) (f : α → β) :
    Takes sbo xs (do return f (← x)) (f a) := by
  have h := hx.bind (f := fun a => (return f a : Codec β)) (Takes.pure (f a))
  rwa [List.append_nil] at h

theorem takes_getUint (n v : Nat) : Takes sbo (wireBytes sbo n v) (getUint n) (v % 256 ^ n) := by
  intro c hs _ _ h
  obtain ⟨hfits, hbytes⟩ := h
  rw [length_wireBytes] at hfits hbytes
  rw [run_getUint, if_neg (by omega), hbytes, hs, bytesValue_wireBytes, length_wireBytes, Stream.skip, hs]

theorem takes_getU8 (b : Byte) : Takes sbo [b] getU8 b := by
  intro c _ _ _ h
  have hfits : c.pos + 1 ≤ c.bufSize.toNat := h.fits
  have hbyte : c.buf.read c.pos = b := List.singleton_inj.1 h.bytes
  rw [run_getU8, if_neg (by omega), hbyte]
  rfl

theorem takes_getU16 (v : U16) : Takes sbo (wireBytes sbo 2 v.toNat) getU16 v := by
  have h := (takes_getUint (sbo := sbo) 2 v.toNat).map (BitVec.ofNat 16)
  rwa [show v.toNat % 256 ^ 2 = v.toNat from Nat.mod_eq_of_lt v.isLt, BitVec.ofNat_toNat, BitVec.setWidth_eq] at h

theorem takes_getU32 (v : U32) : Takes sbo (wireBytes sbo 4 v.toNat) getU32 v := by
  have h := (takes_getUint (sbo := sbo) 4 v.toNat).map (BitVec.ofNat 32)
  rwa [show v.toNat % 256 ^ 4 = v.toNat from Nat.mod_eq_of_lt v.isLt, BitVec.ofNat_toNat, BitVec.setWidth_eq] at h

theorem takes_getU64 (v : U64) : Takes sbo (wireBytes sbo 8 v.toNat) getU64 v := by
  have h := (takes_getUint (sbo := sbo) 8 v.toNat).map (BitVec.ofNat 64)
  rwa [show v.toNat % 256 ^ 8 = v.toNat from Nat.mod_eq_of_lt v.isLt, BitVec.ofNat_toNat, BitVec.setWidth_eq] at h

theorem takes_getU16Array (vs : List U16) : Takes sbo (wireU16s sbo vs) (getU16Array vs.length) vs := by
  induction vs with
  | nil => exact Takes.pure []
  | cons v vs ih => exact (takes_getU16 v).bind (ih.map (v :: ·))

theorem takes_getU32Array (vs : List U32) : Takes sbo (wireU32s sbo vs) (getU32Array vs.length) vs := by
  induction vs with
  | nil => exact Takes.pure []
  | cons v vs ih => exact (takes_getU32 v).bind (ih.map (v :: ·))

end Takes

end Sys2Proof.Machine

namespace Sys2Proof

open Sys2Proof.Machine

/-! ### The payloads of the byte formats -/

section Payloads

variable {sbo : Bool}

theorem takes_readIdx {idx : List U16} (h : wfIdx idx = true) :
    Takes sbo (wireIdx sbo idx) readIdx idx := by
  simp only [wfIdx, Bool.and_eq_true, decide_eq_true_eq] at h
  obtain ⟨-, hlen⟩ := h
  have hn : (BitVec.ofNat 16 idx.length).toNat = idx.length := by
    rw [BitVec.toNat_ofNat]
    exact Nat.mod_eq_of_lt hlen
  have hcount := takes_getU16 (sbo := sbo) (BitVec.ofNat 16 idx.length)
  have harr := takes_getU16Array (sbo := sbo) idx
  rw [hn] at hcount
  refine hcount.bind (f := fun n => getU16Array n.toNat) ?_
  rwa [hn]

theorem takes_readGap {head : U16} {ends : List U16} (h : ends.length = gapCount head - 1) :
    Takes sbo (wireU16s sbo (head :: ends)) readGap (head, ends) := by
  have harr := takes_getU16Array (sbo := sbo) ends
  rw [h] at harr
  exact (takes_getU16 head).bind (harr.map (head, ·))

theorem takes_readInterval {head tail : U16} {ws : List U32}
    (h : (Instr.bitInterval head tail ws).wf = true) :
    Takes sbo (wireU16s sbo [head, tail] ++ wireU32s sbo ws) readInterval (head, tail, ws) := by
  simp only [Instr.wf, Bool.and_eq_true, decide_eq_true_eq] at h
  obtain ⟨⟨hle, htop⟩, hlen⟩ := h
  have harr := takes_getU32Array (sbo := sbo) ws
  rw [hlen] at harr
  have hbytes : wireU16s sbo [head, tail] ++ wireU32s sbo ws =
      wireBytes sbo 2 head.toNat ++ (wireBytes sbo 2 tail.toNat ++ wireU32s sbo ws) := by
    simp [wireU16s]
  rw [hbytes]
  refine (takes_getU16 head).bind ((takes_getU16 tail).bind ?_)
  rw [if_neg (by omega)]
  exact harr.map (head, tail, ·)

theorem takes_readDigest {d : U64} {ws : List U32} (h : ws.length = 32 * digestWaves d) :
    Takes sbo (wireBytes sbo 8 d.toNat ++ wireU32s sbo ws) readDigest (d, ws) := by
  have harr := takes_getU32Array (sbo := sbo) ws
  rw [h] at harr
  exact (takes_getU64 d).bind (harr.map (d, ·))

/-- The bytes of the runs of a `bit_0runs` payload (30_encoding.md rule R126). -/
def wireRuns (sbo : Bool) (runs : List (U16 × List U32)) : List Byte :=
  runs.flatMap fun r => wireBytes sbo 2 r.1.toNat ++ wireU32s sbo r.2

theorem takes_readRuns {fuel left : Nat} {nz : Bool} {runs : List (U16 × List U32)}
    (h : runsOk nz left runs = true) (hfuel : left ≤ fuel) :
    Takes sbo (wireRuns sbo runs) (readRuns fuel nz left) runs := by
  induction runs generalizing fuel nz left with
  | nil =>
    obtain rfl : left = 0 := of_decide_eq_true h
    cases fuel with
    | zero => exact Takes.pure []
    | succ fuel =>
      rw [readRuns, if_pos rfl]
      exact Takes.pure []
  | cons r rs ih =>
    obtain ⟨len, ws⟩ := r
    simp only [runsOk, Bool.and_eq_true, decide_eq_true_eq] at h
    obtain ⟨⟨⟨hpos, hle⟩, hws⟩, hrest⟩ := h
    cases fuel with
    | zero => omega
    | succ fuel =>
      have hrs := (ih hrest (fuel := fuel) (by omega)).map ((len, ws) :: ·)
      rw [readRuns, if_neg (by omega), wireRuns, List.flatMap_cons, List.append_assoc]
      refine (takes_getU16 len).bind ?_
      rw [if_neg (by omega)]
      cases nz with
      | false =>
        obtain rfl : ws = [] := List.length_eq_zero_iff.1 hws
        exact (Takes.pure []).bind hrs
      | true =>
        have harr := takes_getU32Array (sbo := sbo) ws
        rw [show ws.length = len.toNat from hws] at harr
        exact harr.bind hrs

theorem takes_read0runs {start : Byte} {runs : List (U16 × List U32)}
    (h : (Instr.bit0runs start runs).wf = true) :
    Takes sbo (start :: wireRuns sbo runs) read0runs (start, runs) := by
  simp only [Instr.wf, Bool.and_eq_true, decide_eq_true_eq] at h
  obtain ⟨hstart, hruns⟩ := h
  refine (takes_getU8 start).bind (ys := wireRuns sbo runs) ?_
  rw [if_neg (by omega)]
  exact (takes_readRuns hruns (Nat.le_refl _)).map (start, ·)

/-! ### Every token of a byte format -/

theorem decodePayload_zskip (n : BitVec 7) :
    decodePayload (0x80#8 ||| n.setWidth 8) = (return .zskip n) := by
  have h : (0x80#8 ||| n.setWidth 8).getLsbD 7 = true ∧ (0x80#8 ||| n.setWidth 8).setWidth 7 = n := by
    revert n
    decide
  obtain ⟨hshort, hlow⟩ := h
  rw [decodePayload, if_pos hshort, hlow]

theorem decodePayload_unassigned {t : Byte} (h1 : 35 ≤ t.toNat) (h2 : t.toNat ≤ 127) :
    decodePayload t = (return .unassigned t) := by
  have hshort : t.getLsbD 7 = false := by
    rw [getLsbD_testBit, Nat.testBit_lt_two_pow (by omega)]
  rw [decodePayload, if_neg (by rw [hshort]; decide)]
  split
  case h_36 => rfl
  all_goals omega

/-- The reader of a payload takes what the encoder writes after the tag. -/
theorem takes_payload {i : Instr} (hb : byteCoded i = true) (hw : i.wf = true) :
    Takes sbo (payload sbo i) (decodePayload i.tag) i := by
  cases i <;> dsimp only [Instr.tag]
  case zero8 n => exact (takes_getU8 n).map Instr.zero8
  case one8 n => exact (takes_getU8 n).map Instr.one8
  case zero16 n => exact (takes_getU16 n).map Instr.zero16
  case one16 n => exact (takes_getU16 n).map Instr.one16
  case zero32 n => exact (takes_getU32 n).map Instr.zero32
  case one32 n => exact (takes_getU32 n).map Instr.one32
  case zero64 n => exact (takes_getU64 n).map Instr.zero64
  case one64 n => exact (takes_getU64 n).map Instr.one64
  case bit words =>
    have harr := takes_getU32Array (sbo := sbo) words
    rw [show words.length = 2048 from of_decide_eq_true hw] at harr
    exact harr.map Instr.bit
  case gap head ends =>
    simp only [Instr.wf, Bool.and_eq_true, decide_eq_true_eq] at hw
    exact (takes_readGap hw.1.1.2).map fun r => Instr.gap r.1 r.2
  case arrbit idx => exact (takes_readIdx hw).map Instr.arrbit
  case arrbitInv idx => exact (takes_readIdx hw).map Instr.arrbitInv
  case arrgap idx => exact (takes_readIdx hw).map Instr.arrgap
  case arrgapInv idx => exact (takes_readIdx hw).map Instr.arrgapInv
  case bitInterval head tail ws =>
    exact (takes_readInterval hw).map fun r => Instr.bitInterval r.1 r.2.1 r.2.2
  case bit1bit pos => exact (takes_getU16 pos).map Instr.bit1bit
  case bit0runs start runs => exact (takes_read0runs hw).map fun r => Instr.bit0runs r.1 r.2
  case bitDigest0 d ws =>
    exact (takes_readDigest (of_decide_eq_true hw)).map fun r => Instr.bitDigest0 r.1 r.2
  case zskip n =>
    rw [decodePayload_zskip]
    exact Takes.pure _
  case unassigned t =>
    simp only [Instr.wf, Bool.and_eq_true, decide_eq_true_eq] at hw
    rw [decodePayload_unassigned hw.1 hw.2]
    exact Takes.pure _
  case endOfStream | zero1 | one1 | azero | aone | sgapbit | sgapgap | gapbit => exact Takes.pure _
  all_goals exact absurd hb Bool.false_ne_true

theorem takes_decodeToken {i : Instr} (h : Takes sbo (payload sbo i) (decodePayload i.tag) i) :
    Takes sbo (encodeAs sbo i) decodeToken i :=
  (takes_getU8 i.tag).bind (ys := payload sbo i) h

/-! ### Plain bytes -/

theorem ahead_ofBytes {bs rest : List Byte} (h : (bs ++ rest).length < 2 ^ 64) :
    Ahead bs (Stream.ofBytes sbo (bs ++ rest) (bs ++ rest).length) := by
  have hsize : (BitVec.ofNat 64 (bs ++ rest).length).toNat = (bs ++ rest).length := by
    rw [BitVec.toNat_ofNat]
    exact Nat.mod_eq_of_lt h
  refine Ahead.left (ys := rest) ⟨?_, Memory.readList_writeList Memory.wf_blank 0 _⟩
  show 0 + _ ≤ (BitVec.ofNat 64 (bs ++ rest).length).toNat
  rw [hsize, Nat.zero_add]

/-- A token whose bytes the decoder takes for it is decoded from plain bytes, whatever follows. -/
theorem decodeBytes_of_takes {i : Instr} {rest : List Byte}
    (h : Takes sbo (encodeAs sbo i) decodeToken i) (hlen : (encodeAs sbo i ++ rest).length < 2 ^ 64) :
    decodeBytes sbo (encodeAs sbo i ++ rest) = some (i, (encodeAs sbo i).length) := by
  rw [decodeBytes, h _ rfl rfl rfl (ahead_ofBytes hlen)]
  exact congrArg some (Prod.ext rfl (Nat.zero_add _))

end Payloads

/-- Settles O44: the tag byte picks the reader of the format, which takes the payload written for it. -/
theorem decodeEncodeBytes : Obligations.DecodeEncodeBytes := by
  intro sbo i rest hb hw
  exact decodeBytes_of_takes (takes_decodeToken (takes_payload hb hw))

end Sys2Proof

/-! Decoding inverts encoding, the gamma-coded formats (30_encoding.md rules R120, R122, R140 to R143;
40_bitcodec.md rules R178 to R181). A bit-coded part is described by the bits it delivers: a bit reader takes
bits off the front, and the part ends in a padding shorter than a word, so that the words loaded are those
written. -/

namespace Sys2Proof.Machine

/-! ### Fields of bits -/

theorem length_lowBits (n v : Nat) : (lowBits n v).length = n := by
  induction n generalizing v with
  | zero => rfl
  | succ n ih => rw [lowBits, List.length_cons, ih]

theorem bitsValue_lt (bs : List Bool) : bitsValue bs < 2 ^ bs.length := by
  induction bs with
  | nil => decide
  | cons b bs ih =>
    rw [bitsValue, List.length_cons, Nat.pow_succ]
    split <;> omega

/-- A field of bits as wide as the list, padded with zeros. -/
theorem lowBits_bitsValue {bs : List Bool} {n : Nat} (h : bs.length ≤ n) :
    lowBits n (bitsValue bs) = bs ++ List.replicate (n - bs.length) false := by
  induction bs generalizing n with
  | nil =>
    rw [List.nil_append, List.length_nil, Nat.sub_zero, bitsValue]
    clear h
    induction n with
    | zero => rfl
    | succ n ih =>
      rw [lowBits, List.replicate_succ, Nat.zero_div, ih]
      rfl
  | cons b bs ih =>
    obtain ⟨m, rfl⟩ : ∃ m, n = m + 1 := ⟨n - 1, by simp at h; omega⟩
    have hb : decide (((if b then 1 else 0) + 2 * bitsValue bs) % 2 = 1) = b := by
      cases b
      · simp
      · simp
    have hhalf : ((if b then 1 else 0) + 2 * bitsValue bs) / 2 = bitsValue bs := by
      cases b
      · simp
      · simp
        omega
    rw [bitsValue, lowBits, hb, hhalf, ih (by simpa using h), List.length_cons,
      Nat.add_sub_add_right, List.cons_append]

/-! ### The bits a stream delivers -/

/-- The bits the reader delivers before it loads past the next `n` words: the unread ones of the accumulator,
then those of the words (40_bitcodec.md rules R170, R178). -/
def bitsAhead (c : Stream) (n : Nat) : List Bool :=
  lowBits c.ravail c.racc.toNat ++ (streamWords c n).flatMap fun w => lowBits 32 w.toNat

/-- The bits still to be read of a bit-coded part that ends at an offset. -/
def BitsTo (stop : Nat) (c : Stream) (bits : List Bool) : Prop :=
  ∃ n, c.pos + 4 * n = stop ∧ stop ≤ c.bufSize.toNat ∧ bitsAhead c n = bits

/-- Two stream sides that differ in what the bit reader moves, and in nothing else. -/
def SameButReader (c d : Stream) : Prop :=
  d = { c with pos := d.pos, racc := d.racc, ravail := d.ravail }

theorem SameButReader.refl (c : Stream) : SameButReader c c := rfl

theorem SameButReader.trans {c d e : Stream} (h1 : SameButReader c d) (h2 : SameButReader d e) :
    SameButReader c e := by
  rw [SameButReader] at h1 h2 ⊢
  rw [h1] at h2
  exact h2

/-- A bit reader that takes exactly these bits for a value. -/
def TakesBits {α : Type} (bits : List Bool) (x : Codec α) (a : α) : Prop :=
  ∀ (c : Stream) (stop : Nat) (post : List Bool), BitsTo stop c (bits ++ post) →
    ∃ d, x c = .ok a d ∧ SameButReader c d ∧ BitsTo stop d post

section TakesBits

variable {α β : Type} {xs ys : List Bool}

theorem TakesBits.pure (a : α) : TakesBits [] (Pure.pure a : Codec α) a :=
  fun c _ _ h => ⟨c, rfl, .refl c, h⟩

theorem TakesBits.bind {x : Codec α} {a : α} {f : α → Codec β} {b : β} (hx : TakesBits xs x a)
    (hf : TakesBits ys (f a) b) : TakesBits (xs ++ ys) (x >>= f) b := by
  intro c stop post h
  rw [List.append_assoc] at h
  obtain ⟨d, hd, hcd, hrest⟩ := hx c stop (ys ++ post) h
  obtain ⟨e, he, hde, hpost⟩ := hf d stop post hrest
  exact ⟨e, by rw [run_bind_ok hd, he], hcd.trans hde, hpost⟩

theorem TakesBits.map {x : Codec α} {a : α} (hx : TakesBits xs x a) (f : α → β) :
    TakesBits xs (do return f (← x)) (f a) := by
  have h := hx.bind (f := fun a => (return f a : Codec β)) (TakesBits.pure (f a))
  rwa [List.append_nil] at h

theorem bitsAhead_ravail_zero {c : Stream} (h : c.ravail = 0) (n : Nat) :
    bitsAhead c n = (streamWords c n).flatMap fun w => lowBits 32 w.toNat := by
  rw [bitsAhead, h]
  rfl

theorem lowBits_shiftRight_one (n : Nat) (w : U32) :
    lowBits (n + 1) w.toNat = w.getLsbD 0 :: lowBits n (w >>> 1).toNat := by
  rw [lowBits, BitVec.toNat_ushiftRight, Nat.shiftRight_one, getLsbD_testBit, Nat.testBit_zero]

theorem takesBits_getBit (b : Bool) : TakesBits [b] getBit b := by
  rintro c stop post ⟨n, hstop, hfits, hbits⟩
  rw [run_getBit]
  by_cases hr : c.ravail = 0
  · rw [bitsAhead_ravail_zero hr] at hbits
    cases n with
    | zero => cases hbits
    | succ n =>
      rw [streamWords_succ, List.flatMap_cons, lowBits_shiftRight_one] at hbits
      obtain ⟨hb, hpost⟩ := List.cons.inj hbits
      rw [if_pos hr, if_neg (by omega), ← hb]
      exact ⟨_, rfl, rfl, n, by dsimp only; omega, hfits, hpost⟩
  · obtain ⟨k, hk⟩ : ∃ k, c.ravail = k + 1 := ⟨c.ravail - 1, by omega⟩
    rw [bitsAhead, hk, lowBits_shiftRight_one] at hbits
    obtain ⟨hb, hpost⟩ := List.cons.inj hbits
    rw [if_neg hr, ← hb]
    refine ⟨_, rfl, rfl, n, hstop, hfits, ?_⟩
    rw [bitsAhead, hk]
    exact hpost

theorem takesBits_getBits (n v : Nat) (h : v < 2 ^ n) : TakesBits (lowBits n v) (getBits n) v := by
  induction n generalizing v with
  | zero =>
    obtain rfl : v = 0 := by simpa using h
    exact TakesBits.pure 0
  | succ n ih =>
    have hrest := (ih (v / 2) (by rw [Nat.pow_succ] at h; omega)).map
      ((if decide (v % 2 = 1) then 1 else 0) + 2 * ·)
    have hv : (if decide (v % 2 = 1) then 1 else 0) + 2 * (v / 2) = v := by
      rcases Nat.mod_two_eq_zero_or_one v with h2 | h2 <;> simp [h2] <;> omega
    rw [hv] at hrest
    exact (takesBits_getBit (decide (v % 2 = 1))).bind hrest

/-! ### Gamma codes (rule R181) -/

theorem takesBits_gammaZeros {k fuel : Nat} (l : Nat) (h : k < fuel) :
    TakesBits (List.replicate k false ++ [true]) (gammaZeros fuel l) (some (l + k)) := by
  induction k generalizing fuel l with
  | zero =>
    obtain ⟨f, rfl⟩ : ∃ f, fuel = f + 1 := ⟨fuel - 1, by omega⟩
    exact (takesBits_getBit true).bind (TakesBits.pure (some l))
  | succ k ih =>
    obtain ⟨f, rfl⟩ : ∃ f, fuel = f + 1 := ⟨fuel - 1, by omega⟩
    rw [show l + (k + 1) = l + 1 + k by omega]
    exact (takesBits_getBit false).bind (ih (l + 1) (by omega))

theorem takesBits_gammaDec {g : U32} (h : g.toNat ≠ 0) : TakesBits (gammaBits g.toNat) gammaDec g := by
  have hlow : 2 ^ Nat.log2 g.toNat ≤ g.toNat := Nat.log2_self_le h
  have hhigh : g.toNat < 2 ^ (Nat.log2 g.toNat + 1) := Nat.lt_log2_self
  have hlog : Nat.log2 g.toNat < 32 := (Nat.log2_lt h).2 g.isLt
  have hvalue : BitVec.ofNat 32 (2 ^ Nat.log2 g.toNat + (g.toNat - 2 ^ Nat.log2 g.toNat)) = g := by
    rw [Nat.add_sub_of_le hlow, BitVec.ofNat_toNat, BitVec.setWidth_eq]
  have hbits := (takesBits_getBits (Nat.log2 g.toNat) (g.toNat - 2 ^ Nat.log2 g.toNat)
    (by rw [Nat.pow_succ] at hhigh; omega)).map
      fun v => BitVec.ofNat 32 (2 ^ Nat.log2 g.toNat + v)
  rw [hvalue] at hbits
  have hzeros := takesBits_gammaZeros 0 hlog
  rw [Nat.zero_add] at hzeros
  have h := hzeros.bind (f := fun o => match o with
    | none => return 0
    | some l => return BitVec.ofNat 32 (2 ^ l + (← getBits l))) hbits
  rwa [List.append_assoc, List.singleton_append] at h

end TakesBits

/-! ### Bit-coded parts (rules R140, R143) -/

theorem length_packWords (n : Nat) (bs : List Bool) : (packWords n bs).length = n := by
  induction n generalizing bs with
  | zero => rfl
  | succ n ih => rw [packWords, List.length_cons, ih]

/-- The bits of packed words: those packed, then zeros. -/
theorem bits_packWords {n : Nat} {bs : List Bool} (h : bs.length ≤ 32 * n) :
    ((packWords n bs).flatMap fun w => lowBits 32 w.toNat) =
      bs ++ List.replicate (32 * n - bs.length) false := by
  induction n generalizing bs with
  | zero =>
    obtain rfl : bs = [] := List.length_eq_zero_iff.1 (by omega)
    rfl
  | succ n ih =>
    have hword : (BitVec.ofNat 32 (bitsValue (bs.take 32))).toNat = bitsValue (bs.take 32) := by
      rw [BitVec.toNat_ofNat]
      refine Nat.mod_eq_of_lt (Nat.lt_of_lt_of_le (bitsValue_lt _) ?_)
      exact Nat.pow_le_pow_right (by decide) (List.length_take_le _ _)
    rw [packWords, List.flatMap_cons, hword, lowBits_bitsValue (List.length_take_le _ _),
      ih (by rw [List.length_drop]; omega), List.length_take, List.length_drop]
    rcases Nat.le_total bs.length 32 with hs | hs
    · rw [List.take_of_length_le hs, List.drop_eq_nil_of_le hs, List.nil_append, List.append_assoc,
        List.replicate_append_replicate]
      congr 2
      omega
    · rw [Nat.min_eq_left hs, Nat.sub_self, List.replicate_zero, List.append_nil, ← List.append_assoc,
        List.take_append_drop]
      congr 2
      omega

theorem length_wireU32s (sbo : Bool) (ws : List U32) : (wireU32s sbo ws).length = 4 * ws.length := by
  induction ws with
  | nil => rfl
  | cons w ws ih =>
    rw [wireU32s, List.flatMap_cons, List.length_append, length_wireBytes, ← wireU32s, ih,
      List.length_cons]
    omega

/-- Words ahead of POS are the words of the stream there. -/
theorem streamWords_of_ahead {c : Stream} {ws : List U32} (h : Ahead (wireU32s c.sbo ws) c) :
    streamWords c ws.length = ws := by
  induction ws generalizing c with
  | nil => rfl
  | cons w ws ih =>
    rw [wireU32s, List.flatMap_cons] at h
    have hw : streamWord c 0 = w := by
      have hbytes := h.left.bytes
      rw [length_wireBytes] at hbytes
      rw [streamWord, Nat.mul_zero, Nat.add_zero, hbytes, bytesValue_wireBytes,
        show w.toNat % 256 ^ 4 = w.toNat from Nat.mod_eq_of_lt w.isLt, BitVec.ofNat_toNat,
        BitVec.setWidth_eq]
    have hrest := h.right
    rw [length_wireBytes] at hrest
    rw [List.length_cons, streamWords_succ, hw]
    exact congrArg (w :: ·) (ih hrest)

/-- A bit reader that takes exactly these bits, the last ones of their part, and drops the padding. -/
def EndsBits {α : Type} (bits : List Bool) (x : Codec α) (a : α) : Prop :=
  ∀ (c : Stream) (stop : Nat) (pad : List Bool), pad.length < 32 → BitsTo stop c (bits ++ pad) →
    x c = .ok a { c with pos := stop, racc := 0, ravail := 0 }

theorem length_bitsAhead (c : Stream) (n : Nat) : (bitsAhead c n).length = c.ravail + 32 * n := by
  rw [bitsAhead, List.length_append, length_lowBits, List.length_flatMap,
    List.map_congr_left fun w _ => length_lowBits 32 w.toNat, List.map_const', List.sum_replicate_nat,
    length_streamWords, Nat.mul_comm]

/-- `end_bits()` drops the padding; as that is shorter than a word, every word has been loaded (rules R140,
R180). -/
theorem endsBits_endBits {α : Type} (a : α) : EndsBits [] (do endBits; return a) a := by
  rintro c stop pad hpad ⟨n, hstop, -, hbits⟩
  have hlen := congrArg List.length hbits
  rw [length_bitsAhead, List.nil_append] at hlen
  obtain rfl : c.pos = stop := by omega
  rfl

theorem TakesBits.thenEnds {α β : Type} {xs ys : List Bool} {x : Codec α} {a : α} {f : α → Codec β} {b : β}
    (hx : TakesBits xs x a) (hf : EndsBits ys (f a) b) : EndsBits (xs ++ ys) (x >>= f) b := by
  intro c stop pad hpad h
  rw [List.append_assoc] at h
  obtain ⟨d, hd, hcd, hrest⟩ := hx c stop (ys ++ pad) h
  rw [run_bind_ok hd, hf d stop pad hpad hrest, hcd]

/-- A last step that only wraps what a bit reader delivers. -/
theorem TakesBits.finish {α β : Type} {bits : List Bool} {x : Codec α} {a : α} (h : TakesBits bits x a)
    (f : α → β) : EndsBits bits (do let a ← x; endBits; return f a) (f a) := by
  have hend := h.thenEnds (f := fun a => (do endBits; return f a : Codec β)) (endsBits_endBits (f a))
  rwa [List.append_nil] at hend

/-- The reader of a bit-coded part takes its bytes: the words it loads are exactly those that hold the bits
(rules R140, R143). -/
theorem takes_bitPart {α : Type} {sbo : Bool} {bits : List Bool} {x : Codec α} {a : α}
    (h : EndsBits bits x a) : Takes sbo (bitPart sbo bits) x a := by
  intro c hs hr hv hahead
  obtain rfl := hs
  have hwords := streamWords_of_ahead hahead
  have hfits := hahead.fits
  rw [bitPart, length_wireU32s, length_packWords] at hfits
  rw [length_packWords] at hwords
  have hbits : BitsTo (c.pos + 4 * ((bits.length + 31) / 32)) c
      (bits ++ List.replicate (32 * ((bits.length + 31) / 32) - bits.length) false) := by
    refine ⟨_, rfl, hfits, ?_⟩
    rw [bitsAhead_ravail_zero hv, hwords, bits_packWords (by omega)]
  rw [h c _ _ (by rw [List.length_replicate]; omega) hbits, bitPart, length_wireU32s, length_packWords,
    Stream.skip, ← hr, ← hv]

end Sys2Proof.Machine

namespace Sys2Proof

open Sys2Proof.Machine

/-! ### The payloads of the gamma-coded formats -/

section Payloads

variable {sbo : Bool}

theorem takesBits_readGammas {gs : List U32} (h : gammasOk gs = true) :
    TakesBits (gs.flatMap fun g => gammaBits g.toNat) (readGammas gs.length) gs := by
  induction gs with
  | nil => exact TakesBits.pure []
  | cons g gs ih =>
    simp only [gammasOk, List.all_cons, Bool.and_eq_true, decide_eq_true_eq] at h
    obtain ⟨hg, hgs⟩ := h
    refine (takesBits_gammaDec hg).bind ?_
    rw [if_neg fun h0 => hg (by rw [h0]; rfl)]
    exact (ih hgs).map (g :: ·)

theorem takes_readGapGamma {head : U16} {gs : List U32} (hlen : gs.length = gapCount head - 1)
    (hgs : gammasOk gs = true) :
    Takes sbo (wireBytes sbo 2 head.toNat ++ bitPart sbo (gs.flatMap fun g => gammaBits g.toNat))
      readGapGamma (head, gs) := by
  have hpart := (takesBits_readGammas hgs).finish (head, ·)
  rw [hlen] at hpart
  exact (takes_getU16 head).bind (takes_bitPart hpart)

theorem takes_readArrGamma {n : U32} {gs : List U32} (h : wfArrGamma n gs = true) :
    Takes sbo (wireArrGamma sbo n gs) readArrGamma (n, gs) := by
  simp only [wfArrGamma, Bool.and_eq_true, decide_eq_true_eq] at h
  obtain ⟨⟨⟨⟨hpos, hle⟩, hlen⟩, hgs⟩, -⟩ := h
  have hpart := (takesBits_readGammas hgs).finish (n, ·)
  rw [hlen] at hpart
  refine takes_bitPart ((takesBits_gammaDec (by omega)).thenEnds ?_)
  rwa [if_neg (by omega)]

/-- The reader of a gamma-coded payload takes what the encoder writes after the tag. -/
theorem takes_gammaPayload {i : Instr} (hg : gammaCoded i = true) (hw : i.wf = true) :
    Takes sbo (payload sbo i) (decodePayload i.tag) i := by
  cases i <;> dsimp only [Instr.tag]
  case gapEgamma head gs =>
    simp only [Instr.wf, Bool.and_eq_true, decide_eq_true_eq] at hw
    exact (takes_readGapGamma hw.1.1.2 hw.1.2).map fun r => Instr.gapEgamma r.1 r.2
  case arrgapEgamma n gs => exact (takes_readArrGamma hw).map fun r => Instr.arrgapEgamma r.1 r.2
  case arrgapEgammaInv n gs => exact (takes_readArrGamma hw).map fun r => Instr.arrgapEgammaInv r.1 r.2
  all_goals exact absurd hg Bool.false_ne_true

end Payloads

/-- Settles O45: the reader of each gamma-coded format takes the codes written for it. -/
theorem decodeEncodeGamma : Obligations.DecodeEncodeGamma := by
  intro sbo i rest hg hw
  exact decodeBytes_of_takes (takes_decodeToken (takes_gammaPayload hg hw))

end Sys2Proof

/-! Decoding inverts encoding, the formats with a BIC code (30_encoding.md rules R121, R123 to R125, R145, R146;
40_bitcodec.md rules R182, R186). The decoder splits a rising list at the same middle element as the encoder, and
the centre-minimal code tells its short from its long codewords by their low bits. -/

namespace Sys2Proof.Machine

/-! ### Rising lists inside bounds -/

/-- The list rises strictly, and its elements are at least `lo` and below `hiX`. -/
structure Within (lo hiX : Nat) (l : List Nat) : Prop where
  rises : l.Pairwise (· < ·)
  ge : ∀ x ∈ l, lo ≤ x
  lt : ∀ x ∈ l, x < hiX

namespace Within

variable {lo hiX : Nat} {l l1 l2 : List Nat} {v : Nat}

theorem tail {x : Nat} (h : Within lo hiX (x :: l)) : Within (x + 1) hiX l :=
  have hp := List.pairwise_cons.1 h.rises
  ⟨hp.2, fun y hy => hp.1 y hy, fun y hy => h.lt y (List.mem_cons_of_mem _ hy)⟩

theorem length_le (h : Within lo hiX l) (hle : lo ≤ hiX) : lo + l.length ≤ hiX := by
  induction l generalizing lo with
  | nil => exact hle
  | cons x l ih =>
    have hx := h.ge x List.mem_cons_self
    have hlt := h.lt x List.mem_cons_self
    have := ih h.tail hlt
    rw [List.length_cons]
    omega

/-- What lies before an element, and what lies after it. -/
theorem split (h : Within lo hiX (l1 ++ v :: l2)) :
    lo ≤ v ∧ v < hiX ∧ Within lo v l1 ∧ Within (v + 1) hiX l2 := by
  have hv : v ∈ l1 ++ v :: l2 := List.mem_append_right _ List.mem_cons_self
  obtain ⟨h1, h2, h12⟩ := List.pairwise_append.1 h.rises
  have h2 := List.pairwise_cons.1 h2
  exact ⟨h.ge v hv, h.lt v hv,
    ⟨h1, fun x hx => h.ge x (List.mem_append_left _ hx), fun x hx => h12 x hx v List.mem_cons_self⟩,
    ⟨h2.2, fun x hx => h2.1 x hx,
      fun x hx => h.lt x (List.mem_append_right _ (List.mem_cons_of_mem _ hx))⟩⟩

/-- A list of u16 that rises from `lo` on, all below `hiX`. -/
theorem of_risesFrom {k : Nat} {xs : List U16} (hr : risesFrom k xs = true) (hk : lo ≤ k)
    (ht : ∀ x ∈ xs, x.toNat < hiX) : Within lo hiX (xs.map BitVec.toNat) := by
  obtain ⟨hp, hge⟩ := pairwise_of_risesNat (risesNat_of_risesFrom hr)
  refine ⟨hp, fun x hx => Nat.le_trans hk (hge x hx), fun x hx => ?_⟩
  obtain ⟨y, hy, rfl⟩ := List.mem_map.1 hx
  exact ht y hy

end Within

theorem eq_split_middle {l : List Nat} (h : l.length ≠ 0) :
    l = l.take (l.length / 2) ++ l.getD (l.length / 2) 0 :: l.drop (l.length / 2 + 1) := by
  have hlt : l.length / 2 < l.length := by omega
  rw [List.getD_eq_getElem _ _ hlt, List.cons_getElem_drop_succ, List.take_append_drop]

/-! ### The centre-minimal code (rules R146, R186) -/

theorem lowBits_succ_append (n v : Nat) :
    lowBits (n + 1) v = lowBits n (v % 2 ^ n) ++ [decide (v / 2 ^ n % 2 = 1)] := by
  induction n generalizing v with
  | zero => simp [lowBits]
  | succ n ih =>
    have hmod : v % 2 ^ (n + 1) % 2 = v % 2 := Nat.mod_mod_of_dvd v (Dvd.intro_left (2 ^ n) rfl)
    have hdiv : v % 2 ^ (n + 1) / 2 = v / 2 % 2 ^ n := by
      rw [Nat.pow_succ, Nat.mul_comm, Nat.mod_mul_right_div_self]
    have hhigh : v / 2 / 2 ^ n = v / 2 ^ (n + 1) := by
      rw [Nat.div_div_eq_div_mul, Nat.pow_succ, Nat.mul_comm]
    rw [lowBits, ih, hhigh, lowBits, hmod, hdiv, List.cons_append]

/-- A number below `2P` by its low part and its top bit. -/
theorem mod_div_of_lt_double {x P : Nat} (h : x < P * 2) :
    x < P ∧ x % P = x ∧ x / P = 0 ∨ P ≤ x ∧ x % P = x - P ∧ x / P = 1 := by
  rcases Nat.lt_or_ge x P with hlt | hge
  · exact .inl ⟨hlt, Nat.mod_eq_of_lt hlt, Nat.div_eq_of_lt hlt⟩
  · exact .inr ⟨hge, by rw [Nat.mod_eq_sub_mod hge, Nat.mod_eq_of_lt (by omega)],
      Nat.div_eq_of_lt_le (by omega) (by omega)⟩

/-- A long codeword has one bit more than a short one; its low bits are those of a value that is also long. -/
theorem takesBits_centerDec {r x : Nat} (hx : x ≤ r) : TakesBits (centerBits r x) (centerDec r) x := by
  have hhigh : r + 1 < 2 ^ (Nat.log2 (r + 1) + 1) := Nat.lt_log2_self
  have hlow := takesBits_getBits (Nat.log2 (r + 1)) (x % 2 ^ Nat.log2 (r + 1))
    (Nat.mod_lt _ (Nat.two_pow_pos _))
  have hcheck : TakesBits [] (do
      if r < x then faultPre .malformed
      return x : Codec Nat) x := by
    rw [if_neg (by omega)]
    exact TakesBits.pure x
  have hparts := mod_div_of_lt_double (x := x) (P := 2 ^ Nat.log2 (r + 1))
    (by rw [Nat.pow_succ] at hhigh; omega)
  rw [centerBits]
  by_cases hlong : centerLong r x = true
  · have hlongLow : centerLong r (x % 2 ^ Nat.log2 (r + 1)) = true := by
      rw [centerLong_iff] at hlong ⊢
      omega
    have hvalue : x % 2 ^ Nat.log2 (r + 1) +
        (if decide (x / 2 ^ Nat.log2 (r + 1) % 2 = 1) then 2 ^ Nat.log2 (r + 1) else 0) = x := by
      rcases hparts with ⟨-, hmod, hdiv⟩ | ⟨hge, hmod, hdiv⟩ <;> rw [hmod, hdiv]
      · exact Nat.add_zero x
      · exact Nat.sub_add_cancel hge
    have htop := (takesBits_getBit (decide (x / 2 ^ Nat.log2 (r + 1) % 2 = 1))).map fun b =>
      x % 2 ^ Nat.log2 (r + 1) + if b then 2 ^ Nat.log2 (r + 1) else 0
    rw [hvalue] at htop
    rw [if_pos hlong, lowBits_succ_append]
    refine hlow.bind ?_
    rw [if_pos hlongLow]
    have h := htop.bind (f := fun y => (do
      if r < y then faultPre .malformed
      return y : Codec Nat)) hcheck
    rwa [List.append_nil] at h
  · rw [centerLong_iff] at hlong
    rw [show x % 2 ^ Nat.log2 (r + 1) = x by omega] at hlow
    rw [if_neg (by rwa [centerLong_iff]), ← List.append_nil (lowBits _ _)]
    refine hlow.bind ?_
    rw [if_neg (by rwa [centerLong_iff])]
    exact (TakesBits.pure x).bind hcheck

/-! ### The BIC code (rules R145, R182) -/

theorem takesBits_bicDecodeFuel {fuel lo hiX : Nat} {l : List Nat} (h : Within lo hiX l)
    (hle : lo ≤ hiX) (hfuel : l.length ≤ fuel) :
    TakesBits (bicBitsFuel fuel l lo hiX) (bicDecodeFuel fuel l.length lo hiX)
      (l.map (BitVec.ofNat 16)) := by
  induction fuel generalizing l lo hiX with
  | zero =>
    obtain rfl : l = [] := List.length_eq_zero_iff.1 (by omega)
    exact TakesBits.pure []
  | succ fuel ih =>
    rw [bicBitsFuel, bicDecodeFuel]
    by_cases h0 : l.length = 0
    · obtain rfl : l = [] := List.length_eq_zero_iff.1 h0
      exact TakesBits.pure []
    · have hfits := h.length_le hle
      have hsplit := eq_split_middle h0
      obtain ⟨hlov, hvhi, hleft, hright⟩ := Within.split (hsplit ▸ h)
      generalize hv : l.getD (l.length / 2) 0 = v at *
      have hlenl : (l.take (l.length / 2)).length = l.length / 2 := by rw [List.length_take]; omega
      have hlenr : (l.drop (l.length / 2 + 1)).length = l.length - l.length / 2 - 1 := by
        rw [List.length_drop]; omega
      have hroomr := hright.length_le hvhi
      have hrooml := hleft.length_le hlov
      have ihl := ih hleft hlov (by omega)
      have ihr := ih hright hvhi (by omega)
      rw [hlenl] at ihl hrooml
      rw [hlenr] at ihr hroomr
      have hmap : l.map (BitVec.ofNat 16) = (l.take (l.length / 2)).map (BitVec.ofNat 16) ++
          BitVec.ofNat 16 v :: (l.drop (l.length / 2 + 1)).map (BitVec.ofNat 16) := by
        rw [← List.map_cons, ← List.map_append, ← hsplit]
      have hhalves := ihl.bind (f := fun left => (do
          let right ← bicDecodeFuel fuel (l.length - l.length / 2 - 1) (v + 1) hiX
          return left ++ BitVec.ofNat 16 v :: right : Codec (List U16)))
        (ihr.map fun right => (l.take (l.length / 2)).map (BitVec.ofNat 16) ++ BitVec.ofNat 16 v :: right)
      rw [← hmap] at hhalves
      have hx : v - lo - l.length / 2 ≤ hiX - lo - l.length := by omega
      have hxv : lo + l.length / 2 + (v - lo - l.length / 2) = v := by omega
      rw [if_neg h0, if_neg h0, if_neg (by omega), List.append_assoc, hv]
      by_cases hr : 0 < hiX - lo - l.length
      · rw [if_pos hr, if_pos hr]
        refine (takesBits_centerDec hx).bind ?_
        dsimp only
        rw [hxv]
        exact hhalves
      · have hx0 : v = lo + l.length / 2 + 0 := by omega
        rw [if_neg hr, if_neg hr, List.nil_append]
        refine (TakesBits.pure 0).bind ?_
        rw [hx0] at hhalves ⊢
        exact hhalves

theorem takesBits_bicDecode {xs : List U16} {lo hi : Nat} (h : Within lo (hi + 1) (xs.map BitVec.toNat))
    (hle : lo ≤ hi + 1) : TakesBits (bicBits xs lo hi) (bicDecode xs.length lo hi) xs := by
  have hroom := h.length_le hle
  have hbits := takesBits_bicDecodeFuel h hle (Nat.le_refl _)
  have hback : (xs.map BitVec.toNat).map (BitVec.ofNat 16) = xs := by
    rw [List.map_map]
    exact List.map_id'' (fun x => BitVec.ofNat_toNat 16 x |>.trans (BitVec.setWidth_eq x)) xs
  rw [List.length_map] at hroom
  rw [hback, List.length_map] at hbits
  rw [bicDecode, if_neg (by omega)]
  exact hbits

theorem within_of_wfInner {mn mx : U16} {inner : List U16} (h : wfInner mn mx inner = true) :
    mn.toNat < mx.toNat ∧ Within mn.toNat (mx.toNat + 1) (inner.map BitVec.toNat) := by
  simp only [wfInner, Bool.and_eq_true, decide_eq_true_eq, List.all_eq_true] at h
  obtain ⟨⟨hrises, hlt⟩, htop⟩ := h
  exact ⟨hlt, .of_risesFrom hrises (Nat.le_succ _) fun x hx => Nat.lt_succ_of_lt (htop x hx)⟩

theorem within_of_wfEnds {mn : U16} {ends : List U16} (h : wfEnds mn ends = true) :
    Within mn.toNat (65535 + 1) (ends.map BitVec.toNat) := by
  simp only [wfEnds, Bool.and_eq_true, decide_eq_true_eq, List.all_eq_true] at h
  obtain ⟨⟨hrises, hlt⟩, htop⟩ := h
  exact .of_risesFrom hrises (Nat.le_succ _) fun x hx => Nat.lt_succ_of_lt (htop x hx)

end Sys2Proof.Machine

namespace Sys2Proof

open Sys2Proof.Machine

/-! ### The payloads of the BIC-coded formats -/

section Payloads

variable {sbo : Bool}

theorem takes_readArrBic {mn mx : U16} {n4 : U32} {inner : List U16} (h : wfArrBic mn mx n4 inner = true) :
    Takes sbo (wireArrBic sbo mn mx n4 inner) readArrBic (mn, mx, n4, inner) := by
  simp only [wfArrBic, Bool.and_eq_true, decide_eq_true_eq] at h
  obtain ⟨⟨⟨hpos, htop⟩, hlen⟩, hinner⟩ := h
  obtain ⟨hlt, hwithin⟩ := within_of_wfInner hinner
  have hpart := (takesBits_bicDecode hwithin (by omega)).finish fun inner => (mn, mx, n4, inner)
  rw [hlen] at hpart
  have hbytes : wireArrBic sbo mn mx n4 inner = wireBytes sbo 2 mn.toNat ++ (wireBytes sbo 2 mx.toNat ++
      bitPart sbo (gammaBits n4.toNat ++ bicBits inner mn.toNat mx.toNat)) := by
    simp [wireArrBic, wireU16s]
  rw [hbytes]
  refine (takes_getU16 mn).bind ((takes_getU16 mx).bind (takes_bitPart ?_))
  refine (takesBits_gammaDec (by omega)).thenEnds ?_
  rwa [if_neg (by omega)]

theorem takes_readArrBienc {mn mx sz : U16} {inner : List U16} (h : wfArrBienc mn mx sz inner = true) :
    Takes sbo (wireArrBienc sbo mn mx sz inner) readArrBienc (mn, mx, sz, inner) := by
  simp only [wfArrBienc, Bool.and_eq_true, decide_eq_true_eq] at h
  obtain ⟨⟨hsz, hlen⟩, hinner⟩ := h
  obtain ⟨hlt, hwithin⟩ := within_of_wfInner hinner
  have hpart := (takesBits_bicDecode hwithin (by omega)).finish fun inner => (mn, mx, sz, inner)
  rw [hlen] at hpart
  have hbytes : wireArrBienc sbo mn mx sz inner = wireBytes sbo 2 mn.toNat ++ (wireBytes sbo 2 mx.toNat ++
      (wireBytes sbo 2 sz.toNat ++ bitPart sbo (bicBits inner mn.toNat mx.toNat))) := by
    simp [wireArrBienc, wireU16s]
  rw [hbytes]
  refine (takes_getU16 mn).bind ((takes_getU16 mx).bind ((takes_getU16 sz).bind ?_))
  rw [if_neg (by omega)]
  exact takes_bitPart hpart

theorem takes_readGapBic {head mn : U16} {ends : List U16} (hhead : 2 ≤ gapCount head)
    (hlen : ends.length = gapCount head - 2) (h : wfEnds mn ends = true) :
    Takes sbo (wireU16s sbo [head, mn] ++ bitPart sbo (bicBits ends mn.toNat 65535)) readGapBic
      (head, mn, ends) := by
  have hpart := (takesBits_bicDecode (within_of_wfEnds h) (by omega)).finish fun ends => (head, mn, ends)
  rw [hlen] at hpart
  have hbytes : wireU16s sbo [head, mn] ++ bitPart sbo (bicBits ends mn.toNat 65535) =
      wireBytes sbo 2 head.toNat ++ (wireBytes sbo 2 mn.toNat ++
        bitPart sbo (bicBits ends mn.toNat 65535)) := by
    simp [wireU16s]
  rw [hbytes]
  refine (takes_getU16 head).bind ?_
  rw [if_neg (by omega)]
  exact (takes_getU16 mn).bind (takes_bitPart hpart)

theorem takes_readBitgapBic {start : Byte} {sz mn : U16} {ends : List U16}
    (hw : (Instr.bitgapBienc start sz mn ends).wf = true) :
    Takes sbo (start :: wireU16s sbo [sz, mn] ++ bitPart sbo (bicBits ends mn.toNat 65535)) readBitgapBic
      (start, sz, mn, ends) := by
  simp only [Instr.wf, Bool.and_eq_true, decide_eq_true_eq] at hw
  obtain ⟨⟨⟨hstart, hsz⟩, hlen⟩, hends⟩ := hw
  have hpart := (takesBits_bicDecode (within_of_wfEnds hends) (by omega)).finish
    fun ends => (start, sz, mn, ends)
  rw [hlen] at hpart
  have hbytes : start :: wireU16s sbo [sz, mn] ++ bitPart sbo (bicBits ends mn.toNat 65535) =
      [start] ++ (wireBytes sbo 2 sz.toNat ++ (wireBytes sbo 2 mn.toNat ++
        bitPart sbo (bicBits ends mn.toNat 65535))) := by
    simp [wireU16s]
  rw [hbytes]
  refine (takes_getU8 start).bind ((takes_getU16 sz).bind ((takes_getU16 mn).bind ?_))
  rw [if_neg (by omega)]
  exact takes_bitPart hpart

/-- The reader of a BIC-coded payload takes what the encoder writes after the tag. -/
theorem takes_bicPayload {i : Instr} (hb : bicCoded i = true) (hw : i.wf = true) :
    Takes sbo (payload sbo i) (decodePayload i.tag) i := by
  cases i <;> dsimp only [Instr.tag]
  case gapBienc head mn ends =>
    simp only [Instr.wf, Bool.and_eq_true, decide_eq_true_eq] at hw
    exact (takes_readGapBic hw.1.1 hw.1.2 hw.2).map fun r => Instr.gapBienc r.1 r.2.1 r.2.2
  case arrgapBienc mn mx n4 inner =>
    exact (takes_readArrBic hw).map fun r => Instr.arrgapBienc r.1 r.2.1 r.2.2.1 r.2.2.2
  case arrgapBiencInv mn mx n4 inner =>
    exact (takes_readArrBic hw).map fun r => Instr.arrgapBiencInv r.1 r.2.1 r.2.2.1 r.2.2.2
  case arrBienc mn mx sz inner =>
    exact (takes_readArrBienc hw).map fun r => Instr.arrBienc r.1 r.2.1 r.2.2.1 r.2.2.2
  case arrBiencInv mn mx sz inner =>
    exact (takes_readArrBienc hw).map fun r => Instr.arrBiencInv r.1 r.2.1 r.2.2.1 r.2.2.2
  case bitgapBienc start sz mn ends =>
    exact (takes_readBitgapBic hw).map fun r => Instr.bitgapBienc r.1 r.2.1 r.2.2.1 r.2.2.2
  all_goals exact absurd hb Bool.false_ne_true

/-- Every token is of one of the three kinds of format. -/
theorem coded_of_isToken {i : Instr} (hi : i.isToken = true) :
    byteCoded i = true ∨ gammaCoded i = true ∨ bicCoded i = true := by
  cases i
  case gapEgamma | arrgapEgamma | arrgapEgammaInv => exact .inr (.inl rfl)
  case gapBienc | arrgapBienc | arrgapBiencInv | arrBienc | arrBiencInv | bitgapBienc => exact .inr (.inr rfl)
  all_goals exact .inl hi

/-- The decoder takes exactly the bytes of a well-formed token for it. -/
theorem takes_token {i : Instr} (hi : i.isToken = true) (hw : i.wf = true) :
    Takes sbo (encodeAs sbo i) decodeToken i := by
  rcases coded_of_isToken hi with h | h | h
  · exact takes_decodeToken (takes_payload h hw)
  · exact takes_decodeToken (takes_gammaPayload h hw)
  · exact takes_decodeToken (takes_bicPayload h hw)

end Payloads

/-- Settles O46: the BIC decoder splits at the same middle elements as the encoder. -/
theorem decodeEncodeBic : Obligations.DecodeEncodeBic := by
  intro sbo i rest hb hw
  exact decodeBytes_of_takes (takes_decodeToken (takes_bicPayload hb hw))

end Sys2Proof

/-! What the payloads of the block tokens denote, and which denote nothing (43_block_decoder.md rules R321 to R348;
60_exceptions.md rule R524, row `malformed`): each operand function has one condition under which it answers, and
its answer is read position by position. -/

namespace Sys2Proof.Machine

/-! ### Lists of positions -/

/-- The operand denotes a content with these bits. -/
def Shows (o : Option BlockOperand) (bits : Nat → Bool) : Prop :=
  ∃ b, o = some b ∧ ∀ p, p < 65536 → b.content.getLsbD p = bits p

theorem shows_idxArray (inv : Bool) {idx : List U16} (h : rises idx = true) :
    Shows (idxArrayOperand inv idx) fun p => inv ^^ idx.any fun x => decide (x.toNat = p) :=
  ⟨_, if_pos h, fun _ hp => getLsbD_listedContent inv idx hp⟩

theorem idxArrayOperand_eq_none (inv : Bool) {idx : List U16} (h : rises idx = false) :
    idxArrayOperand inv idx = none :=
  if_neg (by rw [h]; exact Bool.false_ne_true)

/-- Settles O27: the listed positions, or the others, and nothing for a list that does not rise. -/
theorem indexListContent : Obligations.IndexListContent := by
  intro idx
  refine ⟨fun h i hi => ?_, fun h i hi => ?_⟩ <;>
    (simp only [List.mem_cons, List.not_mem_nil, or_false] at hi
     rcases hi with rfl | rfl | rfl | rfl)
  · exact shows_idxArray false h
  · exact shows_idxArray false h
  · exact shows_idxArray true h
  · exact shows_idxArray true h
  · exact idxArrayOperand_eq_none false h
  · exact idxArrayOperand_eq_none false h
  · exact idxArrayOperand_eq_none true h
  · exact idxArrayOperand_eq_none true h

theorem shows_arrGamma (inv : Bool) {n : U32} {gs : List U32} (h : wfArrGamma n gs = true) :
    Shows (arrGammaOperand inv n gs) fun p => inv ^^ (prefixSums 0 gs).any fun x => decide (x = p + 1) := by
  have hw := h
  simp only [wfArrGamma, Bool.and_eq_true, decide_eq_true_eq] at hw
  obtain ⟨⟨-, hgs⟩, htotal⟩ := hw
  exact ⟨_, if_pos h, fun p hp => getLsbD_gammaList inv hgs htotal hp⟩

/-- Settles O30: each gamma value is the distance to the next listed position. -/
theorem gammaListContent : Obligations.GammaListContent := by
  intro n gs h i hi
  simp only [List.mem_cons, List.not_mem_nil, or_false] at hi
  rcases hi with rfl | rfl
  · exact shows_arrGamma false h
  · exact shows_arrGamma true h

theorem shows_arrBic (inv : Bool) {mn mx : U16} {n4 : U32} {inner : List U16} (h1 : 1 ≤ n4.toNat)
    (h2 : n4.toNat + 4 ≤ 65536) (h3 : mn.toNat ≤ mx.toNat) (h4 : inner.length = n4.toNat + 2) :
    Shows (arrBicOperand inv mn mx n4 inner) fun p =>
      inv ^^ (mn :: inner ++ [mx]).any fun x => decide (x.toNat = p) :=
  ⟨_, if_pos ⟨h1, h2, h3, h4⟩, fun _ hp => getLsbD_listedContent inv _ hp⟩

theorem shows_arrBienc (inv : Bool) {mn mx sz : U16} {inner : List U16} (h1 : 2 ≤ sz.toNat)
    (h2 : mn.toNat ≤ mx.toNat) (h3 : inner.length = sz.toNat - 2) :
    Shows (arrBiencOperand inv mn mx sz inner) fun p =>
      inv ^^ (mn :: inner ++ [mx]).any fun x => decide (x.toNat = p) :=
  ⟨_, if_pos ⟨h1, h2, h3⟩, fun _ hp => getLsbD_listedContent inv _ hp⟩

/-- Settles O31: the two ends and the decoded interior are listed. -/
theorem bicListContent : Obligations.BicListContent := by
  refine ⟨fun mn mx n4 inner h1 h2 h3 h4 i hi => ?_, fun mn mx sz inner h1 h2 h3 i hi => ?_⟩ <;>
    (simp only [List.mem_cons, List.not_mem_nil, or_false] at hi
     rcases hi with rfl | rfl)
  · exact shows_arrBic false h1 h2 h3 h4
  · exact shows_arrBic true h1 h2 h3 h4
  · exact shows_arrBienc false h1 h2 h3
  · exact shows_arrBienc true h1 h2 h3

/-! ### GAP forms -/

theorem risesNat_gammaPositions {gs : List U32} (hgs : gammasOk gs = true) (ht : gammaTotal gs ≤ 65535) :
    risesNat 0 ((prefixSums 0 gs).map (· - 1)) = true ∧ ∀ x ∈ (prefixSums 0 gs).map (· - 1), x < 65535 := by
  refine ⟨gammaPositions_eq 0 gs hgs ▸ gammaPositions_rises 0 gs hgs, fun x hx => ?_⟩
  obtain ⟨y, hy, rfl⟩ := List.mem_map.1 hx
  have := prefixSums_bound 0 gs hgs y hy
  omega

theorem risesNat_ends {mn : U16} {ends : List U16} (h : wfEnds mn ends = true) :
    risesNat 0 ((mn :: ends).map BitVec.toNat) = true ∧ ∀ x ∈ (mn :: ends).map BitVec.toNat, x < 65535 := by
  simp only [wfEnds, Bool.and_eq_true, decide_eq_true_eq, List.all_eq_true] at h
  obtain ⟨⟨hrises, hmn⟩, hends⟩ := h
  refine ⟨?_, fun x hx => ?_⟩
  · rw [List.map_cons, risesNat, risesNat_of_risesFrom hrises]
    rfl
  · obtain ⟨y, hy, rfl⟩ := List.mem_map.1 hx
    rcases List.mem_cons.1 hy with rfl | hy
    · exact hmn
    · exact hends y hy

/-- A list of endpoints below the terminal one is the operand's header and its runs. -/
theorem headedOperand_shows (head : U16) {l : List Nat} (idx : Option (List U16)) (h : risesNat 0 l = true)
    (ht : ∀ x ∈ l, x < 65535) :
    ∃ b, headedOperand head l idx = some b ∧ b.headed = some (head.getLsbD 0, l ++ [65535]) ∧
      ∀ p, p < 65536 → b.content.getLsbD p = gapBit (head.getLsbD 0) l p :=
  ⟨_, headedOperand_ok head idx h ht, rfl, fun _ hp => getLsbD_headed _ h ht hp⟩

theorem gapOperand_shows {head : U16} {ends : List U16} (h : (Instr.gap head ends).wf = true) :
    ∃ b, gapOperand head ends = some b ∧
      b.headed = some (head.getLsbD 0, ends.map BitVec.toNat ++ [65535]) ∧
      ∀ p, p < 65536 → b.content.getLsbD p = gapBit (head.getLsbD 0) (ends.map BitVec.toNat) p := by
  simp only [Instr.wf, Bool.and_eq_true, decide_eq_true_eq, List.all_eq_true] at h
  obtain ⟨⟨⟨hm, hlen⟩, hrises⟩, hends⟩ := h
  rw [gapOperand, if_pos ⟨hm, hlen⟩]
  refine headedOperand_shows head none (risesNat_of_risesFrom hrises) fun x hx => ?_
  obtain ⟨y, hy, rfl⟩ := List.mem_map.1 hx
  exact hends y hy

theorem gapEgammaOperand_shows {head : U16} {gs : List U32} (h : (Instr.gapEgamma head gs).wf = true) :
    ∃ b, gapEgammaOperand head gs = some b ∧
      b.headed = some (head.getLsbD 0, (prefixSums 0 gs).map (· - 1) ++ [65535]) ∧
      ∀ p, p < 65536 → b.content.getLsbD p = gapBit (head.getLsbD 0) ((prefixSums 0 gs).map (· - 1)) p := by
  simp only [Instr.wf, Bool.and_eq_true, decide_eq_true_eq] at h
  obtain ⟨⟨⟨hm, hlen⟩, hgs⟩, ht⟩ := h
  obtain ⟨hrises, hlt⟩ := risesNat_gammaPositions hgs ht
  rw [gapEgammaOperand, if_pos ⟨hm, hlen, hgs⟩, gammaPositions_eq 0 gs hgs]
  exact headedOperand_shows head none hrises hlt

theorem gapBiencOperand_shows {head mn : U16} {ends : List U16}
    (h : (Instr.gapBienc head mn ends).wf = true) :
    ∃ b, gapBiencOperand head mn ends = some b ∧
      b.headed = some (head.getLsbD 0, (mn :: ends).map BitVec.toNat ++ [65535]) ∧
      ∀ p, p < 65536 → b.content.getLsbD p = gapBit (head.getLsbD 0) ((mn :: ends).map BitVec.toNat) p := by
  simp only [Instr.wf, Bool.and_eq_true, decide_eq_true_eq] at h
  obtain ⟨⟨hm, hlen⟩, hends⟩ := h
  obtain ⟨hrises, hlt⟩ := risesNat_ends hends
  rw [gapBiencOperand, if_pos ⟨hm, hlen⟩]
  exact headedOperand_shows head _ hrises hlt

theorem bitgapBiencOperand_shows {start : Byte} {sz mn : U16} {ends : List U16}
    (h : (Instr.bitgapBienc start sz mn ends).wf = true) :
    ∃ b, bitgapBiencOperand start sz mn ends = some b ∧ b.headed = none ∧
      ∀ p, p < 65536 →
        b.content.getLsbD p = gapBit (decide (start.toNat = 1)) ((mn :: ends).map BitVec.toNat) p := by
  simp only [Instr.wf, Bool.and_eq_true, decide_eq_true_eq] at h
  obtain ⟨⟨⟨hstart, hsz⟩, hlen⟩, hends⟩ := h
  obtain ⟨hrises, hlt⟩ := risesNat_ends hends
  have hmap : (mn :: ends ++ [65535#16]).map BitVec.toNat = (mn :: ends).map BitVec.toNat ++ [65535] :=
    List.map_append
  rw [bitgapBiencOperand, if_pos ⟨hstart, hsz, hlen⟩]
  dsimp only
  rw [hmap, gapContent_ok (gapEndsOk_append hrises hlt)]
  exact ⟨_, rfl, rfl, fun p hp => getLsbD_headed _ hrises hlt hp⟩

/-- Settles O29: every GAP form closes the runs of the endpoints it stores. -/
theorem gapFormContent : Obligations.GapFormContent :=
  ⟨fun _ _ => gapOperand_shows, fun _ _ => gapEgammaOperand_shows, fun _ _ _ => gapBiencOperand_shows,
    fun _ _ _ _ => bitgapBiencOperand_shows⟩

/-! ### Bit forms -/

theorem bitOperand_shows {ws : List U32} (h : ws.length = 2048) :
    Shows (bitOperand ws) fun p => (ws.getD (p / 32) 0).getLsbD (p % 32) := by
  refine ⟨_, if_pos h, fun p hp => ?_⟩
  rw [plainOperand, getLsbD_contentOfWords 0 ws hp]
  simp

theorem bitIntervalOperand_shows {head tail : U16} {ws : List U32}
    (h : (Instr.bitInterval head tail ws).wf = true) :
    Shows (bitIntervalOperand head tail ws) fun p =>
      decide (head.toNat ≤ p / 32 ∧ p / 32 ≤ tail.toNat) &&
        (ws.getD (p / 32 - head.toNat) 0).getLsbD (p % 32) := by
  simp only [Instr.wf, Bool.and_eq_true, decide_eq_true_eq] at h
  obtain ⟨⟨hle, htop⟩, hlen⟩ := h
  refine ⟨_, if_pos ⟨hle, htop, hlen⟩, fun p hp => ?_⟩
  rw [plainOperand, getLsbD_contentOfWords head.toNat ws hp]
  by_cases hin : p / 32 ≤ tail.toNat
  · rw [show decide (32 * head.toNat ≤ p) = decide (head.toNat ≤ p / 32 ∧ p / 32 ≤ tail.toNat) from
      decide_eq_decide.2 (by omega)]
  · have hbeyond : ws.getD (p / 32 - head.toNat) 0 = 0 := getD_beyond (by omega)
    simp only [hbeyond, zero_word_bit, Bool.and_false]

theorem bit1bitOperand_shows (pos : U16) :
    Shows (some (bit1bitOperand pos)) fun p => decide (p = pos.toNat) :=
  ⟨_, rfl, fun _ _ => getLsbD_bitAt pos.isLt⟩

theorem bit0runsOperand_shows {start : Byte} {runs : List (U16 × List U32)}
    (h : (Instr.bit0runs start runs).wf = true) :
    Shows (bit0runsOperand start runs) fun p =>
      ((runWords (decide (start.toNat = 1)) runs).getD (p / 32) 0).getLsbD (p % 32) := by
  simp only [Instr.wf, Bool.and_eq_true, decide_eq_true_eq] at h
  refine ⟨_, if_pos h, fun p hp => ?_⟩
  rw [plainOperand, getLsbD_runsContent _ 2048 0 runs h.2 hp]
  simp

theorem bitDigest0Operand_shows {d : U64} {ws : List U32} (h : (Instr.bitDigest0 d ws).wf = true) :
    Shows (bitDigest0Operand d ws) fun p =>
      ((waveWords d ws 0 64).getD (p / 32) 0).getLsbD (p % 32) := by
  have hlen : ws.length = 32 * digestWaves d := of_decide_eq_true h
  have hlist : ws.length = 32 * (((List.range 64).map fun k => 0 + k).filter fun k => d.getLsbD k).length := by
    rw [← digestList_eq]
    exact hlen
  refine ⟨_, if_pos hlen, fun p hp => ?_⟩
  rw [plainOperand, digestList_eq, getLsbD_wavesContent d ws 0 64 hlist hp]
  simp

/-- Settles O28: the words of each bit form, in their places. -/
theorem bitFormContent : Obligations.BitFormContent :=
  ⟨fun _ => bitOperand_shows, fun _ _ _ => bitIntervalOperand_shows, bit1bitOperand_shows,
    fun _ _ => bit0runsOperand_shows, fun _ _ => bitDigest0Operand_shows⟩

/-! ### Every well-formed block token -/

theorem Shows.some {o : Option BlockOperand} {bits : Nat → Bool} (h : Shows o bits) : ∃ b, o = some b :=
  h.imp fun _ hb => hb.1

theorem rises_of_wfIdx {idx : List U16} (h : wfIdx idx = true) : rises idx = true := by
  rw [wfIdx, Bool.and_eq_true] at h
  exact h.1

theorem arrBicOperand_of_wf (inv : Bool) {mn mx : U16} {n4 : U32} {inner : List U16}
    (h : wfArrBic mn mx n4 inner = true) : ∃ b, arrBicOperand inv mn mx n4 inner = some b := by
  simp only [wfArrBic, wfInner, Bool.and_eq_true, decide_eq_true_eq] at h
  obtain ⟨⟨⟨h1, h2⟩, h3⟩, ⟨-, hlt⟩, -⟩ := h
  exact (shows_arrBic inv h1 h2 (Nat.le_of_lt hlt) h3).some

theorem arrBiencOperand_of_wf (inv : Bool) {mn mx sz : U16} {inner : List U16}
    (h : wfArrBienc mn mx sz inner = true) : ∃ b, arrBiencOperand inv mn mx sz inner = some b := by
  simp only [wfArrBienc, wfInner, Bool.and_eq_true, decide_eq_true_eq] at h
  obtain ⟨⟨h1, h2⟩, ⟨-, hlt⟩, -⟩ := h
  exact (shows_arrBienc inv h1 (Nat.le_of_lt hlt) h2).some

/-- Settles O25: the constraints of each format are those its operand function asks for. -/
theorem wellFormedDenotes : Obligations.WellFormedDenotes := by
  intro i st hi h
  cases i
  case bit => exact (bitOperand_shows (of_decide_eq_true h)).some
  case arrbit | arrgap => exact (shows_idxArray false (rises_of_wfIdx h)).some
  case arrbitInv | arrgapInv => exact (shows_idxArray true (rises_of_wfIdx h)).some
  case bitInterval => exact (bitIntervalOperand_shows h).some
  case bit0runs => exact (bit0runsOperand_shows h).some
  case bitDigest0 => exact (bitDigest0Operand_shows h).some
  case bit1bit pos => exact (bit1bitOperand_shows pos).some
  case arrBienc => exact arrBiencOperand_of_wf false h
  case arrBiencInv => exact arrBiencOperand_of_wf true h
  case arrgapBienc => exact arrBicOperand_of_wf false h
  case arrgapBiencInv => exact arrBicOperand_of_wf true h
  case arrgapEgamma => exact (shows_arrGamma false h).some
  case arrgapEgammaInv => exact (shows_arrGamma true h).some
  case gap => exact (gapOperand_shows h).imp fun _ hb => hb.1
  case gapEgamma => exact (gapEgammaOperand_shows h).imp fun _ hb => hb.1
  case gapBienc => exact (gapBiencOperand_shows h).imp fun _ hb => hb.1
  case bitgapBienc => exact (bitgapBiencOperand_shows h).imp fun _ hb => hb.1
  all_goals exact absurd hi (Option.some_ne_none st).symm

/-! ### Payloads that denote nothing -/

theorem lengths_of_runsOk {nz : Bool} {left : Nat} {runs : List (U16 × List U32)}
    (h : runsOk nz left runs = true) :
    (∀ r ∈ runs, r.1.toNat ≠ 0) ∧ (runs.map fun r => r.1.toNat).sum = left := by
  induction runs generalizing nz left with
  | nil => exact ⟨nofun, (of_decide_eq_true h).symm⟩
  | cons r rs ih =>
    obtain ⟨len, ws⟩ := r
    simp only [runsOk, Bool.and_eq_true, decide_eq_true_eq] at h
    obtain ⟨⟨⟨hpos, hle⟩, -⟩, hrest⟩ := h
    obtain ⟨hall, hsum⟩ := ih hrest
    refine ⟨List.forall_mem_cons.2 ⟨hpos, hall⟩, ?_⟩
    rw [List.map_cons, List.sum_cons, hsum]
    exact Nat.add_sub_of_le hle

theorem bit0runsOperand_eq_none {start : Byte} {runs : List (U16 × List U32)}
    (h : 1 < start.toNat ∨ (∃ r ∈ runs, r.1.toNat = 0) ∨ (runs.map fun r => r.1.toNat).sum ≠ 2048) :
    bit0runsOperand start runs = none := by
  refine if_neg fun ⟨hstart, hruns⟩ => ?_
  obtain ⟨hall, hsum⟩ := lengths_of_runsOk hruns
  rcases h with h | ⟨r, hr, h⟩ | h
  · omega
  · exact hall r hr h
  · exact h hsum

theorem risesFrom_eq (lo : Nat) (xs : List U16) : risesFrom lo xs = risesNat lo (xs.map BitVec.toNat) := by
  induction xs generalizing lo with
  | nil => rfl
  | cons x xs ih => rw [risesFrom, ih, List.map_cons, risesNat]

/-- Endpoints that end in 65535 rise strictly below it. -/
theorem below_of_gapEndsOk {l : List Nat} (h : gapEndsOk (l ++ [65535]) = true) :
    risesNat 0 l = true ∧ ∀ x ∈ l, x < 65535 := by
  rw [gapEndsOk, Bool.and_eq_true] at h
  obtain ⟨hp, -, hlt⟩ := List.pairwise_append.1 (pairwise_of_risesNat h.1).1
  exact ⟨risesNat_of_pairwise hp fun _ _ => Nat.zero_le _,
    fun x hx => hlt x hx 65535 List.mem_cons_self⟩

/-- The stored endpoints do not rise, or reach the terminal one. -/
def NotGap (ends : List U16) : Prop := rises ends = false ∨ ∃ e ∈ ends, e.toNat = 65535

theorem gapContent_notGap {ends : List U16} (h : NotGap ends) (start : Bool) :
    gapContent start (ends.map BitVec.toNat ++ [65535]) = none := by
  refine if_neg fun hok => ?_
  obtain ⟨hrises, hlt⟩ := below_of_gapEndsOk hok
  rcases h with h | ⟨e, he, h⟩
  · rw [rises, risesFrom_eq, hrises] at h
    exact Bool.false_ne_true h.symm
  · have := hlt e.toNat (List.mem_map_of_mem he)
    omega

theorem headedOperand_eq_none {head : U16} {l : List Nat} {idx : Option (List U16)}
    (h : gapContent (gapStart head) (l ++ [65535]) = none) : headedOperand head l idx = none := by
  rw [headedOperand, h]

theorem gapOperand_eq_none {head : U16} {ends : List U16}
    (h : gapCount head = 0 ∨ ends.length + 1 ≠ gapCount head ∨ NotGap ends) : gapOperand head ends = none := by
  rw [gapOperand]
  split
  case isTrue hfmt =>
    rcases h with h | h | h
    · omega
    · omega
    · exact headedOperand_eq_none (gapContent_notGap h _)
  case isFalse => rfl

theorem total_mem_prefixSums {gs : List U32} (h : gs ≠ []) (acc : Nat) :
    acc + gammaTotal gs ∈ prefixSums acc gs := by
  induction gs generalizing acc with
  | nil => exact absurd rfl h
  | cons g gs ih =>
    have htotal : acc + gammaTotal (g :: gs) = acc + g.toNat + gammaTotal gs := by
      rw [gammaTotal, List.map_cons, List.sum_cons, gammaTotal, Nat.add_assoc]
    rw [htotal, prefixSums]
    cases gs with
    | nil => exact List.mem_cons_self
    | cons g' gs => exact List.mem_cons_of_mem _ (ih (List.cons_ne_nil _ _) _)

theorem gapEgammaOperand_eq_none {head : U16} {gs : List U32}
    (h : gapCount head = 0 ∨ gs.length + 1 ≠ gapCount head ∨ (∃ g ∈ gs, g.toNat = 0) ∨ 65535 < gammaTotal gs) :
    gapEgammaOperand head gs = none := by
  rw [gapEgammaOperand]
  split
  case isTrue hfmt =>
    obtain ⟨hm, hlen, hgs⟩ := hfmt
    rcases h with h | h | ⟨g, hg, h⟩ | h
    · omega
    · omega
    · exact absurd h (of_decide_eq_true (List.all_eq_true.1 hgs g hg))
    · refine headedOperand_eq_none (if_neg fun hok => ?_)
      rw [gammaPositions_eq 0 gs hgs] at hok
      have hne : gs ≠ [] := fun h0 => by
        rw [h0] at h
        exact absurd h (by decide)
      have := (below_of_gapEndsOk hok).2 _ (List.mem_map_of_mem (total_mem_prefixSums hne 0))
      omega
  case isFalse => rfl

theorem gapBiencOperand_eq_none {head mn : U16} {ends : List U16}
    (h : gapCount head < 2 ∨ ends.length + 2 ≠ gapCount head ∨ NotGap (mn :: ends)) :
    gapBiencOperand head mn ends = none := by
  rw [gapBiencOperand]
  split
  case isTrue hfmt =>
    rcases h with h | h | h
    · omega
    · omega
    · exact headedOperand_eq_none (gapContent_notGap h _)
  case isFalse => rfl

theorem bitgapBiencOperand_eq_none {start : Byte} {sz mn : U16} {ends : List U16}
    (h : 1 < start.toNat ∨ sz.toNat < 2 ∨ ends.length + 2 ≠ sz.toNat ∨ NotGap (mn :: ends)) :
    bitgapBiencOperand start sz mn ends = none := by
  rw [bitgapBiencOperand]
  split
  case isTrue hfmt =>
    rcases h with h | h | h | h
    · omega
    · omega
    · omega
    · have hmap : (mn :: ends ++ [65535#16]).map BitVec.toNat = (mn :: ends).map BitVec.toNat ++ [65535] :=
        List.map_append
      dsimp only
      rw [hmap, gapContent_notGap h]
  case isFalse => rfl

theorem arrGammaOperand_eq_none (inv : Bool) {n : U32} {gs : List U32}
    (h : n.toNat = 0 ∨ 65536 < n.toNat ∨ gs.length ≠ n.toNat ∨ (∃ g ∈ gs, g.toNat = 0) ∨
      65536 < gammaTotal gs) : arrGammaOperand inv n gs = none := by
  refine if_neg fun hw => ?_
  simp only [wfArrGamma, Bool.and_eq_true, decide_eq_true_eq] at hw
  obtain ⟨⟨⟨⟨hpos, hle⟩, hlen⟩, hgs⟩, htotal⟩ := hw
  rcases h with h | h | h | ⟨g, hg, h⟩ | h
  · omega
  · omega
  · exact h hlen
  · exact of_decide_eq_true (List.all_eq_true.1 hgs g hg) h
  · omega

theorem arrBicOperand_eq_none (inv : Bool) {mn mx : U16} {n4 : U32} {inner : List U16}
    (h : n4.toNat = 0 ∨ 65536 < n4.toNat + 4 ∨ mx.toNat < mn.toNat ∨ inner.length ≠ n4.toNat + 2) :
    arrBicOperand inv mn mx n4 inner = none :=
  if_neg (by omega)

theorem arrBiencOperand_eq_none (inv : Bool) {mn mx sz : U16} {inner : List U16}
    (h : sz.toNat < 2 ∨ mx.toNat < mn.toNat ∨ inner.length + 2 ≠ sz.toNat) :
    arrBiencOperand inv mn mx sz inner = none :=
  if_neg (by omega)

/-- Settles O24: a payload that breaks a constraint of its format has no operand. -/
theorem malformedPayloads : Obligations.MalformedPayloads := by
  refine ⟨fun head tail ws h => if_neg (by omega), fun start runs => bit0runsOperand_eq_none,
    fun head ends => gapOperand_eq_none, fun head gs => gapEgammaOperand_eq_none,
    fun head mn ends => gapBiencOperand_eq_none, fun start sz mn ends => bitgapBiencOperand_eq_none,
    fun n gs h i hi => ?_, fun mn mx n4 inner h i hi => ?_, fun mn mx sz inner h i hi => ?_,
    fun n lo hi c h => ?_⟩
  · simp only [List.mem_cons, List.not_mem_nil, or_false] at hi
    rcases hi with rfl | rfl
    · exact arrGammaOperand_eq_none false h
    · exact arrGammaOperand_eq_none true h
  · simp only [List.mem_cons, List.not_mem_nil, or_false] at hi
    rcases hi with rfl | rfl
    · exact arrBicOperand_eq_none false h
    · exact arrBicOperand_eq_none true h
  · simp only [List.mem_cons, List.not_mem_nil, or_false] at hi
    rcases hi with rfl | rfl
    · exact arrBiencOperand_eq_none false h
    · exact arrBiencOperand_eq_none true h
  · rw [bicDecode, if_pos h]
    rfl

end Sys2Proof.Machine

/-! The classifier (41_classifier.md): its tables, its selection, and the four statistics position by position. -/

namespace Sys2Proof.Machine

/-! ### The tables -/

section Candidates

variable {p : Params} {L : Nat} {s : Stats}

theorem nodup_proposals : ((candidates p L s).map Candidate.proposal).Nodup := by
  show [Proposal.bit1bit, .bit0runs, .bitDigest0, .arrbit, .arrbitInv, .gapBienc, .arrgapBienc, .arrgapBiencInv,
    .arrBienc, .arrBiencInv, .bitgapBienc, .gapEgamma, .arrgapEgamma, .arrgapEgammaInv].Nodup
  decide

/-- No proposal stands twice among the candidates, so a candidate is found by its proposal. -/
theorem candidate_has (k : Fin 14) {g : Prop} {cost : Int}
    (hg : (candidates p L s)[k.val].guard = true ↔ g) (hcost : (candidates p L s)[k.val].cost = cost) :
    ∀ c ∈ candidates p L s, c.proposal = (candidates p L s)[k.val].proposal →
      (c.guard = true ↔ g) ∧ c.cost = cost := by
  intro c hc hp
  rw [List.inj_on_of_nodup_map nodup_proposals hc (List.getElem_mem k.isLt) hp]
  exact ⟨hg, hcost⟩

end Candidates

theorem levelMap_mid {L : Nat} (h : L = 2 ∨ L = 3) :
    levelMap L .gapEgamma = .gap ∧ levelMap L .arrgapEgamma = .arrgap ∧
      levelMap L .arrgapEgammaInv = .arrgapInv := by
  simp [levelMap, h]

theorem levelMap_same {L : Nat} {t : Proposal}
    (h : ¬(L = 2 ∨ L = 3) ∨ (t ≠ .gapEgamma ∧ t ≠ .arrgapEgamma ∧ t ≠ .arrgapEgammaInv)) :
    levelMap L t = t := by
  cases t
  case gapEgamma => exact h.elim (fun hmid => if_neg hmid) fun hne => absurd rfl hne.1
  case arrgapEgamma => exact h.elim (fun hmid => if_neg hmid) fun hne => absurd rfl hne.2.1
  case arrgapEgammaInv => exact h.elim (fun hmid => if_neg hmid) fun hne => absurd rfl hne.2.2
  all_goals exact ite_self _

section GapPath

variable {L : Nat} {start : Bool} {ends : List Nat}

theorem classifyGap_low (h : L ≤ 1) : classifyGap L start ends = .gap := if_pos h

theorem classifyGap_single (h : 2 ≤ L) (hbc : popcount (gapRuns start 0 ends) = 1) :
    classifyGap L start ends = .bit1bit := by
  rw [classifyGap, if_neg (by omega), if_pos hbc]

theorem classifyGap_family (h : 2 ≤ L) (hbc : popcount (gapRuns start 0 ends) ≠ 1) :
    classifyGap L start ends =
      (gapFamily (popcount (gapRuns start 0 ends)) (ends.length + 1)).member L := by
  rw [classifyGap, if_neg (by omega), if_neg hbc]

end GapPath

/-- Settles O57: the tables, entry by entry. -/
theorem classifierTables : Obligations.ClassifierTables := by
  refine ⟨fun p L s => ⟨rfl, ?_⟩, fun L start ends => ?_, fun L t => ⟨levelMap_mid, levelMap_same⟩⟩
  · refine ⟨candidate_has 0 ?_ rfl, candidate_has 1 ?_ rfl,
      candidate_has 2 ?_ rfl, candidate_has 3 ?_ rfl,
      candidate_has 4 ?_ rfl, candidate_has 5 ?_ rfl,
      candidate_has 6 ?_ rfl, candidate_has 7 ?_ rfl,
      candidate_has 8 ?_ rfl, candidate_has 9 ?_ rfl,
      candidate_has 10 ?_ rfl, candidate_has 11 ?_ rfl,
      candidate_has 12 ?_ rfl, candidate_has 13 ?_ rfl⟩ <;>
      simp [candidates, and_assoc]
  · refine ⟨classifyGap_low, fun h _ => classifyGap_single h, fun h _ hbc hfit => ?_,
      fun h _ hbc h1 h2 => ?_, fun h _ hbc h1 h2 => ?_⟩ <;> dsimp only <;>
      rw [classifyGap_family h hbc, gapFamily]
    · rw [if_pos hfit]
      rfl
    · rw [if_neg (Nat.not_le.2 h1), if_pos h2]
      rfl
    · rw [if_neg (Nat.not_le.2 h1), if_neg (Nat.not_le.2 h2)]
      rfl

/-! ### The selection (rule R221) -/

/-- The least cost, and what has it: what was best before, or the first such candidate. -/
theorem selectBest_spec (best : Proposal) (cost : Int) (cs : List Candidate) :
    (selectBest best cost cs).2 ≤ cost ∧
      (∀ c ∈ cs, c.guard = true → (selectBest best cost cs).2 ≤ c.cost) ∧
      (selectBest best cost cs = (best, cost) ∨
        ∃ before c after, cs = before ++ c :: after ∧ c.guard = true ∧
          c.proposal = (selectBest best cost cs).1 ∧ c.cost = (selectBest best cost cs).2 ∧
          (∀ b ∈ before, b.guard = true → (selectBest best cost cs).2 < b.cost) ∧
          (selectBest best cost cs).2 < cost) := by
  induction cs generalizing best cost with
  | nil => exact ⟨Int.le_refl _, nofun, .inl rfl⟩
  | cons c cs ih =>
    rw [selectBest]
    split
    case isTrue hbetter =>
      obtain ⟨hg, hlt⟩ := hbetter
      obtain ⟨hle, hall, hwho⟩ := ih c.proposal c.cost
      refine ⟨by omega, List.forall_mem_cons.2 ⟨fun _ => hle, hall⟩, .inr ?_⟩
      rcases hwho with heq | ⟨before, d, after, hcs, hd, hprop, hcost, hbefore, hless⟩
      · rw [heq]
        exact ⟨[], c, cs, rfl, hg, rfl, rfl, nofun, hlt⟩
      · exact ⟨c :: before, d, after, by rw [hcs, List.cons_append], hd, hprop, hcost,
          List.forall_mem_cons.2 ⟨fun _ => hless, hbefore⟩, by omega⟩
    case isFalse hworse =>
      obtain ⟨hle, hall, hwho⟩ := ih best cost
      have hc : c.guard = true → cost ≤ c.cost := fun hg => Int.not_lt.1 fun hlt => hworse ⟨hg, hlt⟩
      refine ⟨hle, List.forall_mem_cons.2 ⟨fun hg => Int.le_trans hle (hc hg), hall⟩, hwho.imp_right ?_⟩
      rintro ⟨before, d, after, hcs, hd, hprop, hcost, hbefore, hless⟩
      exact ⟨c :: before, d, after, by rw [hcs, List.cons_append], hd, hprop, hcost,
        List.forall_mem_cons.2 ⟨fun hg => Int.lt_of_lt_of_le hless (hc hg), hbefore⟩, hless⟩

theorem classifyStats_azero {p : Params} {L : Nat} {s : Stats} (h : s.d0 = 0) :
    classifyStats p L s = (.azero, 0) := if_pos h

theorem classifyStats_aone {p : Params} {L : Nat} {s : Stats} (h0 : s.d0 ≠ 0) (h : s.bc = 65536) :
    classifyStats p L s = (.aone, 0) := by
  rw [classifyStats, if_neg h0, if_pos h]

theorem classifyStats_low {p : Params} {L : Nat} {s : Stats} (h0 : s.d0 ≠ 0) (h : s.bc ≠ 65536) (hL : L ≤ 1) :
    classifyStats p L s = (.bit, 65536) := by
  rw [classifyStats, if_neg h0, if_neg h, if_pos hL]

theorem classifyStats_select {p : Params} {L : Nat} {s : Stats} (h0 : s.d0 ≠ 0) (h : s.bc ≠ 65536)
    (hL : 2 ≤ L) : classifyStats p L s = selectBest .bit 65536 (candidates p L s) := by
  rw [classifyStats, if_neg h0, if_neg h, if_neg (by omega)]

/-- Settles O56: mono blocks and the low levels first, then the fold that keeps the first least cost. -/
theorem selection : Obligations.Selection := by
  intro p L s
  refine ⟨classifyStats_azero, classifyStats_aone, classifyStats_low, fun h0 h hL => ?_⟩
  rw [classifyStats_select h0 h hL]
  exact selectBest_spec .bit 65536 (candidates p L s)

/-! ### The statistics (rule R201) -/

theorem sum_flags_lt (q : Nat → Bool) (n : Nat) :
    ((List.range n).map fun j => if q j then 2 ^ j else 0).sum < 2 ^ n := by
  induction n with
  | zero => exact Nat.one_pos
  | succ n ih =>
    rw [List.range_succ, List.map_append, List.sum_append, List.map_singleton, List.sum_singleton, Nat.pow_succ]
    split <;> omega

/-- The number whose binary digits are given flags. -/
theorem testBit_sum_flags (q : Nat → Bool) (n j : Nat) :
    (((List.range n).map fun j => if q j then 2 ^ j else 0).sum).testBit j = (decide (j < n) && q j) := by
  induction n with
  | zero => simp
  | succ n ih =>
    have hlt := sum_flags_lt q n
    rw [List.range_succ, List.map_append, List.sum_append, List.map_singleton, List.sum_singleton]
    rcases Nat.lt_trichotomy j n with hj | rfl | hj
    · have hbit : ∀ x, (x + if q n then 2 ^ n else 0).testBit j = x.testBit j := fun x => by
        split
        · rw [Nat.add_comm, Nat.testBit_two_pow_add_gt hj]
        · rw [Nat.add_zero]
      rw [hbit, ih, decide_eq_true hj, decide_eq_true (Nat.lt_succ_of_lt hj)]
    · have hlow := Nat.testBit_lt_two_pow hlt
      rw [decide_eq_true (Nat.lt_succ_self j), Bool.true_and]
      cases hq : q j
      · simpa using hlow
      · rw [if_pos rfl, Nat.add_comm, Nat.testBit_two_pow_add_eq, hlow]
        rfl
    · have hsmall : ((List.range n).map fun j => if q j then 2 ^ j else 0).sum +
          (if q n then 2 ^ n else 0) < 2 ^ j := by
        have := Nat.pow_le_pow_right (show 0 < 2 by decide) (show n + 1 ≤ j from hj)
        rw [Nat.pow_succ] at this
        split <;> omega
      rw [Nat.testBit_lt_two_pow hsmall, decide_eq_false (by omega), Bool.false_and]

/-- A wave is zero when its 32 words are. -/
theorem wave_eq_zero_iff (c : Content) (j : Nat) :
    c.extractLsb' (1024 * j) 1024 = 0#1024 ↔ ∀ k, k < 32 → wordAt c (32 * j + k) = 0 := by
  refine ⟨fun h k hk => ?_, fun h => ?_⟩
  · refine BitVec.eq_of_getLsbD_eq fun i hi => ?_
    have hbit := congrArg (fun v => v.getLsbD (32 * k + i)) h
    rw [BitVec.getLsbD_extractLsb', BitVec.getLsbD_zero, decide_eq_true (by omega), Bool.true_and] at hbit
    rw [getLsbD_wordAt c _ hi, zero_word_bit, ← hbit]
    congr 1
    omega
  · refine BitVec.eq_of_getLsbD_eq fun i hi => ?_
    have hbit := congrArg (fun w => w.getLsbD (i % 32)) (h (i / 32) (by omega))
    rw [getLsbD_wordAt c _ (Nat.mod_lt _ (by decide)), zero_word_bit] at hbit
    rw [BitVec.getLsbD_extractLsb', BitVec.getLsbD_zero, decide_eq_true hi, Bool.true_and, ← hbit]
    congr 1
    omega

theorem getLsbD_digest0 (c : Content) {j : Nat} (hj : j < 64) :
    (digest0 c).getLsbD j = (List.range 32).any fun k => decide (wordAt c (32 * j + k) ≠ 0) := by
  have hflags : (fun j => if c.extractLsb' (1024 * j) 1024 = 0#1024 then 0 else 2 ^ j) =
      fun j => if decide (c.extractLsb' (1024 * j) 1024 ≠ 0#1024) then 2 ^ j else 0 := by
    funext j
    by_cases h : c.extractLsb' (1024 * j) 1024 = 0#1024 <;> simp [h]
  rw [digest0, hflags, BitVec.getLsbD_ofNat, testBit_sum_flags, decide_eq_true hj, Bool.true_and,
    Bool.true_and, Bool.eq_iff_iff, decide_eq_true_iff, List.any_eq_true, ne_eq, wave_eq_zero_iff]
  simp

/-- The number of indices `k < n` with a property, counted from index 0 on. -/
theorem length_filter_range_succ (f : Nat → Bool) (n : Nat) :
    ((List.range (n + 1)).filter f).length =
      (if f 0 then 1 else 0) + ((List.range n).filter fun k => f (k + 1)).length := by
  rw [List.range_succ_eq_map, List.filter_cons, List.filter_map, apply_ite List.length, List.length_cons,
    List.length_map]
  split <;> simp [Function.comp_def, Nat.add_comm]

/-- The bytes `emit_0runs` spends on the runs of a word list: 2 for each run, 4 for each word that is not
zero. -/
def runsCost (rs : List (Bool × List U32)) : Nat :=
  (rs.map fun r => 2 + if r.1 then 4 * r.2.length else 0).sum

theorem runsCost_cons (nz : Bool) (run : List U32) (rs : List (Bool × List U32)) :
    runsCost ((nz, run) :: rs) = 2 + (if nz then 4 * run.length else 0) + runsCost rs := by
  rw [runsCost, List.map_cons, List.sum_cons, runsCost]

/-- A word joins the run before it, or begins a run of its own. -/
theorem wordRuns_cons_cons (w v : U32) {ws run : List U32} {nz : Bool} {rs : List (Bool × List U32)}
    (h : wordRuns (v :: ws) = (nz, run) :: rs) :
    wordRuns (w :: v :: ws) =
      if nz = decide (w ≠ 0) then (nz, w :: run) :: rs else (decide (w ≠ 0), [w]) :: (nz, run) :: rs := by
  rw [wordRuns, h]

theorem wordRuns_wordsFrom (c : Content) (k n : Nat) :
    ∃ run rs, wordRuns (wordsFrom c k (n + 1)) = (decide (wordAt c k ≠ 0), run) :: rs ∧
      runsCost (wordRuns (wordsFrom c k (n + 1))) =
        2 * (1 + ((List.range n).filter fun i =>
          decide (wordAt c (k + i) = 0) ^^ decide (wordAt c (k + i + 1) = 0)).length) +
          4 * ((List.range (n + 1)).filter fun i => decide (wordAt c (k + i) ≠ 0)).length := by
  induction n generalizing k with
  | zero =>
    refine ⟨[wordAt c k], [], rfl, ?_⟩
    show runsCost [(decide (wordAt c k ≠ 0), [wordAt c k])] = _
    rw [runsCost_cons, length_filter_range_succ]
    by_cases h : wordAt c k = 0 <;> simp [h, runsCost]
  | succ n ih =>
    obtain ⟨run, rs, hruns, hcost⟩ := ih (k + 1)
    have hshift : ∀ i, k + 1 + i = k + (i + 1) := fun i => by omega
    have hstep : wordRuns (wordsFrom c k (n + 1 + 1)) = _ := wordRuns_cons_cons (wordAt c k) _ hruns
    simp only [hshift] at hcost
    rw [hstep, length_filter_range_succ _ n, length_filter_range_succ _ (n + 1)]
    rw [hruns, runsCost_cons] at hcost
    by_cases h : wordAt c k = 0 <;> by_cases h' : wordAt c (k + 1) = 0 <;>
      simp only [h, h', ne_eq, decide_true, decide_false, not_true, not_false_iff, Nat.add_zero, Nat.zero_add,
        if_true, if_false, reduceCtorEq, Bool.false_eq_true, Bool.xor_true, Bool.xor_false, Bool.not_true,
        Bool.not_false] at hcost ⊢
    all_goals
      refine ⟨_, _, rfl, ?_⟩
      simp only [runsCost_cons, if_true, Bool.false_eq_true, if_false, List.length_cons, List.length_nil]
      omega

theorem nonzeroSize_eq (c : Content) :
    nonzeroSize c =
      2 * (1 + ((List.range 2047).filter fun k =>
          decide (wordAt c k = 0) ^^ decide (wordAt c (k + 1) = 0)).length) +
        4 * ((List.range 2048).filter fun k => decide (wordAt c k ≠ 0)).length := by
  obtain ⟨-, -, -, hcost⟩ := wordRuns_wordsFrom c 0 2047
  simp only [Nat.zero_add] at hcost
  exact hcost

/-- Settles O55: waves and words, positions, transitions, and the runs of the words. -/
theorem statistics : Obligations.Statistics := by
  intro c
  simp only [statsOf]
  exact ⟨fun j hj => getLsbD_digest0 c hj, popcount_eq c, bitGapsOf_eq c, nonzeroSize_eq c⟩

end Sys2Proof.Machine

/-! Reset, the host registers, the start of the decode commands, and the steps that only run what was decoded
(10_state.md sections 4 and 7; 46_host_commands.md rules R491 to R504; 43_block_decoder.md rule R300). -/

namespace Sys2Proof.Machine

/-! ### The invariant after reset -/

/-- Settles O59: the reset state, field by field. -/
theorem invariantAtReset : Obligations.InvariantAtReset where
  params := by decide
  buf := rfl
  store := rfl
  nb := Nat.zero_le _
  size := by decide
  cfg := by decide
  op := by decide
  phase := .inr ⟨nofun, rfl⟩
  status := .inr ⟨nofun, rfl, rfl⟩
  command := nofun
  writer := nofun
  reader := nofun
  rangeFrom := by decide
  scratch := ⟨Nat.zero_le _, nofun⟩
  range := nofun
  walk := nofun

/-! ### Reset and the memories -/

theorem wf_openStore {p : Params} {bs : BlockStore} (h : bs.wf p = true) (d : Nat) :
    (openStore p d bs).wf p = true :=
  BlockStore.wf_mapRange _ h (fun _ _ => rfl) (Nat.le_refl _)

theorem openSize_legal (p : Params) (d : Nat) : 1 ≤ openSize p d ∧ openSize p d < 2 ^ p.aw.bits := by
  have hpos : 0 < p.sizeDefault := by
    rw [Params.sizeDefault]
    cases p.aw <;> decide
  have hlt := Nat.mod_lt (Config.freeSize d) hpos
  have hsize : p.sizeDefault = 2 ^ p.aw.bits - 1 := rfl
  rw [openSize]
  omega

theorem decodeCommand_eq_some_iff {v : U64} :
    (decodeCommand v = some .serialize ↔ v.toNat = 1) ∧ (decodeCommand v = some .serializeDestroy ↔ v.toNat = 2) ∧
      (decodeCommand v = some .deserialize ↔ v.toNat = 3) ∧
      (decodeCommand v = some .opDeserialize ↔ v.toNat = 4) ∧
      (decodeCommand v = some .rangeDeserialize ↔ v.toNat = 5) := by
  rw [decodeCommand]
  split <;> simp_all

/-- Settles O2: what a running command, or one cut short, leaves open is what it may have written. -/
theorem resetMemories : Obligations.ResetMemories := by
  refine ⟨fun s rest h hw => ⟨_, step_reset h, rfl, rfl, rfl, fun hb => if_neg hb, ?_, fun hb => if_neg ?_,
    fun hb hc => ?_⟩, fun s rest v h hb h1 h5 hw hbuf => ?_⟩
  · show (if s.runState = .busy then openStore s.params s.draws s.bs else s.bs).wf s.params = true
    split
    · exact wf_openStore hw _
    · exact hw
  · exact fun hand => hb.elim (· hand.1) (· hand.2)
  · show 1 ≤ (if s.runState = .busy ∧ s.cmd = 3 then openSize s.params s.draws else s.bsSize) ∧
      (if s.runState = .busy ∧ s.cmd = 3 then openSize s.params s.draws else s.bsSize) < 2 ^ s.params.aw.bits
    rw [if_pos ⟨hb, hc⟩]
    exact openSize_legal _ _
  · obtain ⟨i, hi⟩ := decodeCommand_isSome h1 h5
    refine ⟨_, step_resetDuring h hb hi, ?_⟩
    have hopen := wf_openStore hw s.draws
    have hbufOpen := Memory.wf_openBelow hbuf s.stream.bufSize.toNat s.draws
    have hread : ∀ a, s.stream.bufSize.toNat ≤ a → s.stream.buf.openTo ≤ a →
        (s.stream.buf.openBelow s.stream.bufSize.toNat s.draws).read a = s.stream.buf.read a :=
      fun a ha ho => Memory.read_openBelow_of_le hbuf _ ha ho
    obtain ⟨c1, c2, c3, c4, c5⟩ := decodeCommand_eq_some_iff (v := v)
    rcases decodeCommand_cases hi with rfl | rfl | rfl | rfl | rfl
    · have hv := c1.1 hi
      exact ⟨rfl, rfl, fun _ => rfl, fun _ => by omega, hw, hbufOpen, fun _ => rfl, fun _ => by omega, hread⟩
    · have hv := c2.1 hi
      exact ⟨rfl, rfl, fun _ => by omega, fun _ => by omega, hopen, hbufOpen, fun _ => rfl, fun _ => by omega,
        hread⟩
    · have hv := c3.1 hi
      exact ⟨rfl, rfl, fun _ => by omega, fun _ => rfl, hopen, hbuf, fun _ => by omega,
        fun _ => openSize_legal _ _, fun _ _ _ => rfl⟩
    · have hv := c4.1 hi
      exact ⟨rfl, rfl, fun _ => by omega, fun _ => rfl, hopen, hbuf, fun _ => rfl, fun _ => by omega,
        fun _ _ _ => rfl⟩
    · have hv := c5.1 hi
      exact ⟨rfl, rfl, fun _ => by omega, fun _ => rfl, hopen, hbuf, fun _ => rfl, fun _ => by omega,
        fun _ _ _ => rfl⟩

/-! ### The range and size registers -/

theorem toNat_rangeMask (aw : AddrWidth) (v : U64) : (rangeMask aw v).toNat = v.toNat % 2 ^ aw.bits := by
  rw [rangeMask, BitVec.toNat_ofNat]
  exact Nat.mod_eq_of_lt (Nat.lt_of_le_of_lt (Nat.mod_le _ _) v.isLt)

theorem step_readReg {s : State} {no : Nat} {rest : List HostEvent} (h : s.host = .readReg no :: rest) :
    step s = readReg no { s with host := rest } := step_host h nofun

theorem step_writeReg {s : State} {no : Nat} {v : U64} {rest : List HostEvent}
    (h : s.host = .writeReg no v :: rest) : step s = writeReg no v { s with host := rest } := step_host h nofun

theorem readReg_busy {s : State} {no : Nat} (hb : s.runState = .busy)
    (hno : no = 0 ∨ no = 2 ∨ no = 3 ∨ no = 4 ∨ no = 5) : readReg no s = .refused .hostAccessWhileBusy := by
  rcases hno with rfl | rfl | rfl | rfl | rfl <;> exact if_pos (decide_eq_true hb)

theorem readReg_idle {s : State} (hb : s.runState ≠ .busy) {r : Nat × U64}
    (hr : r ∈ [(0, s.cfg), (1, s.cmd), (2, s.op), (3, s.rangeFrom), (4, s.rangeTo), (5, s.stream.bufSize),
      (6, statusWord s), (7, s.resultBytes), (8, s.resultCount)]) :
    readReg r.1 s = .next { s with hostData := r.2 } := by
  have hidle : ¬decide (s.runState = .busy) = true := by rwa [decide_eq_true_iff]
  simp only [List.mem_cons, List.not_mem_nil, or_false] at hr
  rcases hr with rfl | rfl | rfl | rfl | rfl | rfl | rfl | rfl | rfl
  case inr.inl | inr.inr.inr.inr.inr.inr.inl => rfl
  all_goals exact if_neg hidle

theorem writeReg_idle {s : State} (hb : s.runState ≠ .busy) (v : U64) :
    writeReg 3 v s = .next { s with rangeFrom := rangeMask s.params.aw v } ∧
      writeReg 4 v s = .next { s with rangeTo := v } ∧
      writeReg 5 v s = .next { s with stream := { s.stream with bufSize := v } } :=
  ⟨if_neg hb, if_neg hb, if_neg hb⟩

/-- Settles O5: the register file of the host port, register by register. -/
theorem dataRegisters : Obligations.DataRegisters := by
  refine ⟨fun s rest hb => ⟨fun no hno h => ?_, fun h => step_readReg h⟩, fun s hb hh => ?_⟩
  · exact (step_readReg h).trans (readReg_busy hb hno)
  · have hback : ∀ e, { { s with host := [e] } with host := [] } = s := fun e => by
      rw [← hh]
    refine ⟨fun v => ⟨_, ?_, toNat_rangeMask _ v⟩, fun v => ?_, fun v => ?_, fun r hr => ?_⟩
    · rw [step_writeReg rfl, hback, (writeReg_idle hb v).1]
    · rw [step_writeReg rfl, hback, (writeReg_idle hb v).2.1]
    · rw [step_writeReg rfl, hback, (writeReg_idle hb v).2.2]
    · rw [step_readReg rfl, hback, readReg_idle hb hr]

/-! ### The decode commands -/

theorem setOpOf_ne_none {op : U64} (h : op.toNat % 16 ≤ 12) : setOpOf op ≠ none := by
  have hcode : (op.extractLsb' 0 4).toNat = op.toNat % 16 := by
    rw [toNat_extractLsb', Nat.pow_zero, Nat.div_one]
    rfl
  rw [setOpOf, hcode]
  interval_cases op.toNat % 16 <;> exact Option.some_ne_none _

/-- Settles O8: the datapath of rule R492, then the header is awaited. -/
theorem decodeCommandsStart : Obligations.DecodeCommandsStart := fun s =>
  ⟨rfl, fun h => congrArg Host.Outcome.next (settle_ok (beginOp_legal (s := startCommand 4 s) (setOpOf_ne_none h))),
    fun h1 h2 => congrArg Host.Outcome.next (settle_ok (beginRange_legal (s := startCommand 5 s) h1 h2))⟩

/-! ### Steps -/

/-- Settles O39: what a step fetches, it executes. -/
theorem stepRunsDecoded : Obligations.StepRunsDecoded := by
  refine ⟨fun s i c hh hw hn hd => ?_, fun s i c hh hb hp hd => ?_, fun s v rest i hh hb hi => step_writeCmd hh hb hi⟩
  · rw [step_token hh hw hn, tokenStep_ok hd]
  · rw [step_header hh hb hp, headerStep, fetchThen, hd]

theorem settled_ok {m : M Unit} {s t : State} (h : m s = .ok () t) : settled m s = .next t :=
  congrArg Host.Outcome.next (settle_ok h)

/-- The state a command that ends normally leaves, its free values being draw `s.draws`. -/
def finished (bytes count : U64) (s : State) : State :=
  { freeScratch s.draws s with
    runState := .done, phase := .idle, resultBytes := bytes, resultCount := count, draws := s.draws + 1 }

theorem finishBytes_run (s : State) :
    finishBytes s = .ok () (finished (BitVec.ofNat 64 s.stream.pos) (Config.freeResult s.draws) s) := rfl

theorem finishOperation_run (s : State) :
    finishOperation s = .ok () (finished (Config.freeResult s.draws) (if s.rangeSet then 0 else s.count) s) := rfl

/-- Settles O41: the loop tests its end before it reads. -/
theorem mergeEnds : Obligations.MergeEnds := by
  intro s hh hb hp hc hend
  have hrun : (do modify setEos; finishBytes : M Unit) s =
      .ok () (finished (BitVec.ofNat 64 s.stream.pos) (Config.freeResult s.draws) (setEos s)) :=
    finishBytes_run (setEos s)
  refine ⟨Config.freeResult s.draws, Config.freeTemp s.draws,
    trimZeros ((Config.freeIndices s.draws).take 65536), s.draws + 1, ?_⟩
  rw [step_merge hh hb hp hc, mergeStep, if_pos hend, settled_ok hrun]
  rfl

theorem exitsNow_iff {s : State} : exitsNow s = true ↔
    exitOnOne s.op = true ∧ s.count ≠ 0 ∨ s.rangeSet = true ∧ s.rangeTo.toNat / 65536 < s.nb := by
  simp [exitsNow]

theorem cmd_ne_three {s : State} (h : s.cmd = 4 ∨ s.cmd = 5) : s.cmd ≠ 3 := by
  rcases h with h | h <;> rw [h] <;> decide

/-- Settles O43: an early exit finishes the command at once. -/
theorem operationExits : Obligations.OperationExits := by
  intro s hh hop hexit
  obtain ⟨hb, hp, heos, hc, -⟩ := hop
  refine ⟨Config.freeResult s.draws, Config.freeTemp s.draws,
    trimZeros ((Config.freeIndices s.draws).take 65536), s.draws + 1, ?_⟩
  rw [step_operate hh hb hp (cmd_ne_three hc), operateStep, if_neg (by rw [heos]; exact Bool.false_ne_true),
    if_pos (exitsNow_iff.2 hexit), settled_ok (finishOperation_run s)]
  rfl

/-! ### One u32 of the stream -/

theorem leBytes_four (v : U32) :
    leBytes 4 v.toNat = [v.extractLsb' 0 8, v.extractLsb' 8 8, v.extractLsb' 16 8, v.extractLsb' 24 8] := by
  have hbyte : ∀ k n, n = v.toNat / 2 ^ k → BitVec.ofNat 8 n = v.extractLsb' k 8 := fun k n hn =>
    BitVec.eq_of_toNat_eq (by rw [toNat_extractLsb', BitVec.toNat_ofNat, hn])
  simp only [leBytes]
  rw [hbyte 0 _ (by omega), hbyte 8 _ (by omega), hbyte 16 _ (by omega), hbyte 24 _ (by omega)]

/-- Settles O50: the bytes written are those read back. -/
theorem putThenGet : Obligations.PutThenGet := by
  intro c v hwf
  refine ⟨fun hfits => ?_, fun hover => ?_⟩
  · obtain ⟨d, hput, hwrote, -, hafter⟩ := putBytes_wrote (bs := leBytes 4 v.toNat) hwf hfits
    refine ⟨d, hput, leBytes_four v ▸ hwrote, hafter, ?_⟩
    have hsize : d.bufSize = c.bufSize := by rw [hwrote.1]
    have hbytes : d.buf.readList c.pos 4 = wireBytes true 4 v.toNat := hwrote.2.1
    have hpos : d.pos = c.pos + 4 := by rw [hwrote.1]; rfl
    have hroom : ¬d.bufSize.toNat < c.pos + 4 := by
      rw [hsize]
      omega
    rw [run_getU32, if_neg hroom, hbytes, bytesValue_wireBytes,
      Nat.mod_eq_of_lt (show v.toNat < 256 ^ 4 from v.isLt), BitVec.ofNat_toNat, BitVec.setWidth_eq]
    rw [← hpos]
  · exact (run_putBytes _ c).trans (if_pos hover)

end Sys2Proof.Machine

namespace Sys2Proof

open Sys2Proof.Machine

/-! ### Bytes written out in the spec -/

/-- Settles O48: the decoder run on the bytes of each example. -/
theorem decodeExamples : Obligations.DecodeExamples := by
  refine ⟨?_, ?_, ?_, ?_, ?_, ?_, ?_, ?_, ?_⟩ <;> decide +kernel

end Sys2Proof

/-! The tokens of a decode command (43_block_decoder.md sections 1 to 5; 45_operation_engine.md sections 2 and 3):
run tokens and block tokens, under DESERIALIZE and under an operation, and the errors they take. -/

namespace Sys2Proof.Machine

/-! ### Run tokens -/

/-- Settles O16: a one run fills its blocks, a zero run only advances NB. -/
theorem runMerges : Obligations.RunMerges := by
  intro i s one n hrun hm hw hn
  refine ⟨if one then s.bs.setAllSet s.nb n else s.bs, ?_, fun h => if_neg (by simp [h]), fun h j => ?_⟩
  · rw [exec_run hrun, settle_ok (runToken_merge hm hn)]
  · rw [if_pos h, BlockStore.at_setAllSet (BlockStore.wf_rising hw)]

/-- Settles O17: the run tables of the engine are `apply` with ZERO or ONES, block by block. -/
theorem runOperates : Obligations.RunOperates := by
  intro i s one n hrun hop heop hw hn
  have hr := BlockStore.wf_rising hw
  have hstep := settle_ok (runToken_operate (one := one) hop hn)
  cases one with
  | false =>
    refine ⟨zeroRunStore s.eop s.nb n s.bs, s.draws, ?_,
      fun j => ⟨BlockStore.content_zeroRunStore hr heop s.nb n, BlockStore.at_zeroRunStore hr s.eop s.nb n⟩⟩
    rw [exec_run hrun, hstep]
    simp [BlockStore.zeroRunCount_eq]
  | true =>
    refine ⟨oneRunStore s.eop s.draws s.nb n s.bs, s.draws + 1, ?_,
      fun j => ⟨BlockStore.content_oneRunStore hr s.eop s.draws s.nb n,
        BlockStore.at_oneRunStore hr s.eop s.draws s.nb n⟩⟩
    rw [exec_run hrun, hstep]
    simp [BlockStore.oneRunCount_eq]

theorem setAllSet_zero (bs : BlockStore) (nb : Nat) : bs.setAllSet nb 0 = bs := if_pos (Nat.le_refl nb)

/-- Settles O18: the room for the run is asked for before anything is done. -/
theorem runOverrun : Obligations.RunOverrun := by
  intro i s one n hrun hw
  refine ⟨fun hwalk hn => ⟨_, ?_, tokenError_takeError _ (show s.phase = .tokens from phase_of_walking hwalk) hw⟩,
    fun hm h0 hn => ?_⟩
  · rw [exec_run hrun, settle_error (runToken_overrun hwalk hn)]
  · subst h0
    rw [exec_run hrun, settle_ok (runToken_merge hm hn), setAllSet_zero, ite_self]
    rfl

/-! ### Reserved tags -/

theorem decodePayload_reserved {t : Byte}
    (h : t.toNat = 12 ∨ t.toNat = 13 ∨ t.toNat = 15 ∨ (35 ≤ t.toNat ∧ t.toNat ≤ 127)) :
    ∃ i, decodePayload t = (return i) ∧ isReserved i = true := by
  have hlit : ∀ k : Nat, t.toNat = k → t = BitVec.ofNat 8 k := fun k hk => by
    rw [← hk, BitVec.ofNat_toNat, BitVec.setWidth_eq]
  rcases h with h | h | h | ⟨h1, h2⟩
  · rw [hlit 12 h]
    exact ⟨.sgapbit, rfl, rfl⟩
  · rw [hlit 13 h]
    exact ⟨.sgapgap, rfl, rfl⟩
  · rw [hlit 15 h]
    exact ⟨.gapbit, rfl, rfl⟩
  · exact ⟨.unassigned t, decodePayload_unassigned h1 h2, rfl⟩

/-- Settles O20: the tag byte is read, and only the error of the reserved tags follows. -/
theorem reservedByteReported : Obligations.ReservedByteReported := by
  intro s hh hw hn hpos tag htag
  obtain ⟨i, hdec, hres⟩ := decodePayload_reserved htag
  have hread : decodeToken s.stream = .ok i { s.stream with pos := s.stream.pos + 1 } := by
    rw [decodeToken, run_bind, run_getU8, if_neg (by omega)]
    dsimp only
    rw [hdec]
    rfl
  have hwalk : Walking s := hw.imp id And.left
  let u : State :=
    { s with blockType := s.stream.buf.read s.stream.pos, stream := { s.stream with pos := s.stream.pos + 1 } }
  have hwalk' : Walking u := hwalk
  have hphase : u.phase ≠ .encode := by
    rw [phase_of_walking hwalk']
    decide
  obtain ⟨⟨hrep, -, hstream, hnb, hsize, -⟩, hbs⟩ := tokenError_serialFormat .unknownTag hphase
  refine ⟨_, ?_, hrep, hstream, hnb, hbs, hsize⟩
  rw [step_token hh hw hn, tokenStep_ok hread, exec_reserved hres, settle_error (reservedTag_walk hwalk')]

/-! ### Block tokens of DESERIALIZE -/

/-- What a block token's merge may leave at block NB and in ALLONE (43_block_decoder.md rules R307, R321, R344,
R345). -/
structure Merged (i : Instr) (b : BlockOperand) (s : State) (slot : Slot) (al : Bool) : Prop where
  content : slot.content s.nb = s.bs.content s.nb ||| b.content
  fresh : s.bs.kind s.params s.nb = .empty → slot = freshSlot s.params b
  allone : (i.tag ≠ 11 ∧ i.tag ≠ 34) ∨ s.bs.kind s.params s.nb ≠ .bit → al = s.allone
  inPlace : s.bs.kind s.params s.nb = .bit → i.tag = 11 ∨ i.tag = 34 → slot.content s.nb ≠ Content.ones →
    slot = .bit (slot.content s.nb)
  pass : s.bs.kind s.params s.nb = .bit → i.tag = 11 → al = decide (slot.content s.nb = Content.ones)
  noWaves : s.bs.kind s.params s.nb = .bit → ∀ ws, i = .bitDigest0 0 ws →
    slot = .bit (s.bs.content s.nb) ∧ al = s.allone

section Merge

variable {i : Instr} {b : BlockOperand} {s : State}

theorem merged_mergeBlock (hb : tokenOperand i = some b)
    (hplain : (i.tag ≠ 11 ∧ i.tag ≠ 34) ∨ s.bs.kind s.params s.nb ≠ .bit) :
    Merged i b s (mergeSlot s.params s.draws s.nb (s.bs.at' s.nb) b) s.allone where
  content := content_mergeSlot _ _ _ _ _ fun _ _ hh => (headed_ok hb hh).2
  fresh := fun h => if_pos h
  allone := fun _ => rfl
  inPlace := fun hk htag => by
    rcases hplain with ⟨h1, h2⟩ | h
    · exact absurd htag (not_or.2 ⟨h1, h2⟩)
    · exact absurd hk h
  pass := fun hk htag => by
    rcases hplain with ⟨h1, -⟩ | h
    · exact absurd htag h1
    · exact absurd hk h
  noWaves := fun _ _ _ => by
    rcases hplain with ⟨-, h2⟩ | h
    · subst i
      exact absurd rfl h2
    · contradiction

theorem orredSlot_of_ne {ran : Bool} {d : Nat} {c : Content} (h : c ≠ Content.ones) :
    orredSlot ran d c = .bit c := if_neg fun hc => h hc.2

theorem merged_bit {words : List U32} (hb : tokenOperand (.bit words) = some b)
    (hk : s.bs.kind s.params s.nb = .bit) :
    Merged (.bit words) b s (orredSlot true s.draws (fusedOr (s.bs.content s.nb) 0 words).1)
      (fusedOr (s.bs.content s.nb) 0 words).2 := by
  have hlen : words.length = 2048 := by
    by_contra hne
    exact absurd hb (by rw [tokenOperand, bitOperand, if_neg hne]; exact nofun)
  obtain rfl : plainOperand (contentOfWords 0 words) = b :=
    Option.some.inj ((if_pos hlen).symm.trans hb)
  have hcontent := content_orredSlot true s.draws s.nb (fusedOr (s.bs.content s.nb) 0 words).1
  refine ⟨hcontent, fun h => ?_, fun h => ?_, fun _ _ h => ?_, fun _ _ => ?_, fun _ _ => nofun⟩
  · rw [hk] at h
    exact absurd h nofun
  · rcases h with h | h
    · exact absurd rfl h.1
    · exact absurd hk h
  · rw [hcontent] at h ⊢
    exact orredSlot_of_ne h
  · rw [hcontent]
    exact orAllone_eq _ hlen

theorem digestList_zero : digestList 0 = [] := by
  rw [digestList, List.filter_eq_nil_iff]
  intro j _
  show ¬(0#64).getLsbD j = true
  rw [BitVec.getLsbD_zero]
  exact Bool.false_ne_true

theorem merged_bitDigest0 {d : U64} {words : List U32} (hb : tokenOperand (.bitDigest0 d words) = some b)
    (hk : s.bs.kind s.params s.nb = .bit) :
    Merged (.bitDigest0 d words) b s
      (orredSlot (decide (d ≠ 0)) s.draws
        (orWaves (digestList d) words (s.bs.content s.nb, s.allone)).1)
      (orWaves (digestList d) words (s.bs.content s.nb, s.allone)).2 := by
  have hlen : words.length = 32 * digestWaves d := by
    by_contra hne
    exact absurd hb (by rw [tokenOperand, bitDigest0Operand, if_neg hne]; exact nofun)
  obtain rfl : plainOperand (wavesContent (digestList d) words) = b :=
    Option.some.inj ((if_pos hlen).symm.trans hb)
  have hcontent := content_orredSlot (decide (d ≠ 0)) s.draws s.nb
    (orWaves (digestList d) words (s.bs.content s.nb, s.allone)).1
  refine ⟨hcontent.trans (orWaves_content _ _ _), fun h => ?_, fun h => ?_, fun _ _ h => ?_, fun _ h => ?_,
    fun _ ws h => ?_⟩
  · rw [hk] at h
    exact absurd h nofun
  · rcases h with h | h
    · exact absurd rfl h.2
    · exact absurd hk h
  · rw [hcontent] at h ⊢
    exact orredSlot_of_ne h
  · exact absurd h (show (34#8 : Byte) ≠ 11 by decide)
  · injection h with hd hws
    subst hd
    rw [digestList_zero]
    exact ⟨if_neg fun h => absurd h.1 (by decide), rfl⟩

/-- The merge of every block token puts one slot at NB and advances NB. -/
theorem mergeOf_run (hb : tokenOperand i = some b) :
    ∃ slot al tb,
      mergeOf i b s =
        .ok ()
          { s with
            bs := s.bs.put s.nb slot, allone := al, tempBlock := tb, nb := s.nb + 1, draws := s.draws + 1 } ∧
      Merged i b s slot al := by
  have hblock : ((i.tag ≠ 11 ∧ i.tag ≠ 34) ∨ s.bs.kind s.params s.nb ≠ .bit) → ∃ slot al tb,
      mergeBlock b s =
        .ok ()
          { s with
            bs := s.bs.put s.nb slot, allone := al, tempBlock := tb, nb := s.nb + 1, draws := s.draws + 1 } ∧
      Merged i b s slot al := fun h => ⟨_, _, _, mergeBlock_run b s, merged_mergeBlock hb h⟩
  by_cases hk : s.bs.kind s.params s.nb = .bit
  · cases i
    case bit words =>
      exact ⟨_, _, _, (mergeBit_run words b s).trans ((if_pos hk).trans (mergeInPlace_run _ _ s)), merged_bit hb hk⟩
    case bitDigest0 d words =>
      exact ⟨_, _, _, (mergeDigest_run d words b s).trans ((if_pos hk).trans (mergeInPlace_run _ _ s)),
        merged_bitDigest0 hb hk⟩
    case zskip n => exact absurd hb nofun
    case unassigned t => exact absurd hb nofun
    case streamHeader h => exact absurd hb nofun
    all_goals exact hblock (.inl (by dsimp only [Instr.tag]; decide))
  · have hsame : mergeOf i b s = mergeBlock b s := by
      cases i
      case bit words => exact (mergeBit_run words b s).trans (if_neg hk)
      case bitDigest0 d words => exact (mergeDigest_run d words b s).trans (if_neg hk)
      all_goals rfl
    rw [hsame]
    exact hblock (.inr hk)

end Merge

theorem slot_bit_iff {s : State} {w : Content} :
    s.bs.slot s.params s.nb = .bit w ↔ s.bs.kind s.params s.nb = .bit ∧ s.bs.content s.nb = w := by
  refine ⟨fun h => ?_, fun ⟨hk, hw⟩ => hw ▸ kind_bit_iff.1 hk⟩
  have hw : s.bs.content s.nb = w :=
    (content_resolve s.params s.nb (s.bs.at' s.nb)).symm.trans (congrArg (Slot.content s.nb) h)
  exact ⟨kind_bit_iff.2 (h.trans (congrArg Slot.bit hw.symm)), hw⟩

/-- Settles O21: the merge rule of each tag puts its slot at NB. -/
theorem blockMerges : Obligations.BlockMerges := by
  intro i st b s hi hb hm hw hn
  have hr := BlockStore.wf_rising hw
  obtain ⟨slot, al, tb, hrun, hmerged⟩ := mergeOf_run (s := withIdx b (preBlock s i)) hb
  have hput : ∀ j, (s.bs.put s.nb slot).at' j = if j = s.nb then slot else s.bs.at' j :=
    BlockStore.at_put hr s.nb slot
  have hcontent : (s.bs.put s.nb slot).content s.nb = slot.content s.nb := by
    rw [BlockStore.content_put hr, if_pos rfl]
  have hslot : (s.bs.put s.nb slot).at' s.nb = slot := by rw [hput, if_pos rfl]
  refine ⟨s.bs.put s.nb slot, (withIdx b (preBlock s i)).idxArr, tb, al, s.draws + 1, ?_,
    hcontent.trans hmerged.content, fun j hj => by rw [hput, if_neg hj], fun hidx => ?_, fun hempty => ?_,
    fun h => ?_, fun w hbit => ?_⟩
  · rw [exec_block hi, hb]
    have hm' : Merging (preBlock s i) := hm
    rw [settle_ok ((blockToken_merge hm' hn).trans hrun)]
    rfl
  · show (b.idx.map (loadArr · s.idxArr)).getD s.idxArr = s.idxArr
    rw [hidx]
    rfl
  · rw [hslot, hmerged.fresh (kind_empty_iff.2 hempty)]
    rfl
  · exact hmerged.allone (h.imp_right fun h hk => h _ (kind_bit_iff.1 hk))
  · obtain ⟨hk, hwc⟩ := slot_bit_iff.1 hbit
    refine ⟨fun htag hne => ?_, fun htag => ?_, fun ws hi => ?_⟩
    · rw [hslot, hcontent]
      rw [hcontent] at hne
      exact hmerged.inPlace hk htag hne
    · rw [hcontent]
      exact hmerged.pass hk htag
    · obtain ⟨hs, hal⟩ := hmerged.noWaves hk ws hi
      rw [hslot, hs]
      exact ⟨congrArg Slot.bit hwc, hal⟩

/-! ### Block tokens of an operation -/

/-- Settles O22: one block is combined with the token's content, or only counted. -/
theorem blockOperates : Obligations.BlockOperates := by
  intro i st b s hi hb hop hw hn
  have hr := BlockStore.wf_rising hw
  have hop' : Operating (preBlock s i) := hop
  obtain ⟨idx, hrun⟩ := blockToken_operate (b := b) (merge := mergeOf i) hop' (blockForm_states hi) hn
  have hstep := (exec_block hi s).trans (congrArg Host.Outcome.next (settle_ok (hb ▸ hrun)))
  cases hcount : isCounting s.eop with
  | true =>
    refine ⟨s.bs, idx, if st = .bitBlock then b.content else s.tempBlock, s.draws + 1, hstep.trans ?_,
      (applyOp_counting_fst hcount _ _).symm, fun _ _ => rfl, fun _ => rfl⟩
    simp [preBlock, hcount]
  | false =>
    have hslot : ∀ slot : Slot, (s.bs.put s.nb slot).content s.nb = slot.content s.nb := fun slot => by
      rw [BlockStore.content_put hr, if_pos rfl]
    refine ⟨_, idx, if st = .bitBlock then b.content else s.tempBlock, s.draws + 1, hstep.trans ?_,
      (hslot (if st = .bitBlock then bitResultSlot s.draws s.eop (s.bs.content s.nb) b.content
      else gapResultSlot s.params s.draws s.eop (s.bs.content s.nb) b.content)).trans ?_, fun j hj => ?_, nofun⟩
    · simp [preBlock, hcount, applyOp_writing_snd hcount]
    · split
      · exact content_bitResultSlot _ _ _ _ _ hcount
      · exact content_gapResultSlot _ _ _ _ _ _
    · rw [BlockStore.at_put hr, if_neg hj]

/-- Settles O23: the operand is asked for before anything is merged. -/
theorem malformedBlock : Obligations.MalformedBlock := by
  intro i st s hi hnone hwalk hw hn
  have hwalk' : Walking (preBlock s i) := hwalk
  obtain ⟨st', hrun⟩ := blockToken_malformed (st := st) (merge := mergeOf i) hwalk' hn
  refine ⟨_, (exec_block hi s).trans (congrArg Host.Outcome.next (settle_error (hnone ▸ hrun))), ?_⟩
  exact tokenError_takeError (s := { preBlock s i with st := st' }) _
    (show s.phase = .tokens from phase_of_walking hwalk) hw

end Sys2Proof.Machine

/-! What decoding leaves of the reader (40_bitcodec.md rules R178 to R187), and the stream header as the decoder
reads it (30_encoding.md rules R101 to R107). -/

namespace Sys2Proof.Machine

/-! ### The unread bits bound the accumulator -/

/-- No bit of RACC beyond the RAVAIL unread ones is set. -/
def Bounded (c : Stream) : Prop := c.racc.toNat < 2 ^ c.ravail

/-- A computation of the codec keeps the accumulator bounded, however it ends. -/
def KeepsBound (c d : Stream) : Prop := Bounded c → Bounded d

theorem path_keepsBound : Path KeepsBound where
  refl _ := id
  trans h1 h2 h := h2 (h1 h)

theorem racc_eq_zero {c : Stream} (h : Bounded c) (h0 : c.ravail = 0) : c.racc = 0 := by
  rw [Bounded, h0] at h
  exact BitVec.eq_of_toNat_eq (Nat.lt_one_iff.1 h)

section Bound

variable {α β : Type}

theorem bounded_bind {x : Codec α} {f : α → Codec β} (hx : Closed KeepsBound x)
    (hf : ∀ a, Closed KeepsBound (f a)) : Closed KeepsBound (x >>= f) := Closed.bind path_keepsBound hx hf

theorem bounded_pure (a : α) : Closed KeepsBound (Pure.pure a : Codec α) := Closed.pure path_keepsBound a

theorem bounded_map {x : Codec α} (hx : Closed KeepsBound x) (f : α → β) :
    Closed KeepsBound (do return f (← x)) := bounded_bind hx fun _ => bounded_pure _

theorem bounded_getUint (n : Nat) : Closed KeepsBound (getUint n) := fun c => by
  rw [run_getUint]
  split
  case h_1 h => split at h <;> cases h; exact id
  case h_2 h => split at h <;> cases h; exact id

theorem bounded_getU8 : Closed KeepsBound getU8 := bounded_map (bounded_getUint 1) _

theorem bounded_getU16 : Closed KeepsBound getU16 := bounded_map (bounded_getUint 2) _

theorem bounded_getU32 : Closed KeepsBound getU32 := bounded_map (bounded_getUint 4) _

theorem bounded_getU64 : Closed KeepsBound getU64 := bounded_map (bounded_getUint 8) _

theorem bounded_getU16Array (n : Nat) : Closed KeepsBound (getU16Array n) := by
  induction n with
  | zero => exact bounded_pure []
  | succ n ih => exact bounded_bind bounded_getU16 fun _ => bounded_map ih _

theorem bounded_getU32Array (n : Nat) : Closed KeepsBound (getU32Array n) := by
  induction n with
  | zero => exact bounded_pure []
  | succ n ih => exact bounded_bind bounded_getU32 fun _ => bounded_map ih _

theorem bounded_shift {c : Stream} (h : Bounded c) (h0 : c.ravail ≠ 0) :
    Bounded { c with racc := c.racc >>> 1, ravail := c.ravail - 1 } := by
  obtain ⟨n, hn⟩ := Nat.exists_eq_succ_of_ne_zero h0
  rw [Bounded, hn, Nat.pow_succ] at h
  rw [Bounded]
  dsimp only
  rw [BitVec.toNat_ushiftRight, Nat.shiftRight_eq_div_pow, hn, Nat.succ_sub_one]
  omega

theorem bounded_getBit : Closed KeepsBound getBit := fun c => by
  rw [run_getBit]
  by_cases h0 : c.ravail = 0
  · rw [if_pos h0]
    by_cases hover : c.bufSize.toNat < c.pos + 4
    · rw [if_pos hover]
      exact id
    · rw [if_neg hover]
      intro _
      exact bounded_shift (c := { c with
        pos := c.pos + 4
        racc := BitVec.ofNat 32 (bytesValue c.sbo (c.buf.readList c.pos 4))
        ravail := 32 }) (BitVec.isLt _) (show 32 ≠ 0 by decide)
  · rw [if_neg h0]
    exact fun h => bounded_shift h h0

theorem bounded_getBits (n : Nat) : Closed KeepsBound (getBits n) := by
  induction n with
  | zero => exact bounded_pure 0
  | succ n ih => exact bounded_bind bounded_getBit fun _ => bounded_map ih _

theorem bounded_endBits : Closed KeepsBound endBits := fun _ _ => Nat.one_pos

theorem bounded_gammaZeros (fuel l : Nat) : Closed KeepsBound (gammaZeros fuel l) := by
  induction fuel generalizing l with
  | zero => exact bounded_pure none
  | succ fuel ih => exact bounded_bind bounded_getBit fun _ => Closed.ite (bounded_pure _) (ih _)

theorem bounded_gammaDec : Closed KeepsBound gammaDec := by
  refine bounded_bind (bounded_gammaZeros 32 0) fun o => ?_
  cases o with
  | none => exact bounded_pure _
  | some l => exact bounded_map (bounded_getBits l) _

theorem bounded_fault (r : PrecondReason) : Closed KeepsBound (faultPre r : Codec α) := fun _ => id

theorem bounded_centerDec (r : Nat) : Closed KeepsBound (centerDec r) := by
  have hcheck : ∀ x, Closed KeepsBound (do
      if r < x then faultPre .malformed
      return x : Codec Nat) := fun _ =>
    Closed.ite (bounded_bind (bounded_fault _) fun _ => bounded_pure _) (bounded_pure _)
  exact bounded_bind (bounded_getBits _) fun t => Closed.ite
    (bounded_bind (bounded_map bounded_getBit _) hcheck) (bounded_bind (bounded_pure t) hcheck)

theorem bounded_bicDecodeFuel (fuel sz lo hiX : Nat) : Closed KeepsBound (bicDecodeFuel fuel sz lo hiX) := by
  induction fuel generalizing sz lo hiX with
  | zero => exact bounded_pure []
  | succ fuel ih =>
    have hrest : ∀ x, Closed KeepsBound (do
        let left ← bicDecodeFuel fuel (sz / 2) lo (lo + sz / 2 + x)
        let right ← bicDecodeFuel fuel (sz - sz / 2 - 1) (lo + sz / 2 + x + 1) hiX
        return left ++ BitVec.ofNat 16 (lo + sz / 2 + x) :: right : Codec (List U16)) := fun _ =>
      bounded_bind (ih _ _ _) fun _ => bounded_map (ih _ _ _) _
    rw [bicDecodeFuel]
    refine Closed.ite (bounded_pure []) (Closed.ite (bounded_bind (bounded_fault _) fun _ => ?_) ?_)
    · exact Closed.ite (bounded_bind (bounded_centerDec _) hrest) (bounded_bind (bounded_pure 0) hrest)
    · exact Closed.ite (bounded_bind (bounded_centerDec _) hrest) (bounded_bind (bounded_pure 0) hrest)

theorem bounded_bicDecode (sz lo hi : Nat) : Closed KeepsBound (bicDecode sz lo hi) :=
  Closed.ite (bounded_pure []) (bounded_bicDecodeFuel _ _ _ _)

theorem bounded_endWith (a : α) : Closed KeepsBound (do endBits; return a : Codec α) :=
  bounded_bind bounded_endBits fun _ => bounded_pure a

end Bound

end Sys2Proof.Machine

namespace Sys2Proof

open Sys2Proof.Machine

theorem bounded_readGammas (n : Nat) : Closed KeepsBound (readGammas n) := by
  induction n with
  | zero => exact bounded_pure []
  | succ n ih => exact bounded_bind bounded_gammaDec fun _ => Closed.ite (bounded_pure _) (bounded_map ih _)

theorem bounded_readRuns (fuel : Nat) (nz : Bool) (left : Nat) : Closed KeepsBound (readRuns fuel nz left) := by
  induction fuel generalizing nz left with
  | zero => exact bounded_pure []
  | succ fuel ih =>
    refine Closed.ite (bounded_pure []) (bounded_bind bounded_getU16 fun len => Closed.ite (bounded_pure _) ?_)
    cases nz with
    | false => exact bounded_bind (bounded_pure []) fun _ => bounded_map (ih _ _) _
    | true => exact bounded_bind (bounded_getU32Array _) fun _ => bounded_map (ih _ _) _

theorem bounded_readIdx : Closed KeepsBound readIdx := bounded_bind bounded_getU16 fun _ => bounded_getU16Array _

theorem bounded_readArrGamma : Closed KeepsBound readArrGamma :=
  bounded_bind bounded_gammaDec fun _ => Closed.ite (bounded_pure _)
    (bounded_bind (bounded_readGammas _) fun _ => bounded_endWith _)

theorem bounded_readArrBic : Closed KeepsBound readArrBic :=
  bounded_bind bounded_getU16 fun _ => bounded_bind bounded_getU16 fun _ =>
    bounded_bind bounded_gammaDec fun _ => Closed.ite (bounded_pure _)
      (bounded_bind (bounded_bicDecode _ _ _) fun _ => bounded_endWith _)

theorem bounded_readArrBienc : Closed KeepsBound readArrBienc :=
  bounded_bind bounded_getU16 fun _ => bounded_bind bounded_getU16 fun _ =>
    bounded_bind bounded_getU16 fun _ => Closed.ite (bounded_pure _)
      (bounded_bind (bounded_bicDecode _ _ _) fun _ => bounded_endWith _)

theorem bounded_readGapGamma : Closed KeepsBound readGapGamma :=
  bounded_bind bounded_getU16 fun _ => bounded_bind (bounded_readGammas _) fun _ => bounded_endWith _

theorem bounded_readGapBic : Closed KeepsBound readGapBic :=
  bounded_bind bounded_getU16 fun _ => Closed.ite (bounded_pure _)
    (bounded_bind bounded_getU16 fun _ => bounded_bind (bounded_bicDecode _ _ _) fun _ => bounded_endWith _)

theorem bounded_readBitgapBic : Closed KeepsBound readBitgapBic :=
  bounded_bind bounded_getU8 fun _ => bounded_bind bounded_getU16 fun _ =>
    bounded_bind bounded_getU16 fun _ => Closed.ite (bounded_pure _)
      (bounded_bind (bounded_bicDecode _ _ _) fun _ => bounded_endWith _)

theorem bounded_readInterval : Closed KeepsBound readInterval :=
  bounded_bind bounded_getU16 fun _ => bounded_bind bounded_getU16 fun _ => Closed.ite (bounded_pure _)
    (bounded_map (bounded_getU32Array _) _)

theorem bounded_readDigest : Closed KeepsBound readDigest :=
  bounded_bind bounded_getU64 fun _ => bounded_map (bounded_getU32Array _) _

theorem bounded_read0runs : Closed KeepsBound read0runs :=
  bounded_bind bounded_getU8 fun _ => Closed.ite (bounded_pure _) (bounded_map (bounded_readRuns _ _ _) _)

theorem bounded_readGap : Closed KeepsBound readGap :=
  bounded_bind bounded_getU16 fun _ => bounded_map (bounded_getU16Array _) _

theorem bounded_decodePayload (t : Byte) : Closed KeepsBound (decodePayload t) := by
  refine Closed.ite (bounded_pure _) ?_
  split
  case h_4 | h_5 => exact bounded_map bounded_getU8 _
  case h_6 | h_7 | h_20 => exact bounded_map bounded_getU16 _
  case h_8 | h_9 => exact bounded_map bounded_getU32 _
  case h_26 | h_27 => exact bounded_map bounded_getU64 _
  case h_12 => exact bounded_map (bounded_getU32Array _) _
  case h_15 => exact bounded_map bounded_readGap fun r => Instr.gap r.1 r.2
  case h_17 | h_19 | h_25 | h_31 => exact bounded_map bounded_readIdx _
  case h_18 => exact bounded_map bounded_readInterval fun r => Instr.bitInterval r.1 r.2.1 r.2.2
  case h_21 => exact bounded_map bounded_readGapGamma fun r => Instr.gapEgamma r.1 r.2
  case h_22 => exact bounded_map bounded_readArrGamma fun r => Instr.arrgapEgamma r.1 r.2
  case h_23 => exact bounded_map bounded_read0runs fun r => Instr.bit0runs r.1 r.2
  case h_24 => exact bounded_map bounded_readArrGamma fun r => Instr.arrgapEgammaInv r.1 r.2
  case h_28 => exact bounded_map bounded_readGapBic fun r => Instr.gapBienc r.1 r.2.1 r.2.2
  case h_29 => exact bounded_map bounded_readArrBic fun r => Instr.arrgapBienc r.1 r.2.1 r.2.2.1 r.2.2.2
  case h_30 => exact bounded_map bounded_readArrBic fun r => Instr.arrgapBiencInv r.1 r.2.1 r.2.2.1 r.2.2.2
  case h_32 => exact bounded_map bounded_readArrBienc fun r => Instr.arrBienc r.1 r.2.1 r.2.2.1 r.2.2.2
  case h_33 => exact bounded_map bounded_readArrBienc fun r => Instr.arrBiencInv r.1 r.2.1 r.2.2.1 r.2.2.2
  case h_34 => exact bounded_map bounded_readBitgapBic fun r => Instr.bitgapBienc r.1 r.2.1 r.2.2.1 r.2.2.2
  case h_35 => exact bounded_map bounded_readDigest fun r => Instr.bitDigest0 r.1 r.2
  all_goals exact bounded_pure _

/-- The payload's reader takes its bits to the end when the token has a meaning, well-formed or not. -/
def Legible (i : Instr) : Prop := blockForm i ≠ none → tokenOperand i ≠ none

theorem legible_of_wf {i : Instr} (h : i.wf = true) : Legible i := fun hi => by
  obtain ⟨st, hst⟩ := Option.ne_none_iff_exists'.1 hi
  obtain ⟨b, hb⟩ := wellFormedDenotes i st hst h
  rw [hb]
  exact Option.some_ne_none b

/-- The interior of a list with a legal count is read to its end. -/
theorem drains_readArrBic_count :
    Drains (fun r => 1 ≤ r.2.2.1.toNat ∧ r.2.2.1.toNat + 4 ≤ 65536) readArrBic := by
  refine drains_getU16.bind fun mn => drains_getU16.bind fun mx => Ends.drains (Ends.bind fun n4 => ?_)
  by_cases h : n4.toNat = 0 ∨ 65536 < n4.toNat + 4
  · rw [if_pos h]
    exact Ends.pure_bad fun hw => by
      dsimp only at hw
      omega
  · rw [if_neg h]
    exact Ends.bind fun _ => Ends.endBits _

theorem Drains.fetch {α : Type} {good : α → Prop} {x : Codec α} (hx : Drains good x) {f : α → Instr}
    (h : ∀ a, Legible (f a) → good a) : Drains Legible (do return f (← x)) := fun c i e hc hi hl => by
  obtain ⟨a, d, h1, h2⟩ := of_run_bind hi
  cases h2
  exact hx c a _ hc h1 (h a hl)

theorem count_of_legible {inv : Bool} {mn mx : U16} {n4 : U32} {inner : List U16}
    (h : arrBicOperand inv mn mx n4 inner ≠ none) : 1 ≤ n4.toNat ∧ n4.toNat + 4 ≤ 65536 := by
  by_contra hn
  exact h (arrBicOperand_eq_none inv (by omega))

theorem wfArrGamma_of_legible {inv : Bool} {n : U32} {gs : List U32} (h : arrGammaOperand inv n gs ≠ none) :
    wfArrGamma n gs = true := by
  by_contra hn
  exact h (if_neg hn)

theorem drains_decodePayload_legible (t : Byte) : Drains Legible (decodePayload t) := by
  have triv : ∀ {α : Type} (f : α → Instr) (a : α), Legible (f a) → True := fun _ _ _ => trivial
  refine Drains.ite (Drains.pure _) ?_
  split
  case h_4 | h_5 => exact drains_getU8.fetch (triv _)
  case h_6 | h_7 | h_20 => exact drains_getU16.fetch (triv _)
  case h_8 | h_9 => exact drains_getU32.fetch (triv _)
  case h_26 | h_27 => exact drains_getU64.fetch (triv _)
  case h_12 => exact (drains_getU32Array _).fetch (triv _)
  case h_15 => exact drains_readGap.fetch (f := fun r => Instr.gap r.1 r.2) (triv _)
  case h_17 | h_19 | h_25 | h_31 => exact drains_readIdx.fetch (triv _)
  case h_18 => exact drains_readInterval.fetch (f := fun r => Instr.bitInterval r.1 r.2.1 r.2.2) (triv _)
  case h_21 => exact drains_readGapGamma.fetch (f := fun r => Instr.gapEgamma r.1 r.2) (triv _)
  case h_22 =>
    exact ends_readArrGamma.drains.fetch (f := fun r => Instr.arrgapEgamma r.1 r.2) fun _ h =>
      wfArrGamma_of_legible (h nofun)
  case h_23 => exact drains_read0runs.fetch (f := fun r => Instr.bit0runs r.1 r.2) (triv _)
  case h_24 =>
    exact ends_readArrGamma.drains.fetch (f := fun r => Instr.arrgapEgammaInv r.1 r.2) fun _ h =>
      wfArrGamma_of_legible (h nofun)
  case h_28 => exact drains_readGapBic.fetch (f := fun r => Instr.gapBienc r.1 r.2.1 r.2.2) (triv _)
  case h_29 =>
    exact drains_readArrBic_count.fetch (f := fun r => Instr.arrgapBienc r.1 r.2.1 r.2.2.1 r.2.2.2) fun _ h =>
      count_of_legible (h nofun)
  case h_30 =>
    exact drains_readArrBic_count.fetch (f := fun r => Instr.arrgapBiencInv r.1 r.2.1 r.2.2.1 r.2.2.2)
      fun _ h => count_of_legible (h nofun)
  case h_32 =>
    exact drains_readArrBienc.fetch (f := fun r => Instr.arrBienc r.1 r.2.1 r.2.2.1 r.2.2.2) (triv _)
  case h_33 =>
    exact drains_readArrBienc.fetch (f := fun r => Instr.arrBiencInv r.1 r.2.1 r.2.2.1 r.2.2.2) (triv _)
  case h_34 =>
    exact drains_readBitgapBic.fetch (f := fun r => Instr.bitgapBienc r.1 r.2.1 r.2.2.1 r.2.2.2) (triv _)
  case h_35 => exact drains_readDigest.fetch (f := fun r => Instr.bitDigest0 r.1 r.2) (triv _)
  all_goals exact Drains.pure _

theorem drains_decodeToken : Drains Legible decodeToken := drains_getU8.bind drains_decodePayload_legible

theorem bounded_decodeToken : Closed KeepsBound decodeToken := bounded_bind bounded_getU8 bounded_decodePayload

/-- A drained bit reader is drained again after a token that has a meaning. -/
theorem decodeToken_drained {c d : Stream} {i : Instr} (h : decodeToken c = .ok i d) (hl : Legible i)
    (hv : c.ravail = 0) : d.ravail = 0 ∧ (c.racc = 0 → d.racc = 0) := by
  have hd := drains_decodeToken c i d hv h hl
  refine ⟨hd, fun hr => racc_eq_zero (bounded_decodeToken.ok h ?_) hd⟩
  rw [Bounded, hr]
  exact Nat.two_pow_pos _

theorem decodeToken_advances {c d : Stream} {i : Instr} (h : decodeToken c = .ok i d) :
    d = { c with pos := d.pos, racc := d.racc, ravail := d.ravail } ∧ c.pos < d.pos ∧
      d.pos ≤ c.bufSize.toNat := by
  obtain ⟨t, e, htag, hload⟩ := of_run_bind h
  rw [run_getU8] at htag
  split at htag
  · cases htag
  case isFalse hroom =>
    cases htag
    have hreads := reads_decodePayload (c.buf.read c.pos) { c with pos := c.pos + 1 }
    rw [hload] at hreads
    obtain ⟨heq, hle, hin, -⟩ := hreads
    dsimp only at heq hle hin
    exact ⟨heq, by omega, by omega⟩

/-- Settles O49: each reader stays inside the buffer, and ends its bit-coded part. -/
theorem decodeDrains : Obligations.DecodeDrains := by
  intro c d i h hw hv
  obtain ⟨heq, hlt, hle⟩ := decodeToken_advances h
  obtain ⟨hdv, hdr⟩ := decodeToken_drained h (legible_of_wf hw) hv
  rw [hdv, ← hv] at heq
  exact ⟨heq, hlt, hle, hdr⟩

/-! ### The stream header -/

/-- A reader that takes exactly these bytes for a value, the byte order being `before` before and `after`
afterwards. -/
def TakesTo {α : Type} (before after : Bool) (bs : List Byte) (x : Codec α) (a : α) : Prop :=
  ∀ c : Stream, c.sbo = before → c.racc = 0 → c.ravail = 0 → Ahead bs c →
    x c = .ok a { c.skip bs.length with sbo := after }

section Header

variable {α β : Type} {s0 s1 s2 : Bool} {xs ys : List Byte}

theorem TakesTo.of_takes {x : Codec α} {a : α} (h : Takes s0 xs x a) : TakesTo s0 s0 xs x a := by
  intro c hs hr hv hahead
  rw [h c hs hr hv hahead, ← hs]
  rfl

theorem TakesTo.bind {x : Codec α} {a : α} {f : α → Codec β} {b : β} (hx : TakesTo s0 s1 xs x a)
    (hf : TakesTo s1 s2 ys (f a) b) : TakesTo s0 s2 (xs ++ ys) (x >>= f) b := by
  intro c hs hr hv h
  have hrest := hf { c.skip xs.length with sbo := s1 } rfl hr hv ⟨h.right.fits, h.right.bytes⟩
  rw [run_bind_ok (hx c hs hr hv h.left), hrest, List.length_append]
  simp only [Stream.skip, Nat.add_assoc]

/-- A reader chosen before it goes on. -/
theorem TakesTo.iteBind {p : Prop} [Decidable p] {x y : Codec α} {a : α} {f : α → Codec β} {b : β}
    (hx : TakesTo s0 s1 xs (if p then x else y) a) (hf : TakesTo s1 s2 ys (f a) b) :
    TakesTo s0 s2 (xs ++ ys) (if p then x >>= f else y >>= f) b := by
  by_cases h : p
  · rw [if_pos h] at hx ⊢
    exact hx.bind hf
  · rw [if_neg h] at hx ⊢
    exact hx.bind hf

theorem TakesTo.setSbo {f : Unit → Codec β} {b : β} (hf : TakesTo s1 s2 ys (f ()) b) :
    TakesTo s0 s2 ys (setSbo s1 >>= f) b := fun c _ hr hv h =>
  hf { c with sbo := s1 } rfl hr hv ⟨h.fits, h.bytes⟩

variable {h : Header}

theorem takes_byteOrder (hw : h.wf = true) :
    Takes s0 (match h.byteOrder with | none => [] | some b => [b])
      (if h.noByteOrder then pure none else do return some (← getU8)) h.byteOrder := by
  simp only [Header.wf, Bool.and_eq_true] at hw
  obtain ⟨⟨hbo, -⟩, -⟩ := hw
  cases hb : h.byteOrder with
  | none =>
    rw [hb] at hbo
    rw [if_pos hbo]
    exact Takes.pure none
  | some b =>
    rw [hb] at hbo
    simp only [Bool.and_eq_true, Bool.not_eq_true'] at hbo
    rw [if_neg (by rw [hbo.1]; exact Bool.false_ne_true)]
    exact (takes_getU8 b).map some

theorem takes_gapLevels (hw : h.wf = true) :
    Takes s0 (match h.gapLevels with | none => [] | some g => wireU16s s0 [g.l0, g.l1, g.l2, g.l3])
      (if h.hasGapLevels then do return some ⟨← getU16, ← getU16, ← getU16, ← getU16⟩ else pure none)
      h.gapLevels := by
  simp only [Header.wf, Bool.and_eq_true, decide_eq_true_eq] at hw
  obtain ⟨⟨-, hgl⟩, -⟩ := hw
  cases hg : h.gapLevels with
  | none =>
    rw [hg] at hgl
    rw [if_neg (by rw [← hgl]; exact Bool.false_ne_true)]
    exact Takes.pure none
  | some g =>
    rw [hg] at hgl
    rw [if_pos (show h.hasGapLevels = true from hgl.symm)]
    have hbytes : wireU16s s0 [g.l0, g.l1, g.l2, g.l3] = wireBytes s0 2 g.l0.toNat ++
        (wireBytes s0 2 g.l1.toNat ++ (wireBytes s0 2 g.l2.toNat ++ wireBytes s0 2 g.l3.toNat)) := by
      simp [wireU16s]
    dsimp only
    rw [hbytes]
    exact (takes_getU16 g.l0).bind ((takes_getU16 g.l1).bind ((takes_getU16 g.l2).bind
      ((takes_getU16 g.l3).map fun l3 => some (GapTable.mk g.l0 g.l1 g.l2 l3))))

theorem takes_size (hw : h.wf = true) :
    Takes s0 (match h.size with | none => [] | some v => wireBytes s0 (if h.is64 then 8 else 4) v.toNat)
      (if h.hasSize then
        (if h.is64 then (do return some (← getU64)) else (do return some ((← getU32).setWidth 64)))
      else pure none) h.size := by
  simp only [Header.wf, Bool.and_eq_true] at hw
  obtain ⟨-, hsize⟩ := hw
  cases hs : h.size with
  | none =>
    rw [hs] at hsize
    have hno : ¬h.hasSize = true := by
      rw [Bool.not_eq_true'] at hsize
      rw [hsize]
      exact Bool.false_ne_true
    rw [if_neg hno]
    exact Takes.pure none
  | some v =>
    rw [hs] at hsize
    simp only [Bool.and_eq_true, Bool.or_eq_true, decide_eq_true_eq] at hsize
    obtain ⟨hsize, hwidth⟩ := hsize
    dsimp only
    rw [if_pos hsize]
    cases h64 : h.is64 with
    | true => exact (takes_getU64 v).map some
    | false =>
      have hlt : v.toNat < 2 ^ 32 := hwidth.resolve_left (by rw [h64]; exact Bool.false_ne_true)
      have hlow : (v.setWidth 32).toNat = v.toNat := by
        rw [BitVec.toNat_setWidth, Nat.mod_eq_of_lt hlt]
      have hback : (v.setWidth 32).setWidth 64 = v :=
        BitVec.eq_of_toNat_eq (by rw [BitVec.toNat_setWidth, hlow, Nat.mod_eq_of_lt v.isLt])
      have hread := (takes_getU32 (sbo := s0) (v.setWidth 32)).map fun w => some (w.setWidth 64)
      rw [hlow, hback] at hread
      exact hread

/-- A legal header of the reader's address width is read to its end; its fields are in the byte order it
announces. -/
theorem takesTo_readHeader {aw : AddrWidth} (hw : h.wf = true) (h64 : h.is64 = decide (aw = .w48)) :
    TakesTo s0 (h.noByteOrder || decide (h.byteOrder = some 1#8))
      (encodeAs (h.noByteOrder || decide (h.byteOrder = some 1#8)) (.streamHeader h)) (readHeader aw) h := by
  have hbo : (h.byteOrder.getD 0).toNat ≤ 1 := by
    simp only [Header.wf, Bool.and_eq_true] at hw
    obtain ⟨⟨hbo, -⟩, -⟩ := hw
    cases hb : h.byteOrder with
    | none => exact Nat.zero_le 1
    | some b =>
      rw [hb] at hbo
      simp only [Bool.and_eq_true, decide_eq_true_eq] at hbo
      exact hbo.2
  refine (TakesTo.of_takes (takes_getU8 h.flags)).bind (s1 := s0) ?_
  show TakesTo _ _ (wireHeader _ h) _ _
  rw [wireHeader, List.append_assoc]
  refine TakesTo.setSbo ((TakesTo.of_takes (takes_byteOrder hw)).iteBind ?_)
  dsimp only
  rw [if_neg (Nat.not_lt.2 hbo)]
  refine TakesTo.setSbo ?_
  have hwidth : ¬(Header.mk h.flags h.byteOrder none none).is64 ≠ decide (aw = .w48) := not_not.2 h64
  rw [if_neg hwidth]
  refine (TakesTo.of_takes (takes_gapLevels hw)).iteBind ?_
  have hsize := (TakesTo.of_takes (takes_size
    (s0 := h.noByteOrder || decide (h.byteOrder = some 1#8)) hw)).iteBind (ys := []) (f := fun size =>
    (Pure.pure (Header.mk h.flags h.byteOrder h.gapLevels size) : Codec Header)) (TakesTo.of_takes (Takes.pure h))
  rwa [List.append_nil] at hsize

end Header

theorem decodeHeader_of_readHeader {aw : AddrWidth} {c d : Stream} {h : Header} (hr : readHeader aw c = .ok h d) :
    decodeHeader aw c = .ok (.streamHeader h) d := by
  rw [decodeHeader, run_bind_ok hr]
  rfl

/-- Settles O47: the reader takes the fields in the order the encoder writes them. -/
theorem decodeEncodeHeader : Obligations.DecodeEncodeHeader := by
  intro aw h rest hw h64 sbo bytes hlen
  have hread := takesTo_readHeader (s0 := true) hw h64 _ rfl rfl rfl (ahead_ofBytes (sbo := true) hlen)
  rw [decodeHeaderBytes, decodeHeader_of_readHeader hread]
  exact congrArg some (Prod.ext rfl (Nat.zero_add _))

end Sys2Proof

/-! The stream header of a decode command (43_block_decoder.md rules R302 to R306; 44_stream_iterator.md rule R372;
45_operation_engine.md rules R431, R432, R465): what the parse latches, the target of a DESERIALIZE, and the
iterator and the engine of an operation, for a token stream and for an id list. -/

namespace Sys2Proof.Machine

/-! ### The mask of RANGE_DESERIALIZE -/

theorem totalBlocks_mul (p : Params) : 65536 * p.totalBlocks = 2 ^ p.aw.bits := by
  rw [Params.totalBlocks]
  cases p.aw <;> decide

theorem wf_putContent {p : Params} {bs : BlockStore} (h : bs.wf p = true) (d : Nat) {nb : Nat}
    (hn : nb < p.totalBlocks) (c : Content) : (bs.putContent d nb c).wf p = true :=
  BlockStore.wf_put h hn rfl

theorem content_putContent {bs : BlockStore} (hr : BlockStore.rising 0 bs) (d nb : Nat) (c : Content) (j : Nat) :
    (bs.putContent d nb c).content j = if j = nb then c else bs.content j :=
  BlockStore.content_put hr nb _ j

section Premask

variable {p : Params} {bs : BlockStore} {f t : Nat}

theorem wf_premaskStore (h : bs.wf p = true) (d : Nat) (hft : f ≤ t) (ht : t < 2 ^ p.aw.bits) :
    (premaskStore p.totalBlocks d f t bs).wf p = true := by
  rw [← totalBlocks_mul] at ht
  have h1 : (bs.zero 0 (f / 65536)).wf p = true := BlockStore.wf_zero h (by omega)
  have h2 := wf_putContent h1 d (nb := f / 65536) (by omega)
    ((bs.zero 0 (f / 65536)).content (f / 65536) &&& maskRange (f % 65536) 65536)
  exact BlockStore.wf_zero (wf_putContent h2 (d + 1) (nb := t / 65536) (by omega) _) (by omega)

/-- A block of the masked target, in the order of the stores. -/
theorem content_premaskStore (h : bs.wf p = true) (d : Nat) (hft : f ≤ t) (ht : t < 2 ^ p.aw.bits) (j : Nat) :
    (premaskStore p.totalBlocks d f t bs).content j =
      if j < f / 65536 ∨ t / 65536 < j then Content.zero
      else
        (bs.content j &&& if j = f / 65536 then maskRange (f % 65536) 65536 else Content.ones) &&&
          if j = t / 65536 then maskRange 0 (t % 65536 + 1) else Content.ones := by
  rw [← totalBlocks_mul] at ht
  have h1 : (bs.zero 0 (f / 65536)).wf p = true := BlockStore.wf_zero h (by omega)
  have h2 := wf_putContent h1 d (nb := f / 65536) (by omega)
    ((bs.zero 0 (f / 65536)).content (f / 65536) &&& maskRange (f % 65536) 65536)
  have h3 := fun c => BlockStore.wf_rising (wf_putContent h2 (d + 1) (nb := t / 65536) (by omega) c)
  have htop : p.totalBlocks ≤ j → bs.content j = Content.zero := fun hj => by
    rw [BlockStore.content, BlockStore.at_top h hj]
    rfl
  rw [premaskStore, BlockStore.content_zero (h3 _), content_putContent (BlockStore.wf_rising h2),
    content_putContent (BlockStore.wf_rising h1), content_putContent (BlockStore.wf_rising h1),
    BlockStore.content_zero (BlockStore.wf_rising h), BlockStore.content_zero (BlockStore.wf_rising h),
    BlockStore.content_zero (BlockStore.wf_rising h)]
  rcases Nat.lt_or_ge (t / 65536) j with hgt | hle
  · rw [if_pos (Or.inr hgt)]
    by_cases hj : j < p.totalBlocks
    · rw [if_pos (by omega)]
    · rw [if_neg (by omega), if_neg (by omega), if_neg (by omega), if_neg (by omega), htop (by omega)]
  · rw [if_neg (by omega)]
    rcases Nat.lt_trichotomy j (f / 65536) with hlt | rfl | hlt
    · rw [if_neg (by omega), if_neg (by omega), if_pos (by omega), if_pos (Or.inl hlt)]
    · rw [if_neg (show ¬(f / 65536 < f / 65536 ∨ t / 65536 < f / 65536) by omega), if_pos rfl]
      by_cases hj : f / 65536 = t / 65536
      · rw [if_pos hj, if_pos hj.symm, if_neg (by omega), if_pos rfl, if_pos hj]
      · rw [if_neg hj, if_neg (by omega), if_neg hj, Content.and_ones, if_pos rfl]
    · have hne : ¬j = f / 65536 := by omega
      rw [if_neg (show ¬(j < f / 65536 ∨ t / 65536 < j) by omega), if_neg hne, if_neg hne, Content.and_ones]
      by_cases hj : j = t / 65536
      · subst hj
        rw [if_pos rfl, if_pos rfl, if_neg hne, if_neg (by omega)]
      · rw [if_neg hj, if_neg hj, if_neg (by omega), Content.and_ones]

end Premask

theorem masked_premaskStore {s : State} (d : Nat) (hw : s.bs.wf s.params = true)
    (hft : s.rangeFrom.toNat ≤ s.rangeTo.toNat) (ht : s.rangeTo.toNat < 2 ^ s.params.aw.bits) :
    Masked s (premaskStore s.params.totalBlocks d s.rangeFrom.toNat s.rangeTo.toNat s.bs) := by
  intro j p hp
  generalize s.rangeFrom.toNat = f at *
  generalize s.rangeTo.toNat = t at *
  rw [content_premaskStore hw d hft ht]
  split
  case isTrue hout =>
    rw [Content.getLsbD_zero, decide_eq_false (by omega), Bool.and_false]
  case isFalse hin =>
    have hlow : (if j = f / 65536 then maskRange (f % 65536) 65536 else Content.ones).getLsbD p =
        decide (f ≤ 65536 * j + p) := by
      split
      · rw [getLsbD_maskRange (Nat.le_refl _), decide_eq_decide]
        omega
      · rw [Content.getLsbD_ones hp]
        exact (decide_eq_true (by omega)).symm
    have hhigh : (if j = t / 65536 then maskRange 0 (t % 65536 + 1) else Content.ones).getLsbD p =
        decide (65536 * j + p ≤ t) := by
      split
      · rw [getLsbD_maskRange (by omega), decide_eq_decide]
        omega
      · rw [Content.getLsbD_ones hp]
        exact (decide_eq_true (by omega)).symm
    rw [BitVec.getLsbD_and, BitVec.getLsbD_and, hlow, hhigh, Bool.decide_and, Bool.and_assoc]

/-! ### The parse of a legal header -/

section Parse

variable {h : Header} {s : State}

theorem byteOrder_of_wf (hw : h.wf = true) :
    (h.byteOrder.getD 0).toNat ≤ 1 ∧ (h.size = none ↔ h.hasSize = false) := by
  simp only [Header.wf, Bool.and_eq_true] at hw
  obtain ⟨⟨hbo, -⟩, hsize⟩ := hw
  refine ⟨?_, ?_⟩
  · cases hb : h.byteOrder with
    | none => exact Nat.zero_le 1
    | some b =>
      rw [hb] at hbo
      simp only [Bool.and_eq_true, decide_eq_true_eq] at hbo
      exact hbo.2
  · cases hs : h.size with
    | none =>
      rw [hs] at hsize
      simpa using hsize
    | some v =>
      rw [hs] at hsize
      simp only [Bool.and_eq_true] at hsize
      simp [hsize.1]

theorem latchHeader_legal (hw : h.wf = true) (h64 : h.is64 = decide (s.params.aw = .w48)) :
    latchHeader h s = .ok () (withHeader h s) := by
  have hbo := Nat.not_lt.2 (byteOrder_of_wf hw).1
  rw [latchHeader, run_bind, run_draw]
  dsimp only
  rw [run_bind, run_modify]
  dsimp only
  rw [if_neg hbo, run_bind, run_get]
  dsimp only
  rw [if_neg (not_not.2 h64), if_neg (by rw [hw]; decide)]
  rfl

theorem hasSize_of_some {v : U64} (hw : h.wf = true) (hs : h.size = some v) : h.hasSize = true := by
  cases hb : h.hasSize with
  | true => rfl
  | false => exact absurd ((byteOrder_of_wf hw).2.2 hb) (by rw [hs]; exact nofun)

theorem resizeTarget_legal (h1 : 1 ≤ s.hdrSize.toNat) (h2 : s.hdrSize.toNat < 2 ^ s.params.aw.bits) :
    resizeTarget s = .ok () { s with bsSize := max s.bsSize s.hdrSize.toNat } := by
  have hlegal : ¬(s.hdrSize = 0 ∨ 2 ^ s.params.aw.bits ≤ s.hdrSize.toNat) := by
    rintro (h0 | hbig)
    · rw [h0] at h1
      exact absurd h1 (by decide)
    · omega
  rw [resizeTarget, run_bind, run_get]
  dsimp only
  rw [if_neg hlegal]
  by_cases hgrow : s.bsSize < s.hdrSize.toNat
  · rw [if_pos hgrow, Nat.max_eq_right (Nat.le_of_lt hgrow)]
    rfl
  · rw [if_neg hgrow, Nat.max_eq_left (Nat.not_lt.1 hgrow)]
    rfl

theorem resizeTarget_illegal (hbad : s.hdrSize.toNat = 0 ∨ 2 ^ s.params.aw.bits ≤ s.hdrSize.toNat) :
    resizeTarget s = .error (.precondition .malformed) s := by
  have hillegal : s.hdrSize = 0 ∨ 2 ^ s.params.aw.bits ≤ s.hdrSize.toNat :=
    hbad.imp_left fun h0 => BitVec.eq_of_toNat_eq h0
  rw [resizeTarget, run_bind, run_get]
  dsimp only
  rw [if_pos hillegal]
  rfl

/-- Where the header of a DESERIALIZE leads once the target has its size. -/
def openMerge (h : Header) : M Unit :=
  if h.isIdList then do
    readIdCount
    modify fun s => { s with nb := 0, eos := false, phase := .ids }
  else modify fun s => { s with nb := 0, eos := false, phase := .tokens }

theorem headerMerge_legal (hw : h.wf = true) (h64 : h.is64 = decide (s.params.aw = .w48)) (hl : legalSize h s) :
    headerMerge h s = openMerge h { withHeader h s with bsSize := grownSize h s } := by
  rw [headerMerge, run_bind_ok (latchHeader_legal hw h64)]
  cases hs : h.size with
  | none =>
    have hsize : { withHeader h s with bsSize := grownSize h s } = withHeader h s := by
      rw [grownSize, hs]
      rfl
    rw [if_neg (by rw [(byteOrder_of_wf hw).2.1 hs]; exact Bool.false_ne_true), hsize]
    rfl
  | some v =>
    obtain ⟨h1, h2⟩ := hl v hs
    have hdr : (withHeader h s).hdrSize = v := by
      show h.size.getD _ = v
      rw [hs]
      rfl
    have hrun := resizeTarget_legal (s := withHeader h s) (by rwa [hdr]) (by rwa [hdr])
    have hsize : grownSize h s = max (withHeader h s).bsSize (withHeader h s).hdrSize.toNat := by
      rw [hdr, grownSize, hs]
      rfl
    rw [if_pos (hasSize_of_some hw hs), run_bind_ok hrun, hsize]
    rfl

theorem headerMerge_illegalSize (hw : h.wf = true) (h64 : h.is64 = decide (s.params.aw = .w48)) {v : U64}
    (hs : h.size = some v) (hbad : v.toNat = 0 ∨ 2 ^ s.params.aw.bits ≤ v.toNat) :
    headerMerge h s = .error (.precondition .malformed) (withHeader h s) := by
  have hdr : (withHeader h s).hdrSize = v := by
    show h.size.getD _ = v
    rw [hs]
    rfl
  have hrun := resizeTarget_illegal (s := withHeader h s) (by rwa [hdr])
  rw [headerMerge, run_bind_ok (latchHeader_legal hw h64), if_pos (hasSize_of_some hw hs), run_bind_error hrun]

end Parse

/-! ### The count of ids -/

theorem readIdCount_ok {s : State} (hfit : s.stream.pos + 4 ≤ s.stream.bufSize.toNat) :
    readIdCount s =
      .ok ()
        { s with
          stream := { s.stream with pos := s.stream.pos + 4 }
          idCnt := BitVec.ofNat 32 (bytesValue s.stream.sbo (s.stream.buf.readList s.stream.pos 4)) } := by
  rw [readIdCount, run_bind_ok (run_onStream_ok ((run_getU32 _).trans (if_neg (by omega))))]
  rfl

theorem readIdCount_error {s : State} (hfit : ¬s.stream.pos + 4 ≤ s.stream.bufSize.toNat) :
    readIdCount s = .error (.precondition .buffer) s := by
  rw [readIdCount, run_bind_error (run_onStream_error ((run_getU32 _).trans (if_pos (by omega))))]

/-! ### The engine of an operation -/

/-- The iterator and the bit reader as `it_init()` leaves them, the header being latched (44_stream_iterator.md
rule R372). -/
def iteratorBegun (h : Header) (s : State) : State :=
  { withHeader h s with
    nb := 0, eos := false, monoCnt := 0, stream := { (withHeader h s).stream with racc := 0, ravail := 0 } }

section Engine

variable {h : Header} {s : State}

theorem beginOperation_op {op : SetOp} (hr : s.rangeSet = false) (hop : setOpOf s.op = some op) :
    beginOperation s =
      .ok ()
        { s with
          count := 0
          bs := if op = .assign then s.bs.clear s.params else s.bs
          eop := if op = .assign then .or else op } := by
  by_cases ha : op = .assign
  · subst ha
    simp [beginOperation, run_bind, hr, hop]
  · simp [beginOperation, run_bind, hr, hop, ha]

theorem beginOperation_range (hr : s.rangeSet = true) :
    beginOperation s =
      .ok ()
        { s with
          count := 0
          bs := premaskStore s.params.totalBlocks s.draws s.rangeFrom.toNat s.rangeTo.toNat s.bs
          eop := .and
          draws := s.draws + 2 } := by
  simp [beginOperation, premask, run_bind, hr]

/-- Where the header of an operation leads once the iterator has begun. -/
def openOperate (h : Header) : M Unit := do
  if h.isIdList then
    readIdCount
    modify fun s => { s with st := .listIds }
  else modify fun s => { s with st := .blocks }
  beginOperation
  modify fun s => { s with phase := if h.isIdList then .ids else .tokens }

theorem headerOperate_legal (hw : h.wf = true) (h64 : h.is64 = decide (s.params.aw = .w48)) :
    headerOperate h s = openOperate h (iteratorBegun h s) := by
  rw [headerOperate, run_bind_ok (latchHeader_legal hw h64)]
  rfl

theorem openOperate_tokens (hid : h.isIdList = false) :
    openOperate h s =
      (do beginOperation; modify fun s => { s with phase := .tokens } : M Unit) { s with st := .blocks } := by
  simp only [openOperate, hid, Bool.false_eq_true, if_false]
  rfl

theorem openOperate_ids (hid : h.isIdList = true) (hfit : s.stream.pos + 4 ≤ s.stream.bufSize.toNat) :
    openOperate h s =
      (do beginOperation; modify fun s => { s with phase := .ids } : M Unit)
        { s with
          stream := { s.stream with pos := s.stream.pos + 4 }
          idCnt := BitVec.ofNat 32 (bytesValue s.stream.sbo (s.stream.buf.readList s.stream.pos 4))
          st := .listIds } := by
  simp only [openOperate, hid, if_true]
  rw [run_bind_ok (readIdCount_ok hfit)]
  rfl

theorem openOperate_cut (hid : h.isIdList = true) (hfit : ¬s.stream.pos + 4 ≤ s.stream.bufSize.toNat) :
    openOperate h s = .error (.precondition .buffer) s := by
  simp only [openOperate, hid, if_true]
  rw [run_bind_error (readIdCount_error hfit)]

/-- The header of an operation up to the engine's start, ST being set. -/
theorem headerOperate_tokens (hw : h.wf = true) (h64 : h.is64 = decide (s.params.aw = .w48))
    (hid : h.isIdList = false) :
    headerOperate h s =
      (do beginOperation; modify fun s => { s with phase := .tokens } : M Unit)
        { iteratorBegun h s with st := .blocks } :=
  (headerOperate_legal hw h64).trans (openOperate_tokens hid)

theorem headerOperate_ids (hw : h.wf = true) (h64 : h.is64 = decide (s.params.aw = .w48))
    (hid : h.isIdList = true) (hfit : s.stream.pos + 4 ≤ s.stream.bufSize.toNat) :
    headerOperate h s =
      (do beginOperation; modify fun s => { s with phase := .ids } : M Unit)
        { iteratorBegun h s with
          stream := { (iteratorBegun h s).stream with pos := s.stream.pos + 4 }
          idCnt := listedCount h s
          st := .listIds } :=
  (headerOperate_legal hw h64).trans (openOperate_ids (s := iteratorBegun h s) hid hfit)

theorem headerOperate_idsCut (hw : h.wf = true) (h64 : h.is64 = decide (s.params.aw = .w48))
    (hid : h.isIdList = true) (hfit : ¬s.stream.pos + 4 ≤ s.stream.bufSize.toNat) :
    headerOperate h s = .error (.precondition .buffer) (iteratorBegun h s) :=
  (headerOperate_legal hw h64).trans (openOperate_cut (s := iteratorBegun h s) hid hfit)

/-- ASSIGN empties every block, and every other operation leaves the target (45_operation_engine.md rule R432). -/
theorem assign_store (hw : s.bs.wf s.params = true) (op : SetOp) :
    (op ≠ .assign → (if op = .assign then s.bs.clear s.params else s.bs) = s.bs) ∧
      (op = .assign → ∀ j, (if op = .assign then s.bs.clear s.params else s.bs).at' j = .empty) := by
  refine ⟨fun h => if_neg h, fun h j => ?_⟩
  rw [if_pos h, BlockStore.clear, BlockStore.at_zero (BlockStore.wf_rising hw)]
  split
  · rfl
  · exact BlockStore.at_top hw (by omega)

end Engine

/-! ### The obligations -/

section Exec

variable {h : Header} {s : State}

theorem settle_congr {m m' : M Unit} {s' : State} (h : m s = m' s') : settle m s = settle m' s' := by
  unfold settle
  rw [h]

theorem exec_header_merge (hb : s.runState = .busy) (hp : s.phase = .header) (hc : s.cmd = 3) :
    exec (.streamHeader h) s = .next (settle (headerMerge h) s) := by
  show Host.Outcome.next (settle (headerToken h) s) = _
  have hrun : headerToken h s = headerMerge h s := by
    rw [headerToken, run_bind, run_get]
    dsimp only
    rw [if_neg (by simp [hb, hp]), if_pos hc]
  rw [settle_congr hrun]

theorem exec_header_operate (hb : s.runState = .busy) (hp : s.phase = .header) (hc : s.cmd = 4 ∨ s.cmd = 5) :
    exec (.streamHeader h) s = .next (settle (headerOperate h) s) := by
  show Host.Outcome.next (settle (headerToken h) s) = _
  have hrun : headerToken h s = headerOperate h s := by
    rw [headerToken, run_bind, run_get]
    dsimp only
    rw [if_neg (by simp [hb, hp]), if_neg (cmd_ne_three hc), if_pos hc]
  rw [settle_congr hrun]

theorem errorMemories_header (e : Raise) (hp : s.phase = .header) : errorMemories e s = s := by
  unfold errorMemories
  rw [hp]

/-- An error of the header phase changes no memory (60_exceptions.md rule R530). -/
theorem takeError_header (e : Raise) (hp : s.phase = .header) :
    Reports e (takeError e s) ∧ (takeError e s).bs = s.bs ∧ (takeError e s).bsSize = s.bsSize ∧
      (takeError e s).stream.buf = s.stream.buf := by
  refine ⟨reports_takeError e s, ?_⟩
  rw [takeError, errorMemories_header e hp]
  exact ⟨rfl, rfl, rfl⟩

theorem exec_header_illegalSize (hw : h.wf = true) (h64 : h.is64 = decide (s.params.aw = .w48))
    (hb : s.runState = .busy) (hp : s.phase = .header) (hc : s.cmd = 3) {v : U64} (hs : h.size = some v)
    (hbad : v.toNat = 0 ∨ 2 ^ s.params.aw.bits ≤ v.toNat) :
    ∃ t, exec (.streamHeader h) s = .next t ∧ Reports (.precondition .malformed) t ∧
      t.bs = s.bs ∧ t.bsSize = s.bsSize ∧ t.stream.buf = s.stream.buf := by
  refine ⟨_, ?_, takeError_header (s := withHeader h s) _ hp⟩
  rw [exec_header_merge hb hp hc, settle_error (headerMerge_illegalSize hw h64 hs hbad)]

end Exec

/-- Settles O32: the fields, the size, then the walk. -/
theorem headerMerges : Obligations.HeaderMerges := by
  intro h s hw h64 hid hb hp hc
  refine ⟨fun hl => ?_, fun v hs hbad => exec_header_illegalSize hw h64 hb hp hc hs hbad⟩
  have hopen : ∀ u, openMerge h u = .ok () { u with nb := 0, eos := false, phase := .tokens } := fun u => by
    rw [openMerge, if_neg (by rw [hid]; exact Bool.false_ne_true)]
    rfl
  rw [exec_header_merge hb hp hc, settle_ok ((headerMerge_legal hw h64 hl).trans (hopen _))]

/-- Settles O34: the iterator, then the engine with EOP. -/
theorem headerOperates : Obligations.HeaderOperates := by
  intro h s op hw h64 hid hb hp hc hr hop hbs
  refine ⟨if op = .assign then s.bs.clear s.params else s.bs, ?_, assign_store hbs op⟩
  have hrun := beginOperation_op (s := { iteratorBegun h s with st := .blocks }) hr hop
  rw [exec_header_operate hb hp (.inl hc), settle_ok ((headerOperate_tokens hw h64 hid).trans (run_bind_ok hrun))]
  rfl

/-- Settles O35: the engine begins with the mask of the range. -/
theorem headerMasks : Obligations.HeaderMasks := by
  intro h s hw h64 hid hb hp hc hr hft ht hbs
  refine ⟨premaskStore s.params.totalBlocks (s.draws + 1) s.rangeFrom.toNat s.rangeTo.toNat s.bs, s.draws + 3,
    ?_, masked_premaskStore _ hbs hft ht⟩
  have hrun := beginOperation_range (s := { iteratorBegun h s with st := .blocks }) hr
  rw [exec_header_operate hb hp (.inr hc), settle_ok ((headerOperate_tokens hw h64 hid).trans (run_bind_ok hrun))]
  rfl

/-- Settles O36: the count of ids is read after the header's own work on the target, before the engine's. -/
theorem headerIdList : Obligations.HeaderIdList := by
  intro h s hw h64 hid hb hp hbs n fits
  have hopen : ∀ u, openMerge h u =
      (do readIdCount; modify fun s => { s with nb := 0, eos := false, phase := .ids } : M Unit) u := fun u => by
    rw [openMerge, if_pos hid]
  refine ⟨fun hc hcut hl => ?_, fun hc hfit hl => ?_,
    fun v hc hs hbad => exec_header_illegalSize hw h64 hb hp hc hs hbad, fun op hc hfit hr hop => ?_,
    fun hc hfit hr hft ht => ?_⟩
  · by_cases hc3 : s.cmd = 3
    · have hrun := readIdCount_error (s := { withHeader h s with bsSize := grownSize h s }) hcut
      obtain ⟨hrep, hbs, hsize, hbuf⟩ := takeError_header (.precondition .buffer)
        (s := { withHeader h s with bsSize := grownSize h s }) hp
      refine ⟨_, ?_, hrep, hbs, by rw [if_pos hc3, hsize], hbuf⟩
      rw [exec_header_merge hb hp hc3,
        settle_error ((headerMerge_legal hw h64 (hl hc3)).trans ((hopen _).trans (run_bind_error hrun)))]
    · obtain ⟨hrep, hbs, hsize, hbuf⟩ := takeError_header (.precondition .buffer) (s := iteratorBegun h s) hp
      refine ⟨_, ?_, hrep, hbs, by rw [if_neg hc3, hsize]; rfl, hbuf⟩
      rw [exec_header_operate hb hp (hc.resolve_left hc3), settle_error (headerOperate_idsCut hw h64 hid hcut)]
  · have hrun := readIdCount_ok (s := { withHeader h s with bsSize := grownSize h s }) hfit
    rw [exec_header_merge hb hp hc,
      settle_ok ((headerMerge_legal hw h64 hl).trans ((hopen _).trans (run_bind_ok hrun)))]
    rfl
  · refine ⟨if op = .assign then s.bs.clear s.params else s.bs, ?_, assign_store hbs op⟩
    rw [exec_header_operate hb hp (.inl hc),
      settle_ok ((headerOperate_ids hw h64 hid hfit).trans (run_bind_ok (beginOperation_op hr hop)))]
    rfl
  · refine ⟨premaskStore s.params.totalBlocks (s.draws + 1) s.rangeFrom.toNat s.rangeTo.toNat s.bs,
      s.draws + 3, ?_, masked_premaskStore _ hbs hft ht⟩
    rw [exec_header_operate hb hp (.inr hc),
      settle_ok ((headerOperate_ids hw h64 hid hfit).trans (run_bind_ok (beginOperation_range hr)))]
    rfl

end Sys2Proof.Machine

/-! Id lists, streams that end too early, and the end of an operation (43_block_decoder.md rule R306,
45_operation_engine.md rules R455, R460, R465, R470). The content-level effect of an operation on a stretch of
blocks is one relation, `Operated`: zero runs, the blocks of a vector and the finalization all make a step of it. -/

namespace Sys2Proof.Machine

/-! ### An operation on a stretch of blocks -/

/-- The operation has been applied, with the vector `B`, to the blocks from NB before to NB after; nothing but
those blocks, COUNT, NB and the draws has changed. -/
structure Operated (B : Nat → Content) (s t : State) : Prop where
  frame : t = { s with bs := t.bs, count := t.count, nb := t.nb, draws := t.draws }
  nb_le : s.nb ≤ t.nb
  store : t.bs.wf s.params = true
  written : ∀ j, s.nb ≤ j → j < t.nb → t.bs.content j = (applyOp s.eop (s.bs.content j) (B j)).1
  kept : ∀ j, j < s.nb ∨ t.nb ≤ j → t.bs.at' j = s.bs.at' j
  counted : t.count = s.count +
    BitVec.ofNat 64 (sumBlocks (fun j => (applyOp s.eop (s.bs.content j) (B j)).2) s.nb (t.nb - s.nb))

section Operated

variable {B : Nat → Content} {s t u : State}

theorem content_of_at {bs bs' : BlockStore} {j : Nat} (h : bs'.at' j = bs.at' j) : bs'.content j = bs.content j := by
  rw [BlockStore.content, h, BlockStore.content]

theorem Operated.refl (hw : s.bs.wf s.params = true) : Operated B s s where
  frame := rfl
  nb_le := Nat.le_refl _
  store := hw
  written _ h1 h2 := absurd (Nat.lt_of_le_of_lt h1 h2) (Nat.lt_irrefl _)
  kept _ _ := rfl
  counted := by simp [sumBlocks_zero]

theorem Operated.trans (h1 : Operated B s t) (h2 : Operated B t u) : Operated B s u := by
  obtain ⟨f1, n1, w1, c1, k1, m1⟩ := h1
  obtain ⟨f2, n2, w2, c2, k2, m2⟩ := h2
  have hp : t.params = s.params := by rw [f1]
  have he : t.eop = s.eop := by rw [f1]
  rw [hp] at w2
  rw [he] at c2 m2
  refine ⟨by rw [f2, f1], Nat.le_trans n1 n2, w2, fun j hs hu => ?_, fun j hj => ?_, ?_⟩
  · by_cases hj : j < t.nb
    · rw [content_of_at (k2 j (.inl hj)), c1 j hs hj]
    · rw [c2 j (by omega) hu, content_of_at (k1 j (.inr (by omega)))]
  · rw [k2 j (by omega), k1 j (by omega)]
  · have hcongr : sumBlocks (fun j => (applyOp s.eop (t.bs.content j) (B j)).2) t.nb (u.nb - t.nb) =
        sumBlocks (fun j => (applyOp s.eop (s.bs.content j) (B j)).2) t.nb (u.nb - t.nb) :=
      sumBlocks_congr fun j hj _ => by rw [content_of_at (k1 j (.inr hj))]
    rw [m2, m1, hcongr, show u.nb - s.nb = (t.nb - s.nb) + (u.nb - t.nb) by omega, sumBlocks_add,
      BitVec.ofNat_add, BitVec.add_assoc, show s.nb + (t.nb - s.nb) = t.nb by omega]

/-! ### The steps of an operation -/

/-- A zero run of `n` blocks at NB has been operated with, and NB stands behind it (rule R450). -/
def zeroRunDone (n : Nat) (s : State) : State :=
  { s with
    count := s.count + BitVec.ofNat 64 (zeroRunCount s.eop s.bs s.nb n)
    bs := zeroRunStore s.eop s.nb n s.bs
    nb := s.nb + n }

theorem doZeroRun_run (n : Nat) (s : State) : doZeroRun s.nb n s = .ok () { zeroRunDone n s with nb := s.nb } := rfl

theorem operated_zeroRun {n : Nat} (hw : s.bs.wf s.params = true) (ho : s.eop ≠ .assign)
    (hn : s.nb + n ≤ s.params.totalBlocks) (hB : ∀ j, s.nb ≤ j → j < s.nb + n → B j = Content.zero) :
    Operated B s (zeroRunDone n s) where
  frame := rfl
  nb_le := Nat.le_add_right _ _
  store := BlockStore.wf_zeroRunStore hw s.eop hn
  written j h1 h2 := by
    rw [hB j h1 h2]
    exact BlockStore.content_zeroRunStore (BlockStore.wf_rising hw) ho s.nb n ⟨h1, h2⟩
  kept j hj := BlockStore.at_zeroRunStore (BlockStore.wf_rising hw) s.eop s.nb n hj
  counted := by
    show s.count + _ = s.count + _
    rw [BlockStore.zeroRunCount_eq, show (zeroRunDone n s).nb - s.nb = n from Nat.add_sub_cancel_left _ _]
    exact congrArg (fun k => s.count + BitVec.ofNat 64 k) (sumBlocks_congr fun j h1 h2 => by rw [hB j h1 h2])

/-- The block at NB has been operated with (rule R440). -/
def blockDone (c : Content) (s : State) : State :=
  { s with
    count := s.count + BitVec.ofNat 64 (applyOp s.eop (s.bs.content s.nb) c).2
    bs := if isCounting s.eop then s.bs
      else s.bs.put s.nb (.drawn s.draws (applyOp s.eop (s.bs.content s.nb) c).1)
    nb := s.nb + 1
    draws := s.draws + 1 }

theorem doContent_run (c : Content) (s : State) : doContent c s = .ok () (blockDone c s) := by
  by_cases hc : isCounting s.eop = true
  · simp [doContent, blockDone, addCount, run_bind, hc]
  · simp [doContent, blockDone, run_bind, hc, applyOp_writing_snd (Bool.eq_false_iff.2 hc)]

theorem operated_block {c : Content} (hw : s.bs.wf s.params = true) (hn : s.nb < s.params.totalBlocks)
    (hB : B s.nb = c) : Operated B s (blockDone c s) := by
  have hat : ∀ j, (blockDone c s).bs.at' j =
      if isCounting s.eop = false ∧ j = s.nb then .drawn s.draws (applyOp s.eop (s.bs.content s.nb) c).1
      else s.bs.at' j := fun j => by
    by_cases hc : isCounting s.eop = true
    · simp [blockDone, hc]
    · simp [blockDone, hc, BlockStore.at_put (BlockStore.wf_rising hw)]
  refine ⟨rfl, Nat.le_succ _, ?_, fun j h1 h2 => ?_, fun j hj => ?_, ?_⟩
  · show (if isCounting s.eop = true then s.bs else _).wf s.params = true
    split
    · exact hw
    · exact BlockStore.wf_put hw hn rfl
  · obtain rfl : j = s.nb := Nat.le_antisymm (Nat.le_of_lt_succ h2) h1
    rw [BlockStore.content, hat, hB]
    by_cases hc : isCounting s.eop = true
    · rw [if_neg (by simp [hc]), applyOp_counting_fst hc, BlockStore.content]
    · rw [if_pos ⟨Bool.eq_false_iff.2 hc, rfl⟩]
      rfl
  · rw [hat, if_neg]
    rintro ⟨-, rfl⟩
    exact hj.elim (Nat.lt_irrefl _) (Nat.not_succ_le_self _)
  · show s.count + _ = s.count + _
    rw [show (blockDone c s).nb - s.nb = 1 from Nat.add_sub_cancel_left _ _, sumBlocks_succ, sumBlocks_zero, hB]
    rfl

theorem zeroRunDone_zero (s : State) : zeroRunDone 0 s = s := by
  have hstore : zeroRunStore s.eop s.nb 0 s.bs = s.bs := by
    by_cases ho : s.eop = .and
    · rw [ho]
      exact if_pos (Nat.le_refl _)
    · exact zeroRunStore.eq_2 s.eop s.nb 0 s.bs ho
  rw [zeroRunDone, BlockStore.zeroRunCount_eq, sumBlocks_zero, hstore]
  simp

/-- `finalize(NB)` is a zero run over the rest of the block space (rule R460). -/
theorem finalize_run (hn : s.nb ≤ s.params.totalBlocks) :
    finalize s = .ok () { zeroRunDone (s.params.totalBlocks - s.nb) s with nb := s.nb } := by
  rw [finalize, run_bind, run_get]
  dsimp only
  by_cases h : s.nb < s.params.totalBlocks
  · rw [if_pos h]
    rfl
  · rw [if_neg h, show s.params.totalBlocks - s.nb = 0 by omega, zeroRunDone_zero]
    rfl

end Operated

/-! ### The end by EOS -/

/-- Settles O42: the tail is operated with as a zero run, whether EOS was read or the block space is exhausted. -/
theorem operationFinalizes : Obligations.OperationFinalizes := by
  intro s hh hb hp hc hst ho hw hn hend n total
  have hop := operated_zeroRun (B := fun _ => Content.zero) (n := n) hw ho (by omega) fun _ _ _ => rfl
  have hcount : (zeroRunDone n s).count = total := by
    rw [hop.counted, show (zeroRunDone n s).nb - s.nb = n from Nat.add_sub_cancel_left _ _]
  have hends : ∀ j, (s.nb ≤ j → j < s.params.totalBlocks → (zeroRunDone n s).bs.content j =
      (applyOp s.eop (s.bs.content j) Content.zero).1) ∧ (j < s.nb → (zeroRunDone n s).bs.at' j = s.bs.at' j) :=
    fun j => ⟨fun h1 h2 => hop.written j h1 (by show j < s.nb + n; omega), fun h => hop.kept j (.inl h)⟩
  have hfin : ∀ u, u = { s with eos := true } → (do finalize; finishOperation : M Unit) u =
      .ok () (finished (Config.freeResult s.draws) (if s.rangeSet then 0 else total)
        { s with eos := true, bs := (zeroRunDone n s).bs, count := total }) := by
    rintro u rfl
    rw [run_bind_ok (finalize_run (s := { s with eos := true }) hn), finishOperation_run, ← hcount]
    rfl
  have hstep : step s = .next (finished (Config.freeResult s.draws) (if s.rangeSet then 0 else total)
      { s with eos := true, bs := (zeroRunDone n s).bs, count := total }) := by
    rw [step_operate hh hb hp (cmd_ne_three hc), operateStep]
    by_cases he : s.eos = true
    · rw [if_pos he, settled_ok (hfin s (by rw [← he]))]
    · obtain ⟨hx, hnb⟩ := hend.resolve_left he
      have hnext : nextEnd s = .ok () { s with eos := true } := by
        simp [nextEnd, requireSt, run_bind, hst, setEos]
      rw [if_neg he, if_neg (by rw [hx]; exact Bool.false_ne_true), if_pos (Nat.le_of_eq hnb.symm),
        settled_ok ((run_bind_ok hnext).trans (hfin _ rfl))]
  exact ⟨_, _, _, _, _, hstep, hends⟩

end Sys2Proof.Machine

/-! ### The ids of an ID_LIST stream -/

namespace Sys2Proof.Machine

section Ids

variable {ids : List U32} {s t : State}

theorem getU32_of_ahead {c : Stream} {id : U32} (h : Ahead (wireBytes c.sbo 4 id.toNat) c) :
    getU32 c = .ok id (c.skip 4) := by
  obtain ⟨hfits, hbytes⟩ := h
  rw [length_wireBytes] at hfits hbytes
  rw [run_getU32, if_neg (by omega), hbytes, bytesValue_wireBytes,
    show id.toNat % 256 ^ 4 = id.toNat from Nat.mod_eq_of_lt id.isLt, BitVec.ofNat_toNat, BitVec.setWidth_eq]
  rfl

theorem getU32_cut {c : Stream} (h : c.bufSize.toNat < c.pos + 4) : getU32 c = .error (.precondition .buffer) c := by
  rw [run_getU32, if_pos h]

theorem ahead_ids {c : Stream} (hbytes : c.buf.readList c.pos (4 * ids.length) = wireU32s c.sbo ids)
    (hfits : c.pos + 4 * ids.length ≤ c.bufSize.toNat) : Ahead (wireU32s c.sbo ids) c :=
  ⟨by rwa [length_wireU32s], by rwa [length_wireU32s]⟩

theorem ahead_id {c : Stream} {id : U32} (h : Ahead (wireU32s c.sbo (id :: ids)) c) :
    getU32 c = .ok id (c.skip 4) ∧ Ahead (wireU32s c.sbo ids) (c.skip 4) := by
  have hcons : wireU32s c.sbo (id :: ids) = wireBytes c.sbo 4 id.toNat ++ wireU32s c.sbo ids := List.flatMap_cons
  rw [hcons] at h
  have hrest := h.right
  rw [length_wireBytes] at hrest
  exact ⟨getU32_of_ahead h.left, hrest⟩

theorem listedBit_cons (id : U32) (j p : Nat) :
    listedBit (id :: ids) j p = (decide (id.toNat = 65536 * j + p) || listedBit ids j p) := rfl

theorem id_block_lt (p : Params) (id : U32) : id.toNat / 65536 < p.totalBlocks := by
  have hid := id.isLt
  have htot : 65536 ≤ p.totalBlocks := by
    unfold Params.totalBlocks
    cases p.aw <;> decide
  omega

theorem getLsbD_bitAt_id (id : U32) {j p : Nat} (hp : p < 65536) :
    (j = id.toNat / 65536 ∧ (bitAt (id.toNat % 65536)).getLsbD p = true) ↔ id.toNat = 65536 * j + p := by
  rw [getLsbD_bitAt (Nat.mod_lt _ (by decide)), decide_eq_true_eq]
  omega

/-! ### DESERIALIZE (rule R306) -/

/-- These ids have been read and merged. -/
structure ListMerged (ids : List U32) (s t : State) : Prop where
  frame : t = { s with
    stream := s.stream.skip (4 * ids.length)
    lastId := t.lastId
    idCnt := s.idCnt - BitVec.ofNat 32 ids.length
    bs := t.bs
    draws := t.draws }
  store : t.bs.wf s.params = true
  bits : ∀ j p, p < 65536 →
    (t.bs.content j).getLsbD p = ((s.bs.content j).getLsbD p || listedBit ids j p)

/-- One id has been read and merged. -/
def idMerged (id : U32) (s : State) : State :=
  { s with
    stream := s.stream.skip 4
    draws := s.draws + 1
    lastId := id
    idCnt := s.idCnt - 1
    bs := s.bs.putContent s.draws (id.toNat / 65536)
      (s.bs.content (id.toNat / 65536) ||| bitAt (id.toNat % 65536)) }

theorem getLsbD_idMerged (hw : s.bs.wf s.params = true) (id : U32) {j p : Nat} (hp : p < 65536) :
    ((idMerged id s).bs.content j).getLsbD p =
      ((s.bs.content j).getLsbD p || decide (id.toNat = 65536 * j + p)) := by
  rw [idMerged, content_putContent (BlockStore.wf_rising hw)]
  by_cases hj : j = id.toNat / 65536
  · rw [if_pos hj, BitVec.getLsbD_or, ← hj]
    exact congrArg _ (Bool.eq_iff_iff.2 ((and_iff_right hj).symm.trans
      ((getLsbD_bitAt_id id hp).trans decide_eq_true_iff.symm)))
  · rw [if_neg hj, decide_eq_false fun h => hj ((getLsbD_bitAt_id id hp).2 h).1, Bool.or_false]

theorem ListMerged.cons {id : U32} (hw : s.bs.wf s.params = true) (h : ListMerged ids (idMerged id s) t) :
    ListMerged (id :: ids) s t := by
  obtain ⟨hframe, hstore, hbits⟩ := h
  refine ⟨?_, hstore, fun j p hp => ?_⟩
  · rw [hframe]
    simp only [idMerged, Stream.skip_skip, List.length_cons, BitVec.ofNat_add, State.mk.injEq, true_and, and_true]
    exact ⟨by rw [Nat.mul_add, Nat.add_comm], by rw [BitVec.sub_sub, BitVec.add_comm]; rfl⟩
  · rw [hbits j p hp, getLsbD_idMerged hw id hp, listedBit_cons, Bool.or_assoc]

theorem mergeIds_succ {id : U32} (hr : getU32 s.stream = .ok id (s.stream.skip 4)) (n : Nat) :
    mergeIds (n + 1) s = mergeIds n (idMerged id s) := by
  rw [mergeIds, run_bind_ok (run_onStream_ok hr)]
  rfl

theorem mergeIds_append (h : Ahead (wireU32s s.stream.sbo ids) s.stream) (hw : s.bs.wf s.params = true) (n : Nat) :
    ∃ t, ListMerged ids s t ∧ mergeIds (ids.length + n) s = mergeIds n t := by
  induction ids generalizing s with
  | nil =>
    refine ⟨s, ⟨?_, hw, fun j p _ => (Bool.or_false _).symm⟩, by rw [List.length_nil, Nat.zero_add]⟩
    simp [Stream.skip]
  | cons id ids ih =>
    obtain ⟨hr, hrest⟩ := ahead_id h
    obtain ⟨t, hm, ht⟩ := ih (s := idMerged id s) hrest (wf_putContent hw _ (id_block_lt _ id) _)
    exact ⟨t, hm.cons hw, by rw [List.length_cons, Nat.add_right_comm, mergeIds_succ hr, ht]⟩

/-- Settles O37: the ids one by one, then EOS. -/
theorem idListMerges : Obligations.IdListMerges := by
  intro s ids hh hb hp hc hw hn hbytes hfits
  obtain ⟨t, hm, ht⟩ := mergeIds_append (ahead_ids hbytes hfits) hw 0
  obtain ⟨hframe, -, hbits⟩ := hm
  rw [Nat.add_zero] at ht
  have hrun : (do mergeIds s.idCnt.toNat; finishBytes : M Unit) s = finishBytes { t with eos := true } := by
    rw [hn, run_bind_ok (ht.trans rfl)]
    rfl
  have hpos : t.stream.pos = s.stream.pos + 4 * ids.length := by rw [hframe]; rfl
  have hlt : s.stream.pos + 4 * ids.length < 2 ^ 64 := Nat.lt_of_le_of_lt hfits s.stream.bufSize.isLt
  refine ⟨finished (BitVec.ofNat 64 t.stream.pos) (Config.freeResult t.draws) { t with eos := true }, ?_, rfl, rfl,
    ?_, ?_, ?_, ?_, ?_, hbits⟩
  · rw [step_ids hh hb hp, idStep, if_pos hc]
    exact settled_ok (hrun.trans (finishBytes_run _))
  · show t.idCnt = 0
    rw [hframe]
    show s.idCnt - _ = 0
    rw [← hn, BitVec.ofNat_toNat, BitVec.setWidth_eq, BitVec.sub_self]
    rfl
  · show (BitVec.ofNat 64 t.stream.pos).toNat = _
    rw [hpos, BitVec.toNat_ofNat, Nat.mod_eq_of_lt hlt]
  · show t.stream.buf = _
    rw [hframe]
    rfl
  · show t.bsSize = _
    rw [hframe]
  · rw [hframe]
    exact ⟨rfl, rfl, rfl, rfl, rfl, rfl, rfl, rfl, rfl⟩

end Ids

end Sys2Proof.Machine

/-! Operations on id lists and streams that end too early (45_operation_engine.md rule R470, 20_memory.md rules R62,
R66). The vector of an id list is its blocks in rising order; the engine's walk over it is `Operated` block by block,
and the ways it can be left early leave blocks on which the operation does nothing. -/

namespace Sys2Proof.Machine

/-! ### The ids read by an operation -/

section ReadIds

variable {ids : List U32} {s t : State}

/-- These ids have been read. -/
def ListRead (ids : List U32) (s t : State) : Prop :=
  t = { s with stream := s.stream.skip (4 * ids.length), lastId := t.lastId, idCnt := t.idCnt }

theorem readIds_succ {id : U32} (hr : getU32 s.stream = .ok id (s.stream.skip 4)) (n : Nat) :
    readIds (n + 1) s = (do let ids ← readIds n; return id :: ids : M (List U32))
      { s with stream := s.stream.skip 4, lastId := id, idCnt := s.idCnt - 1 } := by
  rw [readIds, run_bind_ok (run_onStream_ok hr)]
  rfl

theorem readIds_append (h : Ahead (wireU32s s.stream.sbo ids) s.stream) :
    ∃ t, ListRead ids s t ∧
      ∀ n, readIds (ids.length + n) s = (do let r ← readIds n; return ids ++ r : M (List U32)) t := by
  induction ids generalizing s with
  | nil =>
    refine ⟨s, by simp [ListRead, Stream.skip], fun n => ?_⟩
    rw [List.length_nil, Nat.zero_add, run_bind]
    split <;> next h => exact h
  | cons id ids ih =>
    obtain ⟨hr, hrest⟩ := ahead_id h
    obtain ⟨t, hframe, ht⟩ := ih (s := { s with stream := s.stream.skip 4, lastId := id, idCnt := s.idCnt - 1 }) hrest
    refine ⟨t, ?_, fun n => ?_⟩
    · rw [ListRead] at hframe ⊢
      rw [hframe]
      simp only [Stream.skip_skip, List.length_cons]
      rw [Nat.mul_add, Nat.add_comm]
    · rw [List.length_cons, Nat.add_right_comm, readIds_succ hr, run_bind, ht n, run_bind, run_bind]
      cases readIds n t <;> rfl

/-- The ids of a whole list, then EOS. -/
theorem readIds_all (h : Ahead (wireU32s s.stream.sbo ids) s.stream) :
    ∃ lastId idCnt, readIds ids.length s = .ok ids
      { s with stream := s.stream.skip (4 * ids.length), lastId := lastId, idCnt := idCnt, eos := true } := by
  obtain ⟨t, ht, hrun⟩ := readIds_append h
  refine ⟨t.lastId, t.idCnt, ?_⟩
  rw [← Nat.add_zero ids.length, hrun 0, run_bind]
  show EStateM.Result.ok (ids ++ []) _ = _
  rw [List.append_nil]
  rw [ListRead] at ht
  rw [ht]
  rfl

end ReadIds

/-! ### The vector of an id list -/

/-- Rising block indices from `lo` on, all below `top`. -/
def Ascends (top lo : Nat) : List (Nat × Content) → Prop
  | [] => True
  | (j, _) :: r => lo ≤ j ∧ j < top ∧ Ascends top (j + 1) r

/-- The block of a vector given as its non-zero blocks. -/
def listedAt (j : Nat) : List (Nat × Content) → Content
  | [] => Content.zero
  | (k, c) :: r => if k = j then c else listedAt j r

section Vector

variable {top lo j : Nat} {v : List (Nat × Content)}

theorem Ascends.mono {lo' : Nat} (h : Ascends top lo v) (hle : lo' ≤ lo) : Ascends top lo' v := by
  cases v with
  | nil => trivial
  | cons e r => exact ⟨Nat.le_trans hle h.1, h.2⟩

theorem listedAt_below (h : Ascends top lo v) (hj : j < lo) : listedAt j v = Content.zero := by
  induction v generalizing lo with
  | nil => rfl
  | cons e r ih =>
    obtain ⟨h1, -, h3⟩ := h
    rw [listedAt, if_neg (by omega), ih h3 (by omega)]

theorem ascends_addListed (h : Ascends top lo v) (hlo : lo ≤ j) (hj : j < top) (p : Nat) :
    Ascends top lo (addListed j p v) := by
  induction v generalizing lo with
  | nil => exact ⟨hlo, hj, trivial⟩
  | cons e r ih =>
    obtain ⟨h1, h2, h3⟩ := h
    rw [addListed]
    split
    · next hlt => exact ⟨hlo, hj, hlt, h2, h3⟩
    · next hge =>
      split
      · exact ⟨h1, h2, h3⟩
      · next hne => exact ⟨h1, h2, ih h3 (by omega)⟩

theorem listedAt_addListed {p : Nat} (h : Ascends top lo v) (k : Nat) :
    listedAt k (addListed j p v) = if k = j then listedAt k v ||| bitAt p else listedAt k v := by
  induction v generalizing lo with
  | nil =>
    simp only [addListed, listedAt, Content.zero_or, eq_comm]
  | cons e r ih =>
    obtain ⟨-, -, h3⟩ := h
    rw [addListed]
    split
    · next hlt =>
      rw [listedAt]
      by_cases hk : k = j
      · subst hk
        rw [if_pos rfl, if_pos rfl, listedAt, if_neg (by omega), listedAt_below h3 (by omega), Content.zero_or]
      · rw [if_neg (Ne.symm hk), if_neg hk]
    · split
      · next hje =>
        subst hje
        rw [listedAt, listedAt]
        by_cases hk : k = e.1
        · rw [if_pos hk.symm, if_pos hk, if_pos hk.symm]
        · rw [if_neg (Ne.symm hk), if_neg hk, if_neg (Ne.symm hk)]
      · next hne =>
        rw [listedAt, listedAt, ih h3]
        by_cases hk : e.1 = k
        · rw [if_pos hk, if_neg (by omega), if_pos hk]
        · rw [if_neg hk, if_neg hk]

theorem ascends_foldl (par : Params) (ids : List U32) (h : Ascends par.totalBlocks 0 v) :
    Ascends par.totalBlocks 0
        (ids.foldl (fun v id => addListed (id.toNat / 65536) (id.toNat % 65536) v) v) ∧
      ∀ j p, p < 65536 →
        (listedAt j (ids.foldl (fun v id => addListed (id.toNat / 65536) (id.toNat % 65536) v) v)).getLsbD p =
          ((listedAt j v).getLsbD p || listedBit ids j p) := by
  induction ids generalizing v with
  | nil => exact ⟨h, fun j p _ => (Bool.or_false _).symm⟩
  | cons id ids ih =>
    obtain ⟨h1, h2⟩ := ih (ascends_addListed h (Nat.zero_le _) (id_block_lt par id) (id.toNat % 65536))
    refine ⟨h1, fun j p hp => ?_⟩
    rw [List.foldl_cons, h2 j p hp, listedBit_cons, ← Bool.or_assoc, listedAt_addListed h]
    congr 1
    by_cases hj : j = id.toNat / 65536
    · rw [if_pos hj, BitVec.getLsbD_or]
      exact congrArg _ (Bool.eq_iff_iff.2 ((and_iff_right hj).symm.trans
        ((getLsbD_bitAt_id id hp).trans decide_eq_true_iff.symm)))
    · rw [if_neg hj, decide_eq_false fun h => hj ((getLsbD_bitAt_id id hp).2 h).1, Bool.or_false]

/-- The vector of an id list has exactly the listed bits (rule R470). -/
theorem listedVector_spec (par : Params) (ids : List U32) {B : Nat → Content}
    (hB : ∀ j p, p < 65536 → (B j).getLsbD p = listedBit ids j p) :
    Ascends par.totalBlocks 0 (listedVector ids) ∧ ∀ j, B j = listedAt j (listedVector ids) := by
  obtain ⟨h1, h2⟩ := ascends_foldl par ids (v := []) trivial
  refine ⟨h1, fun j => BitVec.eq_of_getLsbD_eq fun p hp => ?_⟩
  rw [hB j p hp, listedVector, h2 j p hp, listedAt, Content.getLsbD_zero, Bool.false_or]

end Vector

/-! ### The walk over a vector -/

section Walk

variable {B : Nat → Content} {s t : State}

/-- The block at NB and the rest of the vector. -/
def doBlocks (c : Content) (r : List (Nat × Content)) : M Bool := do
  doContent c
  if exitsNow (← get) then return true
  doVector r

theorem doBlocks_run (c : Content) (r : List (Nat × Content)) (s : State) :
    doBlocks c r s =
      if exitsNow (blockDone c s) = true then .ok true (blockDone c s) else doVector r (blockDone c s) := by
  rw [doBlocks, run_bind_ok (doContent_run c s), run_bind, run_get]
  dsimp only
  split <;> rfl

theorem doVector_run {j : Nat} (c : Content) (r : List (Nat × Content)) (hj : s.nb ≤ j) :
    doVector ((j, c) :: r) s =
      if s.nb < j ∧ exitsNow (zeroRunDone (j - s.nb) s) = true then .ok true (zeroRunDone (j - s.nb) s)
      else doBlocks c r (zeroRunDone (j - s.nb) s) := by
  have hnb : s.nb + (j - s.nb) = j := by omega
  rw [doVector, run_bind, run_get]
  dsimp only
  by_cases hlt : s.nb < j
  · have hdone : { { zeroRunDone (j - s.nb) s with nb := s.nb } with nb := j } = zeroRunDone (j - s.nb) s := by
      rw [zeroRunDone, hnb]
    rw [if_pos hlt, run_bind_ok (doZeroRun_run _ s), run_bind, run_modify]
    dsimp only
    rw [hdone, run_bind, run_get]
    dsimp only
    by_cases hx : exitsNow (zeroRunDone (j - s.nb) s) = true
    · rw [if_pos hx, if_pos ⟨hlt, hx⟩]
      rfl
    · rw [if_neg hx, if_neg (fun h => hx h.2)]
      rfl
  · rw [if_neg hlt, if_neg (fun h => hlt h.1), show j - s.nb = 0 by omega, zeroRunDone_zero]
    rfl

/-- What the walk over a vector comes to: the operation has been applied up to NB, and the vector has no block
behind, or the walk was left early. -/
structure Walked (B : Nat → Content) (early : Bool) (s t : State) : Prop where
  operated : Operated B s t
  nb_le_total : t.nb ≤ s.params.totalBlocks
  rest : early = false → ∀ j, t.nb ≤ j → B j = Content.zero
  exits : early = true → exitsNow t = true

theorem Walked.of_operated {early : Bool} {u : State} (h : Operated B s t) (hw : Walked B early t u) :
    Walked B early s u :=
  ⟨h.trans hw.operated, by have hp : t.params = s.params := by rw [h.frame]
                           rw [← hp]; exact hw.nb_le_total, hw.rest, hw.exits⟩

theorem doVector_walked {v : List (Nat × Content)} (hv : Ascends s.params.totalBlocks s.nb v)
    (hB : ∀ j, s.nb ≤ j → B j = listedAt j v) (hw : s.bs.wf s.params = true) (ho : s.eop ≠ .assign)
    (hn : s.nb ≤ s.params.totalBlocks) : ∃ early t, doVector v s = .ok early t ∧ Walked B early s t := by
  induction v generalizing s with
  | nil => exact ⟨false, s, rfl, .refl hw, hn, fun _ => hB, nofun⟩
  | cons e r ih =>
    obtain ⟨j, c⟩ := e
    obtain ⟨hj, htop, hr⟩ := hv
    have hnb : s.nb + (j - s.nb) = j := by omega
    have hzero : Operated B s (zeroRunDone (j - s.nb) s) := operated_zeroRun hw ho (by omega) fun k h1 h2 => by
      rw [hB k h1, listedAt, if_neg (by omega), listedAt_below hr (by omega)]
    have hznb : (zeroRunDone (j - s.nb) s).nb = j := hnb
    rw [doVector_run c r hj]
    generalize hz : zeroRunDone (j - s.nb) s = z at hzero hznb
    obtain ⟨hp, he⟩ : z.params = s.params ∧ z.eop = s.eop := by rw [hzero.frame]; exact ⟨rfl, rfl⟩
    have hzw : z.bs.wf z.params = true := by rw [hp]; exact hzero.store
    split
    · next hx => exact ⟨true, z, rfl, hzero, by rw [hznb]; omega, nofun, fun _ => hx.2⟩
    · have hblock : Operated B z (blockDone c z) := operated_block hzw (by rw [hp, hznb]; exact htop) (by
        rw [hznb, hB j hj, listedAt, if_pos rfl])
      rw [doBlocks_run]
      split
      · next hx =>
        exact ⟨true, _, rfl, hzero.trans hblock, by show z.nb + 1 ≤ _; omega, nofun, fun _ => hx⟩
      · obtain ⟨early, t, hrun, hwalk⟩ := ih (s := blockDone c z)
          (by show Ascends z.params.totalBlocks (z.nb + 1) r; rw [hp, hznb]; exact hr)
          (fun k hk => by
            have hk : z.nb + 1 ≤ k := hk
            rw [hB k (by omega), listedAt, if_neg (by omega)])
          (by show _ = true; exact hblock.store) (by show z.eop ≠ _; rw [he]; exact ho)
          (by show z.nb + 1 ≤ z.params.totalBlocks; rw [hp]; omega)
        exact ⟨early, t, hrun, hwalk.of_operated (hzero.trans hblock)⟩

end Walk

/-! ### The end of an operation on an id list -/

section EndOfList

variable {B : Nat → Content} {s t u : State} {ids : List U32} {early : Bool}

/-- After the walk the tail is finalized, unless the walk was left early (rules R455, R460, R465). -/
def endList (early : Bool) (t : State) : State :=
  if early then t else { zeroRunDone (t.params.totalBlocks - t.nb) t with nb := t.nb }

theorem doIdList_run (hread : readIds s.idCnt.toNat s = .ok ids u) (hwalk : doVector (listedVector ids) u = .ok early t)
    (hn : t.nb ≤ t.params.totalBlocks) : doIdList s = finishOperation (endList early t) := by
  rw [doIdList, run_bind, run_get]
  dsimp only
  rw [run_bind_ok hread, run_bind_ok hwalk]
  cases early with
  | true => rfl
  | false =>
    show (do finalize; finishOperation : M Unit) t = _
    rw [run_bind_ok (finalize_run hn)]
    rfl

/-- What an operation with the vector `B` adds to COUNT over the blocks below `n`. -/
def sumTo (B : Nat → Content) (s : State) (n : Nat) : Nat :=
  sumBlocks (fun j => (applyOp s.eop (s.bs.content j) (B j)).2) 0 n

theorem sumTo_mono {m n : Nat} (h : m ≤ n) : sumTo B s m ≤ sumTo B s n := by
  rw [show n = m + (n - m) by omega, sumTo, sumTo, sumBlocks_add]
  exact Nat.le_add_right _ _

theorem applyOp_snd_le (op : SetOp) (a b : Content) : (applyOp op a b).2 ≤ 65536 := by
  cases hc : isCounting op with
  | false => exact (applyOp_writing_snd hc a b).trans_le (Nat.zero_le _)
  | true => cases op <;> first | exact popcount_le _ | exact Bool.noConfusion hc

theorem sumBlocks_le {f : Nat → Nat} {c : Nat} (h : ∀ j, f j ≤ c) (lo n : Nat) : sumBlocks f lo n ≤ n * c := by
  induction n generalizing lo with
  | zero => exact Nat.zero_le _
  | succ n ih =>
    rw [sumBlocks_succ, Nat.add_mul, Nat.one_mul, Nat.add_comm]
    exact Nat.add_le_add (ih _) (h lo)

theorem sumTo_lt (B : Nat → Content) (s : State) : sumTo B s s.params.totalBlocks < 2 ^ 64 := by
  have hle := sumBlocks_le (fun j => applyOp_snd_le s.eop (s.bs.content j) (B j)) 0 s.params.totalBlocks
  have hmul := totalBlocks_mul s.params
  have hbits : 2 ^ s.params.aw.bits < 2 ^ 64 := by cases s.params.aw <;> decide
  rw [sumTo]
  omega

theorem Operated.count_eq (h : Operated B s t) (hn : s.nb = 0) (hc : s.count = 0) :
    t.count = BitVec.ofNat 64 (sumTo B s t.nb) := by
  rw [h.counted, hc, hn, Nat.sub_zero]
  exact BitVec.zero_add _

/-- Only a counting operation has a count. -/
theorem counting_of_sumTo {n : Nat} (h : sumTo B s n ≠ 0) : isCounting s.eop = true := by
  by_contra hc
  have hc := Bool.eq_false_iff.2 hc
  refine h ?_
  rw [sumTo, sumBlocks_congr (g := fun _ => 0) fun j _ _ => applyOp_writing_snd hc _ _, sumBlocks_const, Nat.mul_zero]

/-- The state of an operation on an id list when its walk has ended: every block has the result of the operation,
and COUNT is the whole sum, or, when the walk was left early, the sum below NB. -/
structure ListDone (B : Nat → Content) (early : Bool) (s t : State) : Prop where
  frame : t = { s with bs := t.bs, count := t.count, nb := t.nb, draws := t.draws }
  written : ∀ j, j < s.params.totalBlocks → t.bs.content j = (applyOp s.eop (s.bs.content j) (B j)).1
  counted : ∃ n, n ≤ s.params.totalBlocks ∧ t.count = BitVec.ofNat 64 (sumTo B s n) ∧
    (early = false → n = s.params.totalBlocks)
  exits : early = true → exitsNow t = true

theorem listDone_early (h : Walked B true s t) (hn : s.nb = 0) (hc : s.count = 0)
    (hr : s.rangeSet = true → s.eop = .and ∧ ∀ j, s.rangeTo.toNat / 65536 < j → s.bs.content j = Content.zero) :
    ListDone B true s t := by
  obtain ⟨hop, htop, -, hexits⟩ := h
  have hcount := hop.count_eq hn hc
  obtain ⟨hframe, -, -, hwritten, hkept, -⟩ := hop
  refine ⟨hframe, fun j hj => ?_, ⟨t.nb, htop, hcount, nofun⟩, hexits⟩
  by_cases hlt : j < t.nb
  · exact hwritten j (by omega) hlt
  · rw [content_of_at (hkept j (.inr (by omega)))]
    rcases exitsNow_iff.1 (hexits rfl) with ⟨-, hne⟩ | ⟨hset, hto⟩
    · have hsum : sumTo B s t.nb ≠ 0 := fun h => hne (by rw [hcount, h]; rfl)
      rw [applyOp_counting_fst (counting_of_sumTo hsum)]
    · obtain ⟨hset, hto⟩ : s.rangeSet = true ∧ s.rangeTo.toNat / 65536 < t.nb := by
        rw [hframe] at hset hto
        exact ⟨hset, hto⟩
      obtain ⟨heop, hzero⟩ := hr hset
      rw [hzero j (by omega), heop]
      exact (Content.zero_and _).symm

theorem listDone_finalized (h : Walked B false s t) (ho : s.eop ≠ .assign) (hn : s.nb = 0) (hc : s.count = 0) :
    ListDone B false s (endList false t) := by
  obtain ⟨hop, htop, hrest, -⟩ := h
  obtain ⟨hp, he⟩ : t.params = s.params ∧ t.eop = s.eop := by rw [hop.frame]; exact ⟨rfl, rfl⟩
  have htail : Operated B t (zeroRunDone (t.params.totalBlocks - t.nb) t) :=
    operated_zeroRun (by rw [hp]; exact hop.store) (by rw [he]; exact ho) (by rw [hp]; omega)
      fun j h1 _ => hrest rfl j h1
  have hall := hop.trans htail
  have hnb : (zeroRunDone (t.params.totalBlocks - t.nb) t).nb = s.params.totalBlocks := by
    show t.nb + (t.params.totalBlocks - t.nb) = _
    rw [hp]
    omega
  refine ⟨?_, fun j hj => hall.written j (by omega) (by rw [hnb]; exact hj),
    ⟨_, Nat.le_refl _, ?_, fun _ => rfl⟩, nofun⟩
  · rw [endList, if_neg Bool.false_ne_true, hall.frame]
  · rw [← hnb]
    exact hall.count_eq hn hc

theorem Walked.listDone (h : Walked B early s t) (ho : s.eop ≠ .assign) (hn : s.nb = 0) (hc : s.count = 0)
    (hr : s.rangeSet = true → s.eop = .and ∧ ∀ j, s.rangeTo.toNat / 65536 < j → s.bs.content j = Content.zero) :
    ListDone B early s (endList early t) := by
  cases early with
  | true => exact listDone_early h hn hc hr
  | false => exact listDone_finalized h ho hn hc

/-- The count reported without a range (rules R455, R503). -/
theorem ListDone.count (h : ListDone B early s t) (hr : s.rangeSet = false) :
    (exitOnOne s.op = false → t.count = BitVec.ofNat 64 (sumTo B s s.params.totalBlocks)) ∧
      (exitOnOne s.op = true → (t.count = 0 ↔ sumTo B s s.params.totalBlocks = 0) ∧
        t.count.toNat ≤ sumTo B s s.params.totalBlocks) := by
  obtain ⟨hframe, -, ⟨n, hn, hcount, hall⟩, hexits⟩ := h
  have hlt := sumTo_lt B s
  have hmono := sumTo_mono (B := B) (s := s) hn
  have htoNat : t.count.toNat = sumTo B s n := by
    rw [hcount, BitVec.toNat_ofNat, Nat.mod_eq_of_lt (by omega)]
  have hexit : early = true → exitOnOne s.op = true ∧ t.count ≠ 0 := fun he => by
    have hset : t.rangeSet = false := by rw [hframe]; exact hr
    have hop : t.op = s.op := by rw [hframe]
    rw [← hop]
    exact (exitsNow_iff.1 (hexits he)).resolve_right fun h => by rw [hset] at h; exact Bool.false_ne_true h.1
  refine ⟨fun hx => ?_, fun hx => ⟨⟨fun h0 => ?_, fun h0 => ?_⟩, by omega⟩⟩
  · have he : early = false := by
      by_contra he
      exact Bool.false_ne_true (hx.symm.trans (hexit (Bool.not_eq_false early ▸ he)).1)
    rw [hcount, hall he]
  · have he : early = false := by
      by_contra he
      exact (hexit (Bool.not_eq_false early ▸ he)).2 h0
    rw [h0, hall he] at htoNat
    exact htoNat.symm
  · rw [hcount, show sumTo B s n = 0 by omega]
    rfl

end EndOfList

/-- Settles O38: the ids are read, the vector they list is walked, and the tail finalized. -/
theorem idListOperates : Obligations.IdListOperates := by
  intro s ids B hh hb hp hc hst ho hn hcnt hw hr hids hbytes hfits hB full
  obtain ⟨lastId, idCnt, hread⟩ := readIds_all (ahead_ids hbytes hfits)
  obtain ⟨hv, hBv⟩ := listedVector_spec s.params ids hB
  generalize hu : { s with
    stream := s.stream.skip (4 * ids.length), lastId := lastId, idCnt := idCnt, eos := true } = u at hread
  rw [← hids] at hread
  obtain ⟨hup, hunb⟩ : u.params = s.params ∧ u.nb = 0 := by rw [← hu]; exact ⟨rfl, hn⟩
  obtain ⟨early, t, hwalk, hwalked⟩ := doVector_walked (s := u) (by rw [hup, hunb]; exact hv) (fun j _ => hBv j)
    (by rw [← hu]; exact hw) (by rw [← hu]; exact ho) (by rw [hunb]; exact Nat.zero_le _)
  have htp : t.params = u.params := by rw [hwalked.operated.frame]
  have hrun := doIdList_run hread hwalk (by rw [htp]; exact hwalked.nb_le_total)
  have hdone := hwalked.listDone (by rw [← hu]; exact ho) hunb (by rw [← hu]; exact hcnt) (by rw [← hu]; exact hr)
  generalize endList early t = v at hrun hdone
  have hcount := hdone.count
  obtain ⟨hframe, hwritten, -, -⟩ := hdone
  subst hu
  refine ⟨finished (Config.freeResult v.draws) (if v.rangeSet then 0 else v.count) v, ?_, rfl, ?_, ?_, ?_, ?_,
    fun h => ?_, fun h => ?_, fun h => ?_, hwritten⟩
  · have hc3 : s.cmd ≠ 3 := cmd_ne_three (hc.imp And.left And.left)
    rw [step_ids hh hb hp, idStep, if_neg hc3]
    exact settled_ok (hrun.trans (finishOperation_run v))
  · show v.eos = true
    rw [hframe]
  · show v.stream.buf = _
    rw [hframe]
    rfl
  · show v.bsSize = _
    rw [hframe]
  · rw [hframe]
    exact ⟨rfl, rfl, rfl, rfl, rfl, rfl, rfl, rfl, rfl⟩
  · have hset : v.rangeSet = true := by rw [hframe]; exact h
    exact if_pos hset
  all_goals
    have hset : ¬v.rangeSet = true := by rw [hframe]; exact Bool.eq_false_iff.1 h
    have hres : (finished (Config.freeResult v.draws) (if v.rangeSet then 0 else v.count) v).resultCount = v.count :=
      if_neg hset
    rw [hres]
  · exact (hcount h).1
  · exact (hcount h).2

/-! ### Streams that end too early -/

section Truncated

variable {s t : State}

/-- What a reader of the header leaves: POS and SBO moved, nothing else; and the buffer's end is its only error. -/
def HeaderReads {α : Type} (x : Codec α) : Prop :=
  ∀ c : Stream, match x c with
    | .ok _ d => d = { c with pos := d.pos, sbo := d.sbo }
    | .error e d => e = .precondition .buffer ∧ d = { c with pos := d.pos, sbo := d.sbo }

theorem HeaderReads.pure {α : Type} (a : α) : HeaderReads (Pure.pure a : Codec α) := fun _ => rfl

theorem HeaderReads.bind {α β : Type} {x : Codec α} {f : α → Codec β} (hx : HeaderReads x)
    (hf : ∀ a, HeaderReads (f a)) : HeaderReads (x >>= f) := fun c => by
  have h1 := hx c
  rw [run_bind]
  cases hr : x c with
  | error e d =>
    rw [hr] at h1
    exact h1
  | ok a d =>
    rw [hr] at h1
    have h2 := hf a d
    dsimp only
    cases hr2 : f a d with
    | error e d2 =>
      rw [hr2] at h2
      exact ⟨h2.1, by rw [h2.2, h1]⟩
    | ok b d2 =>
      rw [hr2] at h2
      show d2 = _
      rw [h2, h1]

theorem HeaderReads.ite {α : Type} {p : Prop} [Decidable p] {x y : Codec α} (hx : HeaderReads x)
    (hy : HeaderReads y) : HeaderReads (if p then x else y) := by
  split
  · exact hx
  · exact hy

/-- A choice of readers whose result the same rest uses. -/
theorem HeaderReads.iteBind {α β : Type} {p : Prop} [Decidable p] {x y : Codec α} {f : α → Codec β}
    (hx : HeaderReads x) (hy : HeaderReads y) (hf : ∀ a, HeaderReads (f a)) :
    HeaderReads (if p then x >>= f else y >>= f) := .ite (hx.bind hf) (hy.bind hf)

theorem headerReads_getUint (n : Nat) : HeaderReads (getUint n) := fun c => by
  rw [run_getUint]
  by_cases h : c.bufSize.toNat < c.pos + n
  · rw [if_pos h]
    exact ⟨rfl, rfl⟩
  · rw [if_neg h]

theorem headerReads_getU8 : HeaderReads getU8 := (headerReads_getUint 1).bind fun _ => .pure _
theorem headerReads_getU16 : HeaderReads getU16 := (headerReads_getUint 2).bind fun _ => .pure _
theorem headerReads_getU32 : HeaderReads getU32 := (headerReads_getUint 4).bind fun _ => .pure _
theorem headerReads_getU64 : HeaderReads getU64 := (headerReads_getUint 8).bind fun _ => .pure _

theorem headerReads_setSbo (b : Bool) : HeaderReads (setSbo b) := fun _ => rfl

theorem headerReads_gapLevels :
    HeaderReads (do return some ⟨← getU16, ← getU16, ← getU16, ← getU16⟩ : Codec (Option GapTable)) :=
  headerReads_getU16.bind fun _ => headerReads_getU16.bind fun _ => headerReads_getU16.bind fun _ =>
    headerReads_getU16.bind fun _ => .pure _

theorem headerReads_readHeader (aw : AddrWidth) : HeaderReads (readHeader aw) := by
  refine headerReads_getU8.bind fun flags => (headerReads_setSbo _).bind fun _ => ?_
  refine .iteBind (.pure _) (headerReads_getU8.bind fun _ => .pure _) fun bo => .ite (.pure _) ?_
  refine (headerReads_setSbo _).bind fun _ => .ite (.pure _) ?_
  refine .iteBind headerReads_gapLevels (.pure _) fun gl => ?_
  refine .iteBind (.ite ?_ ?_) (.pure _) fun _ => .pure _
  · exact headerReads_getU64.bind fun _ => .pure _
  · exact headerReads_getU32.bind fun _ => .pure _

theorem headerReads_decodeHeader (aw : AddrWidth) : HeaderReads (decodeHeader aw) :=
  (headerReads_readHeader aw).bind fun _ => .pure _

theorem decodeHeader_error {aw : AddrWidth} {c d : Stream} {e : Raise} (h : decodeHeader aw c = .error e d) :
    e = .precondition .buffer ∧ d = { c with pos := d.pos, sbo := d.sbo } := by
  have hr := headerReads_decodeHeader aw c
  rwa [h] at hr

/-- An error of a body that walks tokens or ids opens at most the block at NB (60_exceptions.md rule R530). -/
theorem errorMemories_body (e : Raise) (hp : s.phase = .ids ∨ s.phase = .tokens) :
    errorMemories e s = s ∨ s.nb < s.params.totalBlocks ∧
      errorMemories e s = { s with bs := s.bs.put s.nb (.opened (s.draws + 3) false (s.draws + 4)) } := by
  have hbody : errorMemories e s = match e with
      | .serialFormat _ => s
      | .precondition _ => if s.nb < s.params.totalBlocks then
          { s with bs := s.bs.put s.nb (.opened (s.draws + 3) false (s.draws + 4)) } else s := by
    rcases hp with hp | hp <;> simp only [errorMemories, hp] <;> rfl
  rw [hbody]
  cases e with
  | serialFormat c => exact .inl rfl
  | precondition r =>
    by_cases hn : s.nb < s.params.totalBlocks
    · exact .inr ⟨hn, if_pos hn⟩
    · exact .inl (if_neg hn)

/-- An error of such a body leaves every block but the one at NB as it was. -/
theorem takeError_body {e : Raise} (hp : s.phase = .ids ∨ s.phase = .tokens) (hw : s.bs.wf s.params = true) :
    Reports e (takeError e s) ∧ (takeError e s).nb = s.nb ∧ (takeError e s).bsSize = s.bsSize ∧
      (takeError e s).stream.buf = s.stream.buf ∧
      ∀ j, j ≠ s.nb → (takeError e s).bs.content j = s.bs.content j := by
  refine ⟨reports_takeError e s, ?_⟩
  rw [takeError]
  rcases errorMemories_body e hp with hm | ⟨-, hm⟩ <;> rw [hm]
  · exact ⟨rfl, rfl, rfl, fun _ _ => rfl⟩
  · refine ⟨rfl, rfl, rfl, fun j hj => ?_⟩
    show (s.bs.put _ _).content j = _
    rw [BlockStore.content_put (BlockStore.wf_rising hw), if_neg hj]

theorem mergeIds_cut (h : s.stream.bufSize.toNat < s.stream.pos + 4) (n : Nat) :
    mergeIds (n + 1) s = .error (.precondition .buffer) s := by
  rw [mergeIds, run_bind_error (run_onStream_error (getU32_cut h))]

theorem readIds_cut (h : s.stream.bufSize.toNat < s.stream.pos + 4) (n : Nat) :
    readIds (n + 1) s = .error (.precondition .buffer) s := by
  rw [readIds, run_bind_error (run_onStream_error (getU32_cut h))]

/-- What the list step leaves when the buffer ends inside the list: the ids before the end have been read, and, by a
DESERIALIZE, merged. -/
theorem idStep_cut {ids : List U32} (hp : s.phase = .ids) (hw : s.bs.wf s.params = true)
    (hlen : ids.length < s.idCnt.toNat) (h : Ahead (wireU32s s.stream.sbo ids) s.stream)
    (hend : s.stream.bufSize.toNat < s.stream.pos + 4 * (ids.length + 1)) :
    ∃ t, idStep s = .next (takeError (.precondition .buffer) t) ∧ t.phase = .ids ∧ t.params = s.params ∧
      t.bs.wf t.params = true ∧ t.nb = s.nb ∧ t.bsSize = s.bsSize ∧ t.stream.buf = s.stream.buf ∧
      ∀ j p, p < 65536 → (t.bs.content j).getLsbD p =
        ((s.bs.content j).getLsbD p || (decide (s.cmd = 3) && listedBit ids j p)) := by
  obtain ⟨n, hn⟩ : ∃ n, s.idCnt.toNat = ids.length + (n + 1) := ⟨s.idCnt.toNat - ids.length - 1, by omega⟩
  have hcut : (s.stream.skip (4 * ids.length)).bufSize.toNat < (s.stream.skip (4 * ids.length)).pos + 4 := by
    show s.stream.bufSize.toNat < s.stream.pos + 4 * ids.length + 4
    omega
  rw [idStep, hn]
  by_cases hc : s.cmd = 3
  · obtain ⟨t, hm, ht⟩ := mergeIds_append h hw (n + 1)
    obtain ⟨hframe, hstore, hbits⟩ := hm
    have hrun := ht.trans (mergeIds_cut (by rw [hframe]; exact hcut) n)
    refine ⟨t, ?_, ?_, by rw [hframe], ?_, by rw [hframe], by rw [hframe], by rw [hframe]; rfl, fun j p hp => ?_⟩
    · rw [if_pos hc]
      exact congrArg Host.Outcome.next (settle_error (run_bind_error hrun))
    · rw [hframe]
      exact hp
    · rw [show t.params = s.params by rw [hframe]]
      exact hstore
    · rw [hbits j p hp, decide_eq_true hc, Bool.true_and]
  · obtain ⟨t, hframe, ht⟩ := readIds_append h
    rw [ListRead] at hframe
    have hrun : readIds (ids.length + (n + 1)) s = .error (.precondition .buffer) t :=
      (ht (n + 1)).trans (run_bind_error (readIds_cut (by rw [hframe]; exact hcut) n))
    refine ⟨t, ?_, ?_, by rw [hframe], by rw [hframe]; exact hw, by rw [hframe], by rw [hframe],
      by rw [hframe]; rfl, fun j p _ => ?_⟩
    · rw [if_neg hc]
      refine congrArg Host.Outcome.next (settle_error ?_)
      rw [doIdList, run_bind, run_get]
      dsimp only
      rw [hn, run_bind_error hrun]
    · rw [hframe]
      exact hp
    · rw [decide_eq_false hc, Bool.false_and, Bool.or_false, hframe]

end Truncated

/-- Settles O40: the buffer's end is the only error of the readers; it is taken in the phase they read in. -/
theorem truncatedStream : Obligations.TruncatedStream := by
  refine ⟨fun c d e h => ?_, fun s d e hh hb hp h => ?_, fun s ids hh hb hp hw hlen hbytes hfits hend => ?_,
    fun s d e hh hwalk hn hw h => ?_⟩
  · have hr := reads_decodeToken c
    rw [h] at hr
    obtain ⟨he, hd, -⟩ := hr
    exact ⟨he, by rw [hd], by rw [hd]⟩
  · obtain ⟨rfl, hd⟩ := decodeHeader_error h
    obtain ⟨hrep, hbs, hsize, hbuf⟩ := takeError_header (s := { s with stream := d }) (.precondition .buffer) hp
    refine ⟨_, ?_, hrep, hbs, hsize, hbuf.trans ?_⟩
    · rw [step_header hh hb hp, headerStep, fetchThen, h]
    · show d.buf = _
      rw [hd]
  · obtain ⟨t, hstep, htp, htpar, htw, hnb, hsize, hbuf, hbits⟩ :=
      idStep_cut hp hw hlen (ahead_ids hbytes hfits) hend
    obtain ⟨hrep, hnb', hsize', hbuf', hkept⟩ := takeError_body (e := .precondition .buffer) (.inl htp) htw
    refine ⟨_, (step_ids hh hb hp).trans hstep, hrep, hnb'.trans hnb, hsize'.trans hsize, hbuf'.trans hbuf,
      fun j p hj hp => ?_⟩
    rw [hkept j (by rw [hnb]; exact hj), hbits j p hp]
  · obtain ⟨rfl, bt, hstep⟩ := tokenStep_error h
    have hr := reads_decodeToken s.stream
    rw [h] at hr
    have hp : s.phase = .tokens := hwalk.elim (fun h => h.2.1) fun h => h.1.2.1
    obtain ⟨hrep, hnb, hsize, hbuf, hkept⟩ := takeError_body (e := .precondition .buffer)
      (s := { s with blockType := bt, stream := d }) (.inr hp) hw
    refine ⟨_, (step_token hh hwalk hn).trans hstep, hrep, hnb, hsize, hbuf.trans ?_, hkept⟩
    show d.buf = _
    rw [hr.2.1]

end Sys2Proof.Machine

/-! What a serialize command keeps (46_host_commands.md rules R500, R501, 42_block_encoder.md rule R270). One
relation says what the encoder may change, part by part, however a part ends; the store is touched only by
SERIALIZE_DESTROY, which empties blocks it has written. -/

namespace Sys2Proof.Machine

/-! ### A result of a computation -/

/-- However the computation has ended, its state is related to the one it is compared with. -/
def Leads {α : Type} (R : State → State → Prop) (s : State) : EStateM.Result Raise State α → Prop
  | .ok _ t => R s t
  | .error _ t => R s t

section Leads

variable {R : State → State → Prop} {α β : Type} {s t : State}

theorem Leads.of_closed {x : M α} (h : Closed R x) (s : State) : Leads R s (x s) := by
  have hs := h s
  revert hs
  cases x s <;> exact id

theorem Leads.trans (hR : Path R) (h : R s t) {r : EStateM.Result Raise State α} (hr : Leads R t r) : Leads R s r := by
  cases r <;> exact hR.trans h hr

theorem Leads.bind (hR : Path R) {x : M α} {f : α → M β} (hx : Leads R s (x s))
    (hf : ∀ a t, R s t → Leads R t (f a t)) : Leads R s ((x >>= f) s) := by
  rw [run_bind]
  cases h : x s with
  | error e t =>
    rw [h] at hx
    exact hx
  | ok a t =>
    rw [h] at hx
    exact Leads.trans hR hx (hf a t hx)

theorem Closed.of_leads {x : M α} (h : ∀ s, Leads R s (x s)) : Closed R x := fun s => by
  have hs := h s
  revert hs
  cases x s <;> exact id

end Leads

/-! ### What a serialize command may change -/

/-- From `s` to `t` a serialize command has run a part of its body: the host's registers, BS.size and what belongs
to decoding are as before, NB and the store stay in range, and SERIALIZE has not touched the store. -/
structure Serial (destroy : Bool) (s t : State) : Prop where
  frame : t = { s with
    stream := t.stream
    hdrFlags := t.hdrFlags
    d0 := t.d0
    bc := t.bc
    bitGaps := t.bitGaps
    nzSize := t.nzSize
    bestTag := t.bestTag
    bestCost := t.bestCost
    pos0 := t.pos0
    rolled := t.rolled
    tempBlock := t.tempBlock
    idxArr := t.idxArr
    nb := t.nb
    bs := t.bs
    draws := t.draws }
  writes : Writes s.stream t.stream
  inRange : s.bs.wf s.params = true ∧ s.nb ≤ s.params.totalBlocks →
    t.bs.wf s.params = true ∧ t.nb ≤ s.params.totalBlocks
  kept : destroy = false → t.bs = s.bs

section Serial

variable {destroy : Bool} {s t : State}

theorem Serial.params (h : Serial destroy s t) : t.params = s.params := by rw [h.frame]

theorem path_serial (destroy : Bool) : Path (Serial destroy) where
  refl s := ⟨rfl, path_writes.refl _, id, fun _ => rfl⟩
  trans := by
    intro s t u h1 h2
    have hp := h1.params
    obtain ⟨f1, w1, r1, k1⟩ := h1
    obtain ⟨f2, w2, r2, k2⟩ := h2
    rw [hp] at r2
    exact ⟨by rw [f2, f1], path_writes.trans w1 w2, fun h => r2 (r1 h), fun h => (k2 h).trans (k1 h)⟩

theorem serial_of_emits (h : Emits s t) : Serial destroy s t := by
  obtain ⟨hframe, hwrites⟩ := h
  obtain ⟨hbs, hnb⟩ : t.bs = s.bs ∧ t.nb = s.nb := by rw [hframe]; exact ⟨rfl, rfl⟩
  refine ⟨?_, hwrites, fun h => by rw [hbs, hnb]; exact h, fun _ => hbs⟩
  rw [hbs, hnb]
  exact hframe

theorem serial_emitter {α : Type} {x : M α} (h : Emitter x) : Closed (Serial destroy) x := fun s => by
  have hs := h s
  revert hs
  cases x s <;> exact serial_of_emits

theorem serial_setNb {j : Nat} (hj : j ≤ s.params.totalBlocks) : Leads (Serial destroy) s (setNb j s) :=
  ⟨rfl, path_writes.refl _, fun h => ⟨h.1, hj⟩, fun _ => rfl⟩

theorem serial_setNb_return {j : Nat} (hj : j ≤ s.params.totalBlocks) (r : Turn) :
    Leads (Serial destroy) s ((do setNb j; return r : M Turn) s) :=
  Leads.bind (path_serial _) (serial_setNb hj) fun _ t _ => (path_serial destroy).refl t

theorem serial_destroyBlocks {nb n : Nat} (h : nb + n ≤ s.params.totalBlocks) :
    Leads (Serial destroy) s (destroyBlocks destroy nb n s) := by
  cases destroy with
  | false => exact (path_serial false).refl s
  | true =>
    exact ⟨rfl, path_writes.refl _, fun hs => ⟨BlockStore.wf_zero hs.1 h, hs.2⟩, nofun⟩

theorem serial_onStream {α : Type} {x : Codec α} (h : Writer x) (s : State) :
    Leads (Serial destroy) s (onStream x s) := .of_closed (serial_emitter (emitter_onStream h)) s

theorem emitter_emitBlockAt (s : State) : Emitter (emitBlockAt s) := by
  rw [emitBlockAt]
  split
  · exact emitter_emitGapBlock _ _ _
  · exact emitter_emitBitBlock _

/-- One turn, below the end of the block space. -/
theorem serial_bodyTurn (hn : s.nb < s.params.totalBlocks) : Leads (Serial destroy) s (bodyTurn destroy s) := by
  have hpath := path_serial destroy
  obtain ⟨hz1, hz2, -⟩ := BlockStore.nextOther_spec s.params Content.zero s.bs (Nat.le_of_lt hn)
  obtain ⟨ho1, ho2, -⟩ := BlockStore.nextOther_spec s.params Content.ones s.bs (Nat.le_of_lt hn)
  have hto : ∀ {t : State} {j : Nat}, Serial destroy s t → j ≤ s.params.totalBlocks → j ≤ t.params.totalBlocks :=
    fun h hj => by rw [h.params]; exact hj
  by_cases hz : s.bs.content s.nb = Content.zero
  · by_cases hj : s.bs.nextNonzero s.params s.nb = s.params.totalBlocks
    · rw [bodyTurn_zeroTail hz hj]
      exact .bind hpath (serial_onStream (writer_putU8 9) s) fun _ t _ => hpath.refl t
    · rw [bodyTurn_zeroRun hz hj]
      exact .bind hpath (serial_onStream (writer_emitZeroRun _) s) fun _ t h => serial_setNb_return (hto h hz2) _
  · by_cases ho : s.bs.content s.nb = Content.ones
    · by_cases hj : s.bs.nextNotOnes s.params s.nb = s.params.totalBlocks
      · rw [bodyTurn_oneTail hz ho hj]
        exact .bind hpath (serial_destroyBlocks (by omega)) fun _ t h =>
          .bind hpath (serial_onStream (writer_putU8 10) t) fun _ u h' =>
            serial_setNb_return (hto (hpath.trans h h') (Nat.le_refl _)) _
      · rw [bodyTurn_oneRun hz ho hj]
        exact .bind hpath (serial_destroyBlocks (by simp only [BlockStore.nextNotOnes]; omega)) fun _ t h =>
          .bind hpath (serial_onStream (writer_emitOneRun _) t) fun _ u h' =>
            serial_setNb_return (hto (hpath.trans h h') ho2) _
    · rw [bodyTurn_block hz ho]
      refine .bind hpath (serial_of_emits ⟨rfl, path_writes.refl _⟩ : Serial destroy s (clearRolled s)) fun _ t h => ?_
      refine .bind hpath (.of_closed (serial_emitter (emitter_emitBlockAt s)) t) fun _ u h' => ?_
      have hu := hpath.trans h h'
      refine .bind hpath (serial_destroyBlocks (hto hu hn)) fun _ v h'' => ?_
      exact serial_setNb_return (hto (hpath.trans hu h'') hn) _

theorem bodyLoop_succ (fuel : Nat) (s : State) : bodyLoop destroy (fuel + 1) s =
    if s.params.totalBlocks ≤ s.nb then onStream (putU8 0) s
    else (bodyTurn destroy >>= afterTurn destroy fuel : M Unit) s := by
  rw [bodyLoop, run_bind, run_get]
  dsimp only
  split
  · rfl
  · exact congrArg (fun f : Turn → M Unit => (bodyTurn destroy >>= f) s) (funext fun r => by cases r <;> rfl)

theorem serial_bodyLoop (fuel : Nat) : Closed (Serial destroy) (bodyLoop destroy fuel) := by
  induction fuel with
  | zero => exact Closed.pure (path_serial _) ()
  | succ fuel ih =>
    refine .of_leads fun s => ?_
    rw [bodyLoop_succ]
    split
    · exact serial_onStream (writer_putU8 0) s
    · next hn =>
      refine .bind (path_serial _) (serial_bodyTurn (Nat.lt_of_not_le hn)) fun r t _ => ?_
      cases r with
      | again => exact .of_closed ih t
      | leave => exact serial_onStream (writer_putU8 0) t
      | done => exact (path_serial _).refl t

theorem serial_serializeBody : Closed (Serial destroy) (serializeBody destroy) :=
  .of_leads fun _ => .bind (path_serial _) (serial_setNb (Nat.zero_le _)) fun _ t _ =>
    .bind (path_serial _) ((path_serial _).refl t) fun _ u _ => .of_closed (serial_bodyLoop _) u

/-- The header, then the body. -/
theorem serial_encode : Closed (Serial destroy) (do emitHeader; serializeBody destroy : M Unit) :=
  Closed.bind (path_serial _) (serial_emitter emitter_emitHeader) fun _ => serial_serializeBody

end Serial

/-! ### The two commands -/

section Commands

variable {s : State}

/-- SERIALIZE after its start: an illegal level, or the encoder has run. -/
theorem runSerialize_cases (s : State) :
    (runSerialize s = .error (.precondition .config) s ∧ 5 < cfgLevel s.cfg) ∨
      ∃ t, Serial false { s with phase := .encode } t ∧
        (runSerialize s = .ok () (finished (BitVec.ofNat 64 t.stream.pos) (Config.freeResult t.draws) t) ∨
          ∃ e, runSerialize s = .error e t) := by
  by_cases hl : 5 < cfgLevel s.cfg
  · exact .inl ⟨run_bind_error (requireLevel_error hl), hl⟩
  · have hrun : runSerialize s = (do (do emitHeader; serializeBody false); finishBytes : M Unit)
        { s with phase := .encode } := by
      rw [runSerialize, run_bind_ok (requireLevel_legal (by omega))]
      simp only [bind_assoc]
      rfl
    have henc := serial_encode (destroy := false) { s with phase := .encode }
    rw [hrun]
    right
    cases h : (do emitHeader; serializeBody false : M Unit) { s with phase := .encode } with
    | error e t =>
      rw [h] at henc
      exact ⟨t, henc, .inr ⟨e, run_bind_error h⟩⟩
    | ok a t =>
      rw [h] at henc
      exact ⟨t, henc, .inl ((run_bind_ok h).trans (finishBytes_run t))⟩

/-- The state SERIALIZE_DESTROY encodes from: every block's form is drawn anew (rule R501). -/
def destroyBegun (s : State) : State :=
  { s with phase := .encode, draws := s.draws + 1, bs := s.bs.optimize s.params s.draws }

/-- SERIALIZE_DESTROY after its start: an illegal level, or the encoder has run. -/
theorem runSerializeDestroy_cases (s : State) :
    (runSerializeDestroy s = .error (.precondition .config) s ∧ 5 < cfgLevel s.cfg) ∨
      ∃ t, Serial true (destroyBegun s) t ∧
        (runSerializeDestroy s = .ok () (finished (BitVec.ofNat 64 t.stream.pos) (Config.freeResult t.draws)
            { t with bs := t.bs.clear t.params }) ∨
          ∃ e, runSerializeDestroy s = .error e t) := by
  by_cases hl : 5 < cfgLevel s.cfg
  · exact .inl ⟨run_bind_error (requireLevel_error hl), hl⟩
  · have hrun : runSerializeDestroy s =
        (do (do emitHeader; serializeBody true); onStore fun p bs => bs.clear p; finishBytes : M Unit)
          (destroyBegun s) := by
      rw [runSerializeDestroy, run_bind_ok (requireLevel_legal (by omega))]
      simp only [bind_assoc]
      rfl
    have henc := serial_encode (destroy := true) (destroyBegun s)
    rw [hrun]
    right
    cases h : (do emitHeader; serializeBody true : M Unit) (destroyBegun s) with
    | error e t =>
      rw [h] at henc
      exact ⟨t, henc, .inr ⟨e, run_bind_error h⟩⟩
    | ok a t =>
      rw [h] at henc
      exact ⟨t, henc, .inl ((run_bind_ok h).trans (finishBytes_run _))⟩

theorem wf_destroyBegun (hw : s.bs.wf s.params = true) : (destroyBegun s).bs.wf s.params = true :=
  BlockStore.wf_optimize hw _

/-- What an error in mid-encode leaves (60_exceptions.md rule R530). -/
theorem errorMemories_encode (e : Raise) (hp : s.phase = .encode) :
    errorMemories e s = { s with
      stream := { s.stream with buf := s.stream.buf.openBelow s.stream.bufSize.toNat (s.draws + 3) }
      bs := if s.cmd = 2 then openStore s.params (s.draws + 3) s.bs else s.bs } := by
  simp only [errorMemories, hp]

theorem takeError_encode (e : Raise) (hp : s.phase = .encode) :
    (takeError e s).bsSize = s.bsSize ∧ SameSetup s (takeError e s) ∧ (s.cmd ≠ 2 → (takeError e s).bs = s.bs) ∧
      (s.bs.wf s.params = true → (takeError e s).bs.wf s.params = true) := by
  rw [takeError, errorMemories_encode e hp]
  refine ⟨rfl, ⟨rfl, rfl, rfl, rfl, rfl, rfl, rfl, rfl, rfl⟩, fun hc => if_neg hc, fun hw => ?_⟩
  show (if s.cmd = 2 then openStore s.params (s.draws + 3) s.bs else s.bs).wf s.params = true
  split
  · exact wf_openStore hw _
  · exact hw

theorem Serial.setup {destroy : Bool} {t : State} (h : Serial destroy s t) :
    SameSetup s t ∧ t.bsSize = s.bsSize ∧ t.phase = s.phase := by
  obtain ⟨hframe, ⟨hstream, -⟩, -, -⟩ := h
  have hbuf : t.stream.bufSize = s.stream.bufSize := by rw [hstream]
  rw [SameSetup, hbuf, hframe]
  exact ⟨⟨rfl, rfl, rfl, rfl, rfl, rfl, rfl, rfl, rfl⟩, rfl, rfl⟩

theorem SameSetup.trans {t u : State} (h1 : SameSetup s t) (h2 : SameSetup t u) : SameSetup s u := by
  obtain ⟨a1, a2, a3, a4, a5, a6, a7, a8, a9⟩ := h1
  obtain ⟨b1, b2, b3, b4, b5, b6, b7, b8, b9⟩ := h2
  exact ⟨b1.trans a1, b2.trans a2, b3.trans a3, b4.trans a4, b5.trans a5, b6.trans a6, b7.trans a7, b8.trans a8,
    b9.trans a9⟩

end Commands

/-- Settles O11: the encoder of SERIALIZE never writes the store, and neither does its error. -/
theorem serializeKeepsSource : Obligations.SerializeKeepsSource := by
  intro s
  refine ⟨_, rfl, ?_⟩
  rcases runSerialize_cases (startCommand 1 s) with ⟨herr, -⟩ | ⟨t, ht, hend⟩
  · rw [settle_error herr, takeError, errorMemories_idle _ rfl]
    exact ⟨rfl, rfl, ⟨rfl, rfl, rfl, rfl, rfl, rfl, rfl, rfl, rfl⟩, .inr rfl⟩
  · obtain ⟨hset, hsize, hphase⟩ := ht.setup
    have hbs : t.bs = s.bs := ht.kept rfl
    rcases hend with hok | ⟨e, herr⟩
    · rw [settle_ok hok]
      exact ⟨hbs, hsize, hset, .inl rfl⟩
    · rw [settle_error herr]
      obtain ⟨hsize', hset', hkept, -⟩ := takeError_encode e hphase
      have hcmd : t.cmd ≠ 2 := by
        rw [ht.frame]
        exact (by decide : (1 : U64) ≠ 2)
      exact ⟨(hkept hcmd).trans hbs, hsize'.trans hsize, hset.trans hset', .inr rfl⟩

/-- Settles O12: the clear at the end empties every slot; an error leaves the store open, but well-formed. -/
theorem destroyEmpties : Obligations.DestroyEmpties := by
  intro s hw
  refine ⟨_, rfl, ?_⟩
  rcases runSerializeDestroy_cases (startCommand 2 s) with ⟨herr, -⟩ | ⟨t, ht, hend⟩
  · rw [settle_error herr, takeError, errorMemories_idle _ rfl]
    exact ⟨rfl, hw, ⟨rfl, rfl, rfl, rfl, rfl, rfl, rfl, rfl, rfl⟩, .inr rfl⟩
  · obtain ⟨hset, hsize, hphase⟩ := ht.setup
    have hp : t.params = s.params := ht.params
    have htw : t.bs.wf t.params = true := by
      rw [hp]
      exact (ht.inRange ⟨wf_destroyBegun (s := startCommand 2 s) hw, Nat.zero_le _⟩).1
    rcases hend with hok | ⟨e, herr⟩
    · rw [settle_ok hok]
      refine ⟨hsize, ?_, hset, .inl ⟨rfl, fun j => ?_⟩⟩
      · rw [← hp]
        exact BlockStore.wf_clear htw
      · exact (assign_store htw .assign).2 rfl j
    · rw [settle_error herr]
      obtain ⟨hsize', hset', -, hopen⟩ := takeError_encode e hphase
      refine ⟨hsize'.trans hsize, ?_, hset.trans hset', .inr rfl⟩
      rw [← hp]
      exact hopen htw

end Sys2Proof.Machine


/-! Every step keeps the invariant. What a step may leave when it ends a command is said once (`Sound`): an end or an
error frees the scratch arrays and goes idle, so such a step only has to keep the memories and the registers in
range. A step after which the command still runs is compared with the state before it (`Runs`). -/

namespace Sys2Proof.Machine

/-! ### The part of the invariant that every state has -/

/-- The memories are in their canonical forms, and NB, BS.size and the host's registers are in range. -/
structure Sound (s : State) : Prop where
  params : s.params.Valid
  buf : s.stream.buf.wf = true
  store : s.bs.wf s.params = true
  nb : s.nb ≤ s.params.totalBlocks
  size : 1 ≤ s.bsSize ∧ s.bsSize < 2 ^ s.params.aw.bits
  cfg : cfgMask s.cfg = s.cfg
  op : opMask s.op = s.op
  rangeFrom : s.rangeFrom.toNat < 2 ^ s.params.aw.bits

/-- An array list in its canonical form (10_state.md rule R48). -/
def CanonIdx (l : List U16) : Prop := l.length ≤ 65536 ∧ l.getLast? ≠ some 0

section Sound

variable {s t : State}

theorem Inv.sound (h : Inv s) : Sound s :=
  ⟨h.params, h.buf, h.store, h.nb, h.size, h.cfg, h.op, h.rangeFrom⟩

theorem Inv.noError (h : Inv s) (hr : s.runState ≠ .error) : s.err = .none ∧ s.cause = 0 :=
  h.status.elim (fun h => absurd h.1 hr) fun h => h.2

theorem Inv.busy_noError (h : Inv s) (hb : s.runState = .busy) : s.err = .none ∧ s.cause = 0 :=
  h.noError (by rw [hb]; exact nofun)

/-- The invariant of a machine on which no command runs. -/
theorem inv_of_idle (h : Sound s) (hr : s.runState ≠ .busy) (hp : s.phase = .idle)
    (hstatus : s.runState = .error ∧ s.err ≠ .none ∨ s.runState ≠ .error ∧ s.err = .none ∧ s.cause = 0)
    (hscratch : CanonIdx s.idxArr) : Inv s where
  params := h.params
  buf := h.buf
  store := h.store
  nb := h.nb
  size := h.size
  cfg := h.cfg
  op := h.op
  phase := .inr ⟨hr, hp⟩
  status := hstatus
  command := fun hb => absurd hb hr
  writer := fun hb => absurd hb hr
  reader := fun hb => absurd hb hr
  rangeFrom := h.rangeFrom
  scratch := hscratch
  range := fun hb => absurd hb hr
  walk := fun hb => absurd hb hr

theorem canonIdx_free (d : Nat) : CanonIdx (trimZeros ((Config.freeIndices d).take 65536)) :=
  ⟨(length_trimZeros _).trans (List.length_take_le _ _), getLast_trimZeros _⟩

theorem inv_finished (h : Sound s) (hc : s.err = .none ∧ s.cause = 0) (bytes count : U64) :
    Inv (finished bytes count s) :=
  inv_of_idle (s := finished bytes count s) ⟨h.params, h.buf, h.store, h.nb, h.size, h.cfg, h.op, h.rangeFrom⟩
    nofun rfl (.inr ⟨nofun, hc⟩) (canonIdx_free _)

theorem sound_errorMemories (h : Sound s) (e : Raise) : Sound (errorMemories e s) := by
  have hbody : s.phase = .ids ∨ s.phase = .tokens → Sound (errorMemories e s) := fun hp => by
    rcases errorMemories_body e hp with hm | ⟨hn, hm⟩ <;> rw [hm]
    · exact h
    · exact ⟨h.params, h.buf, BlockStore.wf_put h.store hn rfl, h.nb, h.size, h.cfg, h.op, h.rangeFrom⟩
  cases hp : s.phase with
  | encode =>
    rw [errorMemories_encode e hp]
    refine ⟨h.params, Memory.wf_openBelow h.buf _ _, ?_, h.nb, h.size, h.cfg, h.op, h.rangeFrom⟩
    show (if s.cmd = 2 then openStore s.params (s.draws + 3) s.bs else s.bs).wf s.params = true
    split
    · exact wf_openStore h.store _
    · exact h.store
  | idle => rwa [errorMemories_idle e hp]
  | header => rwa [errorMemories_header e hp]
  | ids => exact hbody (.inl hp)
  | tokens => exact hbody (.inr hp)

theorem kind_ne_none (e : Raise) : e.kind ≠ .none := by cases e <;> exact nofun

theorem inv_takeError (h : Sound s) (e : Raise) : Inv (takeError e s) := by
  have hm := sound_errorMemories h e
  exact inv_of_idle (s := takeError e s)
    ⟨hm.params, hm.buf, hm.store, hm.nb, hm.size, hm.cfg, hm.op, hm.rangeFrom⟩ nofun rfl
    (.inl ⟨rfl, kind_ne_none e⟩) (canonIdx_free _)

theorem inv_settle {m : M Unit} (hok : ∀ t, m s = .ok () t → Inv t) (herr : ∀ e t, m s = .error e t → Sound t) :
    Inv (settle m s) := by
  cases h : m s with
  | ok a t =>
    rw [settle_ok h]
    exact hok t h
  | error e t =>
    rw [settle_error h]
    exact inv_takeError (herr e t h) e

end Sound

/-! ### Steps that end a command -/

/-- What a part of a command keeps that a later end or error relies on. -/
structure Safe (s t : State) : Prop where
  params : t.params = s.params
  cfg : t.cfg = s.cfg
  op : t.op = s.op
  rangeFrom : t.rangeFrom = s.rangeFrom
  err : t.err = s.err
  cause : t.cause = s.cause
  bsSize : t.bsSize = s.bsSize
  buf : s.stream.buf.wf = true → t.stream.buf.wf = true
  inRange : s.bs.wf s.params = true ∧ s.nb ≤ s.params.totalBlocks →
    t.bs.wf s.params = true ∧ t.nb ≤ s.params.totalBlocks

section Safe

variable {s t : State}

theorem path_safe : Path Safe where
  refl _ := ⟨rfl, rfl, rfl, rfl, rfl, rfl, rfl, id, id⟩
  trans := by
    intro s t u ⟨a1, a2, a3, a4, a5, a6, a7, a8, a9⟩ ⟨b1, b2, b3, b4, b5, b6, b7, b8, b9⟩
    rw [a1] at b9
    exact ⟨b1.trans a1, b2.trans a2, b3.trans a3, b4.trans a4, b5.trans a5, b6.trans a6, b7.trans a7,
      fun h => b8 (a8 h), fun h => b9 (a9 h)⟩

theorem Sound.of_safe (hs : Sound s) (h : Safe s t) : Sound t := by
  obtain ⟨hp, hcfg, hop, hfrom, -, -, hsize, hbuf, hrange⟩ := h
  obtain ⟨h1, h2⟩ := hrange ⟨hs.store, hs.nb⟩
  exact ⟨by rw [hp]; exact hs.params, hbuf hs.buf, by rw [hp]; exact h1, by rw [hp]; exact h2,
    by rw [hsize, hp]; exact hs.size, by rw [hcfg]; exact hs.cfg, by rw [hop]; exact hs.op,
    by rw [hfrom, hp]; exact hs.rangeFrom⟩

theorem inv_finished_of_safe (hs : Sound s) (hc : s.err = .none ∧ s.cause = 0) (h : Safe s t) (bytes count : U64) :
    Inv (finished bytes count t) :=
  inv_finished (hs.of_safe h) ⟨h.err.trans hc.1, h.cause.trans hc.2⟩ bytes count

/-- A body that only keeps what an end relies on, then an end. -/
theorem inv_settle_finish {body : M Unit} {fin : M Unit} (hs : Sound s) (hc : s.err = .none ∧ s.cause = 0)
    (hbody : Leads Safe s (body s)) (hfin : ∀ t, ∃ bytes count, fin t = .ok () (finished bytes count t)) :
    Inv (settle (do body; fin) s) := by
  refine inv_settle (fun t h => ?_) fun e t h => ?_
  · obtain ⟨⟨⟩, u, hu, ht⟩ := of_run_bind h
    rw [hu] at hbody
    obtain ⟨bytes, count, hrun⟩ := hfin u
    rw [hrun] at ht
    cases ht
    exact inv_finished_of_safe hs hc hbody bytes count
  · rcases of_run_bind_error h with h | ⟨⟨⟩, u, -, hu⟩
    · rw [h] at hbody
      exact hs.of_safe hbody
    · obtain ⟨bytes, count, hrun⟩ := hfin u
      rw [hrun] at hu
      cases hu

theorem finishBytes_ends (t : State) : ∃ bytes count, finishBytes t = .ok () (finished bytes count t) :=
  ⟨_, _, finishBytes_run t⟩

theorem finishOperation_ends (t : State) : ∃ bytes count, finishOperation t = .ok () (finished bytes count t) :=
  ⟨_, _, finishOperation_run t⟩

end Safe

/-! ### The serialize commands -/

section Serialize

variable {s t : State} {destroy : Bool}

theorem safe_of_serial (h : Serial destroy s t) : Safe s t := by
  obtain ⟨hframe, hwrites, hrange, -⟩ := h
  obtain ⟨-, hbuf⟩ := hwrites
  refine ⟨?_, ?_, ?_, ?_, ?_, ?_, ?_, hbuf, hrange⟩ <;> rw [hframe]

theorem sound_startCommand (h : Sound s) (code : U64) : Sound (startCommand code s) :=
  ⟨h.params, h.buf, h.store, Nat.zero_le _, h.size, h.cfg, h.op, h.rangeFrom⟩

theorem inv_serialize (h : Sound s) : Inv (settle runSerialize (startCommand 1 s)) := by
  have hs := sound_startCommand h 1
  rcases runSerialize_cases (startCommand 1 s) with ⟨herr, -⟩ | ⟨t, ht, hok | ⟨e, herr⟩⟩
  · rw [settle_error herr]
    exact inv_takeError hs _
  all_goals
    have hs' : Sound { startCommand 1 s with phase := .encode } :=
      ⟨hs.params, hs.buf, hs.store, hs.nb, hs.size, hs.cfg, hs.op, hs.rangeFrom⟩
    have hsafe := safe_of_serial ht
  · rw [settle_ok hok]
    exact inv_finished_of_safe hs' ⟨rfl, rfl⟩ hsafe _ _
  · rw [settle_error herr]
    exact inv_takeError (hs'.of_safe hsafe) _

theorem inv_serializeDestroy (h : Sound s) : Inv (settle runSerializeDestroy (startCommand 2 s)) := by
  have hs := sound_startCommand h 2
  rcases runSerializeDestroy_cases (startCommand 2 s) with ⟨herr, -⟩ | ⟨t, ht, hok | ⟨e, herr⟩⟩
  · rw [settle_error herr]
    exact inv_takeError hs _
  all_goals
    have hs' : Sound (destroyBegun (startCommand 2 s)) :=
      ⟨hs.params, hs.buf, wf_destroyBegun hs.store, hs.nb, hs.size, hs.cfg, hs.op, hs.rangeFrom⟩
    have hsafe := safe_of_serial ht
    have hst := hs'.of_safe hsafe
  · rw [settle_ok hok]
    exact inv_finished (s := { t with bs := t.bs.clear t.params })
      ⟨hst.params, hst.buf, BlockStore.wf_clear hst.store, hst.nb, hst.size, hst.cfg, hst.op, hst.rangeFrom⟩
      ⟨hsafe.err, hsafe.cause⟩ _ _
  · rw [settle_error herr]
    exact inv_takeError hst _

end Serialize

/-! ### Id lists -/

section IdLists

variable {s t : State}

theorem safe_reads {α : Type} {x : Codec α} (h : Reads x) : Closed Safe (onStream x) := fun s => by
  have hx := h s.stream
  have hsafe : ∀ c : Stream, c.buf = s.stream.buf → Safe s { s with stream := c } := fun c hc =>
    ⟨rfl, rfl, rfl, rfl, rfl, rfl, rfl, fun hw => by rw [hc]; exact hw, id⟩
  cases hr : x s.stream with
  | ok a c =>
    rw [hr] at hx
    rw [run_onStream_ok hr]
    exact hsafe c (by rw [hx.1])
  | error e c =>
    rw [hr] at hx
    rw [run_onStream_error hr]
    exact hsafe c (by rw [hx.2.1])

theorem safe_mergeIds (n : Nat) : Closed Safe (mergeIds n) := by
  induction n with
  | zero => exact Closed.modify fun s => ⟨rfl, rfl, rfl, rfl, rfl, rfl, rfl, id, id⟩
  | succ n ih =>
    refine Closed.bind path_safe (safe_reads reads_getU32) fun id => ?_
    refine Closed.bind path_safe (fun s => ⟨rfl, rfl, rfl, rfl, rfl, rfl, rfl, fun h => h, fun h => h⟩) fun d => ?_
    refine Closed.bind path_safe (Closed.modify fun s => ?_) fun _ => ih
    exact ⟨rfl, rfl, rfl, rfl, rfl, rfl, rfl, fun h => h,
      fun h => ⟨wf_putContent h.1 d (id_block_lt s.params id) _, h.2⟩⟩

/-- What reading a list of ids may change. -/
def IdsRead (s t : State) : Prop :=
  t = { s with stream := t.stream, lastId := t.lastId, idCnt := t.idCnt, eos := t.eos } ∧
    t.stream.buf = s.stream.buf

theorem path_idsRead : Path IdsRead where
  refl _ := ⟨rfl, rfl⟩
  trans := by
    intro s t u ⟨f1, b1⟩ ⟨f2, b2⟩
    exact ⟨by rw [f2, f1], b2.trans b1⟩

theorem idsRead_getU32 : Closed IdsRead (onStream getU32) := fun s => by
  have hx := reads_getU32 s.stream
  cases hr : getU32 s.stream with
  | ok a c =>
    rw [hr] at hx
    rw [run_onStream_ok hr]
    exact ⟨rfl, by rw [hx.1]⟩
  | error e c =>
    rw [hr] at hx
    rw [run_onStream_error hr]
    exact ⟨rfl, by rw [hx.2.1]⟩

theorem idsRead_readIds (n : Nat) : Closed IdsRead (readIds n) := by
  induction n with
  | zero => exact Closed.bind path_idsRead (Closed.modify fun _ => ⟨rfl, rfl⟩) fun _ => Closed.pure path_idsRead _
  | succ n ih =>
    exact Closed.bind path_idsRead idsRead_getU32 fun _ =>
      Closed.bind path_idsRead (Closed.modify fun _ => ⟨rfl, rfl⟩) fun _ =>
        Closed.bind path_idsRead ih fun _ => Closed.pure path_idsRead _

theorem safe_of_idsRead (h : IdsRead s t) : Safe s t := by
  obtain ⟨hframe, hbuf⟩ := h
  refine ⟨?_, ?_, ?_, ?_, ?_, ?_, ?_, fun hw => by rw [hbuf]; exact hw, fun hw => ?_⟩ <;> rw [hframe]
  exact hw

theorem safe_of_operated {B : Nat → Content} (h : Operated B s t) (hn : t.nb ≤ s.params.totalBlocks) : Safe s t := by
  obtain ⟨hframe, -, hstore, -, -, -⟩ := h
  refine ⟨?_, ?_, ?_, ?_, ?_, ?_, ?_, fun hw => ?_, fun _ => ⟨hstore, hn⟩⟩ <;> rw [hframe]
  exact hw

/-- The tail a finalization operates with. -/
theorem safe_zeroRun (s : State) (hn : s.nb ≤ s.params.totalBlocks) :
    Safe s { zeroRunDone (s.params.totalBlocks - s.nb) s with nb := s.nb } :=
  ⟨rfl, rfl, rfl, rfl, rfl, rfl, rfl, id,
    fun h => ⟨BlockStore.wf_zeroRunStore h.1 s.eop (by omega), h.2⟩⟩

/-- An operation on an id list keeps what its end relies on, and ends. -/
theorem inv_doIdList (hs : Sound s) (hc : s.err = .none ∧ s.cause = 0) (ho : s.eop ≠ .assign) (hnb : s.nb = 0) :
    Inv (settle doIdList s) := by
  have hread := idsRead_readIds s.idCnt.toNat s
  cases hr : readIds s.idCnt.toNat s with
  | error e t =>
    rw [hr] at hread
    rw [settle_error (t := t) (e := e) (by rw [doIdList, run_bind, run_get]; exact run_bind_error hr)]
    exact inv_takeError (hs.of_safe (safe_of_idsRead hread)) e
  | ok ids u =>
    rw [hr] at hread
    have hsafe := safe_of_idsRead hread
    have hu := hs.of_safe hsafe
    obtain ⟨hunb, hueop⟩ : u.nb = 0 ∧ u.eop ≠ .assign := by
      rw [hread.1]
      exact ⟨hnb, ho⟩
    have hv := (ascends_foldl u.params ids (v := []) trivial).1
    obtain ⟨early, t, hwalk, hwalked⟩ := doVector_walked (s := u) (B := fun j => listedAt j (listedVector ids))
      (by rw [hunb]; exact hv) (fun _ _ => rfl) hu.store hueop hu.nb
    have htsafe := safe_of_operated hwalked.operated hwalked.nb_le_total
    have htp : t.params = u.params := htsafe.params
    rw [settle_ok ((doIdList_run hr hwalk (by rw [htp]; exact hwalked.nb_le_total)).trans (finishOperation_run _))]
    refine inv_finished_of_safe hs hc (path_safe.trans hsafe (path_safe.trans htsafe ?_)) _ _
    cases early with
    | true => exact path_safe.refl t
    | false => exact safe_zeroRun _ (by rw [htp]; exact hwalked.nb_le_total)

end IdLists

end Sys2Proof.Machine

/-! Every step keeps the invariant, continued: the headers and the tokens, after which the command still runs, and the
host port. -/

namespace Sys2Proof

open Sys2Proof.Machine

/-! ### What the token decoder delivers -/

/-- Every value a reader delivers has a property. -/
def Yields {α : Type} (P : α → Prop) (x : Codec α) : Prop := ∀ c a d, x c = .ok a d → P a

theorem Yields.pure {α : Type} {P : α → Prop} {a : α} (h : P a) : Yields P (Pure.pure a : Codec α) :=
  fun _ _ _ hr => by
    cases hr
    exact h

theorem Yields.bind {α β : Type} {P : β → Prop} {x : Codec α} {f : α → Codec β} (hf : ∀ a, Yields P (f a)) :
    Yields P (x >>= f) := fun _ b d h => by
  obtain ⟨a, c, -, h2⟩ := of_run_bind h
  exact hf a c b d h2

theorem yields_decodeToken : Yields (fun i => i.isToken = true) decodeToken := by
  refine Yields.bind fun t => ?_
  unfold decodePayload
  split
  · exact .pure rfl
  split
  all_goals first
    | exact .pure rfl
    | exact .bind fun _ => .pure rfl

/-- The four kinds of tokens: runs, terminators, reserved tags and blocks. -/
theorem token_kinds {i : Instr} (h : i.isToken = true) (s : State) :
    blockForm i = none ∧ ((∃ one n, runOf s i = some (one, n)) ∨ (i = .endOfStream ∨ i = .azero) ∨
        isReserved i = true) ∨ ∃ st, blockForm i = some st := by
  cases i
  case endOfStream => exact .inl ⟨rfl, .inr (.inl (.inl rfl))⟩
  case azero => exact .inl ⟨rfl, .inr (.inl (.inr rfl))⟩
  all_goals first
    | exact Bool.noConfusion h
    | exact .inl ⟨rfl, .inl ⟨_, _, rfl⟩⟩
    | exact .inl ⟨rfl, .inr (.inr rfl)⟩
    | exact .inr ⟨_, rfl⟩

theorem legible_of_not_block {i : Instr} (h : blockForm i = none) : Legible i := fun hne => absurd h hne

end Sys2Proof

namespace Sys2Proof.Machine

/-! ### The slots a merge leaves -/

section Slots

variable {p : Params} {b : BlockOperand} {i : Instr} {s : State}

theorem wf_freshSlot (hb : tokenOperand i = some b) : (freshSlot p b).wf p = true := by
  unfold freshSlot
  cases hh : b.headed with
  | none => rfl
  | some g =>
    obtain ⟨start, es⟩ := g
    dsimp only
    split
    · next hlen =>
      simp only [Slot.wf, Bool.and_eq_true, decide_eq_true_eq]
      exact ⟨(headed_ok hb hh).1, BlockStore.gapCalcLevel_fits hlen⟩
    · rfl

theorem wf_mergeSlot (hb : tokenOperand i = some b) (d nb : Nat) (old : Slot) :
    (mergeSlot p d nb old b).wf p = true := by
  unfold mergeSlot
  split
  · exact wf_freshSlot hb
  · rfl

theorem wf_orredSlot (ran : Bool) (d : Nat) (c : Content) : (orredSlot ran d c).wf p = true := by
  unfold orredSlot
  split <;> rfl

/-- Every merge puts a slot the store may hold at NB and advances NB. -/
theorem mergeOf_slot (hb : tokenOperand i = some b) :
    ∃ slot al tb, mergeOf i b s = .ok ()
        { s with bs := s.bs.put s.nb slot, allone := al, tempBlock := tb, nb := s.nb + 1, draws := s.draws + 1 } ∧
      slot.wf s.params = true := by
  have hblock : ∃ slot al tb, mergeBlock b s = .ok ()
        { s with bs := s.bs.put s.nb slot, allone := al, tempBlock := tb, nb := s.nb + 1, draws := s.draws + 1 } ∧
      slot.wf s.params = true := ⟨_, _, _, mergeBlock_run b s, wf_mergeSlot hb _ _ _⟩
  have hplace : ∀ ran r, ∃ slot al tb, mergeInPlace ran r s = .ok ()
        { s with bs := s.bs.put s.nb slot, allone := al, tempBlock := tb, nb := s.nb + 1, draws := s.draws + 1 } ∧
      slot.wf s.params = true := fun ran r => ⟨_, _, _, mergeInPlace_run ran r s, wf_orredSlot _ _ _⟩
  cases i
  case bit words =>
    show ∃ slot al tb, mergeBit words b s = _ ∧ _
    rw [mergeBit_run]
    split
    · exact hplace _ _
    · exact hblock
  case bitDigest0 d words =>
    show ∃ slot al tb, mergeDigest d words b s = _ ∧ _
    rw [mergeDigest_run]
    split
    · exact hplace _ _
    · exact hblock
  all_goals exact hblock

end Slots

/-! ### Steps after which the command still runs -/

/-- The command that ran in `s` still runs in `t`. -/
structure Runs (s t : State) : Prop where
  runState : t.runState = s.runState
  err : t.err = s.err
  cause : t.cause = s.cause
  cmd : t.cmd = s.cmd
  rangeSet : t.rangeSet = s.rangeSet
  rangeFrom : t.rangeFrom = s.rangeFrom
  rangeTo : t.rangeTo = s.rangeTo
  params : t.params = s.params
  writer : t.stream.wacc = s.stream.wacc ∧ t.stream.wused = s.stream.wused

section Runs

variable {s t : State}

theorem inv_of_runs (hi : Inv s) (hb : s.runState = .busy) (hr : Runs s t) (hs : Sound t) (hidx : CanonIdx t.idxArr)
    (hphase : t.phase = .header ∨ t.phase = .ids ∨ t.phase = .tokens)
    (hreader : t.stream.racc = 0 ∧ t.stream.ravail = 0)
    (hwalk : t.cmd ≠ 3 → (t.phase = .tokens → t.st = .blocks ∧ t.eop ≠ .assign) ∧
      (t.phase = .ids → t.st = .listIds ∧ t.eop ≠ .assign ∧ t.nb = 0)) : Inv t := by
  obtain ⟨h1, h2, h3, h4, h5, h6, h7, h8, h9, h10⟩ := hr
  obtain ⟨he, hc⟩ := hi.busy_noError hb
  have htb : t.runState = .busy := h1.trans hb
  exact {
    params := hs.params, buf := hs.buf, store := hs.store, nb := hs.nb, size := hs.size, cfg := hs.cfg, op := hs.op
    phase := .inl ⟨htb, hphase⟩
    status := .inr ⟨by rw [htb]; exact nofun, h2.trans he, h3.trans hc⟩
    command := fun _ => by rw [h4]; exact hi.command hb
    writer := fun _ => by rw [h9, h10]; exact hi.writer hb
    reader := fun _ => hreader
    rangeFrom := hs.rangeFrom
    scratch := hidx
    range := fun _ => by rw [h4, h5, h6, h7, h8]; exact hi.range hb
    walk := fun _ => hwalk }

/-! ### The header -/

section Header

variable {h : Header}

theorem latchHeader_malformed (hbo : (h.byteOrder.getD 0).toNat ≤ 1) (h64 : h.is64 = decide (s.params.aw = .w48))
    (hw : h.wf = false) : latchHeader h s = .error (.precondition .malformed) (headerBegun h s) := by
  have hwidth : ¬h.is64 ≠ decide (s.params.aw = .w48) := not_not.2 h64
  simp only [latchHeader, run_bind, run_draw, run_modify, run_get, if_neg (Nat.not_lt.2 hbo), if_neg hwidth, if_pos hw,
    run_failPre, headerBegun]

/-- The parse of a header comes to its end, or to an error before any register but the first ones is written. -/
theorem latchHeader_cases (h : Header) (s : State) :
    (h.wf = true ∧ h.is64 = decide (s.params.aw = .w48)) ∨ ∃ e, latchHeader h s = .error e (headerBegun h s) := by
  by_cases hbo : 1 < (h.byteOrder.getD 0).toNat
  · exact .inr ⟨_, latchHeader_byteOrder hbo⟩
  · by_cases h64 : h.is64 = decide (s.params.aw = .w48)
    · by_cases hw : h.wf = true
      · exact .inl ⟨hw, h64⟩
      · exact .inr ⟨_, latchHeader_malformed (by omega) h64 (Bool.eq_false_iff.2 hw)⟩
    · exact .inr ⟨_, latchHeader_addressWidth (by omega) h64⟩

theorem sound_headerBegun (hs : Sound s) (h : Header) : Sound (headerBegun h s) :=
  ⟨hs.params, hs.buf, hs.store, hs.nb, hs.size, hs.cfg, hs.op, hs.rangeFrom⟩

theorem sound_withHeader (hs : Sound s) (h : Header) : Sound (withHeader h s) :=
  ⟨hs.params, hs.buf, hs.store, hs.nb, hs.size, hs.cfg, hs.op, hs.rangeFrom⟩

theorem grownSize_legal (hs : Sound s) (hl : legalSize h s) :
    1 ≤ grownSize h s ∧ grownSize h s < 2 ^ s.params.aw.bits := by
  have hsize := hs.size
  rw [grownSize]
  cases hv : h.size with
  | none => exact hsize
  | some v =>
    have hlv := hl v hv
    show 1 ≤ max _ _ ∧ max _ _ < _
    omega

theorem openMerge_cases (h : Header) (u : State) :
    (∃ pos n ph, (ph = .ids ∨ ph = .tokens) ∧ openMerge h u = .ok ()
        { u with stream := { u.stream with pos := pos }, idCnt := n, nb := 0, eos := false, phase := ph }) ∨
      ∃ e, openMerge h u = .error e u := by
  by_cases hid : h.isIdList = true
  · have hopen : openMerge h u =
        (do readIdCount; modify fun s => { s with nb := 0, eos := false, phase := .ids } : M Unit) u := by
      rw [openMerge, if_pos hid]
    rw [hopen]
    by_cases hfit : u.stream.pos + 4 ≤ u.stream.bufSize.toNat
    · refine .inl ⟨u.stream.pos + 4, BitVec.ofNat 32 (bytesValue u.stream.sbo (u.stream.buf.readList u.stream.pos 4)),
        .ids, .inl rfl, ?_⟩
      rw [run_bind_ok (readIdCount_ok hfit)]
      rfl
    · exact .inr ⟨_, run_bind_error (readIdCount_error hfit)⟩
  · exact .inl ⟨u.stream.pos, u.idCnt, .tokens, .inr rfl, by rw [openMerge, if_neg hid]; rfl⟩

/-- A DESERIALIZE after its header. -/
theorem inv_headerMerge (hi : Inv s) (hb : s.runState = .busy) (hc : s.cmd = 3) :
    Inv (settle (headerMerge h) s) := by
  have hs := hi.sound
  rcases latchHeader_cases h s with ⟨hw, h64⟩ | ⟨e, he⟩
  · by_cases hl : legalSize h s
    · have hsize := grownSize_legal hs hl
      have hlegal := headerMerge_legal hw h64 hl
      rcases openMerge_cases h { withHeader h s with bsSize := grownSize h s } with
        ⟨pos, n, ph, hph, hrun⟩ | ⟨e, herr⟩
      · rw [settle_ok (hlegal.trans hrun)]
        refine inv_of_runs hi hb ⟨rfl, rfl, rfl, rfl, rfl, rfl, rfl, rfl, rfl, rfl⟩ ?_ hi.scratch (.inr hph)
          (hi.reader hb) fun hne => absurd hc hne
        exact ⟨hs.params, hs.buf, hs.store, Nat.zero_le _, hsize, hs.cfg, hs.op, hs.rangeFrom⟩
      · rw [settle_error (hlegal.trans herr)]
        exact inv_takeError (s := { withHeader h s with bsSize := grownSize h s })
          ⟨hs.params, hs.buf, hs.store, hs.nb, hsize, hs.cfg, hs.op, hs.rangeFrom⟩ e
    · simp only [legalSize, not_forall] at hl
      obtain ⟨v, hv, hbad⟩ := hl
      rw [settle_error (headerMerge_illegalSize hw h64 hv (by omega))]
      exact inv_takeError (sound_withHeader hs h) _
  · have hrun : headerMerge h s = .error e (headerBegun h s) := run_bind_error he
    rw [settle_error hrun]
    exact inv_takeError (sound_headerBegun hs h) e

theorem beginOperation_cases (hs : Sound s) (hrange : s.rangeSet = true →
    s.rangeFrom.toNat ≤ s.rangeTo.toNat ∧ s.rangeTo.toNat < 2 ^ s.params.aw.bits) :
    (∃ bs op d, op ≠ .assign ∧ bs.wf s.params = true ∧
        beginOperation s = .ok () { s with count := 0, bs := bs, eop := op, draws := d }) ∨
      ∃ e, beginOperation s = .error e { s with count := 0 } := by
  by_cases hr : s.rangeSet = true
  · obtain ⟨hft, ht⟩ := hrange hr
    exact .inl ⟨_, .and, _, nofun, wf_premaskStore hs.store s.draws hft ht, beginOperation_range hr⟩
  · cases hop : setOpOf s.op with
    | none => exact .inr ⟨.precondition .config, by simp [beginOperation, run_bind, hr, hop]⟩
    | some op =>
      refine .inl ⟨_, _, s.draws, ?_, ?_, beginOperation_op (Bool.eq_false_iff.2 hr) hop⟩
      · split
        · exact nofun
        · assumption
      · split
        · exact BlockStore.wf_clear hs.store
        · exact hs.store

/-- An operation after its header, the iterator having begun. -/
theorem openOperate_cases (h : Header) (hs : Sound s) (hrange : s.rangeSet = true →
    s.rangeFrom.toNat ≤ s.rangeTo.toNat ∧ s.rangeTo.toNat < 2 ^ s.params.aw.bits) :
    (∃ pos n st ph bs op d, (st = .listIds ∧ ph = .ids ∨ st = .blocks ∧ ph = .tokens) ∧ op ≠ .assign ∧
        bs.wf s.params = true ∧ openOperate h s = .ok ()
          { s with
            stream := { s.stream with pos := pos }
            idCnt := n, st := st, phase := ph, count := 0, bs := bs, eop := op, draws := d }) ∨
      ∃ e t, openOperate h s = .error e t ∧ Sound t := by
  have hcleared : ∀ u : State, Sound u → Sound { u with count := 0 } := fun u hu =>
    ⟨hu.params, hu.buf, hu.store, hu.nb, hu.size, hu.cfg, hu.op, hu.rangeFrom⟩
  by_cases hid : h.isIdList = true
  · by_cases hfit : s.stream.pos + 4 ≤ s.stream.bufSize.toNat
    · rw [openOperate_ids hid hfit]
      have hu : Sound { s with
          stream := { s.stream with pos := s.stream.pos + 4 }
          idCnt := BitVec.ofNat 32 (bytesValue s.stream.sbo (s.stream.buf.readList s.stream.pos 4))
          st := .listIds } :=
        ⟨hs.params, hs.buf, hs.store, hs.nb, hs.size, hs.cfg, hs.op, hs.rangeFrom⟩
      rcases beginOperation_cases hu hrange with ⟨bs, op, d, hop, hw, hrun⟩ | ⟨e, herr⟩
      · exact .inl ⟨_, _, _, .ids, bs, op, d, .inl ⟨rfl, rfl⟩, hop, hw, run_bind_ok hrun⟩
      · exact .inr ⟨e, _, run_bind_error herr, hcleared _ hu⟩
    · exact .inr ⟨_, s, openOperate_cut hid hfit, hs⟩
  · rw [openOperate_tokens (Bool.eq_false_iff.2 hid)]
    have hu : Sound { s with st := .blocks } :=
      ⟨hs.params, hs.buf, hs.store, hs.nb, hs.size, hs.cfg, hs.op, hs.rangeFrom⟩
    rcases beginOperation_cases hu hrange with ⟨bs, op, d, hop, hw, hrun⟩ | ⟨e, herr⟩
    · exact .inl ⟨s.stream.pos, s.idCnt, _, .tokens, bs, op, d, .inr ⟨rfl, rfl⟩, hop, hw, run_bind_ok hrun⟩
    · exact .inr ⟨e, _, run_bind_error herr, hcleared _ hu⟩

/-- An operation after its header. -/
theorem inv_headerOperate (hi : Inv s) (hb : s.runState = .busy) :
    Inv (settle (headerOperate h) s) := by
  have hs := hi.sound
  rcases latchHeader_cases h s with ⟨hw, h64⟩ | ⟨e, he⟩
  · have hs' : Sound (iteratorBegun h s) :=
      ⟨hs.params, hs.buf, hs.store, Nat.zero_le _, hs.size, hs.cfg, hs.op, hs.rangeFrom⟩
    have hlegal := headerOperate_legal (h := h) hw h64
    rcases openOperate_cases h hs' fun hr => (hi.range hb).2 ((hi.range hb).1.1 hr) with
      ⟨pos, n, st, ph, bs, op, d, hst, hop, hw, hrun⟩ | ⟨e, t, herr, ht⟩
    · rw [settle_ok (hlegal.trans hrun)]
      refine inv_of_runs hi hb ⟨rfl, rfl, rfl, rfl, rfl, rfl, rfl, rfl, rfl, rfl⟩ ?_ hi.scratch ?_ ⟨rfl, rfl⟩
        fun _ => ?_
      · exact ⟨hs.params, hs.buf, hw, Nat.zero_le _, hs.size, hs.cfg, hs.op, hs.rangeFrom⟩
      · exact .inr (hst.imp And.right And.right)
      · refine ⟨fun hp => ⟨?_, hop⟩, fun hp => ⟨?_, hop, rfl⟩⟩
        · exact (hst.resolve_left fun h => absurd (h.2.symm.trans hp) nofun).1
        · exact (hst.resolve_right fun h => absurd (h.2.symm.trans hp) nofun).1
    · rw [settle_error (hlegal.trans herr)]
      exact inv_takeError ht e
  · have hrun : headerOperate h s = .error e (headerBegun h s) := run_bind_error he
    rw [settle_error hrun]
    exact inv_takeError (sound_headerBegun hs h) e

/-- The header step of a decode command. -/
theorem inv_headerStep (hi : Inv s) (hb : s.runState = .busy) (hp : s.phase = .header) (h : headerStep s = .next t) :
    Inv t := by
  have hreads := headerReads_decodeHeader s.params.aw s.stream
  rw [headerStep, fetchThen] at h
  cases hd : decodeHeader s.params.aw s.stream with
  | error e d =>
    rw [hd] at h hreads
    cases h
    have hs := hi.sound
    exact inv_takeError (s := { s with stream := d })
      ⟨hs.params, by rw [hreads.2]; exact hs.buf, hs.store, hs.nb, hs.size, hs.cfg, hs.op, hs.rangeFrom⟩ e
  | ok i d =>
    rw [hd] at h hreads
    have hi' : Inv { s with stream := d } := by
      have hs := hi.sound
      refine inv_of_runs hi hb ⟨rfl, rfl, rfl, rfl, rfl, rfl, rfl, rfl, ?_⟩ ?_ hi.scratch (.inl hp) ?_ (hi.walk hb)
      · rw [hreads]
        exact ⟨rfl, rfl⟩
      · exact ⟨hs.params, by rw [hreads]; exact hs.buf, hs.store, hs.nb, hs.size, hs.cfg, hs.op, hs.rangeFrom⟩
      · show d.racc = 0 ∧ d.ravail = 0
        rw [hreads]
        exact hi.reader hb
    obtain ⟨hdr, u, -, hu⟩ := of_run_bind hd
    cases hu
    have h : exec (.streamHeader hdr) { s with stream := d } = .next t := h
    rcases hi.command hb with hc | hc
    · rw [exec_header_merge (s := { s with stream := d }) hb hp hc] at h
      cases h
      exact inv_headerMerge hi' hb hc
    · rw [exec_header_operate (s := { s with stream := d }) hb hp hc] at h
      cases h
      exact inv_headerOperate hi' hb

end Header

/-! ### The tokens -/

section Tokens

variable {i : Instr} {c : Stream}

/-- The state a fetched token is executed in. -/
def fetched (c : Stream) (s : State) : State := { s with blockType := s.stream.buf.read s.stream.pos, stream := c }

theorem sound_fetched (hs : Sound s) (hd : decodeToken s.stream = .ok i c) : Sound (fetched c s) := by
  obtain ⟨hframe, -⟩ := decodeToken_advances hd
  exact ⟨hs.params, by rw [fetched, hframe]; exact hs.buf, hs.store, hs.nb, hs.size, hs.cfg, hs.op, hs.rangeFrom⟩

theorem runs_fetched (hd : decodeToken s.stream = .ok i c) : Runs s (fetched c s) := by
  obtain ⟨hframe, -⟩ := decodeToken_advances hd
  refine ⟨rfl, rfl, rfl, rfl, rfl, rfl, rfl, rfl, ?_⟩
  rw [fetched, hframe]
  exact ⟨rfl, rfl⟩

theorem Runs.trans {u : State} (h1 : Runs s t) (h2 : Runs t u) : Runs s u := by
  obtain ⟨a1, a2, a3, a4, a5, a6, a7, a8, a9, a10⟩ := h1
  obtain ⟨b1, b2, b3, b4, b5, b6, b7, b8, b9, b10⟩ := h2
  exact ⟨b1.trans a1, b2.trans a2, b3.trans a3, b4.trans a4, b5.trans a5, b6.trans a6, b7.trans a7, b8.trans a8,
    b9.trans a9, b10.trans a10⟩

/-- A legible token after which the walk goes on. -/
theorem inv_of_token (hi : Inv s) (hwalk : Walking s) (hd : decodeToken s.stream = .ok i c) (hl : Legible i)
    (hr : Runs (fetched c s) t) (hs : Sound t) (hidx : CanonIdx t.idxArr) (hp : t.phase = s.phase)
    (hstream : t.stream = c) (hst : t.st = s.st ∧ t.eop = s.eop) : Inv t := by
  have hb : s.runState = .busy := hwalk.elim And.left And.left
  have hphase := hp.trans (phase_of_walking hwalk)
  obtain ⟨hr0, hv0⟩ := hi.reader hb
  obtain ⟨hv, hacc⟩ := decodeToken_drained hd hl hv0
  refine inv_of_runs hi hb ((runs_fetched hd).trans hr) hs hidx (.inr (.inr hphase))
    (by rw [hstream]; exact ⟨hacc hr0, hv⟩) fun hne => ⟨fun _ => ?_, fun hids => ?_⟩
  · rw [hst.1, hst.2]
    exact (hi.walk hb (by rw [← ((runs_fetched hd).trans hr).cmd]; exact hne)).1 (phase_of_walking hwalk)
  · rw [hphase] at hids
    exact absurd hids nofun

/-- A run token. -/
theorem inv_runToken {one : Bool} {n : Nat} (hi : Inv s) (hwalk : Walking s) (hd : decodeToken s.stream = .ok i c)
    (hl : Legible i) : Inv (settle (runToken one n) (fetched c s)) := by
  have hs := sound_fetched hi.sound hd
  by_cases hn : s.nb + n ≤ s.params.totalBlocks
  · rcases hwalk with hm | ho
    · rw [settle_ok (runToken_merge (s := fetched c s) hm hn)]
      refine inv_of_token hi (.inl hm) hd hl ⟨rfl, rfl, rfl, rfl, rfl, rfl, rfl, rfl, rfl, rfl⟩ ?_ hi.scratch rfl rfl
        ⟨rfl, rfl⟩
      refine ⟨hs.params, hs.buf, ?_, hn, hs.size, hs.cfg, hs.op, hs.rangeFrom⟩
      cases one with
      | false => exact hs.store
      | true => exact BlockStore.wf_setAllSet hs.store hn
    · rw [settle_ok (runToken_operate (s := fetched c s) ho hn)]
      refine inv_of_token hi (.inr ho) hd hl ⟨rfl, rfl, rfl, rfl, rfl, rfl, rfl, rfl, rfl, rfl⟩ ?_ hi.scratch rfl rfl
        ⟨rfl, rfl⟩
      refine ⟨hs.params, hs.buf, ?_, hn, hs.size, hs.cfg, hs.op, hs.rangeFrom⟩
      cases one with
      | false => exact BlockStore.wf_zeroRunStore hs.store _ hn
      | true => exact BlockStore.wf_oneRunStore hs.store _ _ hn
  · rw [settle_error (runToken_overrun (s := fetched c s) hwalk (Nat.lt_of_not_le hn))]
    exact inv_takeError hs _

/-- A terminator. -/
theorem inv_endToken (hi : Inv s) (hwalk : Walking s) (hd : decodeToken s.stream = .ok i c) (hl : Legible i) :
    Inv (settle endToken (fetched c s)) := by
  have hs := sound_fetched hi.sound hd
  rw [settle_ok (endToken_walk (s := fetched c s) hwalk)]
  exact inv_of_token hi hwalk hd hl ⟨rfl, rfl, rfl, rfl, rfl, rfl, rfl, rfl, rfl, rfl⟩
    ⟨hs.params, hs.buf, hs.store, hs.nb, hs.size, hs.cfg, hs.op, hs.rangeFrom⟩ hi.scratch rfl rfl ⟨rfl, rfl⟩

theorem canonIdx_withIdx (b : BlockOperand) (h : CanonIdx s.idxArr) : CanonIdx (withIdx b s).idxArr := by
  show CanonIdx ((b.idx.map (loadArr · s.idxArr)).getD s.idxArr)
  cases b.idx with
  | none => exact h
  | some xs => exact canon_loadArr xs _

/-- IDX_ARR after a block token of an operation. -/
theorem canonIdx_blockToken {st : ItState} {b : BlockOperand} {merge : BlockOperand → M Unit} (h : Operating s)
    (hst : st = .bitBlock ∨ st = .gapBlock) (hn : s.nb < s.params.totalBlocks) (hx : CanonIdx s.idxArr)
    (hrun : blockToken st (some b) merge s = .ok () t) : CanonIdx t.idxArr := by
  have hs := h.2.2.2.2
  have hx' := canonIdx_withIdx b hx
  rcases hst with rfl | rfl <;> cases hc : isCounting s.eop
  all_goals
    simp [blockToken, run_bind, tokenMode_operate h, requireBlock_ok hn, nextBlock, requireSt, hs, doBitBlock,
      doGapBlock, getBitBlock, getGapBlock, consumeBlock, hc, addCount, keepIdx_run, withIdx, writeTemp,
      writeIdx] at hrun
    subst hrun
    first | exact hx' | exact canon_loadArr _ _

/-- A block token that denotes a content. -/
theorem inv_blockToken {st : ItState} {b : BlockOperand} (hi : Inv s) (hwalk : Walking s)
    (hd : decodeToken s.stream = .ok i c) (hn : s.nb < s.params.totalBlocks) (hst : blockForm i = some st)
    (hb : tokenOperand i = some b) :
    Inv (settle (blockToken st (some b) (mergeOf i)) (preBlock (fetched c s) i)) := by
  have hs := sound_fetched hi.sound hd
  have hl : Legible i := fun _ => by rw [hb]; exact nofun
  rcases hwalk with hm | ho
  · obtain ⟨slot, al, tb, hrun, hslot⟩ := mergeOf_slot (s := withIdx b (preBlock (fetched c s) i)) hb
    have hm' : Merging (preBlock (fetched c s) i) := hm
    rw [settle_ok ((blockToken_merge hm' hn).trans hrun)]
    exact inv_of_token hi (.inl hm) hd hl ⟨rfl, rfl, rfl, rfl, rfl, rfl, rfl, rfl, rfl, rfl⟩
      ⟨hs.params, hs.buf, BlockStore.wf_put hs.store hn hslot, hn, hs.size, hs.cfg, hs.op, hs.rangeFrom⟩
      (canonIdx_withIdx b hi.scratch) rfl rfl ⟨rfl, rfl⟩
  · have ho' : Operating (preBlock (fetched c s) i) := ho
    obtain ⟨idx, hrun⟩ := blockToken_operate (b := b) (merge := mergeOf i) ho' (blockForm_states hst) hn
    have hidx := canonIdx_blockToken ho' (blockForm_states hst) hn hi.scratch hrun
    rw [settle_ok hrun]
    refine inv_of_token hi (.inr ho) hd hl ⟨rfl, rfl, rfl, rfl, rfl, rfl, rfl, rfl, rfl, rfl⟩ ?_ hidx rfl rfl ⟨rfl, rfl⟩
    refine ⟨hs.params, hs.buf, ?_, hn, hs.size, hs.cfg, hs.op, hs.rangeFrom⟩
    dsimp only
    split
    · exact hs.store
    · refine BlockStore.wf_put hs.store hn ?_
      split
      · exact wf_bitResultSlot _ _ _ _ _
      · exact wf_gapResultSlot _ _ _ _ _

/-- A token step of either walk. -/
theorem inv_tokenStep (hi : Inv s) (hwalk : Walking s) (hn : s.nb < s.params.totalBlocks)
    (h : tokenStep s = .next t) : Inv t := by
  cases hd : decodeToken s.stream with
  | error e c =>
    have hreads := reads_decodeToken s.stream
    rw [hd] at hreads
    obtain ⟨-, bt, hstep⟩ := tokenStep_error hd
    rw [hstep] at h
    cases h
    have hs := hi.sound
    exact inv_takeError (s := { s with blockType := bt, stream := c })
      ⟨hs.params, by rw [hreads.2.1]; exact hs.buf, hs.store, hs.nb, hs.size, hs.cfg, hs.op, hs.rangeFrom⟩ _
  | ok i c =>
    rw [tokenStep_ok hd] at h
    have h : exec i (fetched c s) = .next t := h
    have hs := sound_fetched hi.sound hd
    rcases token_kinds (yields_decodeToken _ _ _ hd) (fetched c s) with
      ⟨hnone, ⟨one, n, hrun⟩ | hend | hres⟩ | ⟨st, hst⟩
    · rw [exec_run hrun] at h
      cases h
      exact inv_runToken hi hwalk hd (legible_of_not_block hnone)
    · rw [exec_end hend] at h
      cases h
      exact inv_endToken hi hwalk hd (legible_of_not_block hnone)
    · rw [exec_reserved hres] at h
      cases h
      rw [settle_error (reservedTag_walk (s := fetched c s) hwalk)]
      exact inv_takeError hs _
    · rw [exec_block hst] at h
      cases h
      have hs' : Sound (preBlock (fetched c s) i) :=
        ⟨hs.params, hs.buf, hs.store, hs.nb, hs.size, hs.cfg, hs.op, hs.rangeFrom⟩
      cases hb : tokenOperand i with
      | some b => exact inv_blockToken hi hwalk hd hn hst hb
      | none =>
        have hwalk' : Walking (preBlock (fetched c s) i) := hwalk
        obtain ⟨st', herr⟩ := blockToken_malformed (st := st) (merge := mergeOf i) hwalk' hn
        rw [settle_error herr]
        exact inv_takeError (s := { preBlock (fetched c s) i with st := st' })
          ⟨hs'.params, hs'.buf, hs'.store, hs'.nb, hs'.size, hs'.cfg, hs'.op, hs'.rangeFrom⟩ _

end Tokens

/-! ### The engine -/

theorem leads_finalize (hn : s.nb ≤ s.params.totalBlocks) : Leads Safe s (finalize s) := by
  rw [finalize_run hn]
  exact safe_zeroRun s hn

theorem inv_mergeStep (hi : Inv s) (hb : s.runState = .busy) (hp : s.phase = .tokens) (hc : s.cmd = 3)
    (h : mergeStep s = .next t) : Inv t := by
  rw [mergeStep] at h
  split at h
  · cases h
    refine inv_settle_finish hi.sound (hi.busy_noError hb) ?_ finishBytes_ends
    exact ⟨rfl, rfl, rfl, rfl, rfl, rfl, rfl, id, id⟩
  · next hgo =>
    obtain ⟨heos, hn⟩ := not_or.1 hgo
    exact inv_tokenStep hi (.inl ⟨hb, hp, Bool.eq_false_iff.2 heos, hc⟩) (Nat.lt_of_not_le hn) h

theorem inv_operateStep (hi : Inv s) (hb : s.runState = .busy) (hp : s.phase = .tokens) (hc : s.cmd ≠ 3)
    (h : operateStep s = .next t) : Inv t := by
  have hst : s.st = .blocks := ((hi.walk hb hc).1 hp).1
  have hnone := hi.busy_noError hb
  rw [operateStep] at h
  split at h
  · cases h
    exact inv_settle_finish hi.sound hnone (leads_finalize hi.nb) finishOperation_ends
  · next heos =>
    split at h
    · cases h
      rw [settle_ok (finishOperation_run s)]
      exact inv_finished hi.sound hnone _ _
    · split at h
      · have hnext : nextEnd s = .ok () { s with eos := true } := by
          simp [nextEnd, requireSt, run_bind, hst, setEos]
        have hbody : Leads Safe s ((do nextEnd; finalize : M Unit) s) := by
          rw [run_bind_ok hnext]
          exact Leads.trans (s := s) (t := { s with eos := true }) path_safe ⟨rfl, rfl, rfl, rfl, rfl, rfl, rfl, id, id⟩
            (leads_finalize (s := { s with eos := true }) hi.nb)
        cases h
        have hend := inv_settle_finish hi.sound hnone hbody finishOperation_ends
        rwa [bind_assoc] at hend
      · next hn =>
        exact inv_tokenStep hi (.inr ⟨hb, hp, Bool.eq_false_iff.2 heos, (hi.command hb).resolve_left hc, hst⟩)
          (Nat.lt_of_not_le hn) h

/-- One step of the running command. -/
theorem inv_engineStep (hi : Inv s) (h : engineStep s = .next t) : Inv t := by
  by_cases hb : s.runState = .busy
  · obtain ⟨-, hphase⟩ := hi.phase.resolve_right fun h => h.1 hb
    rw [engineStep, if_neg (not_not.2 hb)] at h
    rcases hphase with hp | hp | hp <;> rw [hp] at h
    · exact inv_headerStep hi hb hp h
    · have h : idStep s = .next t := h
      rw [idStep] at h
      split at h
      · cases h
        exact inv_settle_finish hi.sound (hi.busy_noError hb) (.of_closed (safe_mergeIds _) s) finishBytes_ends
      · next hc =>
        obtain ⟨-, ho, hnb⟩ := (hi.walk hb hc).2 hp
        cases h
        exact inv_doIdList hi.sound (hi.busy_noError hb) ho hnb
    · have h : (if s.cmd = 3 then mergeStep s else operateStep s) = .next t := h
      split at h
      · next hc => exact inv_mergeStep hi hb hp hc h
      · next hc => exact inv_operateStep hi hb hp hc h
  · rw [engineStep_idle hb] at h
    cases h
    exact hi

/-! ### The host port -/

section HostPort

/-- A host access while no command runs, which touches neither STATUS nor IDX_ARR. -/
theorem inv_of_access (hi : Inv s) (hb : s.runState ≠ .busy) (hs : Sound t)
    (hstatus : t.runState = s.runState ∧ t.err = s.err ∧ t.cause = s.cause) (hphase : t.phase = s.phase)
    (hidx : t.idxArr = s.idxArr) : Inv t := by
  obtain ⟨h1, h2, h3⟩ := hstatus
  refine inv_of_idle hs (by rw [h1]; exact hb) (hphase.trans ?_) (by rw [h1, h2, h3]; exact hi.status)
    (by rw [hidx]; exact hi.scratch)
  exact (hi.phase.resolve_left fun h => hb h.1).2

/-- A decode command has started. -/
theorem inv_atHeader (hi : Inv s) {code : U64} (hc : code = 3 ∨ code = 4 ∨ code = 5)
    (hrange : code = 5 → s.rangeFrom.toNat ≤ s.rangeTo.toNat ∧ s.rangeTo.toNat < 2 ^ s.params.aw.bits) :
    Inv { startCommand code s with phase := .header } where
  params := hi.params
  buf := hi.buf
  store := hi.store
  nb := Nat.zero_le _
  size := hi.size
  cfg := hi.cfg
  op := hi.op
  phase := .inl ⟨rfl, .inl rfl⟩
  status := .inr ⟨nofun, rfl, rfl⟩
  command := fun _ => hc
  writer := fun _ => ⟨rfl, rfl⟩
  reader := fun _ => ⟨rfl, rfl⟩
  rangeFrom := hi.rangeFrom
  scratch := hi.scratch
  range := fun _ => ⟨decide_eq_true_iff, hrange⟩
  walk := fun _ _ => ⟨nofun, nofun⟩

theorem inv_command {v : U64} {i : Instr} (hi : Inv s) (hv : decodeCommand v = some i) (h : exec i s = .next t) :
    Inv t := by
  have hstart := fun code => sound_startCommand hi.sound code
  rcases decodeCommand_cases hv with rfl | rfl | rfl | rfl | rfl <;> cases h
  · exact inv_serialize hi.sound
  · exact inv_serializeDestroy hi.sound
  · exact inv_atHeader hi (code := 3) (.inl rfl) fun h => absurd h (by decide)
  · by_cases hop : setOpOf s.op = none
    · rw [settle_error (beginOp_error (s := startCommand 4 s) hop)]
      exact inv_takeError (hstart 4) _
    · rw [settle_ok (beginOp_legal (s := startCommand 4 s) hop)]
      exact inv_atHeader hi (code := 4) (.inr (.inl rfl)) fun h => absurd h (by decide)
  · by_cases hr : s.rangeTo.toNat < s.rangeFrom.toNat ∨ 2 ^ s.params.aw.bits ≤ s.rangeTo.toNat
    · rw [settle_error (beginRange_error (s := startCommand 5 s) hr)]
      exact inv_takeError (hstart 5) _
    · have h1 : s.rangeFrom.toNat ≤ s.rangeTo.toNat := by omega
      have h2 : s.rangeTo.toNat < 2 ^ s.params.aw.bits := by omega
      rw [settle_ok (beginRange_legal (s := startCommand 5 s) h1 h2)]
      exact inv_atHeader hi (code := 5) (.inr (.inr rfl)) fun _ => ⟨h1, h2⟩

theorem cfgMask_cfgMask (v : U64) : cfgMask (cfgMask v) = cfgMask v := by
  rw [cfgMask, cfgMask, BitVec.and_assoc, BitVec.and_self]

theorem inv_writeReg {no : Nat} {v : U64} (hi : Inv s) (h : writeReg no v s = .next t) : Inv t := by
  have hs := hi.sound
  unfold writeReg at h
  split at h
  · cases h
  next hb =>
  have hkeep : ∀ u : State, Sound u → u.runState = s.runState ∧ u.err = s.err ∧ u.cause = s.cause →
      u.phase = s.phase → u.idxArr = s.idxArr → Inv u := fun u hu h1 h2 h3 => inv_of_access hi hb hu h1 h2 h3
  split at h
  · cases h
    exact hkeep _ ⟨hs.params, hs.buf, hs.store, hs.nb, hs.size, cfgMask_cfgMask v, hs.op, hs.rangeFrom⟩
      ⟨rfl, rfl, rfl⟩ rfl rfl
  · split at h
    · next hv => exact inv_command hi hv h
    · cases h
  · cases h
    exact hkeep _ ⟨hs.params, hs.buf, hs.store, hs.nb, hs.size, hs.cfg, cfgMask_cfgMask v, hs.rangeFrom⟩
      ⟨rfl, rfl, rfl⟩ rfl rfl
  · cases h
    refine hkeep _ ⟨hs.params, hs.buf, hs.store, hs.nb, hs.size, hs.cfg, hs.op, ?_⟩ ⟨rfl, rfl, rfl⟩ rfl rfl
    show (rangeMask s.params.aw v).toNat < _
    rw [toNat_rangeMask]
    exact Nat.mod_lt _ (Nat.two_pow_pos _)
  all_goals cases h
  · exact hkeep _ ⟨hs.params, hs.buf, hs.store, hs.nb, hs.size, hs.cfg, hs.op, hs.rangeFrom⟩ ⟨rfl, rfl, rfl⟩ rfl rfl
  · exact hkeep _ ⟨hs.params, hs.buf, hs.store, hs.nb, hs.size, hs.cfg, hs.op, hs.rangeFrom⟩ ⟨rfl, rfl, rfl⟩ rfl rfl
  all_goals exact hi

/-- What the host reads, and the number of draws, are not part of the invariant. -/
theorem inv_hostData (hi : Inv s) (v : U64) (d : Nat) : Inv { s with hostData := v, draws := d } := by
  obtain ⟨a1, a2, a3, a4, a5, a6, a7, a8, a9, a10, a11, a12, a13, a14, a15, a16⟩ := hi
  exact ⟨a1, a2, a3, a4, a5, a6, a7, a8, a9, a10, a11, a12, a13, a14, a15, a16⟩

theorem inv_host (hi : Inv s) (rest : List HostEvent) : Inv { s with host := rest } := by
  obtain ⟨a1, a2, a3, a4, a5, a6, a7, a8, a9, a10, a11, a12, a13, a14, a15, a16⟩ := hi
  exact ⟨a1, a2, a3, a4, a5, a6, a7, a8, a9, a10, a11, a12, a13, a14, a15, a16⟩

theorem inv_readReg {no : Nat} (hi : Inv s) (h : readReg no s = .next t) : Inv t := by
  have hdata : ∀ v, Inv { s with hostData := v } := fun v => inv_hostData hi v s.draws
  have hgot : ∀ v, .next { s with hostData := v } = (.next t : Host.Outcome State Fault Refusal) → Inv t :=
    fun v h => by
      cases h
      exact hdata v
  have hidle : ∀ v, (if decide (s.runState = .busy) = true then .refused .hostAccessWhileBusy
      else .next { s with hostData := v }) = (.next t : Host.Outcome State Fault Refusal) → Inv t := fun v h => by
    split at h
    · cases h
    · exact hgot v h
  have hresult : ∀ v, (if decide (s.runState = .busy) = true then
        .next { s with hostData := Config.freeResult s.draws, draws := s.draws + 1 }
      else .next { s with hostData := v }) = (.next t : Host.Outcome State Fault Refusal) → Inv t := fun v h => by
    split at h
    · cases h
      exact inv_hostData hi _ _
    · exact hgot v h
  unfold readReg at h
  dsimp only at h
  split at h
  · exact hidle _ h
  · exact hgot _ h
  · exact hidle _ h
  · exact hidle _ h
  · exact hidle _ h
  · exact hidle _ h
  · exact hgot _ h
  · exact hresult _ h
  · exact hresult _ h
  · cases h

theorem inv_resetOver {p : Params} {buf : Memory} {bs : BlockStore} {size : Nat} (hp : p.Valid) (hbuf : buf.wf = true)
    (hbs : bs.wf p = true) (hsize : 1 ≤ size ∧ size < 2 ^ p.aw.bits) (draws : Nat) (host : List HostEvent)
    (hostData : U64) : Inv (State.resetOver p buf bs size draws host hostData) where
  params := hp
  buf := hbuf
  store := hbs
  nb := Nat.zero_le _
  size := hsize
  cfg := show cfgMask State.cfgReset = State.cfgReset by decide
  op := show opMask 0 = 0 by decide
  phase := .inr ⟨nofun, rfl⟩
  status := .inr ⟨nofun, rfl, rfl⟩
  command := nofun
  writer := nofun
  reader := nofun
  rangeFrom := Nat.two_pow_pos _
  scratch := ⟨Nat.zero_le _, nofun⟩
  range := nofun
  walk := nofun

theorem inv_resetMachine (hi : Inv s) : Inv (resetMachine s) := by
  refine inv_resetOver hi.params hi.buf ?_ ?_ _ _ _
  · split
    · exact wf_openStore hi.store _
    · exact hi.store
  · split
    · exact openSize_legal _ _
    · exact hi.size

theorem inv_resetDuringCommand (hi : Inv s) (i : Instr) : Inv (resetDuringCommand i s) := by
  have hbuf := Memory.wf_openBelow hi.buf s.stream.bufSize.toNat s.draws
  have hbs := wf_openStore hi.store s.draws
  cases i
  case serialize => exact inv_resetOver hi.params hbuf hi.store hi.size _ _ _
  case serializeDestroy => exact inv_resetOver hi.params hbuf hbs hi.size _ _ _
  case deserialize => exact inv_resetOver hi.params hi.buf hbs (openSize_legal _ _) _ _ _
  all_goals exact inv_resetOver hi.params hi.buf hbs hi.size _ _ _

theorem of_whenIdle {o : Host.Outcome State Fault Refusal} (h : whenIdle s o = .next t) :
    s.runState ≠ .busy ∧ o = .next t := by
  rw [whenIdle] at h
  split at h
  · cases h
  · exact ⟨‹_›, h⟩

/-- An access of the host to a memory. -/
theorem inv_memoryAccess (hi : Inv s) (hb : s.runState ≠ .busy) {buf : Memory} {bs : BlockStore} {size : Nat}
    (hbuf : buf.wf = true) (hbs : bs.wf s.params = true) (hsize : 1 ≤ size ∧ size < 2 ^ s.params.aw.bits) :
    Inv { s with stream := { s.stream with buf := buf }, bs := bs, bsSize := size } :=
  inv_of_access hi hb ⟨hi.params, hbuf, hbs, hi.nb, hsize, hi.cfg, hi.op, hi.rangeFrom⟩ ⟨rfl, rfl, rfl⟩ rfl rfl

theorem inv_hostStep {e : HostEvent} (hi : Inv s) (h : hostStep e s = .next t) : Inv t := by
  cases e with
  | writeReg no v => exact inv_writeReg hi h
  | readReg no => exact inv_readReg hi h
  | writeBuf a v =>
    obtain ⟨hb, h⟩ := of_whenIdle h
    cases h
    exact inv_memoryAccess hi hb (Memory.wf_write hi.buf _ _) hi.store hi.size
  | readBuf a =>
    obtain ⟨-, h⟩ := of_whenIdle h
    cases h
    exact inv_hostData hi _ s.draws
  | putSlot nb slot =>
    obtain ⟨hb, h⟩ := of_whenIdle h
    split at h
    · next hn =>
      split at h
      · next hslot =>
        cases h
        exact inv_memoryAccess hi hb hi.buf (BlockStore.wf_put hi.store hn hslot) hi.size
      · cases h
    · cases h
  | setSize n =>
    obtain ⟨hb, h⟩ := of_whenIdle h
    split at h
    · next hn =>
      cases h
      exact inv_memoryAccess hi hb hi.buf hi.store hn
    · cases h
  | readBit i =>
    obtain ⟨-, h⟩ := of_whenIdle h
    split at h
    · cases h
      exact inv_hostData hi _ s.draws
    · cases h
  | reset =>
    cases h
    exact inv_resetMachine hi
  | resetDuring v =>
    obtain ⟨-, h⟩ := of_whenIdle h
    split at h
    · cases h
      exact inv_resetDuringCommand hi _
    · cases h
  | tick => exact inv_engineStep hi h
  | await => exact inv_engineStep hi h

end HostPort

end Runs

/-- Settles O60: the engine's steps phase by phase, the host's events one by one. -/
theorem invariantKept : Obligations.InvariantKept := by
  intro s t hi h
  have h : advance s = .next t := h
  rw [advance] at h
  split at h
  · exact inv_engineStep hi h
  · next e rest _ =>
    split at h
    · exact inv_engineStep hi h
    · exact inv_hostStep (inv_host hi rest) h

end Sys2Proof.Machine

/-! The byte and bit writers, exactly (20_memory.md rule R64, 40_bitcodec.md rules R170 to R176): a writer that has
room puts its bytes at POS, and one that has not ends in an error. A bit writer is followed through the whole
words it has written and the bits WACC still holds. -/

namespace Sys2Proof.Machine

/-! ### Bytes -/

theorem writeList_append (m : Memory) (a : Nat) (xs ys : List Byte) :
    m.writeList a (xs ++ ys) = (m.writeList a xs).writeList (a + xs.length) ys := by
  induction xs generalizing m a with
  | nil => rfl
  | cons x xs ih =>
    rw [List.cons_append, Memory.writeList, Memory.writeList, ih, List.length_cons, Nat.add_assoc, Nat.add_comm 1]

/-- The bytes written at POS, and POS behind them. -/
def Stream.put (c : Stream) (bs : List Byte) : Stream :=
  { c with buf := c.buf.writeList c.pos bs, pos := c.pos + bs.length }

theorem Stream.put_append (c : Stream) (xs ys : List Byte) : c.put (xs ++ ys) = (c.put xs).put ys := by
  simp only [Stream.put, writeList_append, List.length_append, Nat.add_assoc]

theorem wrote_put {c : Stream} (h : c.buf.wf = true) (bs : List Byte) : Wrote bs c (c.put bs) :=
  ⟨rfl, Memory.readList_writeList h _ _, fun a ha => by
    rw [Stream.put, Memory.read_writeList h, if_neg (by omega)]⟩

/-- A writer of these bytes: it puts them at POS, or the buffer has no room for them and it ends in an error. -/
def Exactly (bs : List Byte) (x : Codec Unit) : Prop :=
  ∀ c, c.wacc = 0 → c.wused = 0 →
    x c = .ok () (c.put bs) ∨ (c.bufSize.toNat < c.pos + bs.length ∧ ∃ e d, x c = .error e d)

section Exactly

variable {xs ys bs : List Byte} {x y : Codec Unit} {p : Prop} [Decidable p]

theorem Exactly.nothing : Exactly [] (return ()) := fun _ _ _ => .inl rfl

theorem Exactly.bind (hx : Exactly xs x) (hy : Exactly ys y) : Exactly (xs ++ ys) (do x; y) := by
  intro c ha hu
  rw [List.length_append]
  rcases hx c ha hu with h | ⟨hfull, e, d, h⟩
  · rw [run_bind_ok h, Stream.put_append]
    rcases hy (c.put xs) ha hu with h' | ⟨hfull, h'⟩
    · exact .inl h'
    · exact .inr ⟨by simp only [Stream.put] at hfull; omega, h'⟩
  · exact .inr ⟨by omega, e, d, run_bind_error h⟩

theorem Exactly.guard {r : PrecondReason} {f : PUnit → Codec Unit} (hp : ¬p) (hy : Exactly bs y) :
    Exactly bs (if p then faultPre r >>= f else y) := by
  rwa [if_neg hp]

/-- An optional part, then the rest. -/
theorem Exactly.opt (hx : Exactly xs x) (hy : Exactly ys y) :
    Exactly ((if p then xs else []) ++ ys) (if p then (do x; y) else y) := by
  split
  · exact hx.bind hy
  · exact hy

theorem Exactly.ite (hx : p → Exactly xs x) (hy : ¬p → Exactly ys y) :
    Exactly (if p then xs else ys) (if p then x else y) := by
  split
  · exact hx ‹_›
  · exact hy ‹_›

theorem Exactly.of_eq (h : Exactly xs x) (he : xs = ys) : Exactly ys x := he ▸ h

end Exactly

theorem exactly_putBytes (bs : List Byte) : Exactly bs (putBytes bs) := by
  intro c _ _
  rw [run_putBytes]
  split
  · exact .inr ⟨‹_›, _, _, rfl⟩
  · exact .inl rfl

theorem exactly_putU8 (v : Byte) : Exactly [v] (putU8 v) := exactly_putBytes _

theorem exactly_putU16 (v : U16) : Exactly (wireBytes true 2 v.toNat) (putU16 v) := exactly_putBytes _

theorem exactly_putU32 (v : U32) : Exactly (wireBytes true 4 v.toNat) (putU32 v) := exactly_putBytes _

theorem exactly_putU64 (v : U64) : Exactly (wireBytes true 8 v.toNat) (putU64 v) := exactly_putBytes _

theorem exactly_putU16N {v : Nat} (h : v < 65536) :
    Exactly (wireBytes true 2 (BitVec.ofNat 16 v).toNat) (putU16N v) :=
  Exactly.guard (by omega) (exactly_putU16 _)

theorem exactly_putU32N {v : Nat} (h : v < 2 ^ 32) :
    Exactly (wireBytes true 4 (BitVec.ofNat 32 v).toNat) (putU32N v) :=
  Exactly.guard (by omega) (exactly_putU32 _)

theorem exactly_putU64N {v : Nat} (h : v < 2 ^ 64) :
    Exactly (wireBytes true 8 (BitVec.ofNat 64 v).toNat) (putU64N v) :=
  Exactly.guard (by omega) (exactly_putU64 _)

theorem exactly_putU16Ns {l : List Nat} (h : ∀ v ∈ l, v < 65536) :
    Exactly (wireU16s true (l.map (BitVec.ofNat 16))) (putU16Ns l) := by
  induction l with
  | nil => exact .nothing
  | cons v l ih =>
    exact (exactly_putU16N (h v List.mem_cons_self)).bind (ih fun w hw => h w (List.mem_cons_of_mem v hw))

theorem exactly_putU16Array (l : List U16) : Exactly (wireU16s true l) (putU16Array l) := by
  induction l with
  | nil => exact .nothing
  | cons v l ih => exact (exactly_putU16 v).bind ih

theorem exactly_putU32Array (l : List U32) : Exactly (wireU32s true l) (putU32Array l) := by
  induction l with
  | nil => exact .nothing
  | cons v l ih => exact (exactly_putU32 v).bind ih

/-! ### Words of bits -/

theorem packWords_append {n : Nat} {bs : List Bool} (more : List Bool) (h : 32 * n ≤ bs.length) :
    packWords n (bs ++ more) = packWords n bs := by
  induction n generalizing bs with
  | zero => rfl
  | succ n ih =>
    rw [packWords, packWords, List.take_append_of_le_length (by omega), List.drop_append_of_le_length (by omega),
      ih (by rw [List.length_drop]; omega)]

theorem packWords_succ (n : Nat) (bs : List Bool) :
    packWords (n + 1) bs = packWords n bs ++ [BitVec.ofNat 32 (bitsValue ((bs.drop (32 * n)).take 32))] := by
  induction n generalizing bs with
  | zero => rfl
  | succ n ih =>
    rw [packWords, ih, packWords, List.cons_append, List.drop_drop, Nat.mul_succ, Nat.add_comm]

theorem wireU32s_append (sbo : Bool) (xs ys : List U32) :
    wireU32s sbo (xs ++ ys) = wireU32s sbo xs ++ wireU32s sbo ys := List.flatMap_append

/-- The bits that stream bits leave behind their whole words. -/
def lastBits (bs : List Bool) : List Bool := bs.drop (32 * (bs.length / 32))

theorem length_lastBits (bs : List Bool) : (lastBits bs).length = bs.length % 32 := by
  rw [lastBits, List.length_drop]
  omega

/-- The whole words of a list of bits, on the wire. -/
def wholeWords (bs : List Bool) : List Byte := wireU32s true (packWords (bs.length / 32) bs)

theorem length_wholeWords (bs : List Bool) : (wholeWords bs).length = 4 * (bs.length / 32) := by
  rw [wholeWords, length_wireU32s, length_packWords]

/-- One bit more that ends no word. -/
theorem snoc_within (bs : List Bool) (b : Bool) (h : bs.length % 32 ≠ 31) :
    wholeWords (bs ++ [b]) = wholeWords bs ∧ lastBits (bs ++ [b]) = lastBits bs ++ [b] := by
  have hk : (bs ++ [b]).length / 32 = bs.length / 32 := by
    rw [List.length_append, List.length_singleton]
    omega
  rw [wholeWords, wholeWords, lastBits, lastBits, hk, packWords_append _ (by omega),
    List.drop_append_of_le_length (by omega)]
  exact ⟨rfl, rfl⟩

/-- One bit more that ends a word. -/
theorem snoc_full (bs : List Bool) (b : Bool) (h : bs.length % 32 = 31) :
    wholeWords (bs ++ [b]) =
        wholeWords bs ++ wireBytes true 4 (BitVec.ofNat 32 (bitsValue (lastBits bs ++ [b]))).toNat ∧
      lastBits (bs ++ [b]) = [] := by
  have hk : (bs ++ [b]).length / 32 = bs.length / 32 + 1 := by
    rw [List.length_append, List.length_singleton]
    omega
  constructor
  · rw [wholeWords, hk, packWords_succ, wireU32s_append, packWords_append _ (by omega),
      List.drop_append_of_le_length (by omega), List.take_of_length_le]
    · simp [wholeWords, wireU32s, lastBits]
    · rw [List.length_append, ← lastBits, length_lastBits, h, List.length_singleton]
  · rw [← List.length_eq_zero_iff, length_lastBits, List.length_append, List.length_singleton]
    omega

/-! ### The bit writer -/

/-- The stream side with these bits in WACC. -/
def Stream.hold (c : Stream) (bs : List Bool) : Stream :=
  { c with wacc := BitVec.ofNat 32 (bitsValue bs), wused := bs.length }

/-- The stream side after these bits: the whole words are written, the rest is in WACC. -/
def Stream.bits (c : Stream) (bs : List Bool) : Stream := (c.put (wholeWords bs)).hold (lastBits bs)

theorem bits_nil {c : Stream} (ha : c.wacc = 0) (hu : c.wused = 0) : c.bits [] = c := by
  obtain ⟨buf, bufSize, sbo, pos, wacc, wused, racc, ravail⟩ := c
  cases ha
  cases hu
  rfl

/-- Writing out what WACC holds leaves it empty. -/
theorem put_hold_clear {c : Stream} (ha : c.wacc = 0) (hu : c.wused = 0) (bits : List Bool) (bs : List Byte) :
    { (c.hold bits).put bs with wacc := 0, wused := 0 } = c.put bs := by
  obtain ⟨buf, bufSize, sbo, pos, wacc, wused, racc, ravail⟩ := c
  cases ha
  cases hu
  rfl

theorem bitsValue_snoc (bs : List Bool) (b : Bool) :
    bitsValue (bs ++ [b]) = bitsValue bs + (if b then 1 else 0) * 2 ^ bs.length := by
  induction bs with
  | nil => simp [bitsValue]
  | cons x bs ih =>
    rw [List.cons_append, bitsValue, bitsValue, ih, List.length_cons, Nat.pow_succ]
    ring

/-- The next bit goes above the bits WACC holds. -/
theorem hold_snoc (bs : List Bool) (b : Bool) :
    BitVec.ofNat 32 (bitsValue bs) ||| (((if b then 1 else 0) <<< bs.length : Nat) : U32) =
      BitVec.ofNat 32 (bitsValue (bs ++ [b])) := by
  have hlt := bitsValue_lt bs
  have hbit : (if b then 1 else 0) <<< bs.length = 2 ^ bs.length * (if b then 1 else 0) := by
    rw [Nat.shiftLeft_eq, Nat.mul_comm]
  rw [hbit, BitVec.natCast_eq_ofNat, ← BitVec.ofNat_or, Nat.lor_comm, ← Nat.two_pow_add_eq_or_of_lt hlt, bitsValue_snoc,
    Nat.add_comm, Nat.mul_comm]

/-- A writer of these bits. -/
def ExactBits (bits : List Bool) (x : Codec Unit) : Prop :=
  ∀ (c : Stream) (bs : List Bool), x (c.bits bs) = .ok () (c.bits (bs ++ bits)) ∨
    (c.bufSize.toNat < c.pos + (wholeWords (bs ++ bits)).length ∧ ∃ e d, x (c.bits bs) = .error e d)

section ExactBits

variable {xs ys bits : List Bool} {x y : Codec Unit} {p : Prop} [Decidable p]

theorem ExactBits.nothing : ExactBits [] (return ()) := fun c bs => .inl (by rw [List.append_nil]; rfl)

theorem ExactBits.bind (hx : ExactBits xs x) (hy : ExactBits ys y) : ExactBits (xs ++ ys) (do x; y) := by
  intro c bs
  rw [← List.append_assoc]
  rcases hx c bs with h | ⟨hfull, e, d, h⟩
  · rw [run_bind_ok h]
    exact hy c (bs ++ xs)
  · refine .inr ⟨?_, e, d, run_bind_error h⟩
    rw [length_wholeWords] at hfull ⊢
    rw [List.length_append (bs := ys)]
    omega

theorem ExactBits.guard {r : PrecondReason} {f : PUnit → Codec Unit} (hp : ¬p) (hy : ExactBits bits y) :
    ExactBits bits (if p then faultPre r >>= f else y) := by
  rwa [if_neg hp]

theorem ExactBits.opt (hx : p → ExactBits xs x) (hy : ExactBits ys y) :
    ExactBits ((if p then xs else []) ++ ys) (if p then (do x; y) else y) := by
  split
  · exact (hx ‹_›).bind hy
  · exact hy

end ExactBits

theorem run_wordOut (c : Stream) : wordOut c =
    if c.bufSize.toNat < c.pos + 4 then .error (.precondition .buffer) c
    else .ok () { c.put (wireBytes true 4 c.wacc.toNat) with wacc := 0, wused := 0 } := by
  have hput := run_putBytes (leBytes 4 c.wacc.toNat) c
  rw [show (leBytes 4 c.wacc.toNat).length = 4 from rfl] at hput
  rw [wordOut, run_bind, run_get]
  dsimp only
  by_cases hfull : c.bufSize.toNat < c.pos + 4
  · rw [if_pos hfull] at hput ⊢
    exact run_bind_error hput
  · rw [if_neg hfull] at hput ⊢
    exact run_bind_ok hput

theorem exactBits_putBit (b : Bool) : ExactBits [b] (putBit b) := by
  intro c bs
  have hlast := length_lastBits bs
  have hrun : putBit b (c.bits bs) =
      (if (lastBits bs).length + 1 = 32 then wordOut else return ())
        ((c.put (wholeWords bs)).hold (lastBits bs ++ [b])) := by
    have hstate : (c.put (wholeWords bs)).hold (lastBits bs ++ [b]) = { c.bits bs with
        wacc := (c.bits bs).wacc ||| (((if b then 1 else 0) <<< (c.bits bs).wused : Nat) : U32)
        wused := (c.bits bs).wused + 1 } := by
      simp only [Stream.bits, Stream.hold, hold_snoc (lastBits bs) b, List.length_append,
        List.length_singleton]
    rw [hstate]
    rfl
  rw [hrun]
  by_cases h31 : bs.length % 32 = 31
  · obtain ⟨hwords, hnil⟩ := snoc_full bs b h31
    rw [if_pos (by omega), run_wordOut]
    have hlen : (wholeWords (bs ++ [b])).length = (wholeWords bs).length + 4 := by
      rw [hwords, List.length_append]
      rfl
    split
    · next hfull =>
      refine .inr ⟨?_, _, _, rfl⟩
      rw [hlen]
      simp only [Stream.hold, Stream.put] at hfull
      omega
    · left
      rw [Stream.bits, hnil, hwords, Stream.put_append]
      rfl
  · obtain ⟨hwords, hmore⟩ := snoc_within bs b h31
    rw [if_neg (by omega), Stream.bits, hwords, hmore]
    exact .inl rfl

theorem exactBits_putLowBits (v n : Nat) : ExactBits (lowBits n v) (putLowBits v n) := by
  induction n generalizing v with
  | zero => exact .nothing
  | succ n ih => exact (exactBits_putBit _).bind (ih _)

theorem exactBits_putBits {v n : Nat} (hn : n ≤ 32) (hv : v < 2 ^ n) : ExactBits (lowBits n v) (putBits v n) :=
  ExactBits.guard (by omega) (exactBits_putLowBits v n)

theorem exactBits_putZeros (n : Nat) : ExactBits (List.replicate n false) (putZeros n) := by
  induction n with
  | zero => exact .nothing
  | succ n ih => exact (exactBits_putBit false).bind ih

theorem exactBits_putGamma {v : Nat} (h0 : v ≠ 0) (h : v < 2 ^ 32) : ExactBits (gammaBits v) (putGamma v) := by
  have hlog : Nat.log2 v < 32 := (Nat.log2_lt h0).2 h
  have hself := Nat.lt_log2_self (n := v)
  rw [Nat.pow_succ] at hself
  exact .guard h0 ((exactBits_putZeros _).bind ((exactBits_putBit true).bind
    (exactBits_putBits (by omega) (by omega))))

theorem exactBits_putGammas {l : List Nat} (h : ∀ v ∈ l, v ≠ 0 ∧ v < 2 ^ 32) :
    ExactBits (l.flatMap gammaBits) (putGammas l) := by
  induction l with
  | nil => exact .nothing
  | cons v l ih =>
    obtain ⟨h0, hv⟩ := h v List.mem_cons_self
    exact (exactBits_putGamma h0 hv).bind (ih fun w hw => h w (List.mem_cons_of_mem v hw))

/-- Drained, the bit writer has written the bit-coded part (40_bitcodec.md rule R176). -/
theorem exactly_flushed {bits : List Bool} {x : Codec Unit} (h : ExactBits bits x) :
    Exactly (bitPart true bits) (do x; flush) := by
  intro c ha hu
  have hx := h c []
  rw [List.nil_append, bits_nil ha hu] at hx
  have hlen : (bitPart true bits).length = 4 * ((bits.length + 31) / 32) := by
    rw [bitPart, length_wireU32s, length_packWords]
  have hlast := length_lastBits bits
  rcases hx with hx | ⟨hfull, e, d, hx⟩
  · rw [run_bind_ok hx, flush, run_bind, run_get]
    dsimp only
    by_cases h0 : bits.length % 32 = 0
    · have hnil : lastBits bits = [] := List.length_eq_zero_iff.1 (by omega)
      have hwords : bitPart true bits = wholeWords bits := by
        rw [bitPart, wholeWords, show (bits.length + 31) / 32 = bits.length / 32 by omega]
      have hclean : c.bits bits = c.put (bitPart true bits) := by
        rw [Stream.bits, hnil, hwords]
        exact bits_nil (c := c.put (wholeWords bits)) ha hu
      rw [hclean, if_neg (by rw [show (c.put (bitPart true bits)).wused = 0 from hu]; omega)]
      exact .inl rfl
    · have hwords : bitPart true bits =
          wholeWords bits ++ wireBytes true 4 (BitVec.ofNat 32 (bitsValue (lastBits bits))).toNat := by
        rw [bitPart, show (bits.length + 31) / 32 = bits.length / 32 + 1 by omega, packWords_succ, wireU32s_append,
          ← lastBits, List.take_of_length_le (by omega)]
        simp [wholeWords, wireU32s]
      rw [if_pos (by rw [show (c.bits bits).wused = (lastBits bits).length from rfl]; omega), run_wordOut]
      split
      · next hfull =>
        refine .inr ⟨?_, _, _, rfl⟩
        simp only [Stream.bits, Stream.hold, Stream.put, length_wholeWords] at hfull
        omega
      · left
        rw [hwords, Stream.put_append]
        exact congrArg (EStateM.Result.ok ()) (put_hold_clear (c := c.put (wholeWords bits)) ha hu _ _)
  · refine .inr ⟨?_, e, d, run_bind_error hx⟩
    rw [length_wholeWords] at hfull
    omega

/-! ### The centre-minimal code of a rising list -/

theorem exactBits_center {r x : Nat} (hx : x ≤ r) (hr : r < 65536) :
    ExactBits (centerBits r x)
      (putBits x (if centerLong r x then Nat.log2 (r + 1) + 1 else Nat.log2 (r + 1))) := by
  have hlog : Nat.log2 (r + 1) < 17 := (Nat.log2_lt (by omega)).2 (by omega)
  have hhigh : r + 1 < 2 ^ (Nat.log2 (r + 1) + 1) := Nat.lt_log2_self
  rw [centerBits]
  by_cases hlong : centerLong r x = true
  · rw [if_pos hlong]
    exact exactBits_putBits (by omega) (by omega)
  · rw [if_neg hlong]
    rw [centerLong_iff] at hlong
    exact exactBits_putBits (by omega) (by omega)

theorem exactBits_bicEncodeFuel {fuel lo hiX : Nat} {l : List Nat} (h : Within lo hiX l) (hle : lo ≤ hiX)
    (hhi : hiX ≤ 65536) : ExactBits (bicBitsFuel fuel l lo hiX) (bicEncodeFuel fuel l lo hiX) := by
  induction fuel generalizing l lo hiX with
  | zero => exact .nothing
  | succ fuel ih =>
    rw [bicBitsFuel, bicEncodeFuel]
    by_cases h0 : l.length = 0
    · rw [if_pos h0, if_pos h0]
      exact .nothing
    · have hfits := h.length_le hle
      have hsplit := eq_split_middle h0
      obtain ⟨hlov, hvhi, hleft, hright⟩ := Within.split (hsplit ▸ h)
      have hlenl : (l.take (l.length / 2)).length = l.length / 2 := by rw [List.length_take]; omega
      have hlenr : (l.drop (l.length / 2 + 1)).length = l.length - l.length / 2 - 1 := by
        rw [List.length_drop]; omega
      have hroomr := hright.length_le hvhi
      have hrooml := hleft.length_le hlov
      rw [if_neg h0, if_neg h0, List.append_assoc]
      dsimp only
      exact .guard (by omega) (.opt (fun _ => exactBits_center (by omega) (by omega))
        ((ih hleft hlov (by omega)).bind (ih hright hvhi hhi)))

theorem exactBits_bicEncode {l : List Nat} {lo hi : Nat} (h : Within lo (hi + 1) l) (hle : lo ≤ hi + 1)
    (hhi : hi < 65536) (hlen : l.length ≤ 65535) :
    ExactBits (bicBits (l.map (BitVec.ofNat 16)) lo hi) (bicEncode l lo hi) := by
  have hmap : (l.map (BitVec.ofNat 16)).map BitVec.toNat = l := by
    rw [List.map_map]
    refine (List.map_congr_left fun x hx => ?_).trans (List.map_id l)
    exact Nat.mod_eq_of_lt (by have := h.lt x hx; omega)
  rw [bicBits, hmap, List.length_map]
  exact .guard (by omega) (exactBits_bicEncodeFuel h hle (by omega))

end Sys2Proof.Machine

/-! The tokens of a content as an index list or a GAP (42_block_encoder.md rules R257 to R267): for every form, the
token it stands for, that the emitter writes exactly this token's bytes, and that the token denotes the content. -/

namespace Sys2Proof.Machine

/-! ### What a form has to show -/

/-- A writer writes this token, of this form, which denotes this content; a GAP header carries this level. The bound
on the length is a plain one. -/
structure Spells (t : Proposal) (level : Fin 4) (c : Content) (i : Instr) (x : Codec Unit) : Prop where
  writes : Exactly (encode i) x
  tag : i.tag = t.tag
  denotes : Denotes i c
  level : ∀ head, headOf i = some head → head.toNat / 2 % 4 = level.val
  short : (encode i).length < 2 ^ 20

theorem denotes_of_shows {i : Instr} {c : Content} {f : Nat → Bool} (hw : i.wf = true)
    (hs : Shows (tokenOperand i) f) (hf : ∀ p, p < 65536 → f p = c.getLsbD p) : Denotes i c := by
  obtain ⟨b, hb, hbits⟩ := hs
  exact ⟨hw, b, hb, BitVec.eq_of_getLsbD_eq fun p hp => (hbits p hp).trans (hf p hp)⟩

/-! ### Positions as u16 -/

/-- The positions as the elements of IDX_ARR hold them. -/
def narrow (l : List Nat) : List U16 := l.map (BitVec.ofNat 16)

theorem length_narrow (l : List Nat) : (narrow l).length = l.length := List.length_map _

theorem toNat_narrow {l : List Nat} (h : ∀ x ∈ l, x < 65536) : (narrow l).map BitVec.toNat = l := by
  rw [narrow, List.map_map]
  exact (List.map_congr_left fun x hx => Nat.mod_eq_of_lt (h x hx)).trans (List.map_id l)

theorem any_narrow {l : List Nat} (h : ∀ x ∈ l, x < 65536) (p : Nat) :
    ((narrow l).any fun x => decide (x.toNat = p)) = l.any fun x => decide (x = p) := by
  conv_rhs => rw [← toNat_narrow h]
  rw [List.any_map]
  rfl

theorem rises_narrow {l : List Nat} {lo : Nat} (h : Within lo 65536 l) : risesFrom lo (narrow l) = true := by
  rw [risesFrom_eq, toNat_narrow h.lt]
  exact risesNat_of_pairwise h.rises h.ge

theorem length_wireU16s (sbo : Bool) (vs : List U16) : (wireU16s sbo vs).length = 2 * vs.length := by
  induction vs with
  | nil => rfl
  | cons v vs ih =>
    rw [wireU16s, List.flatMap_cons, List.length_append, ← wireU16s, ih, List.length_cons]
    cases sbo <;> simp [wireBytes, leBytes] <;> omega

/-! ### The lengths of bit codes -/

theorem length_gammaBits_le {v : Nat} (h0 : v ≠ 0) (h : v < 2 ^ 32) : (gammaBits v).length ≤ 63 := by
  have hlog : Nat.log2 v < 32 := (Nat.log2_lt h0).2 h
  rw [gammaBits, List.length_append, List.length_cons, length_lowBits, List.length_replicate]
  omega

theorem length_gammas_le {l : List Nat} (h : ∀ v ∈ l, v ≠ 0 ∧ v < 2 ^ 32) :
    (l.flatMap gammaBits).length ≤ 63 * l.length := by
  induction l with
  | nil => exact Nat.le_refl 0
  | cons v l ih =>
    obtain ⟨h0, hv⟩ := h v List.mem_cons_self
    have := length_gammaBits_le h0 hv
    have := ih fun w hw => h w (List.mem_cons_of_mem v hw)
    rw [List.flatMap_cons, List.length_append, List.length_cons]
    omega

theorem length_centerBits_le {r : Nat} (x : Nat) (hr : r < 65536) : (centerBits r x).length ≤ 17 := by
  have hlog : Nat.log2 (r + 1) < 17 := (Nat.log2_lt (by omega)).2 (by omega)
  rw [centerBits, length_lowBits]
  split <;> omega

theorem length_bicBitsFuel_le {fuel lo hiX : Nat} {l : List Nat} (h : Within lo hiX l) (hhi : hiX ≤ 65536) :
    (bicBitsFuel fuel l lo hiX).length ≤ 17 * l.length := by
  induction fuel generalizing l lo hiX with
  | zero => exact Nat.zero_le _
  | succ fuel ih =>
    rw [bicBitsFuel]
    by_cases h0 : l.length = 0
    · rw [if_pos h0]
      exact Nat.zero_le _
    · obtain ⟨hlov, hvhi, hleft, hright⟩ := Within.split (eq_split_middle h0 ▸ h)
      have hl := ih hleft (by omega)
      have hr := ih hright hhi
      rw [List.length_take] at hl
      rw [List.length_drop] at hr
      have hc := length_centerBits_le (r := hiX - lo - l.length)
        (l.getD (l.length / 2) 0 - lo - l.length / 2) (by omega)
      rw [if_neg h0]
      simp only [List.length_append]
      split
      · omega
      · rw [List.length_nil]
        omega

theorem length_bicBits_le {l : List Nat} {lo hi : Nat} (h : Within lo (hi + 1) l) (hhi : hi < 65536) :
    (bicBits (narrow l) lo hi).length ≤ 17 * l.length := by
  rw [bicBits, toNat_narrow fun x hx => by have := h.lt x hx; omega]
  exact length_bicBitsFuel_le h (by omega)

theorem length_bitPart (sbo : Bool) (bs : List Bool) : (bitPart sbo bs).length = 4 * ((bs.length + 31) / 32) := by
  rw [bitPart, length_wireU32s, length_packWords]

/-! ### Bit-coded parts of two codes -/

theorem exactly_flushed_two {xs ys : List Bool} {x y : Codec Unit} (hx : ExactBits xs x) (hy : ExactBits ys y) :
    Exactly (bitPart true (xs ++ ys)) (do x; y; flush) := by
  have h := exactly_flushed (hx.bind hy)
  rwa [bind_assoc] at h

/-! ### Index lists -/

/-- The list holds exactly the 1 bits of the content, or (`inv`) exactly its 0 bits; there is at least one, and not
all positions are listed. -/
structure Lists (inv : Bool) (c : Content) (idx : List Nat) : Prop where
  within : Within 0 65536 idx
  ne_nil : idx ≠ []
  length_lt : idx.length < 65536
  bits : ∀ p, p < 65536 → (inv ^^ idx.any fun x => decide (x = p)) = c.getLsbD p

theorem within_positions (c : Content) : Within 0 65536 (positions c) :=
  ⟨positions_sorted c, fun _ _ => Nat.zero_le _, fun _ hx => (mem_positions.1 hx).1⟩

theorem any_positions (c : Content) {p : Nat} (hp : p < 65536) :
    ((positions c).any fun x => decide (x = p)) = c.getLsbD p := by
  rw [Bool.eq_iff_iff, List.any_eq_true]
  constructor
  · rintro ⟨x, hx, hxp⟩
    obtain rfl := of_decide_eq_true hxp
    exact (mem_positions.1 hx).2
  · exact fun h => ⟨p, mem_positions.2 ⟨hp, h⟩, decide_eq_true rfl⟩

theorem popcount_pos {c : Content} (h : c ≠ Content.zero) : 0 < popcount c :=
  Nat.pos_of_ne_zero fun h0 => h (popcount_eq_zero h0)

theorem popcount_lt {c : Content} (h : c ≠ Content.ones) : popcount c < 65536 :=
  Nat.lt_of_le_of_ne (popcount_le c) fun hall => h (popcount_eq_all hall)

theorem lists_positions {c : Content} (hz : c ≠ Content.zero) (ho : c ≠ Content.ones) :
    Lists false c (positions c) where
  within := within_positions c
  ne_nil := List.ne_nil_of_length_pos (by rw [length_positions]; exact popcount_pos hz)
  length_lt := by rw [length_positions]; exact popcount_lt ho
  bits p hp := by rw [any_positions c hp, Bool.false_xor]

theorem length_positions_not (c : Content) : (positions (~~~ c)).length = 65536 - popcount c := by
  have := popcount_not c
  rw [length_positions]
  omega

theorem lists_positions_not {c : Content} (hz : c ≠ Content.zero) (ho : c ≠ Content.ones) :
    Lists true c (positions (~~~ c)) where
  within := within_positions _
  ne_nil := List.ne_nil_of_length_pos (by have := popcount_lt ho; rw [length_positions_not]; omega)
  length_lt := by have := popcount_pos hz; rw [length_positions_not]; omega
  bits p hp := by rw [any_positions _ hp, BitVec.getLsbD_not, decide_eq_true hp, Bool.true_and, Bool.true_xor,
    Bool.not_not]

section Lists

variable {inv : Bool} {c : Content} {idx : List Nat} {level : Fin 4}

/-! #### The plain forms (rules R257, R263) -/

theorem wfIdx_of_lists (h : Lists inv c idx) : wfIdx (narrow idx) = true := by
  rw [wfIdx, Bool.and_eq_true, decide_eq_true_eq, length_narrow]
  exact ⟨rises_narrow h.within, h.length_lt⟩

theorem shows_of_lists (h : Lists inv c idx) {p : Nat} (hp : p < 65536) :
    (inv ^^ (narrow idx).any fun x => decide (x.toNat = p)) = c.getLsbD p := by
  rw [any_narrow h.within.lt]
  exact h.bits p hp

theorem exactly_emitPlainArr (tag : Byte) (h : idx.length < 65536) :
    Exactly (tag :: wireIdx true (narrow idx)) (emitPlainArr tag idx) := by
  refine (exactly_putU8 tag).bind ?_
  rw [if_pos rfl]
  have hput := (exactly_putU16 (BitVec.ofNat 16 (narrow idx).length)).bind (exactly_putU16Array (narrow idx))
  rw [BitVec.toNat_ofNat, Nat.mod_eq_of_lt (by rwa [length_narrow])] at hput
  exact .guard (by rw [List.length_map]; omega) hput

theorem length_plainArr (tag : Byte) (idx : List Nat) :
    (tag :: wireIdx true (narrow idx)).length = 3 + 2 * idx.length := by
  have hw : ∀ v, (wireBytes true 2 v).length = 2 := fun _ => rfl
  rw [List.length_cons, wireIdx, List.length_append, length_wireU16s, length_narrow, hw]
  omega

/-- A plain index list, whatever its tag. -/
theorem spells_plainArr {t : Proposal} {i : Instr} (h : Lists inv c idx)
    (henc : encode i = t.tag :: wireIdx true (narrow idx)) (hwf : i.wf = wfIdx (narrow idx))
    (hop : tokenOperand i = idxArrayOperand inv (narrow idx)) (hhead : headOf i = none) :
    Spells t level c i (emitPlainArr t.tag idx) where
  writes := henc ▸ exactly_emitPlainArr t.tag h.length_lt
  tag := (List.cons.inj henc).1
  denotes := by
    refine denotes_of_shows (hwf.trans (wfIdx_of_lists h)) ?_ fun p hp => shows_of_lists h hp
    rw [hop]
    exact shows_idxArray inv (rises_narrow h.within)
  level head hh := by rw [hhead] at hh; cases hh
  short := by
    have := h.length_lt
    rw [henc, length_plainArr]
    omega

/-! #### The gamma-coded forms (rule R263) -/

/-- The distances of a rising list are positive, and adding them up gives it back. -/
theorem prefixSums_distances {x : Nat} {l : List Nat} (h : Within (x + 1) 65536 l) :
    (∀ v ∈ distances x l, v ≠ 0 ∧ v < 65536) ∧ (distances x l).length = l.length ∧
      prefixSums (x + 1) ((distances x l).map (BitVec.ofNat 32)) = l.map (· + 1) := by
  induction l generalizing x with
  | nil => exact ⟨nofun, rfl, rfl⟩
  | cons y l ih =>
    have hge := h.ge y List.mem_cons_self
    have hlt := h.lt y List.mem_cons_self
    obtain ⟨hpos, hlen, hsums⟩ := ih h.tail
    refine ⟨List.forall_mem_cons.2 ⟨by omega, hpos⟩, congrArg (· + 1) hlen, ?_⟩
    rw [distances, List.map_cons, prefixSums, BitVec.toNat_ofNat, Nat.mod_eq_of_lt (by omega),
      show x + 1 + (y - x) = y + 1 by omega, hsums, List.map_cons]

/-- The gamma arguments of a rising list, and what they add up to. -/
theorem prefixSums_gammaArgs {l : List Nat} (h : Within 0 65536 l) :
    (∀ v ∈ gammaArgs l, v ≠ 0 ∧ v < 2 ^ 32) ∧ (gammaArgs l).length = l.length ∧
      prefixSums 0 ((gammaArgs l).map (BitVec.ofNat 32)) = l.map (· + 1) := by
  cases l with
  | nil => exact ⟨nofun, rfl, rfl⟩
  | cons x l =>
    have hlt := h.lt x List.mem_cons_self
    obtain ⟨hpos, hlen, hsums⟩ := prefixSums_distances h.tail
    refine ⟨List.forall_mem_cons.2 ⟨by omega, fun v hv => ?_⟩, congrArg (· + 1) hlen, ?_⟩
    · have := hpos v hv
      omega
    · rw [gammaArgs, List.map_cons, prefixSums, BitVec.toNat_ofNat, Nat.mod_eq_of_lt (by omega), Nat.zero_add, hsums,
        List.map_cons]

/-- The gamma values of a rising list, as the token holds them. -/
def gammaValues (l : List Nat) : List U32 := (gammaArgs l).map (BitVec.ofNat 32)

theorem gammaValues_spec {l : List Nat} (h : Within 0 65536 l) :
    (gammaValues l).length = l.length ∧ gammasOk (gammaValues l) = true ∧
      prefixSums 0 (gammaValues l) = l.map (· + 1) ∧
      ((gammaValues l).flatMap fun g => gammaBits g.toNat) = (gammaArgs l).flatMap gammaBits := by
  obtain ⟨hpos, hlen, hsums⟩ := prefixSums_gammaArgs h
  refine ⟨by rw [gammaValues, List.length_map, hlen], ?_, hsums, ?_⟩
  · rw [gammasOk, List.all_eq_true]
    intro g hg
    obtain ⟨v, hv, rfl⟩ := List.mem_map.1 hg
    obtain ⟨h0, hlt⟩ := hpos v hv
    rw [decide_eq_true_eq, BitVec.toNat_ofNat, Nat.mod_eq_of_lt hlt]
    exact h0
  · rw [gammaValues, List.flatMap_map]
    refine List.flatMap_congr fun v hv => ?_
    rw [BitVec.toNat_ofNat, Nat.mod_eq_of_lt (hpos v hv).2]

/-- The last sum is the total: the last position and one. -/
theorem gammaTotal_le {l : List Nat} {hiX : Nat} (h : Within 0 hiX l) (hhi : hiX ≤ 65536) :
    gammaTotal (gammaValues l) ≤ hiX := by
  have hwide : Within 0 65536 l := ⟨h.rises, h.ge, fun x hx => by have := h.lt x hx; omega⟩
  obtain ⟨hlen, -, hsums, -⟩ := gammaValues_spec hwide
  cases l with
  | nil => exact Nat.zero_le _
  | cons x l =>
    have hmem := total_mem_prefixSums (List.ne_nil_of_length_pos (by rw [hlen]; exact Nat.succ_pos _)) 0
    rw [hsums, Nat.zero_add] at hmem
    obtain ⟨y, hy, heq⟩ := List.mem_map.1 hmem
    have := h.lt y hy
    omega

theorem any_succ (l : List Nat) (p : Nat) :
    ((l.map (· + 1)).any fun x => decide (x = p + 1)) = l.any fun x => decide (x = p) := by
  rw [List.any_map]
  exact congrArg l.any (funext fun x => by simp)

/-- A gamma-coded index list, with its count. -/
theorem spells_arrGamma {t : Proposal} {i : Instr} (h : Lists inv c idx)
    (henc : encode i = t.tag :: wireArrGamma true (BitVec.ofNat 32 idx.length) (gammaValues idx))
    (hwf : i.wf = wfArrGamma (BitVec.ofNat 32 idx.length) (gammaValues idx))
    (hop : tokenOperand i = arrGammaOperand inv (BitVec.ofNat 32 idx.length) (gammaValues idx))
    (hhead : headOf i = none) : Spells t level c i (attemptArrGamma t.tag idx) := by
  have hpos := List.length_pos_of_ne_nil h.ne_nil
  have hlt := h.length_lt
  obtain ⟨hlen, hok, hsums, hbits⟩ := gammaValues_spec h.within
  obtain ⟨hargs, hargslen, -⟩ := prefixSums_gammaArgs h.within
  have hn : (BitVec.ofNat 32 idx.length).toNat = idx.length := Nat.mod_eq_of_lt (by omega)
  have hgood : wfArrGamma (BitVec.ofNat 32 idx.length) (gammaValues idx) = true := by
    simp only [wfArrGamma, Bool.and_eq_true, decide_eq_true_eq, hn]
    exact ⟨⟨⟨⟨hpos, by omega⟩, hlen⟩, hok⟩, gammaTotal_le h.within (Nat.le_refl _)⟩
  have hpart : wireArrGamma true (BitVec.ofNat 32 idx.length) (gammaValues idx) =
      bitPart true (gammaBits idx.length ++ (gammaArgs idx).flatMap gammaBits) := by
    rw [wireArrGamma, hn, hbits]
  rw [hpart] at henc
  refine ⟨henc ▸ (exactly_putU8 t.tag).bind (exactly_flushed_two (exactBits_putGamma (by omega) (by omega))
    (exactBits_putGammas hargs)), (List.cons.inj henc).1, ?_, fun head hh => (by rw [hhead] at hh; cases hh), ?_⟩
  · refine denotes_of_shows (hwf.trans hgood) (hop ▸ shows_arrGamma inv hgood) fun p hp => ?_
    rw [hsums, any_succ]
    exact h.bits p hp
  · have h1 := length_gammaBits_le (v := idx.length) (by omega) (by omega)
    have h2 := length_gammas_le hargs
    rw [henc, List.length_cons, length_bitPart, List.length_append]
    omega

/-! #### The BIC-coded forms (rules R264, R266) -/

theorem eq_ends_of_two_le (h : 2 ≤ idx.length) : ∃ a mid b, idx = a :: mid ++ [b] := by
  obtain ⟨a, l, rfl⟩ := List.exists_cons_of_length_pos (l := idx) (by omega)
  have hl : l ≠ [] := List.ne_nil_of_length_pos (by rw [List.length_cons] at h; omega)
  exact ⟨a, l.dropLast, l.getLast hl, by rw [List.cons_append, List.dropLast_append_getLast]⟩

variable {a b : Nat} {mid : List Nat}

theorem narrow_ends (a b : Nat) (mid : List Nat) :
    narrow (a :: mid ++ [b]) = BitVec.ofNat 16 a :: narrow mid ++ [BitVec.ofNat 16 b] := by
  simp only [narrow, List.cons_append, List.map_cons, List.map_append, List.map_nil]

/-- The ends of a rising list, and what is between them. -/
theorem within_ends (h : Within 0 65536 (a :: mid ++ [b])) :
    a < b ∧ b < 65536 ∧ Within (a + 1) b mid := by
  have htail := h.tail
  obtain ⟨hab, hb, hmid, -⟩ := Within.split htail
  exact ⟨hab, hb, hmid⟩

theorem wfInner_of_within (hab : a < b) (hb : b < 65536) (hmid : Within (a + 1) b mid) :
    wfInner (BitVec.ofNat 16 a) (BitVec.ofNat 16 b) (narrow mid) = true := by
  have ha : (BitVec.ofNat 16 a).toNat = a := Nat.mod_eq_of_lt (by omega)
  have hb' : (BitVec.ofNat 16 b).toNat = b := Nat.mod_eq_of_lt hb
  have hwide : Within (a + 1) 65536 mid := ⟨hmid.rises, hmid.ge, fun x hx => by have := hmid.lt x hx; omega⟩
  simp only [wfInner, Bool.and_eq_true, decide_eq_true_eq, ha, hb', List.all_eq_true]
  refine ⟨⟨rises_narrow hwide, hab⟩, fun x hx => ?_⟩
  obtain ⟨v, hv, rfl⟩ := List.mem_map.1 hx
  have := hmid.lt v hv
  rw [BitVec.toNat_ofNat, Nat.mod_eq_of_lt (by omega)]
  exact this

theorem interior_ends (a b : Nat) (mid : List Nat) :
    (a :: mid ++ [b]).getD 0 0 = a ∧ (a :: mid ++ [b]).getLastD 0 = b ∧ interior (a :: mid ++ [b]) = mid := by
  refine ⟨rfl, ?_, ?_⟩
  · rw [List.getLastD_concat]
  · rw [interior, List.cons_append, List.drop_one, List.tail_cons, List.dropLast_concat]

theorem exactBits_bicEncode_within {lo hi : Nat} {l : List Nat} (hl : Within (lo + 1) hi l) (hlo : lo ≤ hi)
    (hhi : hi < 65536) :
    ExactBits (bicBits (narrow l) lo hi) (bicEncode l lo hi) ∧ (bicBits (narrow l) lo hi).length ≤ 17 * l.length := by
  have hwide : Within lo (hi + 1) l :=
    ⟨hl.rises, fun x hx => by have := hl.ge x hx; omega, fun x hx => by have := hl.lt x hx; omega⟩
  have hlen : l.length ≤ 65535 := by
    rcases Nat.eq_or_lt_of_le hlo with rfl | hlt
    · cases l with
      | nil => exact Nat.zero_le _
      | cons x l =>
        have := hl.ge x List.mem_cons_self
        have := hl.lt x List.mem_cons_self
        omega
    · have := hl.length_le hlt
      omega
  exact ⟨exactBits_bicEncode hwide (by omega) hhi hlen, length_bicBits_le hwide hhi⟩

/-- A BIC-coded index list of at least 5 positions, its count less 4 in gamma code. -/
theorem spells_arrBic {t : Proposal} {i : Instr} (h : Lists inv c (a :: mid ++ [b])) (hcount : 3 ≤ mid.length)
    (henc : encode i = t.tag :: wireArrBic true (BitVec.ofNat 16 a) (BitVec.ofNat 16 b)
      (BitVec.ofNat 32 (mid.length - 2)) (narrow mid))
    (hwf : i.wf = wfArrBic (BitVec.ofNat 16 a) (BitVec.ofNat 16 b) (BitVec.ofNat 32 (mid.length - 2)) (narrow mid))
    (hop : tokenOperand i = arrBicOperand inv (BitVec.ofNat 16 a) (BitVec.ofNat 16 b)
      (BitVec.ofNat 32 (mid.length - 2)) (narrow mid))
    (hhead : headOf i = none) : Spells t level c i (attemptArrBic t.tag (a :: mid ++ [b])) := by
  obtain ⟨hab, hb, hmid⟩ := within_ends h.within
  obtain ⟨hbic, hbiclen⟩ := exactBits_bicEncode_within hmid (Nat.le_of_lt hab) hb
  obtain ⟨hfirst, hlast, hinterior⟩ := interior_ends a b mid
  have hlt := h.length_lt
  rw [List.length_append, List.length_cons, List.length_singleton] at hlt
  have ha' : (BitVec.ofNat 16 a).toNat = a := Nat.mod_eq_of_lt (by omega)
  have hb' : (BitVec.ofNat 16 b).toNat = b := Nat.mod_eq_of_lt hb
  have hn : (BitVec.ofNat 32 (mid.length - 2)).toNat = mid.length - 2 := Nat.mod_eq_of_lt (by omega)
  have hcnt : (a :: mid ++ [b]).length - 4 = mid.length - 2 := by
    rw [List.length_append, List.length_cons, List.length_singleton]
    omega
  have hgood : wfArrBic (BitVec.ofNat 16 a) (BitVec.ofNat 16 b) (BitVec.ofNat 32 (mid.length - 2)) (narrow mid) =
      true := by
    simp only [wfArrBic, Bool.and_eq_true, decide_eq_true_eq, hn, length_narrow]
    exact ⟨⟨⟨by omega, by omega⟩, by omega⟩, wfInner_of_within hab hb hmid⟩
  have hpart : wireArrBic true (BitVec.ofNat 16 a) (BitVec.ofNat 16 b) (BitVec.ofNat 32 (mid.length - 2)) (narrow mid) =
      wireBytes true 2 (BitVec.ofNat 16 a).toNat ++ (wireBytes true 2 (BitVec.ofNat 16 b).toNat ++
        bitPart true (gammaBits (mid.length - 2) ++ bicBits (narrow mid) a b)) := by
    rw [wireArrBic, hn, ha', hb', ← ha', ← hb']
    simp [wireU16s]
  rw [hpart] at henc
  refine ⟨?_, (List.cons.inj henc).1, ?_, fun head hh => (by rw [hhead] at hh; cases hh), ?_⟩
  · rw [henc, attemptArrBic, hfirst, hlast, hinterior, hcnt]
    exact (exactly_putU8 t.tag).bind ((exactly_putU16N (by omega)).bind ((exactly_putU16N hb).bind
      (exactly_flushed_two (exactBits_putGamma (by omega) (by omega)) hbic)))
  · refine denotes_of_shows (hwf.trans hgood) (hop ▸ shows_arrBic inv (by omega) (by omega) (by omega)
      (by rw [length_narrow]; omega)) fun p hp => ?_
    rw [← narrow_ends]
    exact shows_of_lists h hp
  · have h1 := length_gammaBits_le (v := mid.length - 2) (by omega) (by omega)
    have hw : ∀ v, (wireBytes true 2 v).length = 2 := fun _ => rfl
    rw [henc, List.length_cons, List.length_append, List.length_append, hw, hw, length_bitPart, List.length_append]
    omega

/-- A BIC-coded index list with its count in a u16. -/
theorem spells_arrBienc {t : Proposal} {i : Instr} (h : Lists inv c (a :: mid ++ [b]))
    (henc : encode i = t.tag :: wireArrBienc true (BitVec.ofNat 16 a) (BitVec.ofNat 16 b)
      (BitVec.ofNat 16 (mid.length + 2)) (narrow mid))
    (hwf : i.wf = wfArrBienc (BitVec.ofNat 16 a) (BitVec.ofNat 16 b) (BitVec.ofNat 16 (mid.length + 2)) (narrow mid))
    (hop : tokenOperand i = arrBiencOperand inv (BitVec.ofNat 16 a) (BitVec.ofNat 16 b)
      (BitVec.ofNat 16 (mid.length + 2)) (narrow mid))
    (hhead : headOf i = none) : Spells t level c i (attemptArrBienc t.tag (a :: mid ++ [b])) := by
  obtain ⟨hab, hb, hmid⟩ := within_ends h.within
  obtain ⟨hbic, hbiclen⟩ := exactBits_bicEncode_within hmid (Nat.le_of_lt hab) hb
  obtain ⟨hfirst, hlast, hinterior⟩ := interior_ends a b mid
  have hlt := h.length_lt
  rw [List.length_append, List.length_cons, List.length_singleton] at hlt
  have ha' : (BitVec.ofNat 16 a).toNat = a := Nat.mod_eq_of_lt (by omega)
  have hb' : (BitVec.ofNat 16 b).toNat = b := Nat.mod_eq_of_lt hb
  have hn : (BitVec.ofNat 16 (mid.length + 2)).toNat = mid.length + 2 := Nat.mod_eq_of_lt (by omega)
  have hcnt : (a :: mid ++ [b]).length = mid.length + 2 := by
    rw [List.length_append, List.length_cons, List.length_singleton]
  have hgood : wfArrBienc (BitVec.ofNat 16 a) (BitVec.ofNat 16 b) (BitVec.ofNat 16 (mid.length + 2)) (narrow mid) =
      true := by
    simp only [wfArrBienc, Bool.and_eq_true, decide_eq_true_eq, hn, length_narrow]
    exact ⟨⟨by omega, by omega⟩, wfInner_of_within hab hb hmid⟩
  have hpart : wireArrBienc true (BitVec.ofNat 16 a) (BitVec.ofNat 16 b) (BitVec.ofNat 16 (mid.length + 2))
      (narrow mid) = wireBytes true 2 (BitVec.ofNat 16 a).toNat ++ (wireBytes true 2 (BitVec.ofNat 16 b).toNat ++
        (wireBytes true 2 (BitVec.ofNat 16 (mid.length + 2)).toNat ++ bitPart true (bicBits (narrow mid) a b))) := by
    rw [wireArrBienc, ha', hb', ← ha', ← hb']
    simp [wireU16s]
  rw [hpart] at henc
  refine ⟨?_, (List.cons.inj henc).1, ?_, fun head hh => (by rw [hhead] at hh; cases hh), ?_⟩
  · rw [henc, attemptArrBienc, hfirst, hlast, hinterior, hcnt]
    exact (exactly_putU8 t.tag).bind ((exactly_putU16N (by omega)).bind ((exactly_putU16N hb).bind
      ((exactly_putU16N (by omega)).bind (exactly_flushed hbic))))
  · refine denotes_of_shows (hwf.trans hgood) (hop ▸ shows_arrBienc inv (by omega) (by omega)
      (by rw [length_narrow]; omega)) fun p hp => ?_
    rw [← narrow_ends]
    exact shows_of_lists h hp
  · have hw : ∀ v, (wireBytes true 2 v).length = 2 := fun _ => rfl
    rw [henc, List.length_cons, List.length_append, List.length_append, List.length_append, hw, hw, hw, length_bitPart]
    omega

end Lists

end Sys2Proof.Machine

/-! The tokens of a content as a GAP or as bits (42_block_encoder.md rules R252 to R255, R260, R267): as for the index
lists, each writer writes exactly the bytes of its token, and the token denotes the content. -/

namespace Sys2Proof.Machine

/-! ### GAP forms -/

/-- The list holds the endpoints of the content but the terminal one. -/
structure GapOf (start : Bool) (c : Content) (l : List Nat) : Prop where
  within : Within 0 65535 l
  content : gapRuns start 0 (l ++ [65535]) = c

theorem exists_gapOf {start : Bool} {ends : List Nat} (h : gapEndsOk ends = true) :
    ∃ l, ends = l ++ [65535] ∧ GapOf start (gapRuns start 0 ends) l := by
  have hlast := h
  rw [gapEndsOk, Bool.and_eq_true, decide_eq_true_eq] at hlast
  obtain ⟨l, rfl⟩ := List.getLast?_eq_some_iff.1 hlast.2
  obtain ⟨hrises, hlt⟩ := below_of_gapEndsOk h
  obtain ⟨hp, hge⟩ := pairwise_of_risesNat hrises
  exact ⟨l, rfl, ⟨hp, hge, hlt⟩, rfl⟩

section GapOf

variable {start : Bool} {c : Content} {l r : List Nat} {a : Nat} {level : Fin 4}

theorem GapOf.wide (h : GapOf start c l) : Within 0 65536 l :=
  ⟨h.within.rises, h.within.ge, fun x hx => by have := h.within.lt x hx; omega⟩

theorem GapOf.length_le (h : GapOf start c l) : l.length ≤ 65535 := by
  have := h.within.length_le (Nat.zero_le _)
  omega

theorem GapOf.bits (h : GapOf start c l) {p : Nat} (hp : p < 65536) : gapBit start l p = c.getLsbD p := by
  have hends : gapEndsOk (l ++ [65535]) = true := by
    rw [gapEndsOk, Bool.and_eq_true, decide_eq_true_eq]
    refine ⟨risesNat_of_pairwise (List.pairwise_append.2 ⟨h.within.rises, List.pairwise_singleton _ _, ?_⟩)
      fun _ _ => Nat.zero_le _, List.getLast?_concat⟩
    intro x hx y hy
    rw [List.mem_singleton.1 hy]
    exact h.within.lt x hx
  rw [← h.content, getLsbD_gap hends hp, gapBit, gapBit, List.filter_append, List.filter_cons_of_neg (by simp; omega),
    List.filter_nil, List.append_nil]

/-- A content of more than one kind of bit has a transition. -/
theorem GapOf.ne_nil (h : GapOf start c l) (hz : c ≠ Content.zero) (ho : c ≠ Content.ones) : l ≠ [] := by
  rintro rfl
  cases start with
  | false => exact hz (BitVec.eq_of_getLsbD_eq fun p hp => by rw [← h.bits hp, Content.getLsbD_zero]; rfl)
  | true => exact ho (BitVec.eq_of_getLsbD_eq fun p hp => by rw [← h.bits hp, Content.getLsbD_ones hp]; rfl)

/-! #### The head word (rule R132) -/

/-- The GAP header word, as the token holds it. -/
def gapHead (m : Nat) (level : Fin 4) (start : Bool) : U16 := BitVec.ofNat 16 (gapHeadWord m level start)

theorem gapHeadWord_lt {m : Nat} (hm : m ≤ 8191) (level : Fin 4) (start : Bool) :
    gapHeadWord m level start < 65536 := by
  have := level.isLt
  rw [gapHeadWord]
  split <;> omega

theorem gapHead_fields {m : Nat} (hm : m ≤ 8191) (level : Fin 4) (start : Bool) :
    gapCount (gapHead m level start) = m ∧ (gapHead m level start).getLsbD 0 = start ∧
      (gapHead m level start).toNat / 2 % 4 = level.val := by
  have hlevel := level.isLt
  have hv : (gapHead m level start).toNat = m * 8 + level.val * 2 + (if start then 1 else 0) :=
    Nat.mod_eq_of_lt (gapHeadWord_lt hm level start)
  rw [gapCount, BitVec.getLsbD, Nat.testBit_zero, hv]
  cases start with
  | false =>
    rw [if_neg Bool.false_ne_true, Nat.add_zero]
    exact ⟨by omega, decide_eq_false (by omega), by omega⟩
  | true =>
    rw [if_pos rfl]
    exact ⟨by omega, decide_eq_true (by omega), by omega⟩

theorem ends_parts (l : List Nat) : (l ++ [65535]).length = l.length + 1 ∧ (l ++ [65535]).dropLast = l :=
  ⟨by rw [List.length_append, List.length_singleton], List.dropLast_concat⟩

theorem rises_narrow_ends (h : GapOf start c l) :
    rises (narrow l) = true ∧ ((narrow l).all fun x => decide (x.toNat < 65535)) = true := by
  refine ⟨rises_narrow h.wide, ?_⟩
  rw [List.all_eq_true]
  intro x hx
  obtain ⟨v, hv, rfl⟩ := List.mem_map.1 hx
  have := h.within.lt v hv
  rw [BitVec.toNat_ofNat, Nat.mod_eq_of_lt (by omega)]
  exact decide_eq_true this

theorem length_plainGap (head : U16) (l : List Nat) :
    (encode (.gap head (narrow l))).length = 1 + 2 * (l.length + 1) := by
  rw [encode, encodeAs, List.length_cons, payload, length_wireU16s, List.length_cons, length_narrow]
  omega

theorem spells_gap (h : GapOf start c l) (hm : l.length + 1 ≤ 8191) :
    Spells .gap level c (.gap (gapHead (l.length + 1) level start) (narrow l))
      (emitPlainGap level start (l ++ [65535])) := by
  obtain ⟨hlen, hdrop⟩ := ends_parts l
  obtain ⟨hcount, hstart, hlevel⟩ := gapHead_fields hm level start
  obtain ⟨hrises, hall⟩ := rises_narrow_ends h
  have hwf : (Instr.gap (gapHead (l.length + 1) level start) (narrow l)).wf = true := by
    simp only [Instr.wf, Bool.and_eq_true, decide_eq_true_eq, hcount, length_narrow]
    exact ⟨⟨⟨by omega, rfl⟩, hrises⟩, hall⟩
  refine ⟨?_, rfl, ?_, fun head hh => by cases hh; exact hlevel, ?_⟩
  · rw [emitPlainGap, hlen, hdrop]
    exact (exactly_putU8 14).bind ((exactly_putU16N (gapHeadWord_lt hm level start)).bind
      (exactly_putU16Ns h.wide.lt))
  · obtain ⟨b, hb, -, hbits⟩ := gapOperand_shows hwf
    refine denotes_of_shows hwf ⟨b, hb, hbits⟩ fun p hp => ?_
    rw [hstart, toNat_narrow h.wide.lt]
    exact h.bits hp
  · rw [length_plainGap]
    omega

theorem spells_gapEgamma (h : GapOf start c l) (hm : l.length + 1 ≤ 8191) :
    Spells .gapEgamma level c (.gapEgamma (gapHead (l.length + 1) level start) (gammaValues l))
      (attemptGapEgamma level start (l ++ [65535])) := by
  obtain ⟨hlen, hdrop⟩ := ends_parts l
  obtain ⟨hcount, hstart, hlevel⟩ := gapHead_fields hm level start
  obtain ⟨hvals, hok, hsums, hbits⟩ := gammaValues_spec h.wide
  obtain ⟨hargs, hargslen, -⟩ := prefixSums_gammaArgs h.wide
  have hwf : (Instr.gapEgamma (gapHead (l.length + 1) level start) (gammaValues l)).wf = true := by
    simp only [Instr.wf, Bool.and_eq_true, decide_eq_true_eq, hcount]
    exact ⟨⟨⟨by omega, hvals⟩, hok⟩, gammaTotal_le h.within (by omega)⟩
  have henc : encode (.gapEgamma (gapHead (l.length + 1) level start) (gammaValues l)) =
      20 :: (wireBytes true 2 (gapHead (l.length + 1) level start).toNat ++
        bitPart true ((gammaArgs l).flatMap gammaBits)) := by
    rw [← hbits]
    rfl
  refine ⟨?_, rfl, ?_, fun head hh => by cases hh; exact hlevel, ?_⟩
  · rw [henc, attemptGapEgamma, hlen, hdrop]
    exact (exactly_putU8 20).bind ((exactly_putU16N (gapHeadWord_lt hm level start)).bind
      (exactly_flushed (exactBits_putGammas hargs)))
  · obtain ⟨b, hb, -, hshown⟩ := gapEgammaOperand_shows hwf
    refine denotes_of_shows hwf ⟨b, hb, hshown⟩ fun p hp => ?_
    have hback : (l.map (· + 1)).map (· - 1) = l := by
      rw [List.map_map]
      exact (List.map_congr_left fun x _ => Nat.add_sub_cancel x 1).trans (List.map_id l)
    rw [hstart, hsums, hback]
    exact h.bits hp
  · have hw : ∀ v, (wireBytes true 2 v).length = 2 := fun _ => rfl
    have := length_gammas_le hargs
    rw [henc, List.length_cons, List.length_append, hw, length_bitPart]
    omega

/-! #### The BIC-coded forms (rules R260, R267) -/

theorem wfEnds_of_gap (h : GapOf start c (a :: r)) :
    a < 65535 ∧ Within (a + 1) 65535 r ∧ wfEnds (BitVec.ofNat 16 a) (narrow r) = true := by
  have ha := h.within.lt a List.mem_cons_self
  have hr := h.within.tail
  have hwide : Within (a + 1) 65536 r := ⟨hr.rises, hr.ge, fun x hx => by have := hr.lt x hx; omega⟩
  have ha' : (BitVec.ofNat 16 a).toNat = a := Nat.mod_eq_of_lt (by omega)
  obtain ⟨-, hall⟩ := rises_narrow_ends h
  rw [narrow, List.map_cons, List.all_cons, Bool.and_eq_true] at hall
  simp only [wfEnds, Bool.and_eq_true, decide_eq_true_eq, ha']
  exact ⟨ha, hr, ⟨rises_narrow hwide, ha⟩, hall.2⟩

theorem narrow_cons_toNat (h : GapOf start c (a :: r)) :
    (BitVec.ofNat 16 a :: narrow r).map BitVec.toNat = a :: r := toNat_narrow h.wide.lt

theorem spells_gapBienc (h : GapOf start c (a :: r)) (hm : (a :: r).length + 1 ≤ 8191) :
    Spells .gapBienc level c
      (.gapBienc (gapHead ((a :: r).length + 1) level start) (BitVec.ofNat 16 a) (narrow r))
      (attemptGapBienc level start (a :: r ++ [65535])) := by
  obtain ⟨hlen, hdrop⟩ := ends_parts (a :: r)
  obtain ⟨hcount, hstart, hlevel⟩ := gapHead_fields hm level start
  obtain ⟨ha, hr, hends⟩ := wfEnds_of_gap h
  obtain ⟨hbic, hbiclen⟩ := exactBits_bicEncode_within hr (Nat.le_of_lt ha) (by omega)
  have ha' : (BitVec.ofNat 16 a).toNat = a := Nat.mod_eq_of_lt (by omega)
  have hcons : (a :: r).length = r.length + 1 := rfl
  have hwf : (Instr.gapBienc (gapHead ((a :: r).length + 1) level start) (BitVec.ofNat 16 a) (narrow r)).wf =
      true := by
    simp only [Instr.wf, Bool.and_eq_true, decide_eq_true_eq, hcount, length_narrow]
    exact ⟨⟨by omega, by omega⟩, hends⟩
  have henc : encode (.gapBienc (gapHead ((a :: r).length + 1) level start) (BitVec.ofNat 16 a) (narrow r)) =
      27 :: (wireBytes true 2 (gapHead ((a :: r).length + 1) level start).toNat ++
        (wireBytes true 2 (BitVec.ofNat 16 a).toNat ++ bitPart true (bicBits (narrow r) a 65535))) := by
    conv_rhs => rw [← ha']
    simp [encode, encodeAs, payload, wireU16s, Instr.tag]
  refine ⟨?_, rfl, ?_, fun head hh => by cases hh; exact hlevel, ?_⟩
  · rw [henc, attemptGapBienc, hlen, hdrop]
    exact (exactly_putU8 27).bind ((exactly_putU16N (gapHeadWord_lt hm level start)).bind
      ((exactly_putU16N (by show a < 65536; omega)).bind (exactly_flushed hbic)))
  · obtain ⟨b, hb, -, hshown⟩ := gapBiencOperand_shows hwf
    refine denotes_of_shows hwf ⟨b, hb, hshown⟩ fun p hp => ?_
    rw [hstart, narrow_cons_toNat h]
    exact h.bits hp
  · have hw : ∀ v, (wireBytes true 2 v).length = 2 := fun _ => rfl
    have := h.length_le
    rw [List.length_cons] at this
    rw [henc, List.length_cons, List.length_append, List.length_append, hw, hw, length_bitPart]
    omega

theorem spells_bitgapBienc (h : GapOf start c (a :: r)) (hm : (a :: r).length + 1 ≤ 65535) :
    Spells .bitgapBienc level c
      (.bitgapBienc (if start then 1 else 0) (BitVec.ofNat 16 ((a :: r).length + 1)) (BitVec.ofNat 16 a) (narrow r))
      (attemptBitgap start (a :: r ++ [65535])) := by
  obtain ⟨hlen, hdrop⟩ := ends_parts (a :: r)
  obtain ⟨ha, hr, hends⟩ := wfEnds_of_gap h
  obtain ⟨hbic, hbiclen⟩ := exactBits_bicEncode_within hr (Nat.le_of_lt ha) (by omega)
  have ha' : (BitVec.ofNat 16 a).toNat = a := Nat.mod_eq_of_lt (by omega)
  have hn : (BitVec.ofNat 16 ((a :: r).length + 1)).toNat = (a :: r).length + 1 := Nat.mod_eq_of_lt (by omega)
  have hflag : ((if start then 1 else 0 : Byte)).toNat ≤ 1 ∧
      decide ((if start then 1 else 0 : Byte).toNat = 1) = start := by
    cases start <;> decide
  have hcons : (a :: r).length = r.length + 1 := rfl
  have hwf : (Instr.bitgapBienc (if start then 1 else 0) (BitVec.ofNat 16 ((a :: r).length + 1))
      (BitVec.ofNat 16 a) (narrow r)).wf = true := by
    simp only [Instr.wf, Bool.and_eq_true, decide_eq_true_eq, hn, length_narrow]
    exact ⟨⟨⟨hflag.1, by omega⟩, by omega⟩, hends⟩
  have henc : encode (.bitgapBienc (if start then 1 else 0) (BitVec.ofNat 16 ((a :: r).length + 1))
      (BitVec.ofNat 16 a) (narrow r)) =
      33 :: (if start then 1 else 0) :: (wireBytes true 2 (BitVec.ofNat 16 ((a :: r).length + 1)).toNat ++
        (wireBytes true 2 (BitVec.ofNat 16 a).toNat ++ bitPart true (bicBits (narrow r) a 65535))) := by
    conv_rhs => rw [← ha']
    simp [encode, encodeAs, payload, wireU16s, Instr.tag]
  refine ⟨?_, rfl, ?_, nofun, ?_⟩
  · rw [henc, attemptBitgap, hlen, hdrop]
    exact (exactly_putU8 33).bind ((exactly_putU8 _).bind ((exactly_putU16N (by omega)).bind
      ((exactly_putU16N (by show a < 65536; omega)).bind (exactly_flushed hbic))))
  · obtain ⟨b, hb, -, hshown⟩ := bitgapBiencOperand_shows hwf
    refine denotes_of_shows hwf ⟨b, hb, hshown⟩ fun p hp => ?_
    rw [hflag.2, narrow_cons_toNat h]
    exact h.bits hp
  · have hw : ∀ v, (wireBytes true 2 v).length = 2 := fun _ => rfl
    have := h.length_le
    rw [List.length_cons] at this
    rw [henc, List.length_cons, List.length_cons, List.length_append, List.length_append, hw, hw, length_bitPart]
    omega

end GapOf

/-! ### Bit forms -/

section Bits

variable {c : Content} {level : Fin 4}

theorem wordsFrom_append (c : Content) (k m n : Nat) :
    wordsFrom c k (m + n) = wordsFrom c k m ++ wordsFrom c (k + m) n := by
  induction m generalizing k with
  | zero => rw [Nat.zero_add]; rfl
  | succ m ih =>
    rw [show m + 1 + n = m + n + 1 by omega, wordsFrom, wordsFrom, ih, List.cons_append,
      show k + 1 + m = k + (m + 1) by omega]

theorem length_contentWords (c : Content) : (contentWords c).length = 2048 := length_wordsFrom _ _ _

theorem contentWords_eq_cons (c : Content) : contentWords c = wordAt c 0 :: wordsFrom c 1 2047 :=
  wordsFrom_append c 0 1 2047

theorem getLsbD_contentWords (c : Content) {p : Nat} (hp : p < 65536) :
    ((contentWords c).getD (p / 32) 0).getLsbD (p % 32) = c.getLsbD p := by
  rw [contentWords, getD_wordsFrom, if_pos (by omega), Nat.zero_add, getLsbD_wordAt c _ (Nat.mod_lt _ (by omega)),
    Nat.div_add_mod]

theorem length_encode_bit (c : Content) : (encode (.bit (contentWords c))).length = 8193 := by
  rw [encode, encodeAs, List.length_cons, payload, length_wireU32s, contentWords, length_wordsFrom]

theorem spells_bit : Spells .bit level c (.bit (contentWords c)) (emitBit c) := by
  have hlen := length_contentWords c
  have hwf : (Instr.bit (contentWords c)).wf = true := by
    rw [Instr.wf]
    exact decide_eq_true hlen
  refine ⟨(exactly_putU8 11).bind (exactly_putU32Array _), rfl, ?_, nofun, ?_⟩
  · exact denotes_of_shows hwf (bitOperand_shows hlen) fun p hp => getLsbD_contentWords c hp
  · rw [length_encode_bit]
    omega

/-- A content with one 1 bit (rule R253). -/
theorem spells_bit1bit (hc : popcount c = 1) :
    Spells .bit1bit level c (.bit1bit (BitVec.ofNat 16 ((positions c).getD 0 0)))
      (emit1bit ((positions c).getD 0 0)) := by
  obtain ⟨q, hq⟩ := List.length_eq_one_iff.1 ((length_positions c).trans hc)
  have hlt : q < 65536 := (within_positions c).lt q (by rw [hq]; exact List.mem_cons_self)
  have hany := fun p (hp : p < 65536) => any_positions c hp
  simp only [hq, List.any_cons, List.any_nil, Bool.or_false] at hany
  have hpos : (positions c).getD 0 0 = q := by rw [hq]; rfl
  rw [hpos]
  refine ⟨(exactly_putU8 19).bind (exactly_putU16N hlt), rfl, ?_, nofun, (by decide : 3 < 2 ^ 20)⟩
  refine denotes_of_shows rfl (bit1bitOperand_shows _) fun p hp => ?_
  rw [← hany p hp, BitVec.toNat_ofNat, Nat.mod_eq_of_lt hlt]
  exact decide_eq_decide.2 ⟨Eq.symm, Eq.symm⟩

/-! #### Runs of words (rule R254) -/

/-- The runs alternate, the first as said, none is empty, and a run of zeros holds only zeros. -/
def Alternate : Bool → List (Bool × List U32) → Prop
  | _, [] => True
  | nz, (b, run) :: rs => b = nz ∧ run ≠ [] ∧ (b = false → ∀ w ∈ run, w = 0) ∧ Alternate (!nz) rs

/-- The runs of a word list alternate from its first word's kind on, and hold its words. -/
theorem alternate_wordRuns (w : U32) (ws : List U32) :
    Alternate (decide (w ≠ 0)) (wordRuns (w :: ws)) ∧ (wordRuns (w :: ws)).flatMap Prod.snd = w :: ws := by
  induction ws generalizing w with
  | nil =>
    refine ⟨⟨rfl, List.cons_ne_nil _ _, fun hb x hx => ?_, trivial⟩, rfl⟩
    rw [List.mem_singleton.1 hx]
    simpa using hb
  | cons v ws ih =>
    obtain ⟨halt, hwords⟩ := ih v
    cases hruns : wordRuns (v :: ws) with
    | nil =>
      rw [hruns] at hwords
      cases hwords
    | cons head rs =>
      obtain ⟨nz, run⟩ := head
      rw [hruns] at halt hwords
      obtain ⟨hnz, hne, hzero, hrest⟩ := halt
      rw [List.flatMap_cons] at hwords
      rw [wordRuns_cons_cons w v hruns]
      split
      case isTrue hsame =>
        refine ⟨⟨hsame, List.cons_ne_nil _ _, fun hb => List.forall_mem_cons.2 ⟨?_, hzero hb⟩, ?_⟩, ?_⟩
        · rw [hb] at hsame
          simpa using hsame.symm
        · rwa [← hsame, hnz]
        · rw [List.flatMap_cons, List.cons_append, hwords]
      case isFalse hother =>
        have hflip : nz = !decide (w ≠ 0) := by
          revert hother
          cases nz <;> cases decide (w ≠ 0) <;> simp
        refine ⟨⟨rfl, List.cons_ne_nil _ _, fun hb x hx => ?_, hflip, hne, hzero, ?_⟩, ?_⟩
        · rw [List.mem_singleton.1 hx]
          simpa using hb
        · rwa [← hflip, hnz]
        · rw [List.flatMap_cons, List.flatMap_cons, hwords, List.singleton_append]

/-- A run as the token holds it: its length, and its words if they are not zeros. -/
def packRun (r : Bool × List U32) : U16 × List U32 := (BitVec.ofNat 16 r.2.length, if r.1 then r.2 else [])

/-- Alternating runs are well-formed runs of a token, which stand for the same words. -/
theorem runsOk_packRun {nz : Bool} {rs : List (Bool × List U32)} (h : Alternate nz rs)
    (hlen : (rs.flatMap Prod.snd).length < 65536) :
    runsOk nz (rs.flatMap Prod.snd).length (rs.map packRun) = true ∧
      runWords nz (rs.map packRun) = rs.flatMap Prod.snd := by
  induction rs generalizing nz with
  | nil => exact ⟨rfl, rfl⟩
  | cons head rs ih =>
    obtain ⟨b, run⟩ := head
    obtain ⟨rfl, hne, hzero, hrest⟩ := h
    rw [List.flatMap_cons, List.length_append] at hlen ⊢
    dsimp only at hlen ⊢
    obtain ⟨hok, hwords⟩ := ih hrest (by omega)
    have hpos := List.length_pos_of_ne_nil hne
    have hrun : (BitVec.ofNat 16 run.length).toNat = run.length := Nat.mod_eq_of_lt (by omega)
    rw [List.map_cons]
    constructor
    · simp only [packRun, runsOk, hrun, Bool.and_eq_true, decide_eq_true_eq, Nat.add_sub_cancel_left]
      refine ⟨⟨⟨by omega, by omega⟩, ?_⟩, hok⟩
      cases b <;> rfl
    · simp only [packRun, runWords, hrun, hwords]
      cases b with
      | false => rw [if_neg Bool.false_ne_true, List.eq_replicate_of_mem (hzero rfl)]; simp
      | true => rfl

theorem exactly_emitRuns {rs : List (Bool × List U32)} (h : (rs.flatMap Prod.snd).length < 65536) :
    Exactly ((rs.map packRun).flatMap fun r => wireBytes true 2 r.1.toNat ++ wireU32s true r.2) (emitRuns rs) := by
  induction rs with
  | nil => exact .nothing
  | cons head rs ih =>
    obtain ⟨b, run⟩ := head
    rw [List.flatMap_cons, List.length_append] at h
    dsimp only at h
    have hrest := ih (by omega)
    rw [List.map_cons, List.flatMap_cons, List.append_assoc]
    refine (exactly_putU16N (by dsimp only; omega)).bind
      (.of_eq (.opt (p := b = true) (exactly_putU32Array run) hrest) ?_)
    cases b <;> rfl

theorem length_packRuns (rs : List (Bool × List U32)) :
    ((rs.map packRun).flatMap fun r => wireBytes true 2 r.1.toNat ++ wireU32s true r.2).length = runsCost rs := by
  induction rs with
  | nil => rfl
  | cons head rs ih =>
    obtain ⟨b, run⟩ := head
    have hw : ∀ v, (wireBytes true 2 v).length = 2 := fun _ => rfl
    rw [List.map_cons, List.flatMap_cons, List.length_append, ih, List.length_append, hw, length_wireU32s,
      runsCost_cons]
    cases b <;> rfl

theorem nonzeroSize_le (c : Content) : nonzeroSize c ≤ 12288 := by
  rw [nonzeroSize_eq]
  have h1 := List.length_filter_le (fun k => decide (wordAt c k = 0) ^^ decide (wordAt c (k + 1) = 0)) (List.range 2047)
  have h2 := List.length_filter_le (fun k => decide (wordAt c k ≠ 0)) (List.range 2048)
  rw [List.length_range] at h1 h2
  omega

/-- The token of the runs of words. -/
def runsToken (c : Content) : Instr :=
  .bit0runs (if wordAt c 0 = 0 then 0 else 1) ((wordRuns (contentWords c)).map packRun)

theorem length_runsToken (c : Content) : (encode (runsToken c)).length = 2 + nonzeroSize c := by
  rw [runsToken, encode, encodeAs, List.length_cons, payload, List.length_cons, length_packRuns, nonzeroSize, runsCost]
  omega

/-- The runs of a whole block. -/
theorem runs_contentWords (c : Content) :
    ((wordRuns (contentWords c)).flatMap Prod.snd).length < 65536 ∧
      runsOk (decide (wordAt c 0 ≠ 0)) 2048 ((wordRuns (contentWords c)).map packRun) = true ∧
      runWords (decide (wordAt c 0 ≠ 0)) ((wordRuns (contentWords c)).map packRun) = contentWords c := by
  have hlen := length_contentWords c
  rw [contentWords_eq_cons] at hlen ⊢
  generalize wordsFrom c 1 2047 = ws at hlen ⊢
  obtain ⟨halt, hwords⟩ := alternate_wordRuns (wordAt c 0) ws
  rw [← hwords] at hlen
  have hshort : ((wordRuns (wordAt c 0 :: ws)).flatMap Prod.snd).length < 65536 := by omega
  obtain ⟨hok, hrunwords⟩ := runsOk_packRun halt hshort
  rw [hlen] at hok
  exact ⟨hshort, hok, hrunwords.trans hwords⟩

theorem spells_bit0runs : Spells .bit0runs level c (runsToken c) (emit0runs c) := by
  obtain ⟨hshort, hok, hrunwords⟩ := runs_contentWords c
  have hflag : (if wordAt c 0 = 0 then 0 else 1 : Byte).toNat ≤ 1 ∧
      decide ((if wordAt c 0 = 0 then 0 else 1 : Byte).toNat = 1) = decide (wordAt c 0 ≠ 0) := by
    by_cases h0 : wordAt c 0 = 0
    · rw [if_pos h0, decide_eq_false (p := wordAt c 0 ≠ 0) (by simp [h0])]
      decide
    · rw [if_neg h0, decide_eq_true (p := wordAt c 0 ≠ 0) h0]
      decide
  have hwf : (runsToken c).wf = true := by
    simp only [runsToken, Instr.wf, Bool.and_eq_true, decide_eq_true_eq]
    exact ⟨hflag.1, by rw [hflag.2]; exact hok⟩
  refine ⟨?_, rfl, ?_, nofun, ?_⟩
  · rw [runsToken, emit0runs]
    generalize wordRuns (contentWords c) = rs at hshort ⊢
    exact (exactly_putU8 22).bind ((exactly_putU8 _).bind (exactly_emitRuns hshort))
  · refine denotes_of_shows hwf (bit0runsOperand_shows hwf) fun p hp => ?_
    rw [hflag.2, hrunwords]
    exact getLsbD_contentWords c hp
  · have := nonzeroSize_le c
    rw [length_runsToken]
    omega

/-! #### Waves (rule R255) -/

/-- The words of waves of a content. -/
def wavesOf (c : Content) (js : List Nat) : List U32 := js.flatMap fun j => wordsFrom c (32 * j) 32

theorem length_wavesOf (c : Content) (js : List Nat) : (wavesOf c js).length = 32 * js.length := by
  induction js with
  | nil => rfl
  | cons j js ih =>
    rw [wavesOf, List.flatMap_cons, List.length_append, ← wavesOf, ih, length_wordsFrom, List.length_cons]
    omega

theorem wave_unflagged (c : Content) {j : Nat} (hj : j < 64) (h : (digest0 c).getLsbD j = false) :
    wordsFrom c (32 * j) 32 = List.replicate 32 0 := by
  rw [getLsbD_digest0 c hj, List.any_eq_false] at h
  refine List.eq_replicate_iff.2 ⟨length_wordsFrom _ _ _, fun x hx => ?_⟩
  obtain ⟨i, hlo, hhi, rfl⟩ := mem_wordsFrom.1 hx
  have hi := h (i - 32 * j) (List.mem_range.2 (by omega))
  rw [show 32 * j + (i - 32 * j) = i by omega] at hi
  simpa using hi

/-- The flagged waves, with zeros for the others, are the words of the content. -/
theorem waveWords_wavesOf (c : Content) (j n : Nat) (h : j + n ≤ 64) :
    waveWords (digest0 c) (wavesOf c ((List.range' j n).filter fun i => (digest0 c).getLsbD i)) j n =
      wordsFrom c (32 * j) (32 * n) := by
  induction n generalizing j with
  | zero => rfl
  | succ n ih =>
    have hrest := ih (j + 1) (by omega)
    rw [List.range'_succ, waveWords, show 32 * (n + 1) = 32 + 32 * n by omega, wordsFrom_append,
      show 32 * j + 32 = 32 * (j + 1) by omega, ← hrest]
    by_cases hj : (digest0 c).getLsbD j = true
    · rw [if_pos hj, List.filter_cons_of_pos hj, wavesOf, List.flatMap_cons, ← wavesOf,
        List.take_append_of_le_length (by rw [length_wordsFrom]),
        List.take_of_length_le (by rw [length_wordsFrom]),
        List.drop_append_of_le_length (by rw [length_wordsFrom]),
        List.drop_of_length_le (by rw [length_wordsFrom]), List.nil_append]
    · rw [if_neg hj, List.filter_cons_of_neg hj, wave_unflagged c (by omega) (Bool.eq_false_iff.2 hj)]

theorem exactly_emitWaves (c : Content) (js : List Nat) : Exactly (wireU32s true (wavesOf c js)) (emitWaves c js) := by
  induction js with
  | nil => exact .nothing
  | cons j js ih =>
    rw [wavesOf, List.flatMap_cons, wireU32s_append, ← wavesOf]
    exact (exactly_putU32Array _).bind ih

/-- The token of the waves that are not zero. -/
def digestToken (c : Content) : Instr := .bitDigest0 (digest0 c) (wavesOf c (digestList (digest0 c)))

theorem length_digestToken (c : Content) : (encode (digestToken c)).length = 9 + 128 * digestWaves (digest0 c) := by
  have hw : ∀ v, (wireBytes true 8 v).length = 8 := fun _ => rfl
  rw [digestToken, encode, encodeAs, List.length_cons, payload, List.length_append, hw, length_wireU32s, length_wavesOf,
    digestList, digestWaves]
  omega

theorem digestWaves_le (d : U64) : digestWaves d ≤ 64 := by
  have := List.length_filter_le (fun j => d.getLsbD j) (List.range 64)
  rwa [List.length_range] at this

theorem spells_bitDigest0 : Spells .bitDigest0 level c (digestToken c) (emitDigest0 c) := by
  have hwf : (digestToken c).wf = true := decide_eq_true (length_wavesOf c _)
  have hwords := waveWords_wavesOf c 0 64 (Nat.le_refl _)
  rw [← List.range_eq_range'] at hwords
  refine ⟨(exactly_putU8 34).bind ((exactly_putU64 _).bind (exactly_emitWaves c _)), rfl, ?_, nofun, ?_⟩
  · refine denotes_of_shows hwf (bitDigest0Operand_shows hwf) fun p hp => ?_
    rw [digestList, hwords]
    exact getLsbD_contentWords c hp
  · have := digestWaves_le (digest0 c)
    rw [length_digestToken]
    omega

end Bits

end Sys2Proof.Machine

/-! The emission of one block (42_block_encoder.md rules R250 to R268): from any state whose bit writer is empty, an
emitter writes the bytes of the chosen token, or the buffer has no room for the form it has tried first. -/

namespace Sys2Proof.Machine

/-! ### What the emission of a token leaves -/

/-- Bytes have been written, and a speculation may have been rolled back. -/
structure Emitted (bs : List Byte) (rolled : Bool) (s t : State) : Prop where
  stream : t.stream = { s.stream with buf := t.stream.buf, pos := s.stream.pos + bs.length }
  bytes : s.stream.buf.wf = true → Wrote bs s.stream t.stream ∧ t.stream.buf.wf = true
  rolled : t.rolled = (s.rolled || rolled)
  bestTag : t.bestTag = s.bestTag

/-- The emission of a content when a form is tried: it ends with this token, if the buffer has room for the form
tried first. -/
structure EmitsToken (x : M Unit) (t : Proposal) (c : Content) (level : Fin 4) (bound : Nat) (i : Instr)
    (rolled : Bool) (need : Nat) : Prop where
  chosen : ChosenToken t c i rolled
  denotes : Denotes i c
  level : ∀ head, headOf i = some head → head.toNat / 2 % 4 = level.val
  length_le : (encode i).length ≤ bound
  le_need : (encode i).length ≤ need
  need_lt : need < 2 ^ 20
  run : ∀ s : State, s.stream.wacc = 0 → s.stream.wused = 0 →
    (∃ u, x s = .ok () u ∧ Emitted (encode i) rolled s u) ∨
      (s.stream.bufSize.toNat < s.stream.pos + need ∧ ∃ e u, x s = .error e u)

/-- The emission of a content when a form is tried. -/
def Emission (x : M Unit) (t : Proposal) (c : Content) (level : Fin 4) (bound : Nat) : Prop :=
  ∃ i rolled need, EmitsToken x t c level bound i rolled need

section Emission

variable {x : M Unit} {t q : Proposal} {c : Content} {level : Fin 4} {bound n : Nat} {i j : Instr}
  {attempt plain : Codec Unit}

theorem onStream_exactly {bs : List Byte} (h : Exactly bs attempt) {s : State} (ha : s.stream.wacc = 0)
    (hu : s.stream.wused = 0) :
    onStream attempt s = .ok () { s with stream := s.stream.put bs } ∨
      (s.stream.bufSize.toNat < s.stream.pos + bs.length ∧ ∃ e u, onStream attempt s = .error e u) := by
  rcases h s.stream ha hu with hok | ⟨hfull, e, d, herr⟩
  · exact .inl (run_onStream_ok hok)
  · exact .inr ⟨hfull, e, _, run_onStream_error herr⟩

/-- A form that is written as it is. -/
theorem emission_onStream (h : Spells t level c i attempt) (ht : plainForm t = none)
    (hb : (encode i).length ≤ bound) : Emission (onStream attempt) t c level bound := by
  refine ⟨i, false, (encode i).length, ?_, h.denotes, h.level, hb, Nat.le_refl _, h.short, fun s ha hu => ?_⟩
  · rw [ChosenToken, ht]
    exact ⟨h.tag, h.denotes, rfl⟩
  · refine (onStream_exactly h.writes ha hu).imp_left fun hok => ⟨_, hok, ?_⟩
    exact ⟨rfl, fun hw => ⟨wrote_put hw _, Memory.wf_writeList hw _ _⟩, (Bool.or_false _).symm, rfl⟩

/-- A speculation: the form tried is written, and the plain one over it if it is shorter (rule R262). -/
theorem speculate_run {xs ys : List Byte} (hx : Exactly xs attempt) (hy : Exactly ys plain) {s : State}
    (ha : s.stream.wacc = 0) (hu : s.stream.wused = 0) :
    (∃ u, speculate attempt ys.length plain s = .ok () u ∧
        Emitted (if ys.length < xs.length then ys else xs) (decide (ys.length < xs.length)) s u) ∨
      (s.stream.bufSize.toNat < s.stream.pos + xs.length ∧
        ∃ e u, speculate attempt ys.length plain s = .error e u) := by
  have hlen : (s.stream.put xs).pos - s.stream.pos = xs.length := Nat.add_sub_cancel_left _ _
  have hfirst : speculate attempt ys.length plain s = (do
      onStream attempt
      let u ← get
      if ys.length < u.stream.pos - u.pos0 then
        onStream (setPos u.pos0)
        modify setRolled
        onStream plain : M Unit) { s with pos0 := s.stream.pos } := rfl
  rw [hfirst]
  rcases onStream_exactly hx (s := { s with pos0 := s.stream.pos }) ha hu with hok | ⟨hfull, e, u, herr⟩
  · rw [run_bind_ok hok, run_bind, run_get]
    dsimp only
    rw [hlen]
    by_cases hlong : ys.length < xs.length
    · have hback : ∀ hw : s.stream.buf.wf = true, (s.stream.buf.writeList s.stream.pos xs).wf = true :=
        fun hw => Memory.wf_writeList hw _ _
      rw [if_pos hlong, if_pos hlong, decide_eq_true hlong]
      rcases onStream_exactly hy (s := setRolled { s with
          pos0 := s.stream.pos
          stream := { s.stream.put xs with pos := s.stream.pos } }) ha hu with hok' | ⟨hfull, e, u, herr⟩
      · refine .inl ⟨_, hok', rfl, fun hw => ⟨⟨rfl, ?_, fun a h => ?_⟩, ?_⟩, (Bool.or_true _).symm, rfl⟩
        · exact Memory.readList_writeList (hback hw) _ _
        · refine (Memory.read_writeList (hback hw) _ _ _).trans ?_
          rw [if_neg (by show ¬(s.stream.pos ≤ a ∧ _); omega), Memory.read_writeList hw, if_neg (by omega)]
        · exact Memory.wf_writeList (hback hw) _ _
      · refine .inr ⟨?_, e, u, herr⟩
        have hfull' : s.stream.bufSize.toNat < s.stream.pos + ys.length := hfull
        omega
    · rw [if_neg hlong, if_neg hlong, decide_eq_false hlong]
      exact .inl ⟨_, rfl, rfl, fun hw => ⟨wrote_put hw _, Memory.wf_writeList hw _ _⟩, (Bool.or_false _).symm, rfl⟩
  · exact .inr ⟨hfull, e, u, run_bind_error herr⟩

/-- A speculative form: the plain one is chosen if it is shorter. -/
theorem emission_speculate (ha : Spells t level c i attempt) (hq : Spells q level c j plain)
    (ht : plainForm t = some q) (hn : (encode j).length = n) : Emission (speculate attempt n plain) t c level n := by
  subst hn
  by_cases hlong : (encode j).length < (encode i).length
  · refine ⟨j, true, (encode i).length, ?_, hq.denotes, hq.level, Nat.le_refl _, Nat.le_of_lt hlong, ha.short,
      fun s hacc hused => ?_⟩
    · rw [ChosenToken, ht]
      exact ⟨i, j, ha.tag, ha.denotes, hq.tag, hq.denotes, (decide_eq_true hlong).symm, rfl⟩
    · have hrun := speculate_run ha.writes hq.writes hacc hused
      rwa [if_pos hlong, decide_eq_true hlong] at hrun
  · refine ⟨i, false, (encode i).length, ?_, ha.denotes, ha.level, Nat.not_lt.1 hlong, Nat.le_refl _, ha.short,
      fun s hacc hused => ?_⟩
    · rw [ChosenToken, ht]
      exact ⟨i, j, ha.tag, ha.denotes, hq.tag, hq.denotes, (decide_eq_false hlong).symm, rfl⟩
    · have hrun := speculate_run ha.writes hq.writes hacc hused
      rwa [if_neg hlong, decide_eq_false hlong] at hrun

theorem Emission.mono {bound' : Nat} (h : Emission x t c level bound) (hle : bound ≤ bound') :
    Emission x t c level bound' := by
  obtain ⟨i, rolled, need, hx⟩ := h
  exact ⟨i, rolled, need, hx.chosen, hx.denotes, hx.level, hx.length_le.trans hle, hx.le_need, hx.need_lt, hx.run⟩

/-- Loading IDX_ARR changes nothing that an emission shows. -/
theorem Emission.load (h : Emission x t c level bound) (idx : List Nat) :
    Emission (do loadIdx idx; x) t c level bound := by
  obtain ⟨i, rolled, need, hx⟩ := h
  refine ⟨i, rolled, need, hx.chosen, hx.denotes, hx.level, hx.length_le, hx.le_need, hx.need_lt, fun s ha hu => ?_⟩
  obtain ⟨u, hu', hstream, hrolled, htag⟩ : ∃ u, loadIdx idx s = .ok () u ∧ u.stream = s.stream ∧
      u.rolled = s.rolled ∧ u.bestTag = s.bestTag := ⟨_, rfl, rfl, rfl, rfl⟩
  rw [run_bind_ok hu', ← hstream]
  refine (hx.run u (by rw [hstream]; exact ha) (by rw [hstream]; exact hu)).imp_left ?_
  rintro ⟨v, hv, hs, hb, hr, ht⟩
  rw [hstream] at hs hb
  exact ⟨v, hv, hs, hb, hr.trans (by rw [hrolled]), ht.trans htag⟩

/-! ### The forms by their proposal -/

/-- What a content must be to be written in a form, given the number of its endpoints. -/
structure Writable (c : Content) (m : Nat) (t : Proposal) : Prop where
  not_azero : t ≠ .azero
  not_aone : t ≠ .aone
  single : t = .bit1bit → popcount c = 1
  gap : t = .gap ∨ t = .gapEgamma ∨ t = .gapBienc → m ≤ 8191
  bitgap : t = .bitgapBienc → m ≤ 65535
  arr : t = .arrBienc → 2 ≤ popcount c
  arrInv : t = .arrBiencInv → popcount c ≤ 65534

/-- The bytes of the plain token of a form. -/
def plainBytes (c : Content) (m : Nat) : Proposal → Nat
  | .gap => 1 + 2 * m
  | .gapEgamma => 1 + 2 * m
  | .gapBienc => 1 + 2 * m
  | .arrbit => 3 + 2 * popcount c
  | .arrgap => 3 + 2 * popcount c
  | .arrgapEgamma => 3 + 2 * popcount c
  | .arrgapBienc => 3 + 2 * popcount c
  | .arrbitInv => 3 + 2 * (65536 - popcount c)
  | .arrgapInv => 3 + 2 * (65536 - popcount c)
  | .arrgapEgammaInv => 3 + 2 * (65536 - popcount c)
  | .arrgapBiencInv => 3 + 2 * (65536 - popcount c)
  | .bit1bit => 3
  | .bit0runs => 2 + nonzeroSize c
  | .bitDigest0 => 9 + 128 * digestWaves (digest0 c)
  | _ => 8193

section Forms

variable {inv : Bool} {idx l : List Nat} {start : Bool}

theorem spells_arrgap (h : Lists false c idx) : Spells .arrgap level c (.arrgap (narrow idx)) (emitPlainArr 18 idx) :=
  spells_plainArr h rfl rfl rfl rfl

theorem spells_arrgapInv (h : Lists true c idx) :
    Spells .arrgapInv level c (.arrgapInv (narrow idx)) (emitPlainArr 24 idx) :=
  spells_plainArr h rfl rfl rfl rfl

theorem emission_arrgap (h : Lists false c idx) :
    Emission (onStream (emitPlainArr 18 idx)) .arrgap c level (3 + 2 * idx.length) :=
  emission_onStream (spells_arrgap h) rfl (Nat.le_of_eq (length_plainArr 18 idx))

theorem emission_arrgapInv (h : Lists true c idx) :
    Emission (onStream (emitPlainArr 24 idx)) .arrgapInv c level (3 + 2 * idx.length) :=
  emission_onStream (spells_arrgapInv h) rfl (Nat.le_of_eq (length_plainArr 24 idx))

theorem emission_arrgapEgamma (h : Lists false c idx) :
    Emission (emitArrgap .arrgapEgamma idx) .arrgapEgamma c level (3 + 2 * idx.length) :=
  emission_speculate (spells_arrGamma (t := .arrgapEgamma) (i := .arrgapEgamma _ _) h rfl rfl rfl rfl)
    (spells_arrgap h) rfl (length_plainArr 18 idx)

theorem emission_arrgapEgammaInv (h : Lists true c idx) :
    Emission (emitArrgap .arrgapEgammaInv idx) .arrgapEgammaInv c level (3 + 2 * idx.length) :=
  emission_speculate (spells_arrGamma (t := .arrgapEgammaInv) (i := .arrgapEgammaInv _ _) h rfl rfl rfl rfl)
    (spells_arrgapInv h) rfl (length_plainArr 24 idx)

theorem emission_arrgapBienc (h : Lists false c idx) :
    Emission (emitArrgap .arrgapBienc idx) (if idx.length < 5 then .arrgap else .arrgapBienc) c level
      (3 + 2 * idx.length) := by
  rw [emitArrgap]
  split
  case isTrue => exact emission_arrgap h
  case isFalse hlen =>
    obtain ⟨a, mid, b, rfl⟩ := eq_ends_of_two_le (idx := idx) (by omega)
    rw [List.length_append, List.length_cons, List.length_singleton] at hlen
    exact emission_speculate
      (spells_arrBic (t := .arrgapBienc) (i := .arrgapBienc _ _ _ _) h (by omega) rfl rfl rfl rfl)
      (spells_arrgap h) rfl (length_plainArr 18 _)

theorem emission_arrgapBiencInv (h : Lists true c idx) :
    Emission (emitArrgap .arrgapBiencInv idx) (if idx.length < 5 then .arrgapInv else .arrgapBiencInv) c level
      (3 + 2 * idx.length) := by
  rw [emitArrgap]
  split
  case isTrue => exact emission_arrgapInv h
  case isFalse hlen =>
    obtain ⟨a, mid, b, rfl⟩ := eq_ends_of_two_le (idx := idx) (by omega)
    rw [List.length_append, List.length_cons, List.length_singleton] at hlen
    exact emission_speculate
      (spells_arrBic (t := .arrgapBiencInv) (i := .arrgapBiencInv _ _ _ _) h (by omega) rfl rfl rfl rfl)
      (spells_arrgapInv h) rfl (length_plainArr 24 _)

theorem emission_arrBienc (h : Lists false c idx) (hlen : 2 ≤ idx.length) :
    Emission (emitArrBienc 31 idx c) .arrBienc c level 8193 := by
  obtain ⟨a, mid, b, rfl⟩ := eq_ends_of_two_le hlen
  exact emission_speculate (spells_arrBienc (t := .arrBienc) (i := .arrBienc _ _ _ _) h rfl rfl rfl rfl) spells_bit rfl
    (length_encode_bit c)

theorem emission_arrBiencInv (h : Lists true c idx) (hlen : 2 ≤ idx.length) :
    Emission (emitArrBienc 32 idx c) .arrBiencInv c level 8193 := by
  obtain ⟨a, mid, b, rfl⟩ := eq_ends_of_two_le hlen
  exact emission_speculate (spells_arrBienc (t := .arrBiencInv) (i := .arrBiencInv _ _ _ _) h rfl rfl rfl rfl)
    spells_bit rfl (length_encode_bit c)

/-! #### GAPs -/

theorem emission_gap (h : GapOf start c l) (hm : l.length + 1 ≤ 8191) :
    Emission (emitGap .gap level start (l ++ [65535])) .gap c level (1 + 2 * (l.length + 1)) :=
  emission_onStream (spells_gap h hm) rfl (Nat.le_of_eq (length_plainGap _ l))

theorem emission_gapEgamma (h : GapOf start c l) (hm : l.length + 1 ≤ 8191) :
    Emission (emitGap .gapEgamma level start (l ++ [65535])) .gapEgamma c level (1 + 2 * (l.length + 1)) := by
  rw [emitGap, (ends_parts l).1]
  exact emission_speculate (spells_gapEgamma h hm) (spells_gap h hm) rfl (length_plainGap _ l)

theorem emission_gapBienc (h : GapOf start c l) (hne : l ≠ []) (hm : l.length + 1 ≤ 8191) :
    Emission (emitGap .gapBienc level start (l ++ [65535])) .gapBienc c level (1 + 2 * (l.length + 1)) := by
  rw [emitGap, (ends_parts l).1]
  obtain ⟨a, r, rfl⟩ := List.exists_cons_of_ne_nil hne
  exact emission_speculate (spells_gapBienc h hm) (spells_gap h hm) rfl (length_plainGap _ (a :: r))

theorem emission_bitgap (h : GapOf start c l) (hne : l ≠ []) (hm : l.length + 1 ≤ 65535) :
    Emission (emitBitgap start (l ++ [65535]) c) .bitgapBienc c level 8193 := by
  obtain ⟨a, r, rfl⟩ := List.exists_cons_of_ne_nil hne
  exact emission_speculate (spells_bitgapBienc h hm) spells_bit rfl (length_encode_bit c)

/-- A content that is not mono, in any form it admits. -/
theorem emission_emitAs (h : GapOf start c l) (hz : c ≠ Content.zero) (ho : c ≠ Content.ones)
    (hw : Writable c (l.length + 1) t) :
    Emission (emitAs t level start (l ++ [65535]) c) (triedForm c t) c level (plainBytes c (l.length + 1) t) := by
  have hlist := lists_positions hz ho
  have hnot := lists_positions_not hz ho
  have hlen := length_positions c
  have hlen' := length_positions_not c
  have hne := h.ne_nil hz ho
  cases t with
  | azero => exact (hw.not_azero rfl).elim
  | aone => exact (hw.not_aone rfl).elim
  | bit => exact emission_onStream spells_bit rfl (Nat.le_of_eq (length_encode_bit c))
  | gap => exact emission_gap h (hw.gap (.inl rfl))
  | gapEgamma => exact emission_gapEgamma h (hw.gap (.inr (.inl rfl)))
  | gapBienc => exact emission_gapBienc h hne (hw.gap (.inr (.inr rfl)))
  | bit1bit => exact emission_onStream (spells_bit1bit (hw.single rfl)) rfl (Nat.le_refl 3)
  | bit0runs => exact emission_onStream spells_bit0runs rfl (Nat.le_of_eq (length_runsToken c))
  | bitDigest0 => exact emission_onStream spells_bitDigest0 rfl (Nat.le_of_eq (length_digestToken c))
  | arrbit =>
    refine (emission_onStream (spells_plainArr (t := .arrbit) (i := .arrbit _) hlist rfl rfl rfl rfl) rfl ?_).load _
    exact Nat.le_of_eq ((length_plainArr 16 _).trans (by rw [hlen, plainBytes]))
  | arrbitInv =>
    refine (emission_onStream
      (spells_plainArr (t := .arrbitInv) (i := .arrbitInv _) hnot rfl rfl rfl rfl) rfl ?_).load _
    exact Nat.le_of_eq ((length_plainArr 30 _).trans (by rw [hlen', plainBytes]))
  | arrgap => rw [plainBytes, ← hlen]; exact (emission_arrgap hlist).load _
  | arrgapEgamma => rw [plainBytes, ← hlen]; exact (emission_arrgapEgamma hlist).load _
  | arrgapBienc => rw [plainBytes, triedForm, ← hlen]; exact (emission_arrgapBienc hlist).load _
  | arrgapInv => rw [plainBytes, ← hlen']; exact (emission_arrgapInv hnot).load _
  | arrgapEgammaInv => rw [plainBytes, ← hlen']; exact (emission_arrgapEgammaInv hnot).load _
  | arrgapBiencInv => rw [plainBytes, triedForm, ← hlen']; exact (emission_arrgapBiencInv hnot).load _
  | arrBienc => exact (emission_arrBienc hlist (by rw [hlen]; exact hw.arr rfl)).load _
  | arrBiencInv =>
    have hpop := hw.arrInv rfl
    exact (emission_arrBiencInv hnot (by omega)).load _
  | bitgapBienc => exact (emission_bitgap h hne (hw.bitgap rfl)).load _

end Forms

end Emission

end Sys2Proof.Machine

/-! What the classifier proposes can be written, and how long it gets (41_classifier.md, 42_block_encoder.md rules R250,
R251, R268). -/

namespace Sys2Proof.Machine

/-! ### The proposals for a bit block -/

section Classified

variable {p : Params} {c : Content} {L m : Nat} {t : Proposal}

theorem digest0_ne_zero (h : c ≠ Content.zero) : digest0 c ≠ 0 := fun h0 => h <| BitVec.eq_of_getLsbD_eq fun q hq => by
  have hwave := wave_unflagged c (j := q / 1024) (by omega) (by rw [h0]; exact BitVec.getLsbD_zero)
  have hword : wordAt c (q / 32) = 0 := by
    have hmem : wordAt c (q / 32) ∈ wordsFrom c (32 * (q / 1024)) 32 :=
      mem_wordsFrom.2 ⟨q / 32, by omega, by omega, rfl⟩
    rw [hwave] at hmem
    exact List.eq_of_mem_replicate hmem
  have hbit := getLsbD_wordAt c (q / 32) (Nat.mod_lt q (by omega : 0 < 32))
  rw [hword, Nat.div_add_mod] at hbit
  rw [← hbit, Content.getLsbD_zero]
  exact BitVec.getLsbD_zero

/-- The level map takes a form to one with the same needs. -/
theorem Writable.levelMap (h : Writable c m t) : Writable c m (levelMap L t) := by
  unfold Machine.levelMap
  split
  case isTrue =>
    split
    · exact ⟨nofun, nofun, nofun, fun _ => h.gap (.inr (.inl rfl)), nofun, nofun, nofun⟩
    · exact ⟨nofun, nofun, nofun, nofun, nofun, nofun, nofun⟩
    · exact ⟨nofun, nofun, nofun, nofun, nofun, nofun, nofun⟩
    · exact h
  case isFalse => exact h

theorem plainBytes_levelMap : plainBytes c m (levelMap L t) = plainBytes c m t := by
  unfold levelMap
  split
  · cases t <;> rfl
  · rfl

/-- A candidate that is proposed can be written, in few bytes. -/
theorem writable_of_candidate (hp : p.Valid) :
    ∀ k ∈ candidates p L (statsOf c), k.guard = true → k.cost < 65536 →
      Writable c (bitGapsOf c + 1) k.proposal ∧
        (p.gapEquivLen ≤ 4096 → p.gapMaxLen ≤ 4097 → plainBytes c (bitGapsOf c + 1) k.proposal ≤ 8193) := by
  have hpop := popcount_le c
  obtain ⟨-, -, -, -, hmax, hequiv, -, hcut⟩ := hp
  have hbc : (statsOf c).bc = popcount c := by rw [statsOf]
  have hgaps : (statsOf c).bitGaps = bitGapsOf c := by rw [statsOf]
  have hruns : (statsOf c).nzSize = nonzeroSize c := by rw [statsOf]
  have hwaves : (statsOf c).d0 = digest0 c := by rw [statsOf]
  intro k hk hg hcost
  simp only [candidates, List.mem_cons, List.not_mem_nil, or_false] at hk
  rcases hk with rfl | rfl | rfl | rfl | rfl | rfl | rfl | rfl | rfl | rfl | rfl | rfl | rfl | rfl
  all_goals
    simp only [Bool.and_eq_true, decide_eq_true_eq] at hg
    dsimp only at hcost
    refine ⟨?_, fun _ _ => ?_⟩
    · constructor <;> simp only [reduceCtorEq, ne_eq, not_false_eq_true, false_imp_iff, true_imp_iff, or_self,
        true_or, or_true] <;> omega
    · simp only [plainBytes, ← hwaves]
      omega

/-- What the classifier proposes where neither mono test applies: `bit`, or a candidate. -/
theorem classifyStats_induct {P : Proposal → Prop} {st : Stats} (hd : st.d0 ≠ 0) (hb : st.bc ≠ 65536) (hbit : P .bit)
    (hcand : ∀ k ∈ candidates p L st, k.guard = true → k.cost < 65536 → P k.proposal) :
    P (classifyStats p L st).1 := by
  rcases Nat.lt_or_ge L 2 with hL | hL
  · rw [classifyStats_low hd hb (by omega)]
    exact hbit
  · rw [classifyStats_select hd hb hL]
    obtain ⟨-, -, hwho | ⟨before, k, after, hcs, hg, hprop, hcost, -, hless⟩⟩ :=
      selectBest_spec .bit 65536 (candidates p L st)
    · rw [hwho]
      exact hbit
    · rw [← hprop]
      exact hcand k (by rw [hcs]; exact List.mem_append_right _ List.mem_cons_self) hg (by omega)

theorem stats_of_not_mono (hz : c ≠ Content.zero) (ho : c ≠ Content.ones) :
    (statsOf c).d0 ≠ 0 ∧ (statsOf c).bc ≠ 65536 := by
  rw [statsOf]
  exact ⟨digest0_ne_zero hz, fun h => ho (popcount_eq_all h)⟩

/-- The proposal of a content by its statistics, as an equation of functions: an equation of values would make the
kernel compute the statistics of an unknown content. -/
theorem classifyBit_eq : classifyBit = fun p L c => (classifyStats p L (statsOf c)).1 := rfl

theorem classifyBit_induct {P : Proposal → Prop} (hz : c ≠ Content.zero) (ho : c ≠ Content.ones) (hbit : P .bit)
    (hcand : ∀ k ∈ candidates p L (statsOf c), k.guard = true → k.cost < 65536 → P k.proposal) :
    P (classifyBit p L c) := by
  obtain ⟨hd, hb⟩ := stats_of_not_mono hz ho
  rw [classifyBit_eq]
  exact classifyStats_induct hd hb hbit hcand

theorem writable_classifyBit (hp : p.Valid) (hz : c ≠ Content.zero) (ho : c ≠ Content.ones) :
    Writable c (bitGapsOf c + 1) (classifyBit p L c) :=
  classifyBit_induct (P := Writable c (bitGapsOf c + 1)) hz ho
    ⟨nofun, nofun, nofun, nofun, nofun, nofun, nofun⟩ fun k hk hg hcost => (writable_of_candidate hp k hk hg hcost).1

theorem plainBytes_classifyBit_le (hp : p.Valid) (hz : c ≠ Content.zero) (ho : c ≠ Content.ones)
    (he : p.gapEquivLen ≤ 4096) (hm : p.gapMaxLen ≤ 4097) :
    plainBytes c (bitGapsOf c + 1) (classifyBit p L c) ≤ 8193 :=
  classifyBit_induct (P := fun t => plainBytes c (bitGapsOf c + 1) t ≤ 8193) hz ho (Nat.le_refl _)
    fun k hk hg hcost => (writable_of_candidate hp k hk hg hcost).2 he hm

theorem writable_of_le {t : Proposal} (h1 : popcount c = 1 ∨ t ≠ .bit1bit) (hm : m ≤ 8191)
    (ht : t ∈ [Proposal.bit1bit, .gap, .gapEgamma, .gapBienc, .arrgap, .arrgapEgamma, .arrgapBienc, .arrgapInv,
      .arrgapEgammaInv, .arrgapBiencInv]) : Writable c m t where
  not_azero := by rintro rfl; simp at ht
  not_aone := by rintro rfl; simp at ht
  single h := h1.resolve_right fun hne => hne h
  gap _ := hm
  bitgap _ := by omega
  arr := by rintro rfl; simp at ht
  arrInv := by rintro rfl; simp at ht

/-- What the GAP path proposes can be written, and takes no more bytes than the plain GAP (rule R268). -/
theorem classifyGap_spec {start : Bool} {ends : List Nat} (hc : gapRuns start 0 ends = c)
    (h0 : 1 ≤ ends.length) (hm : ends.length ≤ 8191) :
    Writable c ends.length (classifyGap L start ends) ∧
      plainBytes c ends.length (classifyGap L start ends) ≤ 1 + 2 * ends.length := by
  subst hc
  rcases Nat.lt_or_ge L 2 with hL | hL
  · rw [classifyGap_low (by omega)]
    exact ⟨writable_of_le (.inr nofun) hm (by decide), Nat.le_refl _⟩
  · by_cases hbc : popcount (gapRuns start 0 ends) = 1
    · rw [classifyGap_single hL hbc]
      exact ⟨writable_of_le (.inl hbc) hm (by decide), by rw [plainBytes]; omega⟩
    · rw [classifyGap_family hL hbc, gapFamily]
      split
      · next hfit =>
        have hbytes : 3 + 2 * popcount (gapRuns start 0 ends) ≤ 1 + 2 * ends.length := by omega
        rw [GapFamily.member]
        split
        · exact ⟨writable_of_le (.inr nofun) hm (by decide), hbytes⟩
        · split <;> exact ⟨writable_of_le (.inr nofun) hm (by decide), hbytes⟩
      · split
        · next hfit =>
          have hbytes : 3 + 2 * (65536 - popcount (gapRuns start 0 ends)) ≤ 1 + 2 * ends.length := by omega
          rw [GapFamily.member]
          split
          · exact ⟨writable_of_le (.inr nofun) hm (by decide), hbytes⟩
          · split <;> exact ⟨writable_of_le (.inr nofun) hm (by decide), hbytes⟩
        · rw [GapFamily.member]
          split
          · exact ⟨writable_of_le (.inr nofun) hm (by decide), Nat.le_refl _⟩
          · split <;> exact ⟨writable_of_le (.inr nofun) hm (by decide), Nat.le_refl _⟩

end Classified

/-! ### The emission of a block -/

/-- The state is the same but for registers that the emission does not read. -/
def SameWriter (s u : State) : Prop := u.stream = s.stream ∧ u.rolled = s.rolled

/-- The emission of a bit block once its form is known. -/
def emitForm (t : Proposal) (g : Bool × List Nat) (c : Content) : M Unit := do
  if convertsToGap t then loadIdx g.2
  emitAs t 0 g.1 g.2 c

theorem emitBitBlock_run {s u : State} {c : Content} {t : Proposal} (hu : classifyBlock c s = .ok t u) :
    emitBitBlock c s = emitForm (levelMap (cfgLevel u.cfg) t) (toGap c) c u := by
  rw [emitBitBlock, run_bind_ok hu, run_bind, run_get, emitForm]

theorem emission_emitForm {t : Proposal} {g : Bool × List Nat} {c : Content} (hends : gapEndsOk g.2 = true)
    (hg : gapRuns g.1 0 g.2 = c) (hz : c ≠ Content.zero) (ho : c ≠ Content.ones) (hw : Writable c g.2.length t) :
    Emission (emitForm t g c) (triedForm c t) c 0 (plainBytes c g.2.length t) := by
  obtain ⟨start, ends⟩ := g
  obtain ⟨l, rfl, hgap⟩ := exists_gapOf (start := start) hends
  dsimp only at hg hw ⊢
  rw [hg] at hgap
  rw [(ends_parts l).1] at hw ⊢
  have hemit := emission_emitAs (level := 0) hgap hz ho hw
  rw [emitForm]
  split
  · exact hemit.load _
  · exact hemit

theorem classifyBlock_run (c : Content) (s : State) :
    ∃ u, classifyBlock c s = .ok (classifyBit s.params (cfgLevel s.cfg) c) u ∧ SameWriter s u ∧ u.cfg = s.cfg ∧
      u.bestTag = (classifyBit s.params (cfgLevel s.cfg) c).tag := by
  rw [classifyBlock, run_bind, run_get, classifyBit_eq]
  dsimp only
  generalize statsOf c = st
  generalize classifyStats s.params (cfgLevel s.cfg) st = r
  refine ⟨{ s with
    d0 := st.d0
    bc := BitVec.ofNat 17 st.bc
    bitGaps := BitVec.ofNat 16 st.bitGaps
    nzSize := BitVec.ofNat 14 st.nzSize
    bestTag := r.1.tag
    bestCost := BitVec.ofInt 21 r.2 }, rfl, ⟨rfl, rfl⟩, rfl, rfl⟩

/-- A bit block: the classifier's registers first, then the form its proposal maps to. -/
theorem emitBitBlock_form {s : State} {c : Content} (hp : s.params.Valid) (hz : c ≠ Content.zero)
    (ho : c ≠ Content.ones) :
    ∃ u x, emitBitBlock c s = x u ∧ SameWriter s u ∧
      u.bestTag = (classifyBit s.params (cfgLevel s.cfg) c).tag ∧
      Emission x (triedForm c (levelMap (cfgLevel s.cfg) (classifyBit s.params (cfgLevel s.cfg) c))) c 0
        (plainBytes c (bitGapsOf c + 1) (classifyBit s.params (cfgLevel s.cfg) c)) := by
  obtain ⟨u, hu, hsame, hcfg, htag⟩ := classifyBlock_run c s
  have hwrite := writable_classifyBit (L := cfgLevel s.cfg) hp hz ho
  generalize classifyBit s.params (cfgLevel s.cfg) c = t at hu htag hwrite ⊢
  have hlen := length_toGap c
  have hw : Writable c (toGap c).2.length (levelMap (cfgLevel s.cfg) t) := by
    rw [hlen]
    exact hwrite.levelMap
  have hemit := emission_emitForm (toGap_ends c) (gapRuns_toGap c) hz ho hw
  rw [plainBytes_levelMap, hlen] at hemit
  have hrun := emitBitBlock_run hu
  rw [hcfg] at hrun
  exact ⟨u, _, hrun, hsame, htag, hemit⟩

/-- A GAP slot: BC first, from level 2 on, then the form of the GAP path. -/
theorem emitGapBlock_form {s : State} {level : Fin 4} {start : Bool} {ends : List Nat} {c : Content}
    (hc : gapRuns start 0 ends = c) (hends : gapEndsOk ends = true) (hm : ends.length ≤ 8191)
    (hz : c ≠ Content.zero) (ho : c ≠ Content.ones) :
    ∃ u, emitGapBlock level start ends s =
        emitAs (classifyGap (cfgLevel s.cfg) start ends) level start ends c u ∧ SameWriter s u ∧
      Emission (emitAs (classifyGap (cfgLevel s.cfg) start ends) level start ends c)
        (triedForm c (classifyGap (cfgLevel s.cfg) start ends)) c level (1 + 2 * ends.length) := by
  obtain ⟨l, rfl, hgap⟩ := exists_gapOf (start := start) hends
  rw [hc] at hgap
  obtain ⟨hw, hbytes⟩ := classifyGap_spec (L := cfgLevel s.cfg) hc (by rw [(ends_parts l).1]; omega) hm
  rw [(ends_parts l).1] at hw hbytes ⊢
  have hemit := (emission_emitAs (level := level) hgap hz ho hw).mono hbytes
  rw [emitGapBlock, run_bind, run_get, hc]
  dsimp only
  split
  · exact ⟨_, rfl, ⟨rfl, rfl⟩, hemit⟩
  · exact ⟨_, rfl, ⟨rfl, rfl⟩, hemit⟩

/-! ### The obligations -/

section Room

variable {x : M Unit} {t : Proposal} {c : Content} {level : Fin 4} {bound : Nat} {s u : State}

/-- With room for the largest form an emission ends normally. -/
theorem Emission.ends (h : Emission x t c level bound) (hsame : SameWriter s u) (hwf : s.stream.buf.wf = true)
    (ha : s.stream.wacc = 0) (hu : s.stream.wused = 0) (hroom : s.stream.pos + 2 ^ 20 ≤ s.stream.bufSize.toNat) :
    ∃ v i rolled, x u = .ok () v ∧ Denotes i c ∧ Wrote (encode i) s.stream v.stream ∧ ChosenToken t c i rolled ∧
      v.rolled = (s.rolled || rolled) ∧ v.bestTag = u.bestTag ∧
      (∀ head, headOf i = some head → head.toNat / 2 % 4 = level.val) ∧ (encode i).length ≤ bound := by
  obtain ⟨i, rolled, need, hx⟩ := h
  obtain ⟨hstream, hrolled⟩ := hsame
  have hneed := hx.need_lt
  have hrun := hx.run u
  rw [hstream] at hrun
  rcases hrun ha hu with ⟨v, hv, hem⟩ | ⟨hfull, -⟩
  · have hbytes := hem.bytes
    rw [hstream] at hbytes
    exact ⟨v, i, rolled, hv, hx.denotes, (hbytes hwf).1, hx.chosen, hrolled ▸ hem.rolled, hem.bestTag, hx.level,
      hx.length_le⟩
  · omega

theorem Emits.memories (h : Emits s u) : u.bs = s.bs ∧ u.nb = s.nb := by
  rw [h.1]
  exact ⟨rfl, rfl⟩

end Room

/-- Settles O53: classify, map, emit; a GAP is written at level 0. -/
theorem bitBlockEmission : Obligations.BitBlockEmission := by
  intro s c hp hwf _ ha hu hz ho hroom
  dsimp only
  obtain ⟨u, x, hrun, hsame, htag, hemit⟩ := emitBitBlock_form (s := s) hp hz ho
  obtain ⟨v, i, rolled, hv, hden, hwrote, hchosen, hrolled, hbest, hlevel, hlen⟩ := hemit.ends hsame hwf ha hu hroom
  rw [hv] at hrun
  obtain ⟨hbs, hnb⟩ := ((emitter_emitBitBlock c).ok hrun).memories
  exact ⟨v, i, rolled, hrun, hden, hwrote, hbs, hnb, hchosen, hrolled, hbest.trans htag, hlevel,
    fun he hm => hlen.trans (plainBytes_classifyBit_le hp hz ho he hm)⟩

theorem gapLevel_le {p : Params} (hp : p.Valid) (level : Fin 4) : p.gapLevel level ≤ 8192 := by
  obtain ⟨h01, h12, h23, -, hmax, -⟩ := hp
  rw [Params.gapMaxLen] at hmax
  match level with
  | 0 => simp only [Params.gapLevel]; omega
  | 1 => simp only [Params.gapLevel]; omega
  | 2 => simp only [Params.gapLevel]; omega
  | 3 => simp only [Params.gapLevel]; omega

/-- A GAP slot's endpoints. -/
theorem ends_of_slot {p : Params} (hp : p.Valid) {level : Fin 4} {start : Bool} {ends : List Nat}
    (h : Slot.wf p (.gap level start ends) = true) : gapEndsOk ends = true ∧ ends.length ≤ 8191 := by
  rw [Slot.wf, Bool.and_eq_true, decide_eq_true_eq] at h
  have := gapLevel_le hp level
  exact ⟨h.1, by omega⟩

/-- Settles O54: the GAP path, with the slot's own level. -/
theorem gapBlockEmission : Obligations.GapBlockEmission := by
  intro s level start ends hp hwf _ ha hu hslot hz ho hroom
  dsimp only
  obtain ⟨hends, hm⟩ := ends_of_slot hp hslot
  obtain ⟨u, hrun, hsame, hemit⟩ := emitGapBlock_form (s := s) (level := level) rfl hends hm hz ho
  obtain ⟨v, i, rolled, hv, hden, hwrote, hchosen, hrolled, -, hlevel, hlen⟩ := hemit.ends hsame hwf ha hu hroom
  rw [hv] at hrun
  obtain ⟨hbs, hnb⟩ := ((emitter_emitGapBlock level start ends).ok hrun).memories
  exact ⟨v, i, rolled, hrun, hden, hwrote, hbs, hnb, hchosen, hrolled, hlevel, hlen⟩

end Sys2Proof.Machine

/-! The serializer driver (42_block_encoder.md rules R240, R247, R248; 30_encoding.md rule R106): every turn of the body
writes one token that covers the blocks it passes, or the buffer has no room for it; what a whole vector is written as,
and that a large buffer always suffices. -/

namespace Sys2Proof.Machine

/-! ### Runs and the header, exactly -/

theorem Exactly.iteToken {p : Prop} [Decidable p] {i j : Instr} {x y : Codec Unit} (hx : p → Exactly (encode i) x)
    (hy : ¬p → Exactly (encode j) y) : Exactly (encode (if p then i else j)) (if p then x else y) := by
  split
  · exact hx ‹_›
  · exact hy ‹_›

theorem exactly_emitZeroRun {n : Nat} (hn : n < 2 ^ 64) : Exactly (encode (zeroRunForm n)) (emitZeroRun n) := by
  refine .iteToken (fun _ => exactly_putU8 1) fun _ => .iteToken (fun h => ?_) fun _ =>
    .iteToken (fun _ => (exactly_putU8 3).bind (exactly_putU8 _)) fun _ => .iteToken (fun h => ?_) fun _ =>
    .iteToken (fun h => (exactly_putU8 7).bind (exactly_putU32N h)) fun _ =>
    (exactly_putU8 25).bind (exactly_putU64N hn)
  · exact .of_eq (exactly_putU8 _) (encode_zskip h).symm
  · exact (exactly_putU8 5).bind (exactly_putU16N (by omega))

theorem exactly_emitOneRun {n : Nat} (hn : n < 2 ^ 64) : Exactly (encode (oneRunForm n)) (emitOneRun n) := by
  refine .iteToken (fun _ => exactly_putU8 2) fun _ =>
    .iteToken (fun _ => (exactly_putU8 4).bind (exactly_putU8 _)) fun _ => .iteToken (fun h => ?_) fun _ =>
    .iteToken (fun h => (exactly_putU8 8).bind (exactly_putU32N h)) fun _ =>
    (exactly_putU8 26).bind (exactly_putU64N hn)
  exact (exactly_putU8 6).bind (exactly_putU16N (by omega))

theorem gapLevels_lt {p : Params} (hp : p.Valid) :
    ∀ v ∈ [p.gapLevel0, p.gapLevel1, p.gapLevel2, p.gapLevel3], v < 65536 := by
  obtain ⟨h01, h12, h23, -, hmax, -⟩ := hp
  rw [Params.gapMaxLen] at hmax
  simp only [List.forall_mem_cons, List.not_mem_nil, false_imp_iff, implies_true, and_true]
  omega

theorem bits_le_48 (p : Params) : p.aw.bits ≤ 48 := by
  cases p.aw <;> decide

theorem totalBlocks_le (p : Params) : p.totalBlocks ≤ 2 ^ 32 :=
  Nat.pow_le_pow_right (by omega) (by have := bits_le_48 p; omega)

/-- A size of a vector as a field of 64 bits holds it. -/
theorem toNat_size {p : Params} {size : Nat} (hs : size < 2 ^ p.aw.bits) : (BitVec.ofNat 64 size).toNat = size := by
  have hpow : 2 ^ p.aw.bits ≤ 2 ^ 48 := Nat.pow_le_pow_right (by omega) (bits_le_48 p)
  exact Nat.mod_eq_of_lt (by omega)

theorem exactly_writeHeader {p : Params} {size : Nat} (hp : p.Valid) (hs : size < 2 ^ p.aw.bits) (cfg : U64) :
    Exactly (encode (.streamHeader (writtenHeader p size cfg))) (writeHeader p size cfg) := by
  have hv := toNat_size hs
  rw [encode_writtenHeader, List.append_assoc, hv]
  have hsize : Exactly (if size ≠ p.sizeDefault then
      if p.aw = .w48 then wireBytes true 8 size else wireBytes true 4 size else [])
      (if size ≠ p.sizeDefault then if p.aw = .w48 then putU64N size else putU32N size else return ()) := by
    refine .ite (fun _ => .ite (fun _ => ?_) fun h32 => ?_) fun _ => .nothing
    · have h := exactly_putU64N (v := size) (by rw [← hv]; exact BitVec.isLt _)
      rwa [hv] at h
    · have hbits : p.aw.bits = 32 := by
        cases haw : p.aw with
        | w32 => rfl
        | w48 => exact absurd haw h32
      rw [hbits] at hs
      have h := exactly_putU32N hs
      rwa [BitVec.toNat_ofNat, Nat.mod_eq_of_lt hs] at h
  exact (exactly_putU8 _).bind (.opt (exactly_putU8 1) (.opt (exactly_putU16Ns (gapLevels_lt hp)) hsize))

theorem length_writtenHeader_le (p : Params) (size : Nat) (cfg : U64) :
    (encode (.streamHeader (writtenHeader p size cfg))).length ≤ 18 := by
  have h4 : ∀ v, (wireBytes true 4 v).length = 4 := fun _ => rfl
  have h8 : ∀ v, (wireBytes true 8 v).length = 8 := fun _ => rfl
  rw [encode_writtenHeader, List.length_cons, List.length_append, List.length_append]
  have hbo : (if cfgBo cfg then [1#8] else []).length ≤ 1 := by split <;> simp
  have hgap : (if cfgGapl cfg then wireU16s true
      ([p.gapLevel0, p.gapLevel1, p.gapLevel2, p.gapLevel3].map (BitVec.ofNat 16)) else []).length ≤ 8 := by
    split
    · rw [length_wireU16s]
      exact Nat.le_refl 8
    · exact Nat.zero_le 8
  have hsize : (if size ≠ p.sizeDefault then
      if p.aw = .w48 then wireBytes true 8 (BitVec.ofNat 64 size).toNat
      else wireBytes true 4 (BitVec.ofNat 64 size).toNat else []).length ≤ 8 := by
    split
    · split
      · rw [h8]
      · rw [h4]
        omega
    · exact Nat.zero_le 8
  omega

/-! ### What a turn covers -/

/-- A turn from block `lo` writes this token, which covers the blocks up to `hi`; how the loop goes on is said too. -/
inductive Covers (f : Nat → Content) (total lo : Nat) : Turn → Instr → Nat → Prop
  | zeroTail (h : ∀ j, lo ≤ j → j < total → f j = Content.zero) : Covers f total lo .done .azero total
  | zeroRun (hi : Nat) (hlo : lo < hi) (hhi : hi < total) (h : ∀ j, lo ≤ j → j < hi → f j = Content.zero) :
    Covers f total lo .again (zeroRunForm (hi - lo)) hi
  | oneTail (h : ∀ j, lo ≤ j → j < total → f j = Content.ones) : Covers f total lo .leave .aone total
  | oneRun (hi : Nat) (hlo : lo < hi) (hhi : hi < total) (h : ∀ j, lo ≤ j → j < hi → f j = Content.ones) :
    Covers f total lo .again (oneRunForm (hi - lo)) hi
  | block (i : Instr) (hne : f lo ≠ Content.zero) (h : Denotes i (f lo)) : Covers f total lo .again i (lo + 1)

/-- Bytes have been written at POS, and nothing else of the stream side has changed but what lies behind them. -/
structure Out (bs : List Byte) (s t : State) : Prop where
  stream : t.stream = { s.stream with buf := t.stream.buf, pos := s.stream.pos + bs.length }
  bytes : s.stream.buf.wf = true → Wrote bs s.stream t.stream ∧ t.stream.buf.wf = true

section Out

variable {s t u : State} {xs ys : List Byte}

theorem Out.trans (h1 : Out xs s t) (h2 : Out ys t u) : Out (xs ++ ys) s u := by
  refine ⟨?_, fun hw => ?_⟩
  · rw [h2.stream, h1.stream, List.length_append, Nat.add_assoc]
  · obtain ⟨hwx, hwf⟩ := h1.bytes hw
    obtain ⟨hwy, hwf'⟩ := h2.bytes hwf
    exact ⟨hwx.append hwy, hwf'⟩

theorem Out.of_put (h : t.stream = s.stream.put xs) : Out xs s t := by
  refine ⟨by rw [h]; rfl, fun hw => ?_⟩
  rw [h]
  exact ⟨wrote_put hw xs, Memory.wf_writeList hw _ _⟩

theorem Out.congr (h : Out xs s t) (hs : u.stream = s.stream) : Out xs u t := by
  obtain ⟨h1, h2⟩ := h
  rw [← hs] at h1 h2
  exact ⟨h1, h2⟩

theorem Out.congr_right (h : Out xs s t) (hs : u.stream = t.stream) : Out xs s u := by
  obtain ⟨h1, h2⟩ := h
  rw [← hs] at h1 h2
  exact ⟨h1, h2⟩

theorem Emitted.out {rolled : Bool} (h : Emitted xs rolled s t) : Out xs s t := ⟨h.stream, h.bytes⟩

end Out

/-- What a turn leaves: its token's bytes, NB behind the blocks covered, and the later blocks as they were. -/
structure Turned (r : Turn) (i : Instr) (hi : Nat) (s t : State) : Prop where
  out : Out (encode i) s t
  nb : r = .again → t.nb = hi
  rest : ∀ j, hi ≤ j → t.bs.content j = s.bs.content j

section BodyTurn

variable {destroy : Bool} {s : State}

theorem destroyBlocks_run (destroy : Bool) (nb n : Nat) (s : State) :
    destroyBlocks destroy nb n s = .ok () { s with bs := if destroy then s.bs.zero nb n else s.bs } := by
  cases destroy <;> rfl

theorem content_destroyed (hw : s.bs.wf s.params = true) (nb n : Nat) {j : Nat} (h : nb + n ≤ j) :
    (if destroy then s.bs.zero nb n else s.bs).content j = s.bs.content j := by
  split
  · rw [BlockStore.content_zero (BlockStore.wf_rising hw), if_neg (by omega)]
  · rfl

/-- A turn that empties the blocks it passes, if so asked, writes a token and sets NB. -/
theorem turn_run {r : Turn} {i : Instr} {hi nb n : Nat} {x : Codec Unit} (hx : Exactly (encode i) x)
    (hw : s.bs.wf s.params = true) (ha : s.stream.wacc = 0) (hu : s.stream.wused = 0) (hn : nb + n ≤ hi) :
    (∃ u, (do destroyBlocks destroy nb n; onStream x; setNb hi; return r : M Turn) s = .ok r u ∧
        Turned r i hi s u) ∨
      (s.stream.bufSize.toNat < s.stream.pos + (encode i).length ∧
        ∃ e u, (do destroyBlocks destroy nb n; onStream x; setNb hi; return r : M Turn) s = .error e u) := by
  rw [run_bind_ok (destroyBlocks_run destroy nb n s)]
  rcases onStream_exactly hx (s := { s with bs := if destroy then s.bs.zero nb n else s.bs }) ha hu with
    hok | ⟨hfull, e, u, herr⟩
  · rw [run_bind_ok hok]
    exact .inl ⟨_, rfl, .of_put rfl, fun _ => rfl, fun j hj => content_destroyed hw nb n (by omega)⟩
  · exact .inr ⟨hfull, e, u, run_bind_error herr⟩

/-- The emission of the block at NB, whatever its slot. -/
theorem emitBlockAt_form {v : State} (hp : s.params.Valid) (hw : s.bs.wf s.params = true)
    (hv : v.params = s.params) (hz : s.bs.content s.nb ≠ Content.zero) (ho : s.bs.content s.nb ≠ Content.ones) :
    ∃ u x t level bound, emitBlockAt s v = x u ∧ SameWriter v u ∧
      Emission x t (s.bs.content s.nb) level bound := by
  have hc := content_resolve s.params s.nb (s.bs.at' s.nb)
  have hwf := wf_resolve s.nb (BlockStore.wf_at hw s.nb)
  rw [emitBlockAt]
  cases hslot : s.bs.slot s.params s.nb with
  | gap level start ends =>
    rw [show (s.bs.at' s.nb).resolve s.params s.nb = .gap level start ends from hslot] at hc hwf
    obtain ⟨hends, hm⟩ := ends_of_slot hp hwf
    obtain ⟨u, hrun, hsame, hemit⟩ := emitGapBlock_form (s := v) (level := level) hc hends hm hz ho
    exact ⟨u, _, _, _, _, hrun, hsame, hemit⟩
  | _ =>
    obtain ⟨u, x, hrun, hsame, -, hemit⟩ := emitBitBlock_form (s := v) (hv ▸ hp) hz ho
    exact ⟨u, x, _, _, _, hrun, hsame, hemit⟩

theorem Emission.outcome {x : M Unit} {t : Proposal} {c : Content} {level : Fin 4} {bound : Nat} {v u : State}
    (h : Emission x t c level bound) (hsame : SameWriter v u) (ha : v.stream.wacc = 0) (hu : v.stream.wused = 0) :
    ∃ i, Denotes i c ∧ (encode i).length ≤ 2 ^ 20 ∧
      ((∃ w, x u = .ok () w ∧ Out (encode i) v w) ∨
        (v.stream.bufSize.toNat < v.stream.pos + 2 ^ 20 ∧ ∃ e w, x u = .error e w)) := by
  obtain ⟨i, rolled, need, hx⟩ := h
  obtain ⟨hstream, -⟩ := hsame
  have h1 := hx.le_need
  have h2 := hx.need_lt
  refine ⟨i, hx.denotes, by omega, ?_⟩
  have hrun := hx.run u
  rw [hstream] at hrun
  rcases hrun ha hu with ⟨w, hw, hem⟩ | ⟨hfull, herr⟩
  · exact .inl ⟨w, hw, hem.out.congr hstream.symm⟩
  · exact .inr ⟨by omega, herr⟩

/-- One turn: the token that covers the blocks passed, or no room for it. -/
theorem bodyTurn_covers (hp : s.params.Valid) (hw : s.bs.wf s.params = true) (ha : s.stream.wacc = 0)
    (hu : s.stream.wused = 0) (hn : s.nb < s.params.totalBlocks) :
    ∃ r i hi, Covers s.bs.content s.params.totalBlocks s.nb r i hi ∧ s.nb < hi ∧ (encode i).length ≤ 2 ^ 20 ∧
      ((∃ u, bodyTurn destroy s = .ok r u ∧ Turned r i hi s u) ∨
        (s.stream.bufSize.toNat < s.stream.pos + 2 ^ 20 ∧ ∃ e u, bodyTurn destroy s = .error e u)) := by
  have htotal := totalBlocks_le s.params
  obtain ⟨hz1, hz2, hz3, hz4⟩ := BlockStore.nextOther_spec s.params Content.zero s.bs (Nat.le_of_lt hn)
  obtain ⟨ho1, ho2, ho3, ho4⟩ := BlockStore.nextOther_spec s.params Content.ones s.bs (Nat.le_of_lt hn)
  by_cases hz : s.bs.content s.nb = Content.zero
  · by_cases hj : s.bs.nextNonzero s.params s.nb = s.params.totalBlocks
    · refine ⟨.done, .azero, s.params.totalBlocks, .zeroTail fun j h1 h2 => hz3 j h1 ?_, hn, by decide, ?_⟩
      · rw [← BlockStore.nextNonzero, hj]
        exact h2
      rw [bodyTurn_zeroTail hz hj]
      rcases onStream_exactly (exactly_putU8 9) ha hu with hok | ⟨hfull, e, u, herr⟩
      · rw [run_bind_ok hok]
        exact .inl ⟨_, rfl, .of_put rfl, nofun, fun _ _ => rfl⟩
      · rw [List.length_singleton] at hfull
        exact .inr ⟨by omega, e, u, run_bind_error herr⟩
    · have hlt : s.bs.nextNonzero s.params s.nb < s.params.totalBlocks := Nat.lt_of_le_of_ne hz2 hj
      have hlo : s.nb < s.bs.nextNonzero s.params s.nb :=
        Nat.lt_of_le_of_ne hz1 fun h => hz4 hlt (by rw [← BlockStore.nextNonzero, ← h]; exact hz)
      have hlen := length_encode_zeroRunForm_le (s.bs.nextNonzero s.params s.nb - s.nb)
      refine ⟨.again, _, _, .zeroRun _ hlo hlt hz3, hlo, by omega, ?_⟩
      rw [bodyTurn_zeroRun hz hj]
      rcases turn_run (destroy := false) (r := .again) (hi := s.bs.nextNonzero s.params s.nb) (nb := s.nb) (n := 0)
          (exactly_emitZeroRun (n := s.bs.nextNonzero s.params s.nb - s.nb) (by omega)) hw ha hu (by omega) with
        hok | ⟨hfull, herr⟩
      · exact .inl hok
      · exact .inr ⟨by omega, herr⟩
  · by_cases ho : s.bs.content s.nb = Content.ones
    · by_cases hj : s.bs.nextNotOnes s.params s.nb = s.params.totalBlocks
      · refine ⟨.leave, .aone, s.params.totalBlocks, .oneTail fun j h1 h2 => ho3 j h1 ?_, hn, by decide, ?_⟩
        · rw [← BlockStore.nextNotOnes, hj]
          exact h2
        rw [bodyTurn_oneTail hz ho hj]
        rcases turn_run (destroy := destroy) (r := .leave) (hi := s.params.totalBlocks) (nb := s.nb)
            (n := s.params.totalBlocks - s.nb) (i := .aone) (exactly_putU8 10) hw ha hu (by omega) with
          hok | ⟨hfull, herr⟩
        · exact .inl hok
        · have hlen : (encode .aone).length = 1 := rfl
          exact .inr ⟨by omega, herr⟩
      · have hlt : s.bs.nextNotOnes s.params s.nb < s.params.totalBlocks := Nat.lt_of_le_of_ne ho2 hj
        have hlo : s.nb < s.bs.nextNotOnes s.params s.nb :=
          Nat.lt_of_le_of_ne ho1 fun h => ho4 hlt (by rw [← BlockStore.nextNotOnes, ← h]; exact ho)
        have hlen := length_encode_oneRunForm_le (s.bs.nextNotOnes s.params s.nb - s.nb)
        refine ⟨.again, _, _, .oneRun _ hlo hlt ho3, hlo, by omega, ?_⟩
        rw [bodyTurn_oneRun hz ho hj]
        rcases turn_run (destroy := destroy) (r := .again) (hi := s.bs.nextNotOnes s.params s.nb) (nb := s.nb)
            (n := s.bs.nextNotOnes s.params s.nb - s.nb)
            (exactly_emitOneRun (n := s.bs.nextNotOnes s.params s.nb - s.nb) (by omega)) hw ha hu (by omega) with
          hok | ⟨hfull, herr⟩
        · exact .inl hok
        · exact .inr ⟨by omega, herr⟩
    · obtain ⟨v, x, t, level, bound, hrun, hsame, hemit⟩ := emitBlockAt_form (v := clearRolled s) hp hw rfl hz ho
      obtain ⟨i, hden, hlen, hout⟩ := hemit.outcome hsame ha hu
      refine ⟨.again, i, s.nb + 1, .block i hz hden, Nat.lt_succ_self _, hlen, ?_⟩
      rw [bodyTurn_block hz ho, run_bind, run_modify]
      dsimp only
      rcases hout with ⟨w, hok, hbytes⟩ | ⟨hfull, e, w, herr⟩
      · rw [hok] at hrun
        obtain ⟨hbs, -⟩ := ((emitter_emitBlockAt s).ok hrun).memories
        have hparams : w.params = s.params := by rw [((emitter_emitBlockAt s).ok hrun).1]; rfl
        have hww : w.bs.wf w.params = true := by rw [hbs, hparams]; exact hw
        rw [run_bind_ok hrun, run_bind_ok (destroyBlocks_run destroy s.nb 1 w)]
        have hout : Out (encode i) s w := hbytes.congr rfl
        refine .inl ⟨_, rfl, hout.congr_right rfl, fun _ => rfl, fun j hj => ?_⟩
        exact (content_destroyed hww s.nb 1 hj).trans (by rw [hbs]; rfl)
      · rw [herr] at hrun
        exact .inr ⟨hfull, e, w, run_bind_error hrun⟩

end BodyTurn

end Sys2Proof.Machine

/-! A whole vector (42_block_encoder.md rules R240, R270, 46_host_commands.md rules R500, R501): the loop writes a list
of tokens that covers the blocks from NB to the end, and the serialize commands run it behind the header. -/

namespace Sys2Proof.Machine

/-! ### The tokens of a vector -/

/-- The tokens that carry the blocks from `lo` to the end, as the loop writes them. -/
inductive Carries (f : Nat → Content) (total : Nat) : Nat → List Instr → Prop
  | stop : Carries f total total [.endOfStream]
  | done {lo hi : Nat} {i : Instr} (hlo : lo < total) (h : Covers f total lo .done i hi) : Carries f total lo [i]
  | leave {lo hi : Nat} {i : Instr} (hlo : lo < total) (h : Covers f total lo .leave i hi) :
    Carries f total lo [i, .endOfStream]
  | again {lo hi : Nat} {i : Instr} {toks : List Instr} (hlo : lo < total) (h : Covers f total lo .again i hi)
    (rest : Carries f total hi toks) : Carries f total lo (i :: toks)

section Covers

variable {f g : Nat → Content} {total lo hi : Nat} {r : Turn} {i : Instr}

theorem Covers.le (h : Covers f total lo r i hi) (hlo : lo < total) : hi ≤ total := by
  cases h with
  | zeroTail => exact Nat.le_refl _
  | zeroRun _ _ hhi => exact Nat.le_of_lt hhi
  | oneTail => exact Nat.le_refl _
  | oneRun _ _ hhi => exact Nat.le_of_lt hhi
  | block => exact hlo

theorem Covers.congr (h : Covers f total lo r i hi) (hfg : ∀ j, lo ≤ j → f j = g j) : Covers g total lo r i hi := by
  cases h with
  | zeroTail h => exact .zeroTail fun j h1 h2 => (hfg j h1).symm.trans (h j h1 h2)
  | zeroRun hi hlo hhi h => exact .zeroRun hi hlo hhi fun j h1 h2 => (hfg j h1).symm.trans (h j h1 h2)
  | oneTail h => exact .oneTail fun j h1 h2 => (hfg j h1).symm.trans (h j h1 h2)
  | oneRun hi hlo hhi h => exact .oneRun hi hlo hhi fun j h1 h2 => (hfg j h1).symm.trans (h j h1 h2)
  | block i hne h =>
    rw [hfg lo (Nat.le_refl _)] at hne h
    exact .block i hne h

end Covers

/-! ### The loop -/

/-- The loop stands at NB and has the contents `f` before it; its writer is empty. -/
structure Looping (f : Nat → Content) (total : Nat) (s : State) : Prop where
  valid : s.params.Valid
  total_eq : s.params.totalBlocks = total
  wf : s.bs.wf s.params = true
  nb_le : s.nb ≤ total
  content : ∀ j, s.nb ≤ j → s.bs.content j = f j
  wacc : s.stream.wacc = 0
  wused : s.stream.wused = 0

/-- The buffer ends before the bytes that the rest of the loop may need. -/
def Scant (total : Nat) (s : State) : Prop := s.stream.bufSize.toNat < s.stream.pos + (2 ^ 20 * (total - s.nb) + 2)

section BodyLoop

variable {f : Nat → Content} {total : Nat} {destroy : Bool} {s u : State} {r : Turn} {i : Instr} {hi : Nat}

theorem Looping.next (h : Looping f total s) (hlt : s.nb < total) (hrun : bodyTurn destroy s = .ok .again u)
    (ht : Turned .again i hi s u) (hlo : s.nb < hi) (hhi : hi ≤ total) : Looping f total u := by
  have hser := serial_bodyTurn (destroy := destroy) (s := s) (by rw [h.total_eq]; exact hlt)
  rw [hrun] at hser
  have hparams : u.params = s.params := hser.params
  have hnb : u.nb = hi := ht.nb rfl
  refine ⟨?_, ?_, ?_, ?_, fun j hj => ?_, ?_, ?_⟩
  · rw [hparams]
    exact h.valid
  · rw [hparams]
    exact h.total_eq
  · rw [hparams]
    exact (hser.inRange ⟨h.wf, by rw [h.total_eq]; exact h.nb_le⟩).1
  · rw [hnb]
    exact hhi
  · rw [hnb] at hj
    exact (ht.rest j hj).trans (h.content j (by omega))
  · rw [ht.out.stream]
    exact h.wacc
  · rw [ht.out.stream]
    exact h.wused

/-- The terminator. -/
theorem terminator_run (ha : s.stream.wacc = 0) (hu : s.stream.wused = 0) :
    (∃ u, onStream (putU8 0) s = .ok () u ∧ Out (encode .endOfStream) s u) ∨
      (s.stream.bufSize.toNat < s.stream.pos + 1 ∧ ∃ e u, onStream (putU8 0) s = .error e u) :=
  (onStream_exactly (exactly_putU8 0) ha hu).imp_left fun h => ⟨_, h, .of_put rfl⟩

/-- The loop writes tokens that carry the blocks from NB on, or the buffer is scant. -/
theorem bodyLoop_carries (fuel : Nat) (hs : Looping f total s) (hfuel : total < s.nb + fuel) :
    (∃ u toks, bodyLoop destroy fuel s = .ok () u ∧ Carries f total s.nb toks ∧ Out (toks.flatMap encode) s u) ∨
      (Scant total s ∧ ∃ e u, bodyLoop destroy fuel s = .error e u) := by
  induction fuel generalizing s with
  | zero =>
    have := hs.nb_le
    omega
  | succ fuel ih =>
    have hnb := hs.nb_le
    rw [bodyLoop_succ, hs.total_eq, Scant]
    by_cases hend : total ≤ s.nb
    · rw [if_pos hend]
      rcases terminator_run hs.wacc hs.wused with ⟨u, hu, hout⟩ | ⟨hfull, herr⟩
      · refine .inl ⟨u, [.endOfStream], hu, ?_, hout⟩
        rw [Nat.le_antisymm hnb hend]
        exact .stop
      · exact .inr ⟨by omega, herr⟩
    · rw [if_neg hend]
      obtain ⟨r, i, hi, hcov, hlo, hlen, hrun⟩ := bodyTurn_covers (destroy := destroy) hs.valid hs.wf hs.wacc hs.wused
        (by rw [hs.total_eq]; omega)
      rw [hs.total_eq] at hcov
      have hhi := hcov.le (by omega)
      have hcov := hcov.congr hs.content
      rcases hrun with ⟨u, hu, hturned⟩ | ⟨hfull, e, u, herr⟩
      · rw [run_bind_ok hu]
        have hout := hturned.out
        have hpos : u.stream.pos = s.stream.pos + (encode i).length := by rw [hout.stream]
        have hsize : u.stream.bufSize = s.stream.bufSize := by rw [hout.stream]
        cases r with
        | again =>
          have hnext := hs.next (by omega) hu hturned hlo hhi
          have hnb' : u.nb = hi := hturned.nb rfl
          rcases ih hnext (by omega) with ⟨v, toks, hv, hcarries, hrest⟩ | ⟨hscant, herr⟩
          · rw [hnb'] at hcarries
            exact .inl ⟨v, i :: toks, hv, .again (by omega) hcov hcarries, hout.trans hrest⟩
          · rw [Scant, hpos, hsize, hnb'] at hscant
            exact .inr ⟨by omega, herr⟩
        | leave =>
          rcases terminator_run (s := u) (by rw [hout.stream]; exact hs.wacc) (by rw [hout.stream]; exact hs.wused) with
            ⟨v, hv, hrest⟩ | ⟨hfull, herr⟩
          · exact .inl ⟨v, [i, .endOfStream], hv, .leave (by omega) hcov, hout.trans hrest⟩
          · rw [hpos, hsize] at hfull
            exact .inr ⟨by omega, herr⟩
        | done => exact .inl ⟨u, [i], rfl, .done (by omega) hcov, by simpa using hout⟩
      · exact .inr ⟨by omega, e, u, run_bind_error herr⟩

end BodyLoop

/-! ### The encoder -/

/-- The header, then the body. -/
def encoder (destroy : Bool) : M Unit := do
  emitHeader
  serializeBody destroy

/-- The header of the vector of a state, as bytes. -/
def headerBytes (s : State) : List Byte := encode (.streamHeader (writtenHeader s.params s.bsSize s.cfg))

/-- A state the encoder can run from: a legal size, and an empty writer. -/
structure Encodable (s : State) : Prop where
  valid : s.params.Valid
  size_lt : s.bsSize < 2 ^ s.params.aw.bits
  wf : s.bs.wf s.params = true
  wacc : s.stream.wacc = 0
  wused : s.stream.wused = 0

section Encoder

variable {destroy : Bool} {s : State}

/-- The state behind the header, as the loop begins. -/
def headed (s : State) : State :=
  { s with hdrFlags := headerFlags s.params s.bsSize s.cfg, stream := s.stream.put (headerBytes s), nb := 0 }

theorem length_headerBytes_le (s : State) : (headerBytes s).length ≤ 18 := length_writtenHeader_le _ _ _

theorem encoder_head (h : Encodable s) :
    encoder destroy s = bodyLoop destroy (s.params.totalBlocks + 1) (headed s) ∨
      (s.stream.bufSize.toNat < s.stream.pos + (headerBytes s).length ∧ ∃ e u, encoder destroy s = .error e u) := by
  have hhead : emitHeader s = onStream (writeHeader s.params s.bsSize s.cfg)
      { s with hdrFlags := headerFlags s.params s.bsSize s.cfg } := rfl
  rcases onStream_exactly (exactly_writeHeader h.valid h.size_lt s.cfg)
      (s := { s with hdrFlags := headerFlags s.params s.bsSize s.cfg }) h.wacc h.wused with hok | ⟨hfull, e, u, herr⟩
  · rw [← hhead] at hok
    exact .inl (run_bind_ok hok)
  · rw [← hhead] at herr
    exact .inr ⟨hfull, e, u, run_bind_error herr⟩

theorem headed_out (s : State) : Out (headerBytes s) s (headed s) := .of_put rfl

theorem looping_headed (h : Encodable s) : Looping s.bs.content s.params.totalBlocks (headed s) :=
  ⟨h.valid, rfl, h.wf, Nat.zero_le _, fun _ _ => rfl, h.wacc, h.wused⟩

/-- The encoder writes the header and tokens that carry the vector, unless the buffer is scant. -/
theorem encoder_run (h : Encodable s) :
    (∃ u toks, encoder destroy s = .ok () u ∧ Carries s.bs.content s.params.totalBlocks 0 toks ∧
        Out (headerBytes s ++ toks.flatMap encode) s u) ∨
      (s.stream.bufSize.toNat < s.stream.pos + (2 ^ 20 * s.params.totalBlocks + 20) ∧
        ∃ e u, encoder destroy s = .error e u) := by
  have hlen := length_headerBytes_le s
  rcases encoder_head (destroy := destroy) h with hrun | ⟨hfull, herr⟩
  · rw [hrun]
    rcases bodyLoop_carries (destroy := destroy) (s.params.totalBlocks + 1) (looping_headed h) (by omega) with
      ⟨u, toks, hu, hcarries, hout⟩ | ⟨hscant, herr⟩
    · exact .inl ⟨u, toks, hu, hcarries, (headed_out s).trans hout⟩
    · have hpos : (headed s).stream.pos = s.stream.pos + (headerBytes s).length := rfl
      have hsize : (headed s).stream.bufSize = s.stream.bufSize := rfl
      have hnb : (headed s).nb = 0 := rfl
      rw [Scant, hpos, hsize, hnb] at hscant
      exact .inr ⟨by omega, herr⟩
  · exact .inr ⟨by omega, herr⟩

theorem totalBlocks_pos (p : Params) : 0 < p.totalBlocks := Nat.two_pow_pos _

/-- A vector of zeros: the header, then `azero`. -/
theorem encoder_zeros (h : Encodable s) (hz : ∀ j, s.bs.content j = Content.zero)
    (hroom : s.stream.pos + 19 ≤ s.stream.bufSize.toNat) :
    ∃ u, encoder destroy s = .ok () u ∧ u.stream = s.stream.put (headerBytes s ++ [9]) := by
  have hlen := length_headerBytes_le s
  have hmore : ¬(headed s).params.totalBlocks ≤ (headed s).nb := Nat.not_le.2 (totalBlocks_pos s.params)
  obtain ⟨-, hz2, -, hz4⟩ := BlockStore.nextOther_spec s.params Content.zero s.bs (Nat.zero_le s.params.totalBlocks)
  have hnext : s.bs.nextNonzero s.params 0 = s.params.totalBlocks :=
    Nat.le_antisymm hz2 (Nat.not_lt.1 fun hlt => hz4 hlt (hz _))
  rcases encoder_head (destroy := destroy) h with hrun | ⟨hfull, -⟩
  · have hturn := bodyTurn_zeroTail (destroy := destroy) (s := headed s) (hz 0) hnext
    rcases onStream_exactly (exactly_putU8 9) (s := headed s) h.wacc h.wused with hok | ⟨hfull, -⟩
    · rw [run_bind_ok hok] at hturn
      rw [hrun, bodyLoop_succ, if_neg hmore, run_bind_ok hturn]
      exact ⟨_, rfl, (Stream.put_append _ _ _).symm⟩
    · have hpos : (headed s).stream.pos = s.stream.pos + (headerBytes s).length := rfl
      have hsize : (headed s).stream.bufSize = s.stream.bufSize := rfl
      rw [hpos, hsize, List.length_singleton] at hfull
      omega
  · omega

end Encoder

/-! ### The two commands -/

/-- A serialize command starts its encoder at `s0`: the vector and the set-up are those of `s`. -/
structure Begins (s s0 : State) : Prop where
  params : s0.params = s.params
  bsSize : s0.bsSize = s.bsSize
  cfg : s0.cfg = s.cfg
  stream : s0.stream = { s.stream with pos := 0, sbo := true, wacc := 0, wused := 0, racc := 0, ravail := 0 }
  content : ∀ j, s0.bs.content j = s.bs.content j
  wf : s.bs.wf s.params = true → s0.bs.wf s.params = true
  ok : s0.err = .none ∧ s0.cause = 0

/-- A serialize command runs the encoder, and ends as it does. -/
structure RunsEncoder (i : Instr) (s : State) (destroy : Bool) (s0 : State) : Prop where
  begins : Begins s s0
  fails : ∀ e t, encoder destroy s0 = .error e t → exec i s = .next (takeError e t)
  ends : ∀ t, encoder destroy s0 = .ok () t →
    ∃ bs, exec i s = .next (finished (BitVec.ofNat 64 t.stream.pos) (Config.freeResult t.draws) { t with bs := bs })

section Commands

variable {s : State} {i : Instr}

theorem serialize_runs (hl : cfgLevel s.cfg ≤ 5) :
    RunsEncoder .serialize s false { startCommand 1 s with phase := .encode } := by
  have hexec : exec .serialize s = .next (settle (do encoder false; finishBytes : M Unit)
      { startCommand 1 s with phase := .encode }) := by
    refine congrArg Host.Outcome.next (settle_congr ?_)
    rw [runSerialize, run_bind_ok (requireLevel_legal (s := startCommand 1 s) hl), encoder]
    simp only [bind_assoc]
    rfl
  refine ⟨⟨rfl, rfl, rfl, rfl, fun _ => rfl, id, rfl, rfl⟩, fun e t h => ?_, fun t h => ⟨t.bs, ?_⟩⟩
  · rw [hexec, settle_error (run_bind_error h)]
  · rw [hexec, settle_ok ((run_bind_ok h).trans (finishBytes_run t))]

theorem serializeDestroy_runs (hl : cfgLevel s.cfg ≤ 5) (hw : s.bs.wf s.params = true) :
    RunsEncoder .serializeDestroy s true (destroyBegun (startCommand 2 s)) := by
  have hexec : exec .serializeDestroy s = .next (settle
      (do encoder true; onStore fun p bs => bs.clear p; finishBytes : M Unit) (destroyBegun (startCommand 2 s))) := by
    refine congrArg Host.Outcome.next (settle_congr ?_)
    rw [runSerializeDestroy, run_bind_ok (requireLevel_legal (s := startCommand 2 s) hl), encoder]
    simp only [bind_assoc]
    rfl
  refine ⟨⟨rfl, rfl, rfl, rfl, fun j => ?_, fun h => BlockStore.wf_optimize h _, rfl, rfl⟩, fun e t h => ?_,
    fun t h => ⟨t.bs.clear t.params, ?_⟩⟩
  · exact BlockStore.content_optimize (BlockStore.wf_rising hw) _ _ j
  · rw [hexec, settle_error (run_bind_error h)]
  · rw [hexec, settle_ok ((run_bind_ok h).trans (finishBytes_run _))]

theorem exec_runsEncoder (hi : i = .serialize ∨ i = .serializeDestroy) (hw : s.bs.wf s.params = true)
    (hl : cfgLevel s.cfg ≤ 5) : ∃ destroy s0, RunsEncoder i s destroy s0 := by
  rcases hi with rfl | rfl
  · exact ⟨_, _, serialize_runs hl⟩
  · exact ⟨_, _, serializeDestroy_runs hl hw⟩

theorem Begins.encodable {s0 : State} (h : Begins s s0) (hp : s.params.Valid) (hw : s.bs.wf s.params = true)
    (hsize : s.bsSize < 2 ^ s.params.aw.bits) : Encodable s0 := by
  refine ⟨?_, ?_, ?_, ?_, ?_⟩
  · rw [h.params]
    exact hp
  · rw [h.params, h.bsSize]
    exact hsize
  · rw [h.params]
    exact h.wf hw
  · rw [h.stream]
  · rw [h.stream]

/-- An encoder that ends normally has not gone past the buffer. -/
theorem encoder_fits {destroy : Bool} {t : State} (h : encoder destroy s = .ok () t)
    (hs : s.stream.pos ≤ s.stream.bufSize.toNat) : t.stream.pos ≤ s.stream.bufSize.toNat := by
  obtain ⟨⟨⟩, u, hhead, hbody⟩ := of_run_bind h
  have happ : Appends s.stream u.stream := by
    rw [show emitHeader s = onStream (writeHeader s.params s.bsSize s.cfg)
      { s with hdrFlags := headerFlags s.params s.bsSize s.cfg } from rfl] at hhead
    exact ((extends_onStream (closed_writeHeader writerLaw_appends _ _ _)).ok hhead).appends
  obtain ⟨hext, -⟩ := serializeBody_ok hbody
  have hall := path_appends.trans happ hext.appends
  have := hall.fits hs
  rwa [hall.bufSize_eq] at this

/-- A serialize command has ended: DONE with the vector's stream written at offset 0. -/
structure Serialized (s t : State) (toks : List Instr) : Prop where
  done : t.runState = .done
  ok : t.err = .none ∧ t.cause = 0
  pos : t.stream.pos = (headerBytes s ++ toks.flatMap encode).length
  result : t.resultBytes.toNat = t.stream.pos
  fits : t.stream.pos ≤ s.stream.bufSize.toNat
  carries : Carries s.bs.content s.params.totalBlocks 0 toks
  bytes : s.stream.buf.wf = true →
    t.stream.buf.readList 0 t.stream.pos = headerBytes s ++ toks.flatMap encode ∧ t.stream.buf.wf = true

/-- A serialize command with a legal level ends DONE with the vector's stream, unless the buffer is scant. -/
theorem serializer_cases (hi : i = .serialize ∨ i = .serializeDestroy) (hp : s.params.Valid)
    (hw : s.bs.wf s.params = true) (hsize : s.bsSize < 2 ^ s.params.aw.bits) (hl : cfgLevel s.cfg ≤ 5) :
    (∃ t toks, exec i s = .next t ∧ Serialized s t toks) ∨
      (s.stream.bufSize.toNat < 2 ^ 20 * s.params.totalBlocks + 20 ∧
        ∃ e t, exec i s = .next (takeError e t)) := by
  obtain ⟨destroy, s0, hrun⟩ := exec_runsEncoder hi hw hl
  have hbeg := hrun.begins
  have hstream := hbeg.stream
  have hpos : s0.stream.pos = 0 := by rw [hstream]
  have hbuf : s0.stream.bufSize = s.stream.bufSize := by rw [hstream]
  have hhead : headerBytes s0 = headerBytes s := by rw [headerBytes, headerBytes, hbeg.params, hbeg.bsSize, hbeg.cfg]
  rcases encoder_run (destroy := destroy) (hbeg.encodable hp hw hsize) with
    ⟨u, toks, hu, hcarries, hout⟩ | ⟨hfull, e, u, herr⟩
  · obtain ⟨bs, hexec⟩ := hrun.ends u hu
    rw [hhead] at hout
    have hupos : u.stream.pos = (headerBytes s ++ toks.flatMap encode).length := by
      rw [hout.stream, hpos, Nat.zero_add]
    have hfits : u.stream.pos ≤ s.stream.bufSize.toNat := hbuf ▸ encoder_fits hu (by omega)
    have hser := (serial_encode (destroy := destroy)).ok hu
    refine .inl ⟨_, toks, hexec, rfl, ?_, hupos, ?_, hfits, ?_, fun hwf => ?_⟩
    · obtain ⟨herr, hcause⟩ := hbeg.ok
      exact ⟨(by rw [hser.frame] : u.err = s0.err).trans herr, (by rw [hser.frame] : u.cause = s0.cause).trans hcause⟩
    · exact Nat.mod_eq_of_lt (Nat.lt_of_le_of_lt hfits s.stream.bufSize.isLt)
    · rwa [hbeg.params, funext hbeg.content] at hcarries
    · obtain ⟨⟨-, hbytes, -⟩, hwf'⟩ := hout.bytes (by rw [hstream]; exact hwf)
      rw [hpos, ← hupos] at hbytes
      exact ⟨hbytes, hwf'⟩
  · rw [hpos, hbuf, hbeg.params, Nat.zero_add] at hfull
    exact .inr ⟨hfull, e, u, hrun.fails e u herr⟩

end Commands

/-- Settles O14: every block takes less than 2^20 bytes, the header and the terminator together less than another
2^20. -/
theorem serializeCompletes : Obligations.SerializeCompletes := by
  intro s i hi hp hw _ hsize hl hroom
  rcases serializer_cases hi hp hw hsize hl with ⟨t, toks, hexec, ht⟩ | ⟨hfull, -⟩
  · obtain ⟨herr, hcause⟩ := ht.ok
    exact ⟨t, hexec, ht.done, herr, hcause, ht.result ▸ ht.fits, ht.result⟩
  · omega

/-- The stream of a vector of zeros, whichever command writes it. -/
theorem serializes_zeros {s : State} {i : Instr} (hi : i = .serialize ∨ i = .serializeDestroy) (hp : s.params.Valid)
    (hw : s.bs.wf s.params = true) (hwf : s.stream.buf.wf = true) (hz : ∀ j, s.bs.content j = Content.zero)
    (hsize : s.bsSize < 2 ^ s.params.aw.bits) (hl : cfgLevel s.cfg ≤ 5) (hroom : 19 ≤ s.stream.bufSize.toNat) :
    ∃ t, exec i s = .next t ∧ t.runState = .done ∧ t.err = .none ∧
      t.resultBytes.toNat = (headerBytes s ++ [9]).length ∧
      t.stream.buf.readList 0 (headerBytes s ++ [9]).length = headerBytes s ++ [9] ∧
      ∀ a, (headerBytes s ++ [9]).length ≤ a → t.stream.buf.read a = s.stream.buf.read a := by
  obtain ⟨destroy, s0, hrun⟩ := exec_runsEncoder hi hw hl
  have hbeg := hrun.begins
  have hstream := hbeg.stream
  have hhead : headerBytes s0 = headerBytes s := by rw [headerBytes, headerBytes, hbeg.params, hbeg.bsSize, hbeg.cfg]
  obtain ⟨u, hu, hput⟩ := encoder_zeros (destroy := destroy) (hbeg.encodable hp hw hsize)
    (fun j => (hbeg.content j).trans (hz j)) (by rw [hstream]; simpa using hroom)
  obtain ⟨bs, hexec⟩ := hrun.ends u hu
  have hser := (serial_encode (destroy := destroy)).ok hu
  rw [hhead, hstream] at hput
  have hlen := length_headerBytes_le s
  refine ⟨_, hexec, rfl, (by rw [hser.frame] : u.err = s0.err).trans hbeg.ok.1, ?_, ?_, fun a ha => ?_⟩
  · show (BitVec.ofNat 64 u.stream.pos).toNat = _
    have hpos : u.stream.pos = (headerBytes s ++ [9]).length := by rw [hput, Stream.put, Nat.zero_add]
    rw [hpos, List.length_append, List.length_singleton]
    exact Nat.mod_eq_of_lt (by omega)
  · show u.stream.buf.readList 0 _ = _
    rw [hput]
    exact Memory.readList_writeList hwf _ _
  · show u.stream.buf.read a = _
    rw [hput]
    exact (Memory.read_writeList hwf _ _ _).trans (if_neg fun h => by rw [Nat.zero_add] at h; omega)

/-- Settles O10: one turn of the loop writes `azero` and leaves; the store's side is rules R500 and R501. -/
theorem serializeZeroVector : Obligations.SerializeZeroVector := by
  intro s hp hw hwf hz _ hsize hl hroom
  dsimp only
  obtain ⟨t, ht, hdone, herr, hres, hbytes, hrest⟩ := serializes_zeros (.inl rfl) hp hw hwf hz hsize hl hroom
  obtain ⟨t', ht', hdone', herr', hres', hbytes', hrest'⟩ := serializes_zeros (.inr rfl) hp hw hwf hz hsize hl hroom
  obtain ⟨k, hk, hbs, hbsSize, -⟩ := serializeKeepsSource s
  obtain ⟨d, hd, hdsize, -, -, hempty⟩ := destroyEmpties s hw
  obtain rfl := Host.Outcome.next.inj (hk.symm.trans ht)
  obtain rfl := Host.Outcome.next.inj (hd.symm.trans ht')
  refine ⟨⟨k, ht, hdone, herr, hres, hbytes, hrest, hbs, hbsSize⟩, d, ht', hdone', herr', hres', hbytes', hrest', ?_,
    hdsize⟩
  rcases hempty with ⟨-, hall⟩ | hbad
  · exact hall
  · rw [hbad] at hdone'
    cases hdone'

end Sys2Proof.Machine

/-! Deserializing what a serialize command has written (43_block_decoder.md rule R352, 42_block_encoder.md rule R270):
the reader stands before the tokens that carry the rest of the vector, every token it executes moves it behind the blocks
the token covers, and it ends at `azero` or at the end of the block space. -/

namespace Sys2Proof.Machine

/-! ### The tokens of runs and of blocks -/

section Tokens

variable {i : Instr} {n : Nat} {one : Bool}

theorem runOf_ite {p : Prop} [Decidable p] {s : State} {j : Instr} {r : Option (Bool × Nat)} (hi : p → runOf s i = r)
    (hj : ¬p → runOf s j = r) : runOf s (if p then i else j) = r := by
  split
  · exact hi ‹_›
  · exact hj ‹_›

/-- A run's length as its token holds it. -/
theorem run_of_length {w : Nat} (h : n < 2 ^ w) : some (one, (BitVec.ofNat w n).toNat) = some (one, n) := by
  rw [BitVec.toNat_ofNat, Nat.mod_eq_of_lt h]

theorem runOf_zeroRunForm (s : State) (hn : n < 2 ^ 64) : runOf s (zeroRunForm n) = some (false, n) :=
  runOf_ite (fun h => congrArg (fun m => some (false, m)) h.symm) fun _ =>
    runOf_ite (fun _ => run_of_length (by omega)) fun _ => runOf_ite (fun _ => run_of_length (by omega)) fun _ =>
    runOf_ite (fun _ => run_of_length (by omega)) fun _ => runOf_ite (fun h => run_of_length h) fun _ =>
    run_of_length hn

theorem runOf_oneRunForm (s : State) (hn : n < 2 ^ 64) : runOf s (oneRunForm n) = some (true, n) :=
  runOf_ite (fun h => congrArg (fun m => some (true, m)) h.symm) fun _ =>
    runOf_ite (fun _ => run_of_length (by omega)) fun _ => runOf_ite (fun _ => run_of_length (by omega)) fun _ =>
    runOf_ite (fun h => run_of_length h) fun _ => run_of_length hn

theorem wf_zeroRunForm (n : Nat) : (zeroRunForm n).isToken = true ∧ (zeroRunForm n).wf = true := by
  unfold zeroRunForm
  repeat' split
  all_goals exact ⟨rfl, rfl⟩

theorem wf_oneRunForm (n : Nat) : (oneRunForm n).isToken = true ∧ (oneRunForm n).wf = true := by
  unfold oneRunForm
  repeat' split
  all_goals exact ⟨rfl, rfl⟩

theorem isToken_of_blockForm {st : ItState} (h : blockForm i = some st) : i.isToken = true := by
  cases i
  all_goals first
    | rfl
    | exact absurd h nofun

theorem blockForm_of_operand {b : BlockOperand} (h : tokenOperand i = some b) : ∃ st, blockForm i = some st := by
  cases i
  all_goals first
    | exact ⟨_, rfl⟩
    | exact absurd h nofun

end Tokens

/-! ### The reader between two tokens -/

/-- A DESERIALIZE has read the vector `f` up to block `lo`, and stands before tokens. -/
structure Reading (f : Nat → Content) (total lo : Nat) (toks : List Instr) (s : State) : Prop where
  host : s.host = []
  merging : Merging s
  err : s.err = .none
  sbo : s.stream.sbo = true
  drained : s.stream.racc = 0 ∧ s.stream.ravail = 0
  nb : s.nb = lo
  total_eq : s.params.totalBlocks = total
  wf : s.bs.wf s.params = true
  content : ∀ j, s.bs.content j = if j < lo then f j else Content.zero
  ahead : Ahead (toks.flatMap encode) s.stream
  last : lo = total → f (total - 1) ≠ Content.zero

/-- A token has been read and its blocks passed. -/
structure Passes (i : Instr) (hi : Nat) (s t : State) : Prop where
  stream : t.stream = s.stream.skip (encode i).length
  keeps : t.host = s.host ∧ t.err = s.err ∧ t.params = s.params ∧ t.bsSize = s.bsSize
  merging : Merging t
  nb : t.nb = hi
  wf : t.bs.wf t.params = true

section Reading

variable {f : Nat → Content} {total lo hi n : Nat} {i : Instr} {toks : List Instr} {one : Bool} {s t : State}

theorem Reading.passed (h : Reading f total lo (i :: toks) s) (hp : Passes i hi s t)
    (hc : ∀ j, t.bs.content j = if j < hi then f j else Content.zero)
    (hlast : hi = total → f (total - 1) ≠ Content.zero) : Reading f total hi toks t := by
  obtain ⟨hhost, herr, hparams, -⟩ := hp.keeps
  have hright := h.ahead
  rw [List.flatMap_cons] at hright
  refine ⟨hhost.trans h.host, hp.merging, herr.trans h.err, ?_, ?_, hp.nb, ?_, hp.wf, hc, ?_, hlast⟩
  · rw [hp.stream]
    exact h.sbo
  · rw [hp.stream]
    exact h.drained
  · rw [hparams]
    exact h.total_eq
  · rw [hp.stream]
    exact hright.right

/-- The state in which the next token is executed. -/
def reached (i : Instr) (s : State) : State := fetched (s.stream.skip (encode i).length) s

theorem Reading.step (h : Reading f total lo (i :: toks) s) (hlo : lo < total) (hi : i.isToken = true)
    (hw : i.wf = true) : step s = exec i (reached i s) := by
  have hleft := h.ahead
  rw [List.flatMap_cons] at hleft
  obtain ⟨hracc, hravail⟩ := h.drained
  have hlt : s.nb < s.params.totalBlocks := by rw [h.nb, h.total_eq]; exact hlo
  exact stepRunsDecoded.1 s i _ h.host (.inl h.merging) hlt (takes_token hi hw _ h.sbo hracc hravail hleft.left)

/-- A run token passes its blocks. -/
theorem Reading.run (h : Reading f total lo (i :: toks) s) (hlo : lo < total) (hi : i.isToken = true ∧ i.wf = true)
    (hrun : runOf (reached i s) i = some (one, n)) (hn : lo + n ≤ total)
    (hf : ∀ j, lo ≤ j → j < lo + n → f j = if one then Content.ones else Content.zero)
    (hlast : lo + n = total → f (total - 1) ≠ Content.zero) :
    ∃ t, Machine.step s = .next t ∧ Passes i (lo + n) s t ∧ Reading f total (lo + n) toks t := by
  have hroom : (reached i s).nb + n ≤ (reached i s).params.totalBlocks := by
    show s.nb + n ≤ s.params.totalBlocks
    rw [h.nb, h.total_eq]
    exact hn
  have hstep := (h.step hlo hi.1 hi.2).trans ((exec_run hrun).trans
    (congrArg Host.Outcome.next (settle_ok (runToken_merge (one := one) (s := reached i s) h.merging hroom))))
  have hpass : Passes i (lo + n) s { reached i s with
      bs := if one then (reached i s).bs.setAllSet (reached i s).nb n else (reached i s).bs
      nb := (reached i s).nb + n } := by
    refine ⟨rfl, ⟨rfl, rfl, rfl, rfl⟩, h.merging, congrArg (· + n) h.nb, ?_⟩
    cases one with
    | false => exact h.wf
    | true => exact BlockStore.wf_setAllSet h.wf hroom
  refine ⟨_, hstep, hpass, h.passed hpass (fun j => ?_) hlast⟩
  show (if one then s.bs.setAllSet s.nb n else s.bs).content j = _
  have hj := h.content j
  cases one with
  | false =>
    refine hj.trans ?_
    by_cases h1 : j < lo
    · rw [if_pos h1, if_pos (by omega)]
    · by_cases h2 : j < lo + n
      · rw [if_neg h1, if_pos h2]
        exact (hf j (by omega) h2).symm
      · rw [if_neg h1, if_neg h2]
  | true =>
    rw [if_pos rfl, BlockStore.content_setAllSet (BlockStore.wf_rising h.wf), h.nb]
    by_cases h1 : lo ≤ j ∧ j < lo + n
    · rw [if_pos h1, if_pos h1.2]
      exact (hf j h1.1 h1.2).symm
    · rw [if_neg h1, hj]
      by_cases h2 : j < lo
      · rw [if_pos h2, if_pos (by omega)]
      · rw [if_neg h2, if_neg (by omega)]

/-- The merge of a block token leaves a well-formed store. -/
theorem wf_of_merge {st : ItState} {b : BlockOperand} (hi : blockForm i = some st) (hb : tokenOperand i = some b)
    (hm : Merging s) (hw : s.bs.wf s.params = true) (hn : s.nb < s.params.totalBlocks) (h : exec i s = .next t) :
    t.bs.wf t.params = true := by
  obtain ⟨slot, al, tb, hrun, hslot⟩ := mergeOf_slot (s := withIdx b (preBlock s i)) hb
  have hm' : Merging (preBlock s i) := hm
  rw [exec_block hi, hb, settle_ok ((blockToken_merge hm' hn).trans hrun)] at h
  obtain rfl := Host.Outcome.next.inj h
  exact BlockStore.wf_put hw hn hslot

/-- A block token passes its block. -/
theorem Reading.block (h : Reading f total lo (i :: toks) s) (hlo : lo < total) (hden : Denotes i (f lo))
    (hlast : lo + 1 = total → f (total - 1) ≠ Content.zero) :
    ∃ t, Machine.step s = .next t ∧ Passes i (lo + 1) s t ∧ Reading f total (lo + 1) toks t := by
  obtain ⟨hwf, b, hb, hcontent⟩ := hden
  obtain ⟨st, hst⟩ := blockForm_of_operand hb
  have hlt : (reached i s).nb < (reached i s).params.totalBlocks := by
    show s.nb < s.params.totalBlocks
    rw [h.nb, h.total_eq]
    exact hlo
  have hnb : (reached i s).nb = lo := h.nb
  obtain ⟨bs', idx, tb, al, d, hexec, hat, hrest, -⟩ := blockMerges i st b (reached i s) hst hb h.merging h.wf hlt
  have hstep := (h.step hlo (isToken_of_blockForm hst) hwf).trans hexec
  have hpass : Passes i (lo + 1) s { reached i s with
      bs := bs'
      nb := (reached i s).nb + 1
      idxArr := idx
      allone := al
      gapHead := (headOf i).getD (reached i s).gapHead
      tempBlock := tb
      draws := d } :=
    ⟨rfl, ⟨rfl, rfl, rfl, rfl⟩, h.merging, congrArg (· + 1) h.nb,
      wf_of_merge (s := reached i s) hst hb h.merging h.wf hlt hexec⟩
  refine ⟨_, hstep, hpass, h.passed hpass (fun j => ?_) hlast⟩
  show bs'.content j = _
  rw [hnb] at hat hrest
  by_cases hj : j = lo
  · subst hj
    have hzero : (reached i s).bs.content j = Content.zero := (h.content j).trans (if_neg (Nat.lt_irrefl j))
    rw [hat, hzero, hcontent, if_pos (Nat.lt_succ_self j)]
    exact BitVec.zero_or
  · have hsame : bs'.content j = s.bs.content j := by rw [BlockStore.content, hrest j hj]; rfl
    rw [hsame, h.content j]
    by_cases h2 : j < lo
    · rw [if_pos h2, if_pos (by omega)]
    · rw [if_neg h2, if_neg (by omega)]

end Reading

/-! ### The walk -/

theorem runFor_succ {n : Nat} {s t : State} (h : step s = .next t) : runFor (n + 1) s = runFor n t := by
  rw [runFor, h]

/-- The vector has arrived; the reader has stopped at this offset. -/
structure Arrived (f : Nat → Content) (stop : Nat) (s v : State) : Prop where
  done : v.runState = .done
  err : v.err = .none
  content : ∀ j, v.bs.content j = f j
  bsSize : v.bsSize = s.bsSize
  result : v.resultBytes.toNat = stop

/-- How much of the stream is left unread: the terminator behind a vector that does not end in zeros. -/
def unread (f : Nat → Content) (total : Nat) : Nat := if f (total - 1) = Content.zero then 0 else 1

section Walk

variable {f : Nat → Content} {total lo hi : Nat} {i : Instr} {toks : List Instr} {s t : State}

theorem toNat_ofNat_of_fits {c : Stream} (h : c.pos ≤ c.bufSize.toNat) : (BitVec.ofNat 64 c.pos).toNat = c.pos :=
  Nat.mod_eq_of_lt (Nat.lt_of_le_of_lt h c.bufSize.isLt)

/-- The walk ends: by EOS, or at the end of the block space. -/
theorem arrived_of_end (hh : s.host = []) (hb : s.runState = .busy) (hp : s.phase = .tokens) (hc : s.cmd = 3)
    (herr : s.err = .none) (hend : s.eos = true ∨ s.params.totalBlocks ≤ s.nb) (hf : ∀ j, s.bs.content j = f j)
    (hfits : s.stream.pos ≤ s.stream.bufSize.toNat) :
    ∃ v, runFor 1 s = some v ∧ Arrived f s.stream.pos s v := by
  obtain ⟨rc, tb, ia, d, hstep⟩ := mergeEnds s hh hb hp hc hend
  exact ⟨_, runFor_succ hstep, rfl, herr, hf, rfl, toNat_ofNat_of_fits hfits⟩

/-- All blocks have been read, the terminator has not. -/
theorem Reading.arrived (h : Reading f total total toks s) (hf : ∀ j, total ≤ j → f j = Content.zero) :
    ∃ v, runFor 1 s = some v ∧ Arrived f s.stream.pos s v := by
  obtain ⟨hb, hp, -, hc⟩ := h.merging
  refine arrived_of_end h.host hb hp hc h.err (.inr ?_) (fun j => ?_) (by have := h.ahead.fits; omega)
  · rw [h.total_eq, h.nb]
  · rw [h.content j]
    by_cases hj : j < total
    · rw [if_pos hj]
    · rw [if_neg hj, hf j (by omega)]

/-- `azero` ends the walk. -/
theorem Reading.azero (h : Reading f total lo [.azero] s) (hlo : lo < total) (hf : ∀ j, lo ≤ j → f j = Content.zero) :
    ∃ v, runFor 2 s = some v ∧ Arrived f (s.stream.pos + 1) s v := by
  have hstep := (h.step hlo rfl rfl).trans (endTokens .azero (reached .azero s) (.inr rfl) (.inl h.merging))
  obtain ⟨hb, hp, -, hc⟩ := h.merging
  have hall : ∀ j, s.bs.content j = f j := fun j => by
    rw [h.content j]
    by_cases hj : j < lo
    · rw [if_pos hj]
    · rw [if_neg hj, hf j (by omega)]
  obtain ⟨v, hv, harr⟩ := arrived_of_end (f := f) (s := { reached .azero s with eos := true }) h.host hb hp hc h.err
    (.inl rfl) hall h.ahead.fits
  exact ⟨v, (runFor_succ hstep).trans hv, harr.done, harr.err, harr.content, harr.bsSize, harr.result⟩

/-- A turn of the writer that goes on is one step of the reader. -/
theorem Reading.again (h : Reading f total lo (i :: toks) s) (hlo : lo < total) (htotal : total < 2 ^ 64)
    (hcov : Covers f total lo .again i hi) :
    ∃ t, Machine.step s = .next t ∧ Passes i hi s t ∧ Reading f total hi toks t := by
  cases hcov with
  | zeroRun hi hlt hhi hz =>
    have hsum : lo + (hi - lo) = hi := by omega
    have hrun := h.run (one := false) (n := hi - lo) hlo (wf_zeroRunForm _)
      (runOf_zeroRunForm _ (by omega)) (by omega) (fun j h1 h2 => hz j h1 (by omega)) (by omega)
    rwa [hsum] at hrun
  | oneRun hi hlt hhi ho =>
    have hsum : lo + (hi - lo) = hi := by omega
    have hrun := h.run (one := true) (n := hi - lo) hlo (wf_oneRunForm _)
      (runOf_oneRunForm _ (by omega)) (by omega) (fun j h1 h2 => ho j h1 (by omega)) (by omega)
    rwa [hsum] at hrun
  | block i hne hden =>
    refine h.block hlo hden fun hlast => ?_
    rw [show total - 1 = lo by omega]
    exact hne

theorem ones_ne_zero : Content.ones ≠ Content.zero := fun h => by
  have hbit := congrArg (fun c : Content => c.getLsbD 0) h
  rw [Content.getLsbD_zero] at hbit
  simp [Content.ones] at hbit

/-- The reader walks the tokens that carry the rest of the vector to its end. -/
theorem Reading.walk (hc : Carries f total lo toks) (h : Reading f total lo toks s) (htotal : total < 2 ^ 64)
    (hf : ∀ j, total ≤ j → f j = Content.zero) :
    ∃ n v stop, runFor n s = some v ∧ Arrived f stop s v ∧
      stop + unread f total = s.stream.pos + (toks.flatMap encode).length := by
  induction hc generalizing s with
  | stop =>
    obtain ⟨v, hv, harr⟩ := h.arrived hf
    refine ⟨1, v, _, hv, harr, ?_⟩
    rw [unread, if_neg (h.last rfl)]
    rfl
  | @done lo hi i hlo hcov =>
    cases hcov with
    | zeroTail hz =>
      have hz' : ∀ j, lo ≤ j → f j = Content.zero := fun j hj => by
        by_cases hlt : j < total
        · exact hz j hj hlt
        · exact hf j (by omega)
      obtain ⟨v, hv, harr⟩ := h.azero hlo hz'
      refine ⟨2, v, _, hv, harr, ?_⟩
      rw [unread, if_pos (hz' _ (by omega))]
      rfl
  | @leave lo hi i hlo hcov =>
    cases hcov with
    | oneTail ho =>
      have hlast : f (total - 1) ≠ Content.zero := by
        rw [ho _ (by omega) (by omega)]
        exact ones_ne_zero
      have hsum : lo + (total - lo) = total := by omega
      have hrun : runOf (reached .aone s) .aone = some (true, total - lo) := by
        show some (true, s.params.totalBlocks - s.nb) = _
        rw [h.total_eq, h.nb]
      obtain ⟨t, hstep, hpass, hread⟩ := h.run hlo ⟨rfl, rfl⟩ hrun (by omega)
        (fun j h1 h2 => ho j h1 (by omega)) fun _ => hlast
      rw [hsum] at hread
      obtain ⟨v, hv, harr⟩ := hread.arrived hf
      obtain ⟨-, -, -, hsize⟩ := hpass.keeps
      refine ⟨2, v, _, (runFor_succ hstep).trans hv, ⟨harr.done, harr.err, harr.content, harr.bsSize.trans hsize,
        harr.result⟩, ?_⟩
      rw [unread, if_neg hlast, hpass.stream]
      rfl
  | @again lo hi i toks hlo hcov _ ih =>
    obtain ⟨t, hstep, hpass, hread⟩ := h.again hlo htotal hcov
    obtain ⟨n, v, stop, hv, harr, hstop⟩ := ih hread
    obtain ⟨-, -, -, hsize⟩ := hpass.keeps
    refine ⟨n + 1, v, stop, (runFor_succ hstep).trans hv, ⟨harr.done, harr.err, harr.content, harr.bsSize.trans hsize,
      harr.result⟩, ?_⟩
    have hpos : t.stream.pos = s.stream.pos + (encode i).length := by rw [hpass.stream]; rfl
    rw [hstop, hpos, List.flatMap_cons, List.length_append, Nat.add_assoc]

end Walk

end Sys2Proof.Machine

/-! The round trip (43_block_decoder.md section 6, rules R352, R353): the header a serialize command has written opens
the walk of a DESERIALIZE, whose tokens carry the vector. -/

namespace Sys2Proof.Machine

/-! ### The written header is legal -/

/-- The flags of a written header, from what they say: a default size, the byte-order field, the GAP levels, 48 bits. -/
def writtenFlags (dflt bo gapl wide : Bool) : Byte :=
  (if dflt then 0x01#8 else 0x02#8) ||| (if bo then 0x00#8 else 0x08#8) ||| (if gapl then 0x00#8 else 0x10#8) |||
    (if wide then 0x20#8 else 0x00#8)

theorem writtenFlags_bits : ∀ dflt bo gapl wide : Bool,
    (writtenFlags dflt bo gapl wide).getLsbD 1 = !dflt ∧ (writtenFlags dflt bo gapl wide).getLsbD 2 = false ∧
      (writtenFlags dflt bo gapl wide).getLsbD 3 = !bo ∧ (writtenFlags dflt bo gapl wide).getLsbD 4 = !gapl := by
  decide

section WrittenHeader

variable (p : Params) (size : Nat) (cfg : U64)

theorem flags_writtenHeader : (writtenHeader p size cfg).flags =
    writtenFlags (decide (size = p.sizeDefault)) (cfgBo cfg) (cfgGapl cfg) (decide (p.aw = .w48)) := by
  simp only [writtenHeader, writtenFlags, decide_eq_true_eq]

theorem fields_writtenHeader :
    (writtenHeader p size cfg).hasSize = !decide (size = p.sizeDefault) ∧
      (writtenHeader p size cfg).isIdList = false ∧ (writtenHeader p size cfg).noByteOrder = !cfgBo cfg ∧
      (writtenHeader p size cfg).hasGapLevels = cfgGapl cfg := by
  obtain ⟨hsize, hid, hbo, hgapl⟩ :=
    writtenFlags_bits (decide (size = p.sizeDefault)) (cfgBo cfg) (cfgGapl cfg) (decide (p.aw = .w48))
  rw [← flags_writtenHeader] at hsize hid hbo hgapl
  refine ⟨hsize, hid, hbo, ?_⟩
  rw [Header.hasGapLevels, Header.noGapLevels, Header.isIdList, hgapl, hid]
  cases cfgGapl cfg <;> rfl

theorem byteOrder_writtenHeader : (writtenHeader p size cfg).byteOrder = if cfgBo cfg then some 1#8 else none := rfl

theorem size_writtenHeader :
    (writtenHeader p size cfg).size = if size = p.sizeDefault then none else some (BitVec.ofNat 64 size) := rfl

theorem gapLevels_writtenHeader : (writtenHeader p size cfg).gapLevels.isSome = cfgGapl cfg := by
  rw [writtenHeader]
  cases cfgGapl cfg <;> rfl

variable {p size cfg}

theorem wf_writtenHeader (hs : size < 2 ^ p.aw.bits) : (writtenHeader p size cfg).wf = true := by
  obtain ⟨hsize, -, hbo, hgapl⟩ := fields_writtenHeader p size cfg
  have hfits : (decide (p.aw = .w48) || decide (size < 2 ^ 32)) = true := by
    cases haw : p.aw with
    | w48 => rfl
    | w32 =>
      rw [haw] at hs
      exact decide_eq_true hs
  rw [Header.wf, hsize, hbo, hgapl, is64_writtenHeader, byteOrder_writtenHeader, size_writtenHeader,
    gapLevels_writtenHeader, decide_eq_true rfl, Bool.and_true, Bool.and_eq_true]
  refine ⟨?_, ?_⟩
  · cases cfgBo cfg <;> rfl
  · by_cases hdef : size = p.sizeDefault
    · simp [hdef]
    · simp only [hdef, if_false, decide_false, Bool.not_false, Bool.true_and, toNat_size hs]
      exact hfits

/-- The header's fields, and the tokens behind it, are little-endian. -/
theorem sbo_writtenHeader : headerSbo (writtenHeader p size cfg) = true ∧
    ((writtenHeader p size cfg).noByteOrder || decide ((writtenHeader p size cfg).byteOrder = some 1#8)) = true := by
  obtain ⟨-, -, hbo, -⟩ := fields_writtenHeader p size cfg
  rw [headerSbo, hbo, byteOrder_writtenHeader]
  cases cfgBo cfg <;> decide

theorem legalSize_writtenHeader {u : State} (h1 : 1 ≤ size) (hs : size < 2 ^ p.aw.bits) (haw : u.params.aw = p.aw) :
    legalSize (writtenHeader p size cfg) u := by
  intro v hv
  rw [size_writtenHeader] at hv
  split at hv
  · cases hv
  · obtain rfl := Option.some.inj hv
    rw [toNat_size hs, haw]
    exact ⟨h1, hs⟩

theorem grownSize_writtenHeader {u : State} (hs : size < 2 ^ p.aw.bits) :
    grownSize (writtenHeader p size cfg) u = if size = p.sizeDefault then u.bsSize else max u.bsSize size := by
  rw [grownSize, size_writtenHeader]
  by_cases hdef : size = p.sizeDefault
  · rw [if_pos hdef, if_pos hdef]
  · rw [if_neg hdef, if_neg hdef]
    exact congrArg (max u.bsSize) (toNat_size hs)

end WrittenHeader

/-! ### The start of the walk -/

section Start

variable {s u : State} {toks : List Instr}

/-- CMD takes DESERIALIZE. -/
def started (u : State) : State := atHeader 3 false { u with host := [] }

theorem step_start (hh : u.host = [.writeReg 1 3]) (hr : u.runState ≠ .busy) : step u = .next (started u) :=
  (stepRunsDecoded.2.2 u 3 [] .deserialize hh hr rfl).trans (decodeCommandsStart { u with host := [] }).1

/-- The walk behind the header. -/
def opened (s u : State) : State :=
  { withHeader (writtenHeader s.params s.bsSize s.cfg)
      { started u with stream := (started u).stream.skip (headerBytes s).length } with
    nb := 0
    eos := false
    phase := .tokens
    bsSize := grownSize (writtenHeader s.params s.bsSize s.cfg) u }

theorem step_opened (h1 : 1 ≤ s.bsSize) (hs : s.bsSize < 2 ^ s.params.aw.bits) (haw : u.params.aw = s.params.aw)
    (ha : Ahead (headerBytes s) (started u).stream) : step (started u) = .next (opened s u) := by
  obtain ⟨-, hsbo⟩ := sbo_writtenHeader (p := s.params) (size := s.bsSize) (cfg := s.cfg)
  obtain ⟨-, hid, -, -⟩ := fields_writtenHeader s.params s.bsSize s.cfg
  have hw := wf_writtenHeader (cfg := s.cfg) hs
  have h64 : (writtenHeader s.params s.bsSize s.cfg).is64 = decide ((started u).params.aw = .w48) := by
    rw [is64_writtenHeader, ← haw]
    rfl
  have hread := takesTo_readHeader (s0 := true) hw h64
  rw [hsbo] at hread
  have hdec := decodeHeader_of_readHeader (hread (started u).stream rfl rfl rfl ha)
  have hexec := (headerMerges _ { started u with stream := (started u).stream.skip (headerBytes s).length } hw h64 hid
    rfl rfl rfl).1 (legalSize_writtenHeader h1 hs haw)
  exact (stepRunsDecoded.2.1 (started u) _ _ rfl rfl rfl hdec).trans hexec

theorem reading_opened (haw : u.params.aw = s.params.aw) (hempty : ∀ j, u.bs.at' j = .empty)
    (hw : u.bs.wf u.params = true) (ha : Ahead (headerBytes s ++ toks.flatMap encode) (started u).stream) :
    Reading s.bs.content s.params.totalBlocks 0 toks (opened s u) := by
  obtain ⟨hsbo, -⟩ := sbo_writtenHeader (p := s.params) (size := s.bsSize) (cfg := s.cfg)
  refine ⟨rfl, ⟨rfl, rfl, rfl, rfl⟩, rfl, hsbo, ⟨rfl, rfl⟩, rfl, ?_, hw, fun j => ?_, ⟨ha.right.fits, ha.right.bytes⟩,
    fun h0 => ?_⟩
  · show u.params.totalBlocks = _
    rw [Params.totalBlocks, Params.totalBlocks, haw]
  · show u.bs.content j = _
    rw [if_neg (Nat.not_lt_zero j), BlockStore.content, hempty j]
    rfl
  · have := totalBlocks_pos s.params
    omega

end Start

/-- A serialize command that is DONE has written the vector. -/
theorem serialized_of_done {i : Instr} {s t : State} (hi : i = .serialize ∨ i = .serializeDestroy)
    (hp : s.params.Valid) (hw : s.bs.wf s.params = true) (hsize : s.bsSize < 2 ^ s.params.aw.bits)
    (hl : cfgLevel s.cfg ≤ 5) (hexec : exec i s = .next t) (hdone : t.runState = .done) :
    ∃ toks, Serialized s t toks := by
  rcases serializer_cases hi hp hw hsize hl with ⟨t', toks, hexec', hser⟩ | ⟨-, e, t', hexec'⟩
  · obtain rfl := Host.Outcome.next.inj (hexec.symm.trans hexec')
    exact ⟨toks, hser⟩
  · obtain rfl := Host.Outcome.next.inj (hexec.symm.trans hexec')
    obtain ⟨herror, -⟩ := reports_takeError e t'
    rw [herror] at hdone
    cases hdone

/-- Settles O58: the header opens the walk, and the reader follows the writer token by token. -/
theorem roundTrip : Obligations.RoundTrip := by
  intro i s t u hi hp hw hwf h1 hsize hl hexec hdone _ haw hr hempty huw hbuf hfits hhost
  obtain ⟨toks, hser⟩ := serialized_of_done hi hp hw hsize hl hexec hdone
  obtain ⟨hbytes, -⟩ := hser.bytes hwf
  rw [hser.pos] at hbytes
  have hahead : Ahead (headerBytes s ++ toks.flatMap encode) (started u).stream := by
    refine ⟨?_, ?_⟩
    · rw [hser.result, hser.pos] at hfits
      show 0 + _ ≤ u.stream.bufSize.toNat
      rwa [Nat.zero_add]
    · show u.stream.buf.readList 0 _ = _
      rw [hbuf]
      exact hbytes
  have htail : ∀ j, s.params.totalBlocks ≤ j → s.bs.content j = Content.zero := fun j hj => by
    rw [BlockStore.content, BlockStore.at_top hw hj]
    rfl
  have htotal : s.params.totalBlocks < 2 ^ 64 := Nat.lt_of_le_of_lt (totalBlocks_le s.params) (by decide)
  obtain ⟨n, v, stop, hrun, harr, hstop⟩ := (reading_opened haw hempty huw hahead).walk hser.carries htotal htail
  have hlen : stop + unread s.bs.content s.params.totalBlocks = t.resultBytes.toNat := by
    rw [hser.result, hser.pos, List.length_append, hstop]
    show 0 + (headerBytes s).length + _ = _
    rw [Nat.zero_add]
  refine ⟨n + 2, v, ?_, harr.done, harr.err, harr.content, harr.bsSize.trans (grownSize_writtenHeader hsize),
    fun hlast => BitVec.eq_of_toNat_eq ?_, fun hlast => ?_⟩
  · rw [runFor_succ (step_start hhost hr), runFor_succ (step_opened h1 hsize haw hahead.left)]
    exact hrun
  · rw [unread, if_pos hlast] at hlen
    rw [harr.result]
    exact hlen
  · rw [unread, if_neg hlast] at hlen
    rw [harr.result]
    exact hlen

end Sys2Proof.Machine
